-- ==== Sys2Proof/Word.lean ====
section
/-! DEFINITION. The word types of the Message framing serializer (00_scope R9): bytes, byte
sequences and command words. -/

namespace Sys2Proof

/-- A byte, 8 bits, bit 7 the most significant (00_scope R9). -/
abbrev Byte := BitVec 8

/-- A byte sequence, lowest offset first (00_scope section 5, "Byte sequences"). -/
abbrev Bytes := List Byte

/-- A command word, the 16-bit value the host writes to CMD (30_encoding R75). -/
abbrev CommandWord := BitVec 16

end Sys2Proof
end

