-- ==== Sys2Proof/Config.lean ====
section
/-! DEFINITION. What an implementation fixes (00_scope R6) and the free values the spec leaves open
(93_implementation_defined V1, V3). No constant here has a value a proof could use. -/

namespace Sys2Proof.Config

/-- How far CAP lies above its least value 64: any number up to 65535 - 64.
Mark: DESIGN CHOICE (log entry 1), safe: a claim holds for every capacity the spec allows. -/
opaque spareCapacity : Fin 65472

/-- `CAP`, the capacity in bytes of each of the six buffers: 64 <= CAP <= 65535 (00_scope R6). -/
def cap : Nat := spareCapacity.val + 64

/-- How far CTX_BITS lies above its least value 1.
Mark: DESIGN CHOICE (log entry 2), safe: a claim holds for every positive width. -/
opaque spareCtxBits : Nat

/-- `CTX_BITS`, the width of the session-context handle: any positive width (00_scope R6). -/
abbrev ctxBits : Nat := spareCtxBits + 1

/-- The byte that offset `offset` of the buffer with number `buffer` holds before anything writes it,
after reset number `epoch`: unspecified (70_reset R231, 93_implementation_defined V1).
Mark: DESIGN CHOICE (log entry 3), safe. -/
opaque initialByte (epoch buffer offset : Nat) : Byte

/-- The collaborator's answer to crypto-port call number `call` when it is
`encrypt(pt, ctx)` and the run fixes no answer (44_message_assembly R176, R177): any byte sequence.
Mark: DESIGN CHOICE (log entry 4), safe. -/
opaque encryptAnswer (call : Nat) (pt : Bytes) (ctx : BitVec ctxBits) : Bytes

/-- The same for `verify(hdr, ct, mic, ctx)` (44_message_assembly R178): any verdict.
Mark: DESIGN CHOICE (log entry 4), safe. -/
opaque verifyAnswer (call : Nat) (hdr ct mic : Bytes) (ctx : BitVec ctxBits) : Bool

/-- The same for `decrypt(ct, ctx)` (44_message_assembly R177): any byte sequence, or `none` for fail.
Mark: DESIGN CHOICE (log entry 4), safe. -/
opaque decryptAnswer (call : Nat) (ct : Bytes) (ctx : BitVec ctxBits) : Option Bytes

end Sys2Proof.Config
end

