-- ==== Sys2Proof/Syntax.lean ====
section
/-! DEFINITION. The syntax of the machine: the 41 commands of MFS-1 (30_encoding R77), the buffers
(20_memory R40), the host-port registers (10_state R10), the host events a run consists of
(70_reset R236), and the enumerations of the wire format (30_encoding R64, R66). -/

namespace Sys2Proof

/-- DSIZ, the destination-size enumeration (30_encoding R64). -/
inductive Dsiz where
  | notPresent
  | nodeID
  | groupID
  | reserved
  deriving DecidableEq, Repr

/-- SessionType: three values over four wire patterns (30_encoding R66). -/
inductive SessionType where
  | unicast
  | group
  | reserved
  deriving DecidableEq, Repr

/-- The commands of MFS-1, one constructor per row of the opcode map (30_encoding R77). An operand is
`IMM[k-1:0]`, an unsigned k-bit value (30_encoding R76); its type holds exactly the values the
encoding admits, so every term is an instruction the hardware has. -/
inductive Instr where
  /-- NOP (45_system R195). -/
  | nop
  /-- LDMF byte (40_flag_ops R91). -/
  | ldmf (imm : BitVec 8)
  /-- RDMF (R92). -/
  | rdmf
  /-- GET_VER (R93). -/
  | getVer
  /-- SET_VER version (R94). -/
  | setVer (imm : BitVec 4)
  /-- GET_S (R95). -/
  | getS
  /-- SET_S bit (R96). -/
  | setS (imm : BitVec 1)
  /-- GET_DSIZ (R97). -/
  | getDsiz
  /-- SET_DSIZ code (R98). -/
  | setDsiz (imm : BitVec 2)
  /-- LDSF byte (R99). -/
  | ldsf (imm : BitVec 8)
  /-- RDSF (R100). -/
  | rdsf
  /-- GET_P (R101). -/
  | getP
  /-- SET_P bit (R102). -/
  | setP (imm : BitVec 1)
  /-- GET_C (R103). -/
  | getC
  /-- SET_C bit (R104). -/
  | setC (imm : BitVec 1)
  /-- GET_MX (R105). -/
  | getMx
  /-- SET_MX bit (R106). -/
  | setMx (imm : BitVec 1)
  /-- GET_ST (R107). -/
  | getSt
  /-- SET_ST code or the pattern 2 (R108). -/
  | setSt (imm : BitVec 2)
  /-- LDXF byte (R109). -/
  | ldxf (imm : BitVec 8)
  /-- RDXF (R110). -/
  | rdxf
  /-- GET_I (R111). -/
  | getI
  /-- SET_I bit (R112). -/
  | setI (imm : BitVec 1)
  /-- GET_A (R113). -/
  | getA
  /-- SET_A bit (R114). -/
  | setA (imm : BitVec 1)
  /-- GET_R (R115). -/
  | getR
  /-- SET_R bit (R116). -/
  | setR (imm : BitVec 1)
  /-- GET_SX (R117). -/
  | getSx
  /-- SET_SX bit (R118). -/
  | setSx (imm : BitVec 1)
  /-- GET_V (R119). -/
  | getV
  /-- SET_V bit (R120). -/
  | setV (imm : BitVec 1)
  /-- DSIZ_DEC byte (41_enum_ops R131). -/
  | dsizDec (imm : BitVec 8)
  /-- DSIZ_ENC code (R132). -/
  | dsizEnc (imm : BitVec 2)
  /-- ST_DEC byte (R133). -/
  | stDec (imm : BitVec 8)
  /-- ST_ENC code or the pattern 2 (R134). -/
  | stEnc (imm : BitVec 2)
  /-- ENC_HDR (42_header_codec R142). -/
  | encHdr
  /-- DEC_HDR (R144). -/
  | decHdr
  /-- ENC_PM (43_protocol_message_codec R161). -/
  | encPm
  /-- DEC_PM (R163). -/
  | decPm
  /-- ENC_MSG (44_message_assembly R180). -/
  | encMsg
  /-- DEC_MSG (R181). -/
  | decMsg
  deriving DecidableEq, Repr

/-- The six byte buffers (20_memory R40). -/
inductive BufId where
  | ibuf
  | obuf
  | mxb
  | sxb
  | pay
  | mic
  deriving DecidableEq, Repr

/-- A buffer's host-port id (20_memory R40, column "Id"). -/
def BufId.id : BufId → Nat
  | .ibuf => 0
  | .obuf => 1
  | .mxb => 2
  | .sxb => 3
  | .pay => 4
  | .mic => 5

/-- The host-port registers (10_state R10). -/
inductive Reg where
  | cmd
  | status
  | res
  | pos
  | ctrl
  | vermask
  | micsz
  | ctx
  | tag
  | len
  | mf
  | sid
  | sf
  | ctr
  | src
  | dst
  | mxlen
  | xf
  | opc
  | xid
  | pid
  | vid
  | ack
  | sxlen
  | paylen
  | miclen
  | ilen
  | olen
  deriving DecidableEq, Repr

/-- A register's width in bits (10_state R10, column "Width"). -/
def Reg.width : Reg → Nat
  | .cmd => 16
  | .status => 8
  | .res => 8
  | .pos => 16
  | .ctrl => 8
  | .vermask => 16
  | .micsz => 8
  | .ctx => Config.ctxBits
  | .tag => 8
  | .len => 16
  | .mf => 8
  | .sid => 16
  | .sf => 8
  | .ctr => 32
  | .src => 64
  | .dst => 64
  | .mxlen => 16
  | .xf => 8
  | .opc => 8
  | .xid => 16
  | .pid => 16
  | .vid => 16
  | .ack => 32
  | .sxlen => 16
  | .paylen => 16
  | .miclen => 16
  | .ilen => 16
  | .olen => 16

/-- A register's host-port number (10_state R10, column "No."). -/
def Reg.number : Reg → Nat
  | .cmd => 0x00
  | .status => 0x01
  | .res => 0x02
  | .pos => 0x03
  | .ctrl => 0x04
  | .vermask => 0x05
  | .micsz => 0x06
  | .ctx => 0x07
  | .tag => 0x10
  | .len => 0x11
  | .mf => 0x12
  | .sid => 0x13
  | .sf => 0x14
  | .ctr => 0x15
  | .src => 0x16
  | .dst => 0x17
  | .mxlen => 0x18
  | .xf => 0x20
  | .opc => 0x21
  | .xid => 0x22
  | .pid => 0x23
  | .vid => 0x24
  | .ack => 0x25
  | .sxlen => 0x26
  | .paylen => 0x27
  | .miclen => 0x30
  | .ilen => 0x31
  | .olen => 0x32

/-- One host event of a run (70_reset R236; 20_memory R50 to R54), or a reset (70_reset R230).
A register value is written as a number; the port carries its low bits, as many as the register has
(20_memory R51; log entry 7). -/
inductive HostEvent where
  /-- `HostRead(n)`. -/
  | regRead (n : Nat)
  /-- `HostWrite(n, v)`; with n the number of CMD it issues the command that v spells. -/
  | regWrite (n v : Nat)
  /-- `HostBufRead(id, a)`. -/
  | bufRead (id a : Nat)
  /-- `HostBufWrite(id, a, b)`. -/
  | bufWrite (id a : Nat) (b : Byte)
  /-- The reset input is applied and released between two host events (70_reset R230). -/
  | reset
  /-- The reset input is applied while the command that w spells is in progress, after the command has made
  at most the given number of crypto-port calls (70_reset R230; log entry 10). -/
  | resetDuring (w calls : Nat)
  deriving DecidableEq, Repr

end Sys2Proof
end

