-- ==== Sys2Proof/WellFormed.lean ====
section
/-! DEFINITION. Which host events are well formed, and that every instruction is: the operand types
of `Instr` hold exactly the k-bit values of 30_encoding R76. A register write needs a check: "A write of a
wider value than the register is not expressible" (20_memory R51). -/

namespace Sys2Proof

/-- All host-port registers, in the order of 10_state R10. -/
def Reg.all : List Reg :=
  [.cmd, .status, .res, .pos, .ctrl, .vermask, .micsz, .ctx,
   .tag, .len, .mf, .sid, .sf, .ctr, .src, .dst, .mxlen,
   .xf, .opc, .xid, .pid, .vid, .ack, .sxlen, .paylen,
   .miclen, .ilen, .olen]

/-- The value fits every register that answers to the number (there is at most one). -/
def Reg.valueFits (n v : Nat) : Bool :=
  Reg.all.all fun r => r.number != n || decide (v < 2 ^ r.width)

/-- An instruction's operand width k (30_encoding R77, column "k") and the value of its operand. -/
def Instr.operand : Instr → Nat × Nat
  | .nop => (0, 0)
  | .ldmf imm => (8, imm.toNat)
  | .rdmf => (0, 0)
  | .getVer => (0, 0)
  | .setVer imm => (4, imm.toNat)
  | .getS => (0, 0)
  | .setS imm => (1, imm.toNat)
  | .getDsiz => (0, 0)
  | .setDsiz imm => (2, imm.toNat)
  | .ldsf imm => (8, imm.toNat)
  | .rdsf => (0, 0)
  | .getP => (0, 0)
  | .setP imm => (1, imm.toNat)
  | .getC => (0, 0)
  | .setC imm => (1, imm.toNat)
  | .getMx => (0, 0)
  | .setMx imm => (1, imm.toNat)
  | .getSt => (0, 0)
  | .setSt imm => (2, imm.toNat)
  | .ldxf imm => (8, imm.toNat)
  | .rdxf => (0, 0)
  | .getI => (0, 0)
  | .setI imm => (1, imm.toNat)
  | .getA => (0, 0)
  | .setA imm => (1, imm.toNat)
  | .getR => (0, 0)
  | .setR imm => (1, imm.toNat)
  | .getSx => (0, 0)
  | .setSx imm => (1, imm.toNat)
  | .getV => (0, 0)
  | .setV imm => (1, imm.toNat)
  | .dsizDec imm => (8, imm.toNat)
  | .dsizEnc imm => (2, imm.toNat)
  | .stDec imm => (8, imm.toNat)
  | .stEnc imm => (2, imm.toNat)
  | .encHdr => (0, 0)
  | .decHdr => (0, 0)
  | .encPm => (0, 0)
  | .decPm => (0, 0)
  | .encMsg => (0, 0)
  | .decMsg => (0, 0)

/-- The operand is a k-bit value (30_encoding R76). The operand types make this hold of every term. -/
def Instr.wf (i : Instr) : Bool := decide (i.operand.2 < 2 ^ i.operand.1)

/-- A host event the port can carry: a register write carries exactly the register's width
(20_memory R51), and a command word is 16 bits. Every other event is expressible with any values
(70_reset R236). -/
def HostEvent.wf : HostEvent → Bool
  | .regRead _ => true
  | .regWrite n v => Reg.valueFits n v
  | .bufRead _ _ => true
  | .bufWrite _ _ _ => true
  | .reset => true
  | .resetDuring w _ => decide (w < 2 ^ Reg.width .cmd)

end Sys2Proof
end

