-- ==== Sys2Proof/Decode.lean ====
section
/-! DEFINITION. Decoding a command word (30_encoding R75 to R78) and, after it, encoding a command
(R79). The table of match and mask at the end is the spec's own list of legal words (R77). -/

namespace Sys2Proof

/-- Why a word spells no command (30_encoding R78). -/
inductive DecodeError where
  /-- The OP field is not in the opcode map. -/
  | unassignedOp (op : Byte)
  /-- The OP field is in the map and a bit of IMM[7:k] is 1. -/
  | immediateNotZero (op imm : Byte)
  deriving DecidableEq, Repr

/-- The OP field, bits 15:8 (30_encoding R75). -/
def opField (w : CommandWord) : Byte := w.extractLsb' 8 8

/-- The IMM field, bits 7:0 (30_encoding R75). -/
def immField (w : CommandWord) : Byte := w.extractLsb' 0 8

/-- A command with no operand: IMM must be 0 (30_encoding R76, R78). -/
def plain (w : CommandWord) (i : Instr) : Except DecodeError Instr :=
  if immField w = 0#8 then .ok i else .error (.immediateNotZero (opField w) (immField w))

/-- A command with a k-bit operand: the operand is IMM[k-1:0] and IMM[7:k] must be 0
(30_encoding R76, R78). -/
def operand (w : CommandWord) (k : Nat) (mk : BitVec k → Instr) : Except DecodeError Instr :=
  if (immField w).toNat < 2 ^ k then .ok (mk ((immField w).setWidth k))
  else .error (.immediateNotZero (opField w) (immField w))

/-- The command a word spells, or why it spells none: total over all 65536 words
(30_encoding R77, R78). -/
def decode (w : CommandWord) : Except DecodeError Instr :=
  match (opField w).toNat with
  | 0x00 => plain w .nop
  | 0x10 => operand w 8 .ldmf
  | 0x11 => plain w .rdmf
  | 0x12 => plain w .getVer
  | 0x13 => operand w 4 .setVer
  | 0x14 => plain w .getS
  | 0x15 => operand w 1 .setS
  | 0x16 => plain w .getDsiz
  | 0x17 => operand w 2 .setDsiz
  | 0x20 => operand w 8 .ldsf
  | 0x21 => plain w .rdsf
  | 0x22 => plain w .getP
  | 0x23 => operand w 1 .setP
  | 0x24 => plain w .getC
  | 0x25 => operand w 1 .setC
  | 0x26 => plain w .getMx
  | 0x27 => operand w 1 .setMx
  | 0x28 => plain w .getSt
  | 0x29 => operand w 2 .setSt
  | 0x30 => operand w 8 .ldxf
  | 0x31 => plain w .rdxf
  | 0x32 => plain w .getI
  | 0x33 => operand w 1 .setI
  | 0x34 => plain w .getA
  | 0x35 => operand w 1 .setA
  | 0x36 => plain w .getR
  | 0x37 => operand w 1 .setR
  | 0x38 => plain w .getSx
  | 0x39 => operand w 1 .setSx
  | 0x3A => plain w .getV
  | 0x3B => operand w 1 .setV
  | 0x40 => operand w 8 .dsizDec
  | 0x41 => operand w 2 .dsizEnc
  | 0x42 => operand w 8 .stDec
  | 0x43 => operand w 2 .stEnc
  | 0x80 => plain w .encHdr
  | 0x81 => plain w .decHdr
  | 0x82 => plain w .encPm
  | 0x83 => plain w .decPm
  | 0x84 => plain w .encMsg
  | 0x85 => plain w .decMsg
  | _ => .error (.unassignedOp (opField w))

/-- `OP(m)*256 + imm`, the word of a command (30_encoding R79). -/
def commandWord (op : Byte) {k : Nat} (imm : BitVec k) : CommandWord :=
  op ++ imm.setWidth 8

/-- The word of a command (30_encoding R77, R79). -/
def encode : Instr → CommandWord
  | .nop => commandWord 0x00#8 0#8
  | .ldmf imm => commandWord 0x10#8 imm
  | .rdmf => commandWord 0x11#8 0#8
  | .getVer => commandWord 0x12#8 0#8
  | .setVer imm => commandWord 0x13#8 imm
  | .getS => commandWord 0x14#8 0#8
  | .setS imm => commandWord 0x15#8 imm
  | .getDsiz => commandWord 0x16#8 0#8
  | .setDsiz imm => commandWord 0x17#8 imm
  | .ldsf imm => commandWord 0x20#8 imm
  | .rdsf => commandWord 0x21#8 0#8
  | .getP => commandWord 0x22#8 0#8
  | .setP imm => commandWord 0x23#8 imm
  | .getC => commandWord 0x24#8 0#8
  | .setC imm => commandWord 0x25#8 imm
  | .getMx => commandWord 0x26#8 0#8
  | .setMx imm => commandWord 0x27#8 imm
  | .getSt => commandWord 0x28#8 0#8
  | .setSt imm => commandWord 0x29#8 imm
  | .ldxf imm => commandWord 0x30#8 imm
  | .rdxf => commandWord 0x31#8 0#8
  | .getI => commandWord 0x32#8 0#8
  | .setI imm => commandWord 0x33#8 imm
  | .getA => commandWord 0x34#8 0#8
  | .setA imm => commandWord 0x35#8 imm
  | .getR => commandWord 0x36#8 0#8
  | .setR imm => commandWord 0x37#8 imm
  | .getSx => commandWord 0x38#8 0#8
  | .setSx imm => commandWord 0x39#8 imm
  | .getV => commandWord 0x3A#8 0#8
  | .setV imm => commandWord 0x3B#8 imm
  | .dsizDec imm => commandWord 0x40#8 imm
  | .dsizEnc imm => commandWord 0x41#8 imm
  | .stDec imm => commandWord 0x42#8 imm
  | .stEnc imm => commandWord 0x43#8 imm
  | .encHdr => commandWord 0x80#8 0#8
  | .decHdr => commandWord 0x81#8 0#8
  | .encPm => commandWord 0x82#8 0#8
  | .decPm => commandWord 0x83#8 0#8
  | .encMsg => commandWord 0x84#8 0#8
  | .decMsg => commandWord 0x85#8 0#8

/-- A row of the opcode table: its mnemonic, match and mask (30_encoding R77). -/
structure OpcodeRow where
  mnemonic : String
  pattern : CommandWord
  mask : CommandWord
  deriving DecidableEq, Repr

/-- A word spells the row's command: its bits under the mask are the match (30_encoding R77). -/
def OpcodeRow.covers (r : OpcodeRow) (w : CommandWord) : Bool := w &&& r.mask == r.pattern

/-- The rows of the flag groups 1 (MessageFlags), with NOP (30_encoding R77). -/
def opcodeRowsMf : List OpcodeRow :=
  [⟨"NOP", 0x0000#16, 0xFFFF#16⟩,
   ⟨"LDMF", 0x1000#16, 0xFF00#16⟩,
   ⟨"RDMF", 0x1100#16, 0xFFFF#16⟩,
   ⟨"GET_VER", 0x1200#16, 0xFFFF#16⟩,
   ⟨"SET_VER", 0x1300#16, 0xFFF0#16⟩,
   ⟨"GET_S", 0x1400#16, 0xFFFF#16⟩,
   ⟨"SET_S", 0x1500#16, 0xFFFE#16⟩,
   ⟨"GET_DSIZ", 0x1600#16, 0xFFFF#16⟩,
   ⟨"SET_DSIZ", 0x1700#16, 0xFFFC#16⟩]

/-- The rows of flag group 2 (SecurityFlags) (30_encoding R77). -/
def opcodeRowsSf : List OpcodeRow :=
  [⟨"LDSF", 0x2000#16, 0xFF00#16⟩,
   ⟨"RDSF", 0x2100#16, 0xFFFF#16⟩,
   ⟨"GET_P", 0x2200#16, 0xFFFF#16⟩,
   ⟨"SET_P", 0x2300#16, 0xFFFE#16⟩,
   ⟨"GET_C", 0x2400#16, 0xFFFF#16⟩,
   ⟨"SET_C", 0x2500#16, 0xFFFE#16⟩,
   ⟨"GET_MX", 0x2600#16, 0xFFFF#16⟩,
   ⟨"SET_MX", 0x2700#16, 0xFFFE#16⟩,
   ⟨"GET_ST", 0x2800#16, 0xFFFF#16⟩,
   ⟨"SET_ST", 0x2900#16, 0xFFFC#16⟩]

/-- The rows of flag group 3 (ExchangeFlags) (30_encoding R77). -/
def opcodeRowsXf : List OpcodeRow :=
  [⟨"LDXF", 0x3000#16, 0xFF00#16⟩,
   ⟨"RDXF", 0x3100#16, 0xFFFF#16⟩,
   ⟨"GET_I", 0x3200#16, 0xFFFF#16⟩,
   ⟨"SET_I", 0x3300#16, 0xFFFE#16⟩,
   ⟨"GET_A", 0x3400#16, 0xFFFF#16⟩,
   ⟨"SET_A", 0x3500#16, 0xFFFE#16⟩,
   ⟨"GET_R", 0x3600#16, 0xFFFF#16⟩,
   ⟨"SET_R", 0x3700#16, 0xFFFE#16⟩,
   ⟨"GET_SX", 0x3800#16, 0xFFFF#16⟩,
   ⟨"SET_SX", 0x3900#16, 0xFFFE#16⟩,
   ⟨"GET_V", 0x3A00#16, 0xFFFF#16⟩,
   ⟨"SET_V", 0x3B00#16, 0xFFFE#16⟩]

/-- The rows of the enumeration and codec commands (30_encoding R77). -/
def opcodeRowsCodec : List OpcodeRow :=
  [⟨"DSIZ_DEC", 0x4000#16, 0xFF00#16⟩,
   ⟨"DSIZ_ENC", 0x4100#16, 0xFFFC#16⟩,
   ⟨"ST_DEC", 0x4200#16, 0xFF00#16⟩,
   ⟨"ST_ENC", 0x4300#16, 0xFFFC#16⟩,
   ⟨"ENC_HDR", 0x8000#16, 0xFFFF#16⟩,
   ⟨"DEC_HDR", 0x8100#16, 0xFFFF#16⟩,
   ⟨"ENC_PM", 0x8200#16, 0xFFFF#16⟩,
   ⟨"DEC_PM", 0x8300#16, 0xFFFF#16⟩,
   ⟨"ENC_MSG", 0x8400#16, 0xFFFF#16⟩,
   ⟨"DEC_MSG", 0x8500#16, 0xFFFF#16⟩]

/-- The 41 rows of the opcode table (30_encoding R77). -/
def opcodeTable : List OpcodeRow :=
  opcodeRowsMf ++ opcodeRowsSf ++ opcodeRowsXf ++ opcodeRowsCodec

/-- A word is legal when some row of the table covers it (30_encoding R77, R78). -/
def legalWord (w : CommandWord) : Bool := opcodeTable.any fun r => r.covers w

/-- The command word whose bits are the number `w`, of which `nbits` are given and the rest are 0. -/
def tableWord (nbits w : Nat) : CommandWord := BitVec.ofNat 16 (w % 2 ^ nbits)

/-- The instruction the decoder reads from a row's word: bit 0 of `w` is bit 0 of the command word. -/
def decodeTableWord (nbits w : Nat) : Option Instr := (decode (tableWord nbits w)).toOption

end Sys2Proof
end

