-- ==== Sys2Proof/Machine/State.lean ====
section
/-! DEFINITION. The machine's state as plain data (10_state, 20_memory R40), its error kinds
(60_exceptions R200), the values a decode builds before it commits them, and the reset state
(70_reset R231). -/

namespace Sys2Proof.Machine

/-- The error kinds and their names (60_exceptions R200). -/
inductive ErrorKind where
  /-- Raised by DEC_HDR, DEC_PM, DEC_MSG (60_exceptions R201). -/
  | truncatedInput
  /-- Raised by DEC_HDR with CTRL.EXACT = 1 (R202). -/
  | trailingBytes
  /-- Never raised (R203). -/
  | invalidFixedValue
  /-- Raised by DEC_MSG (R204). -/
  | decryptionFailed
  /-- Raised by DEC_MSG with CTRL.SECURE = 1 (R204). -/
  | integrityCheckFailed
  /-- Raised by DEC_HDR and DEC_MSG (R206). -/
  | unsupportedVersion
  /-- Never raised (R211). -/
  | counterExhausted
  /-- Raised by the encodes, and by every decode with ILEN > CAP (R207, R209). -/
  | invariantViolation
  /-- Raised by the encodes and DEC_MSG (R208). -/
  | outputOverflow
  /-- The outcome of a CMD write of a word that is no command (R210). -/
  | illegalCommand
  deriving DecidableEq, Repr

/-- An error of a codec command: its kind and the position it reports in POS (60_exceptions R205). -/
structure CodecError where
  kind : ErrorKind
  pos : Nat
  deriving DecidableEq, Repr

/-- The value `h` of 42_header_codec R144: a parsed Message Header, before it is committed.
`mx.length` is `h.mxlen`. -/
structure Header where
  len : BitVec 16
  lenV : Bool
  mf : Byte
  sid : BitVec 16
  sf : Byte
  ctr : BitVec 32
  src : BitVec 64
  srcV : Bool
  dst : BitVec 64
  dstT : BitVec 2
  mx : Bytes
  mxV : Bool
  deriving DecidableEq, Repr

/-- The value `m` of 43_protocol_message_codec R163: a parsed Protocol Message, before it is committed.
`sx.length` is `m.sxlen` and `pay.length` is `m.paylen`. -/
structure ProtocolMessage where
  xf : Byte
  opc : Byte
  xid : BitVec 16
  pid : BitVec 16
  vid : BitVec 16
  vidV : Bool
  ack : BitVec 32
  ackV : Bool
  sx : Bytes
  sxV : Bool
  pay : Bytes
  deriving DecidableEq, Repr

/-- A buffer's contents: (offset, byte) cells in rising order of offset, one for each byte that was
written since reset (20_memory R40, R53; log entry 3). -/
abbrev Memory := List Host.Cell

/-- What can be observed of a run (70_reset R236). -/
inductive Observation where
  /-- The value a host register read returned (20_memory R50). -/
  | regValue (v : Nat)
  /-- The byte a host buffer read returned (20_memory R53). -/
  | bufByte (b : Byte)
  /-- The call `encrypt(pt, ctx)` (44_message_assembly R177). -/
  | encryptCall (pt : Bytes) (ctx : BitVec Config.ctxBits)
  /-- The call `verify(hdr, ct, mic, ctx)` (44_message_assembly R178). -/
  | verifyCall (hdr ct mic : Bytes) (ctx : BitVec Config.ctxBits)
  /-- The call `decrypt(ct, ctx)` (44_message_assembly R177). -/
  | decryptCall (ct : Bytes) (ctx : BitVec Config.ctxBits)
  deriving DecidableEq, Repr

/-- Why the machine stops with a fault. It has no constructor: no rule of the spec lets the machine
stop. Every word of CMD has an outcome (30_encoding R78, 00_scope R8), every host access is permitted
(20_memory R56), and an error is a next state (60_exceptions R205). -/
inductive Fault where
  deriving DecidableEq, Repr

/-- Why a step is refused. -/
inductive Refusal where
  /-- An instruction that has no meaning in `exec`. No arm raises it: all 41 commands have theirs.
  Safe: a refusal proves nothing of the hardware. -/
  | notModelled (mnemonic : String)
  deriving DecidableEq, Repr

/-- The state of the block: the registers of 10_state R10 (CMD keeps no value, R30), the six buffers of
20_memory R40, and the model's own inputs and observations. -/
structure State where
  /-- STATUS, the outcome of the most recent command (10_state R31). -/
  status : BitVec 8
  /-- RES, the result byte of the read-type commands (R32). -/
  res : BitVec 8
  /-- POS, the byte cursor left by the last codec command (R33). -/
  pos : BitVec 16
  /-- CTRL, mode bits STREAM, EXACT, SECURE (R34). -/
  ctrl : BitVec 8
  /-- VERMASK, accepted protocol versions (R35). -/
  vermask : BitVec 16
  /-- MICSZ, integrity-check length of a secure session (R36). -/
  micsz : BitVec 8
  /-- CTX, opaque session-context handle (R37). -/
  ctx : BitVec Config.ctxBits
  /-- TAG, presence tags (R28). -/
  tag : BitVec 8
  /-- LEN, `message_length` (R11). -/
  len : BitVec 16
  /-- MF, the MessageFlags byte (R12). -/
  mf : BitVec 8
  /-- SID, `session_id` (R13). -/
  sid : BitVec 16
  /-- SF, the SecurityFlags byte; SF[1:0] is never 2 (R14). -/
  sf : BitVec 8
  /-- CTR, `message_counter` (R15). -/
  ctr : BitVec 32
  /-- SRC, `source_node_id` (R16). -/
  src : BitVec 64
  /-- DST, `dest_node_id` (R17). -/
  dst : BitVec 64
  /-- MXLEN, length of `message_extensions` (R18). -/
  mxlen : BitVec 16
  /-- XF, the ExchangeFlags byte (R19). -/
  xf : BitVec 8
  /-- OPC, `protocol_opcode` (R20). -/
  opc : BitVec 8
  /-- XID, `exchange_id` (R21). -/
  xid : BitVec 16
  /-- PID, `protocol_id` (R22). -/
  pid : BitVec 16
  /-- VID, `protocol_vendor_id` (R23). -/
  vid : BitVec 16
  /-- ACK, `acknowledged_message_counter` (R24). -/
  ack : BitVec 32
  /-- SXLEN, length of `secured_extensions` (R25). -/
  sxlen : BitVec 16
  /-- PAYLEN, length of `payload` (R26). -/
  paylen : BitVec 16
  /-- MICLEN, length of `message_integrity_check` (R27). -/
  miclen : BitVec 16
  /-- ILEN, valid bytes in IBUF (R38). -/
  ilen : BitVec 16
  /-- OLEN, valid bytes in OBUF (R38). -/
  olen : BitVec 16
  /-- IBUF, the bytes to decode (20_memory R40). -/
  ibuf : Memory
  /-- OBUF, the bytes an encode produced (20_memory R40). -/
  obuf : Memory
  /-- MXB, `message_extensions` content (20_memory R40). -/
  mxb : Memory
  /-- SXB, `secured_extensions` content (20_memory R40). -/
  sxb : Memory
  /-- PAY, application payload (20_memory R40). -/
  pay : Memory
  /-- MIC, `message_integrity_check` (20_memory R40). -/
  mic : Memory
  /-- MODEL: which unspecified buffer contents apply; it counts resets (log entry 3). -/
  epoch : Nat
  /-- MODEL: the host's next events, the first first (70_reset R236; log entry 5). -/
  events : List HostEvent
  /-- MODEL: the collaborator's next answers to `encrypt` (44_message_assembly R176; log entry 4). -/
  encryptAnswers : List Bytes
  /-- MODEL: the collaborator's next answers to `verify` (log entry 4). -/
  verifyAnswers : List Bool
  /-- MODEL: the collaborator's next answers to `decrypt`, none for fail (log entry 4). -/
  decryptAnswers : List (Option Bytes)
  /-- MODEL: crypto-port calls made so far; it names the next free answer (log entry 4). -/
  calls : Nat
  /-- MODEL: what was observed so far, the earliest first (70_reset R236; log entry 6). -/
  obs : List Observation
  deriving DecidableEq, Repr

/-- The state after reset (70_reset R231): every register 0 except VERMASK and MICSZ, nothing written to
any buffer. The model's own fields start empty (DESIGN CHOICE, log entries 3 to 6). -/
def State.reset : State where
  status := 0x00#8
  res := 0x00#8
  pos := 0x0000#16
  ctrl := 0x00#8
  vermask := 0xFFFF#16
  micsz := 16#8
  ctx := BitVec.ofNatLT 0 (Nat.two_pow_pos _)
  tag := 0x00#8
  len := 0#16
  mf := 0x00#8
  sid := 0#16
  sf := 0x00#8
  ctr := 0#32
  src := 0#64
  dst := 0#64
  mxlen := 0#16
  xf := 0x00#8
  opc := 0#8
  xid := 0#16
  pid := 0#16
  vid := 0#16
  ack := 0#32
  sxlen := 0#16
  paylen := 0#16
  miclen := 0#16
  ilen := 0#16
  olen := 0#16
  ibuf := []
  obuf := []
  mxb := []
  sxb := []
  pay := []
  mic := []
  epoch := 0
  events := []
  encryptAnswers := []
  verifyAnswers := []
  decryptAnswers := []
  calls := 0
  obs := []

end Sys2Proof.Machine
end

