-- ==== Sys2Proof/Machine/Operands.lean ====
section
/-! DEFINITION. Operand forms: bit fields of a byte by mask and shift (40_flag_ops R90(e)), the two
enumeration codecs (30_encoding R64, R66), and little-endian packing (00_scope R9, 20_memory R43). -/

namespace Sys2Proof.Machine

/-- `2^w - 1`, the mask of a field of width w (40_flag_ops R90(e)). -/
def fieldMask (w : Nat) : Byte := BitVec.ofNat 8 (2 ^ w - 1)

/-- A get: `zext_8((REG >> lo) & (2^w - 1))` (40_flag_ops R90(e)). -/
def getField (lo w : Nat) (reg : Byte) : Byte := (reg >>> lo) &&& fieldMask w

/-- A set: `(REG & ~(((2^w)-1) << lo)) | (imm << lo)` (40_flag_ops R90(e)). -/
def setField (lo : Nat) {w : Nat} (imm : BitVec w) (reg : Byte) : Byte :=
  (reg &&& ~~~(fieldMask w <<< lo)) ||| (imm.setWidth 8 <<< lo)

/-- DSIZ decode: total over the four patterns (30_encoding R64). -/
def dsizOfBits (x : BitVec 2) : Dsiz :=
  if x = 0#2 then .notPresent
  else if x = 1#2 then .nodeID
  else if x = 2#2 then .groupID
  else .reserved

/-- DSIZ encode (30_encoding R64). -/
def dsizToBits : Dsiz → BitVec 2
  | .notPresent => 0#2
  | .nodeID => 1#2
  | .groupID => 2#2
  | .reserved => 3#2

/-- SessionType decode: the patterns 2 and 3 are both `Reserved` (30_encoding R66). -/
def sessionTypeOfBits (x : BitVec 2) : SessionType :=
  if x = 0#2 then .unicast
  else if x = 1#2 then .group
  else .reserved

/-- SessionType encode: `Reserved` is always 3 (30_encoding R66). -/
def sessionTypeToBits : SessionType → BitVec 2
  | .unicast => 0#2
  | .group => 1#2
  | .reserved => 3#2

/-- `canon_ST`: encode after decode (30_encoding R66). -/
def canonST (x : BitVec 2) : BitVec 2 := sessionTypeToBits (sessionTypeOfBits x)

/-- The low two bits of a byte, all that an enumeration decode looks at (30_encoding R64, R66). -/
def lowBits (b : Byte) : BitVec 2 := b.extractLsb' 0 2

/-- `{b[7:2], canon_ST(b[1:0])}`: what a write of a whole byte to SF stores (10_state R14). -/
def canonSF (b : Byte) : Byte := setField 0 (canonST (lowBits b)) b

/-- `le_n(v)`: the n bytes of v, the least significant first (00_scope section 5). -/
def leBytes : Nat → Nat → Bytes
  | 0, _ => []
  | n + 1, v => BitVec.ofNat 8 v :: leBytes n (v / 256)

/-- `le16`, `le32`, `le64` and the like: a register of 8n bits as its n bytes (00_scope section 5). -/
def le (n : Nat) {w : Nat} (v : BitVec w) : Bytes := leBytes n v.toNat

/-- `unle(s) = sum over i of s[i] * 256^i` (00_scope section 5). -/
def unle : Bytes → Nat
  | [] => 0
  | b :: s => b.toNat + 256 * unle s

end Sys2Proof.Machine
end

