-- ==== Sys2Proof/Machine/Flags.lean ====
section
/-! DEFINITION. The named bits that steer the machine (10_state section 7) and the presence tags
(10_state R28). -/

namespace Sys2Proof.Machine

/-- MF[2], S: source node id present (30_encoding R62). -/
def mfS (mf : Byte) : Bool := mf.getLsbD 2

/-- MF[1:0], DSIZ (30_encoding R62, R64). -/
def mfDsiz (mf : Byte) : Dsiz := dsizOfBits (lowBits mf)

/-- MF[7:4], the protocol version, 0 to 15 (30_encoding R62). -/
def mfVersion (mf : Byte) : Nat := mf.toNat / 16

/-- SF[5], MX: message extensions present (30_encoding R65). -/
def sfMx (sf : Byte) : Bool := sf.getLsbD 5

/-- XF[4], V: vendor id present (30_encoding R67). -/
def xfV (xf : Byte) : Bool := xf.getLsbD 4

/-- XF[1], A: acknowledged message counter present (30_encoding R67). -/
def xfA (xf : Byte) : Bool := xf.getLsbD 1

/-- XF[3], SX: secured extensions present (30_encoding R67). -/
def xfSx (xf : Byte) : Bool := xf.getLsbD 3

/-- TAG.LEN_V, bit 0 (10_state R28). -/
def tagLenV (tag : Byte) : Bool := tag.getLsbD 0

/-- TAG.SRC_V, bit 1 (10_state R28). -/
def tagSrcV (tag : Byte) : Bool := tag.getLsbD 1

/-- TAG.DST_T, bits 3:2 (10_state R28). -/
def tagDstT (tag : Byte) : BitVec 2 := tag.extractLsb' 2 2

/-- TAG.MX_V, bit 4 (10_state R28). -/
def tagMxV (tag : Byte) : Bool := tag.getLsbD 4

/-- TAG.VID_V, bit 5 (10_state R28). -/
def tagVidV (tag : Byte) : Bool := tag.getLsbD 5

/-- TAG.ACK_V, bit 6 (10_state R28). -/
def tagAckV (tag : Byte) : Bool := tag.getLsbD 6

/-- TAG.SX_V, bit 7 (10_state R28). -/
def tagSxV (tag : Byte) : Bool := tag.getLsbD 7

/-- TAG[4:0] replaced by a header's tags, TAG[7:5] kept (10_state R28, 42_header_codec R149). -/
def setHeaderTags (lenV srcV : Bool) (dstT : BitVec 2) (mxV : Bool) (tag : Byte) : Byte :=
  setField 4 (BitVec.ofBool mxV) (setField 2 dstT
    (setField 1 (BitVec.ofBool srcV) (setField 0 (BitVec.ofBool lenV) tag)))

/-- TAG[7:5] replaced by a Protocol Message's tags, TAG[4:0] kept (10_state R28, 43 R163). -/
def setPmTags (vidV ackV sxV : Bool) (tag : Byte) : Byte :=
  setField 7 (BitVec.ofBool sxV) (setField 6 (BitVec.ofBool ackV)
    (setField 5 (BitVec.ofBool vidV) tag))

/-- `want(DSIZ)`: the destination tag that goes with a DSIZ value (42_header_codec R143). -/
def wantDstT : Dsiz → BitVec 2
  | .notPresent => 0#2
  | .nodeID => 1#2
  | .groupID => 2#2
  | .reserved => 0#2

/-- CTRL.STREAM, bit 0 (10_state R34). -/
def State.stream (s : State) : Bool := s.ctrl.getLsbD 0

/-- CTRL.EXACT, bit 1 (10_state R34). -/
def State.exact (s : State) : Bool := s.ctrl.getLsbD 1

/-- CTRL.SECURE, bit 2 (10_state R34). -/
def State.secure (s : State) : Bool := s.ctrl.getLsbD 2

/-- VERMASK[v] of the version in a Message Flags byte (10_state R35, 42_header_codec R145). -/
def versionAccepted (vermask : BitVec 16) (mf : Byte) : Bool := vermask.getLsbD (mfVersion mf)

end Sys2Proof.Machine
end

