-- ==== Sys2Proof/Machine/Ops.lean ====
section
/-! DEFINITION. The named operations over buffers and registers: MemRead and MemWrite (20_memory R41,
R42), the outcomes of a command (00_scope R8) with taking an error (60_exceptions R205), the byte cursor
of a decode (20_memory R45), and the crypto port (44_message_assembly R175 to R178). -/

namespace Sys2Proof.Machine

/-! ### One buffer's memory -/

/-- The byte written at an offset, or `none` when nothing has written there since reset. This is what an
offset that is not listed reads as: no value (20_memory R53; log entry 3). -/
def Memory.get? : Memory → Nat → Option Byte
  | [], _ => none
  | (b, v) :: m, a => if a = b then some v else Memory.get? m a

/-- One byte written, the cells kept in rising order of offset (20_memory R42). -/
def Memory.set : Memory → Nat → Byte → Memory
  | [], a, v => [(a, v)]
  | (b, w) :: m, a, v =>
    if a < b then (a, v) :: (b, w) :: m
    else if a = b then (a, v) :: m
    else (b, w) :: Memory.set m a v

/-- A sequence written from an offset on (20_memory R42). -/
def Memory.write : Memory → Nat → Bytes → Memory
  | m, _, [] => m
  | m, a, v :: s => Memory.write (Memory.set m a v) (a + 1) s

/-- Every offset of the list is at least `lo`, and the offsets rise strictly. -/
def Memory.wfFrom : Nat → Memory → Bool
  | _, [] => true
  | lo, (a, _) :: m => decide (lo ≤ a) && Memory.wfFrom (a + 1) m

/-- The canonical form: offsets strictly rising. Every cell holds a byte, and an offset that is not
listed reads as no byte, so no cell repeats what an unlisted offset reads as. -/
def Memory.wf (m : Memory) : Bool := Memory.wfFrom 0 m

/-- Every listed offset exists: it is below CAP (20_memory R40). -/
def Memory.bounded (m : Memory) : Bool := m.all fun c => decide (c.1 < Config.cap)

/-! ### The buffers of a state -/

/-- The buffer with a given id (20_memory R40). -/
def State.buf (s : State) : BufId → Memory
  | .ibuf => s.ibuf
  | .obuf => s.obuf
  | .mxb => s.mxb
  | .sxb => s.sxb
  | .pay => s.pay
  | .mic => s.mic

/-- One buffer replaced. -/
def State.setBuf (s : State) (b : BufId) (m : Memory) : State :=
  match b with
  | .ibuf => { s with ibuf := m }
  | .obuf => { s with obuf := m }
  | .mxb => { s with mxb := m }
  | .sxb => { s with sxb := m }
  | .pay => { s with pay := m }
  | .mic => { s with mic := m }

/-- Byte a of a buffer: the byte last written there since reset, else the unspecified byte the buffer
came out of reset with (20_memory R41, R53; 70_reset R231; log entry 3). -/
def State.readByte (s : State) (b : BufId) (a : Nat) : Byte :=
  ((s.buf b).get? a).getD (Config.initialByte s.epoch b.id a)

/-- `MemRead(B, a, n)` (20_memory R41). -/
def State.memRead (s : State) (b : BufId) : Nat → Nat → Bytes
  | _, 0 => []
  | a, n + 1 => s.readByte b a :: State.memRead s b (a + 1) n

/-- `MemWrite(B, a, |x|, x)` (20_memory R42). The callers have tested the bound CAP. -/
def State.memWrite (s : State) (b : BufId) (a : Nat) (x : Bytes) : State :=
  s.setBuf b ((s.buf b).write a x)

/-! ### Outcomes of a command -/

/-- The STATUS code OK (60_exceptions R200). -/
def statusOk : BitVec 8 := 0x00#8

/-- The STATUS code of an error kind (60_exceptions R200). -/
def ErrorKind.code : ErrorKind → BitVec 8
  | .truncatedInput => 0x01#8
  | .trailingBytes => 0x02#8
  | .invalidFixedValue => 0x03#8
  | .decryptionFailed => 0x04#8
  | .integrityCheckFailed => 0x05#8
  | .unsupportedVersion => 0x06#8
  | .counterExhausted => 0x07#8
  | .invariantViolation => 0x08#8
  | .outputOverflow => 0x09#8
  | .illegalCommand => 0x0A#8

/-- Success of a command that leaves POS alone: `STATUS <- OK` (00_scope R8). -/
def State.succeed (s : State) : State := { s with status := statusOk }

/-- Success of a codec command: `POS <- p ; STATUS <- OK` (10_state R33). -/
def State.succeedAt (p : Nat) (s : State) : State :=
  { s with pos := BitVec.ofNat 16 p, status := statusOk }

/-- TAKING AN ERROR, `raise Kind(p)`: STATUS gets the code, POS gets p, and every other register, every
buffer byte and every length register keeps its value (60_exceptions R205). There is no return from an
error and nothing to restore (R213). -/
def State.raise (e : CodecError) (s : State) : State :=
  { s with status := e.kind.code, pos := BitVec.ofNat 16 e.pos }

/-- The Illegal outcome: STATUS gets IllegalCommand and nothing else changes, POS included
(30_encoding R78, 60_exceptions R210). -/
def State.illegal (s : State) : State := { s with status := ErrorKind.illegalCommand.code }

/-- A result byte: `RES <- v ; STATUS <- OK` (10_state R32). -/
def State.answer (v : Byte) (s : State) : State := { s with res := v, status := statusOk }

/-- MF replaced by a byte, exactly (10_state R12). -/
def State.putMf (b : Byte) (s : State) : State := { s with mf := b }

/-- SF replaced by a whole byte, its SessionType canonicalised (10_state R14). -/
def State.putSf (b : Byte) (s : State) : State := { s with sf := canonSF b }

/-- XF replaced by a byte, exactly (10_state R19). -/
def State.putXf (b : Byte) (s : State) : State := { s with xf := b }

/-- The end of an encode: the produced bytes go to OBUF, OLEN and POS get their count; nothing is written
when they exceed CAP (42_header_codec R142, 60_exceptions R208). -/
def State.emit (out : Bytes) (s : State) : State :=
  if Config.cap < out.length then s.raise ⟨.outputOverflow, 0⟩
  else ({ s.memWrite .obuf 0 out with olen := BitVec.ofNat 16 out.length }).succeedAt out.length

/-! ### The byte cursor of a decode -/

/-- `need(n)` and then the n bytes at the cursor; the cursor moves past them. When fewer than n bytes
remain, TruncatedInput at the cursor (20_memory R45, 42_header_codec R148). -/
def takeBytes (s : Bytes) (pos n : Nat) : Except CodecError (Bytes × Nat) :=
  if s.length < pos + n then .error ⟨.truncatedInput, pos⟩
  else .ok ((s.drop pos).take n, pos + n)

/-- An n-byte little-endian field at the cursor, zero-extended to w bits (20_memory R43). -/
def takeField (w : Nat) (s : Bytes) (pos n : Nat) : Except CodecError (BitVec w × Nat) := do
  let (x, pos) ← takeBytes s pos n
  return (BitVec.ofNat w (unle x), pos)

/-- A field that exists when its presence bit is 1, and is 0 when it is absent
(30_encoding R74, 10_state R29). -/
def takeOptional (present : Bool) (w : Nat) (s : Bytes) (pos n : Nat) :
    Except CodecError (BitVec w × Nat) :=
  if present then takeField w s pos n else .ok (0#w, pos)

/-- A length-prefixed block that exists when its presence bit is 1 (30_encoding R70). -/
def takeBlock (present : Bool) (s : Bytes) (pos : Nat) : Except CodecError (Bytes × Nat) :=
  if present then do
    let (n, pos) ← takeField 16 s pos 2
    takeBytes s pos n.toNat
  else .ok ([], pos)

/-! ### The crypto port -/

/-- The call `encrypt(pt, CTX)`: the answer, and the state in which the call has been made and seen
(44_message_assembly R176, R177). -/
def State.callEncrypt (pt : Bytes) (s : State) : Bytes × State :=
  (s.encryptAnswers.headD (Config.encryptAnswer s.calls pt s.ctx),
    { s with
      encryptAnswers := s.encryptAnswers.tail
      calls := s.calls + 1
      obs := s.obs ++ [.encryptCall pt s.ctx] })

/-- The call `verify(hdr, ct, mic, CTX)` (44_message_assembly R176, R178). -/
def State.callVerify (hdr ct mic : Bytes) (s : State) : Bool × State :=
  (s.verifyAnswers.headD (Config.verifyAnswer s.calls hdr ct mic s.ctx),
    { s with
      verifyAnswers := s.verifyAnswers.tail
      calls := s.calls + 1
      obs := s.obs ++ [.verifyCall hdr ct mic s.ctx] })

/-- The call `decrypt(ct, CTX)`; `none` is the answer fail (44_message_assembly R176, R177). -/
def State.callDecrypt (ct : Bytes) (s : State) : Option Bytes × State :=
  (s.decryptAnswers.headD (Config.decryptAnswer s.calls ct s.ctx),
    { s with
      decryptAnswers := s.decryptAnswers.tail
      calls := s.calls + 1
      obs := s.obs ++ [.decryptCall ct s.ctx] })

/-- The IBUF bytes a decode is given: `MemRead(IBUF, 0, ILEN)` (10_state R38). -/
def State.input (s : State) : Bytes := s.memRead .ibuf 0 s.ilen.toNat

/-- ILEN exceeds CAP, the first test of every decode (60_exceptions R209, R212). -/
def State.ilenTooLong (s : State) : Bool := decide (Config.cap < s.ilen.toNat)

/-- The answer of every arm: a next state. -/
abbrev Result := Host.Outcome State Fault Refusal

end Sys2Proof.Machine
end

