-- ==== Sys2Proof/Machine/EnumOps.lean ====
section
/-! DEFINITION. The enumeration codec commands (41_enum_ops). -/

namespace Sys2Proof.Machine

/-- DSIZ_DEC: `RES <- zext_8(imm[1:0])`, the code of the DSIZ value (41_enum_ops R131). -/
def execDsizDec (imm : BitVec 8) (s : State) : Result :=
  .next (s.answer ((dsizToBits (dsizOfBits (lowBits imm))).setWidth 8))

/-- DSIZ_ENC: `RES <- zext_8(imm)` (41_enum_ops R132). -/
def execDsizEnc (imm : BitVec 2) (s : State) : Result :=
  .next (s.answer ((dsizToBits (dsizOfBits imm)).setWidth 8))

/-- ST_DEC: `RES <- zext_8(canon_ST(imm[1:0]))` (41_enum_ops R133). -/
def execStDec (imm : BitVec 8) (s : State) : Result :=
  .next (s.answer ((canonST (lowBits imm)).setWidth 8))

/-- ST_ENC: `RES <- zext_8(canon_ST(imm))` (41_enum_ops R134). -/
def execStEnc (imm : BitVec 2) (s : State) : Result :=
  .next (s.answer ((canonST imm).setWidth 8))

end Sys2Proof.Machine
end

