-- ==== Sys2Proof/Machine/FlagOps.lean ====
section
/-! DEFINITION. The flag-byte commands (40_flag_ops): load, read, field get and field set of MF, SF and
XF. Each is one line over the shared mask-and-shift operations of Operands.lean. -/

namespace Sys2Proof.Machine

/-! ### MessageFlags (MF) -/

/-- LDMF: `MF <- imm` (40_flag_ops R91). -/
def execLdmf (imm : BitVec 8) (s : State) : Result := .next (s.putMf imm).succeed

/-- RDMF: `RES <- MF` (40_flag_ops R92). -/
def execRdmf (s : State) : Result := .next (s.answer s.mf)

/-- GET_VER: `RES <- MF[7:4]` (40_flag_ops R93). -/
def execGetVer (s : State) : Result := .next (s.answer (getField 4 4 s.mf))

/-- SET_VER: `MF[7:4] <- imm` (40_flag_ops R94). -/
def execSetVer (imm : BitVec 4) (s : State) : Result :=
  .next ({ s with mf := setField 4 imm s.mf }).succeed

/-- GET_S: `RES <- MF[2]` (40_flag_ops R95). -/
def execGetS (s : State) : Result := .next (s.answer (getField 2 1 s.mf))

/-- SET_S: `MF[2] <- imm` (40_flag_ops R96). -/
def execSetS (imm : BitVec 1) (s : State) : Result :=
  .next ({ s with mf := setField 2 imm s.mf }).succeed

/-- GET_DSIZ: `RES <- MF[1:0]` (40_flag_ops R97). -/
def execGetDsiz (s : State) : Result := .next (s.answer (getField 0 2 s.mf))

/-- SET_DSIZ: `MF[1:0] <- imm` (40_flag_ops R98). -/
def execSetDsiz (imm : BitVec 2) (s : State) : Result :=
  .next ({ s with mf := setField 0 imm s.mf }).succeed

/-! ### SecurityFlags (SF) -/

/-- LDSF: `SF <- {imm[7:2], canon_ST(imm[1:0])}` (40_flag_ops R99). -/
def execLdsf (imm : BitVec 8) (s : State) : Result := .next (s.putSf imm).succeed

/-- RDSF: `RES <- SF` (40_flag_ops R100). -/
def execRdsf (s : State) : Result := .next (s.answer s.sf)

/-- GET_P: `RES <- SF[7]` (40_flag_ops R101). -/
def execGetP (s : State) : Result := .next (s.answer (getField 7 1 s.sf))

/-- SET_P: `SF[7] <- imm` (40_flag_ops R102). -/
def execSetP (imm : BitVec 1) (s : State) : Result :=
  .next ({ s with sf := setField 7 imm s.sf }).succeed

/-- GET_C: `RES <- SF[6]` (40_flag_ops R103). -/
def execGetC (s : State) : Result := .next (s.answer (getField 6 1 s.sf))

/-- SET_C: `SF[6] <- imm` (40_flag_ops R104). -/
def execSetC (imm : BitVec 1) (s : State) : Result :=
  .next ({ s with sf := setField 6 imm s.sf }).succeed

/-- GET_MX: `RES <- SF[5]` (40_flag_ops R105). -/
def execGetMx (s : State) : Result := .next (s.answer (getField 5 1 s.sf))

/-- SET_MX: `SF[5] <- imm` (40_flag_ops R106). -/
def execSetMx (imm : BitVec 1) (s : State) : Result :=
  .next ({ s with sf := setField 5 imm s.sf }).succeed

/-- GET_ST: `RES <- canon_ST(SF[1:0])` (40_flag_ops R107). -/
def execGetSt (s : State) : Result := .next (s.answer ((canonST (lowBits s.sf)).setWidth 8))

/-- SET_ST: `SF[1:0] <- canon_ST(imm)` (40_flag_ops R108). -/
def execSetSt (imm : BitVec 2) (s : State) : Result :=
  .next ({ s with sf := setField 0 (canonST imm) s.sf }).succeed

/-! ### ExchangeFlags (XF) -/

/-- LDXF: `XF <- imm` (40_flag_ops R109). -/
def execLdxf (imm : BitVec 8) (s : State) : Result := .next (s.putXf imm).succeed

/-- RDXF: `RES <- XF` (40_flag_ops R110). -/
def execRdxf (s : State) : Result := .next (s.answer s.xf)

/-- GET_I: `RES <- XF[0]` (40_flag_ops R111). -/
def execGetI (s : State) : Result := .next (s.answer (getField 0 1 s.xf))

/-- SET_I: `XF[0] <- imm` (40_flag_ops R112). -/
def execSetI (imm : BitVec 1) (s : State) : Result :=
  .next ({ s with xf := setField 0 imm s.xf }).succeed

/-- GET_A: `RES <- XF[1]` (40_flag_ops R113). -/
def execGetA (s : State) : Result := .next (s.answer (getField 1 1 s.xf))

/-- SET_A: `XF[1] <- imm` (40_flag_ops R114). -/
def execSetA (imm : BitVec 1) (s : State) : Result :=
  .next ({ s with xf := setField 1 imm s.xf }).succeed

/-- GET_R: `RES <- XF[2]` (40_flag_ops R115). -/
def execGetR (s : State) : Result := .next (s.answer (getField 2 1 s.xf))

/-- SET_R: `XF[2] <- imm` (40_flag_ops R116). -/
def execSetR (imm : BitVec 1) (s : State) : Result :=
  .next ({ s with xf := setField 2 imm s.xf }).succeed

/-- GET_SX: `RES <- XF[3]` (40_flag_ops R117). -/
def execGetSx (s : State) : Result := .next (s.answer (getField 3 1 s.xf))

/-- SET_SX: `XF[3] <- imm` (40_flag_ops R118). -/
def execSetSx (imm : BitVec 1) (s : State) : Result :=
  .next ({ s with xf := setField 3 imm s.xf }).succeed

/-- GET_V: `RES <- XF[4]` (40_flag_ops R119). -/
def execGetV (s : State) : Result := .next (s.answer (getField 4 1 s.xf))

/-- SET_V: `XF[4] <- imm` (40_flag_ops R120). -/
def execSetV (imm : BitVec 1) (s : State) : Result :=
  .next ({ s with xf := setField 4 imm s.xf }).succeed

end Sys2Proof.Machine
end

