-- ==== Sys2Proof/Machine/HeaderCodec.lean ====
section
/-! DEFINITION. The Message Header codec: `hdr_check`, `hdr_bytes`, `hdr_parse`, `hdr_commit` and the
commands ENC_HDR and DEC_HDR (42_header_codec). -/

namespace Sys2Proof.Machine

/-- `hdr_check`: the tags agree with CTRL.STREAM and the flag bits, and a present extensions block fits its
buffer (42_header_codec R143). -/
def hdrCheck (s : State) : Bool :=
  tagLenV s.tag == s.stream
    && tagSrcV s.tag == mfS s.mf
    && tagDstT s.tag == wantDstT (mfDsiz s.mf)
    && tagMxV s.tag == sfMx s.sf
    && (!tagMxV s.tag || decide (s.mxlen.toNat ≤ Config.cap))

/-- The destination bytes: 8, 2 or none by DSIZ (42_header_codec R142). -/
def dstBytes (d : Dsiz) (dst : BitVec 64) : Bytes :=
  match d with
  | .nodeID => le 8 dst
  | .groupID => le 2 (dst.setWidth 16)
  | .notPresent => []
  | .reserved => []

/-- `hdr_bytes`: the header fields in wire order (42_header_codec R142, 30_encoding R61). -/
def hdrBytes (s : State) : Bytes :=
  (if s.stream then le 2 s.len else [])
    ++ [s.mf] ++ le 2 s.sid ++ [s.sf] ++ le 4 s.ctr
    ++ (if mfS s.mf then le 8 s.src else [])
    ++ dstBytes (mfDsiz s.mf) s.dst
    ++ (if sfMx s.sf then le 2 s.mxlen ++ s.memRead .mxb 0 s.mxlen.toNat else [])

/-- ENC_HDR (42_header_codec R142). -/
def execEncHdr (s : State) : Result :=
  if hdrCheck s then .next (s.emit (hdrBytes s))
  else .next (s.raise ⟨.invariantViolation, 0⟩)

/-- The version test at the Message Flags byte, before any later field (42_header_codec R145). -/
def checkVersion (vermask : BitVec 16) (mf : Byte) (pos : Nat) : Except CodecError Unit :=
  if versionAccepted vermask mf then .ok () else .error ⟨.unsupportedVersion, pos⟩

/-- The destination a decode reads, shaped by DSIZ alone (42_header_codec R146). -/
def takeDst (d : Dsiz) (s : Bytes) (pos : Nat) : Except CodecError (BitVec 64 × Nat) :=
  match d with
  | .nodeID => takeField 64 s pos 8
  | .groupID => takeField 64 s pos 2
  | .notPresent => .ok (0#64, pos)
  | .reserved => .ok (0#64, pos)

/-- `hdr_parse`: the header fields of a byte sequence in wire order, and the cursor after them
(42_header_codec R144 to R148). -/
def hdrParse (stream : Bool) (vermask : BitVec 16) (s : Bytes) :
    Except CodecError (Header × Nat) := do
  let (len, flagsAt) ← takeOptional stream 16 s 0 2
  let (mf, pos) ← takeField 8 s flagsAt 1
  checkVersion vermask mf flagsAt
  let (sid, pos) ← takeField 16 s pos 2
  let (sf, pos) ← takeField 8 s pos 1
  let (ctr, pos) ← takeField 32 s pos 4
  let (src, pos) ← takeOptional (mfS mf) 64 s pos 8
  let (dst, pos) ← takeDst (mfDsiz mf) s pos
  let (mx, pos) ← takeBlock (sfMx sf) s pos
  return ({ len := len, lenV := stream, mf := mf, sid := sid, sf := sf, ctr := ctr,
            src := src, srcV := mfS mf, dst := dst, dstT := wantDstT (mfDsiz mf),
            mx := mx, mxV := sfMx sf }, pos)

/-- A present block's content goes to its buffer; an absent block leaves the buffer (10_state R29). -/
def State.commitBlock (b : BufId) (present : Bool) (x : Bytes) (s : State) : State :=
  if present then s.memWrite b 0 x else s

/-- `hdr_commit`: what a successful header decode writes (42_header_codec R149). -/
def hdrCommit (h : Header) (s : State) : State :=
  let s := s.commitBlock .mxb h.mxV h.mx
  State.putSf h.sf
    { s with
      len := h.len
      mf := h.mf
      sid := h.sid
      ctr := h.ctr
      src := h.src
      dst := h.dst
      mxlen := BitVec.ofNat 16 h.mx.length
      tag := setHeaderTags h.lenV h.srcV h.dstT h.mxV s.tag }

/-- DEC_HDR (42_header_codec R144, R150). -/
def execDecHdr (s : State) : Result :=
  if s.ilenTooLong then .next (s.raise ⟨.invariantViolation, 0⟩)
  else
    match hdrParse s.stream s.vermask s.input with
    | .error e => .next (s.raise e)
    | .ok (h, pos) =>
      if s.exact && pos != s.ilen.toNat then .next (s.raise ⟨.trailingBytes, pos⟩)
      else .next ((hdrCommit h s).succeedAt pos)

end Sys2Proof.Machine
end

