-- ==== Sys2Proof/Machine/PmCodec.lean ====
section
/-! DEFINITION. The Protocol Message codec: `pm_check`, `pm_bytes`, `pm_parse`, `pm_commit` and the
commands ENC_PM and DEC_PM (43_protocol_message_codec). -/

namespace Sys2Proof.Machine

/-- `pm_check`: the tags agree with the flag bits, and the blocks that are read fit their buffers
(43_protocol_message_codec R162). -/
def pmCheck (s : State) : Bool :=
  tagVidV s.tag == xfV s.xf
    && tagAckV s.tag == xfA s.xf
    && tagSxV s.tag == xfSx s.xf
    && (!tagSxV s.tag || decide (s.sxlen.toNat ≤ Config.cap))
    && decide (s.paylen.toNat ≤ Config.cap)

/-- `pm_bytes`: the Protocol Message fields in wire order (43_protocol_message_codec R161,
30_encoding R68). -/
def pmBytes (s : State) : Bytes :=
  [s.xf, s.opc] ++ le 2 s.xid ++ le 2 s.pid
    ++ (if xfV s.xf then le 2 s.vid else [])
    ++ (if xfA s.xf then le 4 s.ack else [])
    ++ (if xfSx s.xf then le 2 s.sxlen ++ s.memRead .sxb 0 s.sxlen.toNat else [])
    ++ s.memRead .pay 0 s.paylen.toNat

/-- ENC_PM (43_protocol_message_codec R161). -/
def execEncPm (s : State) : Result :=
  if pmCheck s then .next (s.emit (pmBytes s))
  else .next (s.raise ⟨.invariantViolation, 0⟩)

/-- `pm_parse`: the Protocol Message fields of a plaintext in wire order; the payload takes every byte
that is left (43_protocol_message_codec R163 to R165). -/
def pmParse (s : Bytes) : Except CodecError ProtocolMessage := do
  let (xf, pos) ← takeField 8 s 0 1
  let (opc, pos) ← takeField 8 s pos 1
  let (xid, pos) ← takeField 16 s pos 2
  let (pid, pos) ← takeField 16 s pos 2
  let (vid, pos) ← takeOptional (xfV xf) 16 s pos 2
  let (ack, pos) ← takeOptional (xfA xf) 32 s pos 4
  let (sx, pos) ← takeBlock (xfSx xf) s pos
  return { xf := xf, opc := opc, xid := xid, pid := pid, vid := vid, vidV := xfV xf,
           ack := ack, ackV := xfA xf, sx := sx, sxV := xfSx xf, pay := s.drop pos }

/-- `pm_commit`: what a successful Protocol Message decode writes (43_protocol_message_codec R163). -/
def pmCommit (m : ProtocolMessage) (s : State) : State :=
  let s := (s.commitBlock .sxb m.sxV m.sx).memWrite .pay 0 m.pay
  { s with
    xf := m.xf
    opc := m.opc
    xid := m.xid
    pid := m.pid
    vid := m.vid
    ack := m.ack
    sxlen := BitVec.ofNat 16 m.sx.length
    paylen := BitVec.ofNat 16 m.pay.length
    tag := setPmTags m.vidV m.ackV m.sxV s.tag }

/-- DEC_PM (43_protocol_message_codec R163). -/
def execDecPm (s : State) : Result :=
  if s.ilenTooLong then .next (s.raise ⟨.invariantViolation, 0⟩)
  else
    match pmParse s.input with
    | .error e => .next (s.raise e)
    | .ok m => .next ((pmCommit m s).succeedAt s.ilen.toNat)

end Sys2Proof.Machine
end

