-- ==== Sys2Proof/Machine/MessageAssembly.lean ====
section
/-! DEFINITION. Message assembly over the crypto port: `ftr_check` and the commands ENC_MSG and DEC_MSG
(44_message_assembly). -/

namespace Sys2Proof.Machine

/-- The length of the footer: MICSZ in a secure session, else 0 (30_encoding R71). -/
def State.footerLength (s : State) : Nat := if s.secure then s.micsz.toNat else 0

/-- `ftr_check` (44_message_assembly R179). -/
def ftrCheck (s : State) : Bool :=
  s.miclen.toNat == s.footerLength && decide (s.miclen.toNat ≤ Config.cap)

/-- ENC_MSG (44_message_assembly R180). The answer of `encrypt` is part of the assembled bytes, so an
answer over CAP makes them exceed CAP and `emit` raises OutputOverflow for both. -/
def execEncMsg (s : State) : Result :=
  if hdrCheck s && pmCheck s && ftrCheck s then
    if Config.cap < (hdrBytes s).length || Config.cap < (pmBytes s).length then
      .next (s.raise ⟨.outputOverflow, 0⟩)
    else
      let (ct, s') := s.callEncrypt (pmBytes s)
      .next (s'.emit (hdrBytes s ++ ct ++ s.memRead .mic 0 s.miclen.toNat))
  else .next (s.raise ⟨.invariantViolation, 0⟩)

/-- Verification before anything is trusted: the call is made in a secure session only
(44_message_assembly R178, R182). -/
def State.verifyStage (hb ct mic : Bytes) (s : State) : Bool × State :=
  if s.secure then s.callVerify hb ct mic else (true, s)

/-- What a successful message decode writes: the header, the Protocol Message and the footer, all at once
(44_message_assembly R181). -/
def msgCommit (h : Header) (m : ProtocolMessage) (mic : Bytes) (s : State) : State :=
  { (pmCommit m (hdrCommit h s)).memWrite .mic 0 mic with miclen := BitVec.ofNat 16 mic.length }

/-- The last stage of DEC_MSG, on the answer of `decrypt`: the Protocol Message, then all writes at once. An
error of this stage is reported at p, the header length (44_message_assembly R181). -/
def decMsgFinish (h : Header) (p : Nat) (mic : Bytes) (r : Option Bytes) (s : State) : Result :=
  match r with
  | none => .next (s.raise ⟨.decryptionFailed, p⟩)
  | some pt =>
    if Config.cap < pt.length then .next (s.raise ⟨.outputOverflow, p⟩)
    else
      match pmParse pt with
      | .error e => .next (s.raise ⟨e.kind, p⟩)
      | .ok m => .next ((msgCommit h m mic s).succeedAt s.ilen.toNat)

/-- DEC_MSG (44_message_assembly R181, R182). -/
def execDecMsg (s : State) : Result :=
  if s.ilenTooLong then .next (s.raise ⟨.invariantViolation, 0⟩)
  else
    match hdrParse s.stream s.vermask s.input with
    | .error e => .next (s.raise e)
    | .ok (h, p) =>
      let f := s.footerLength
      if s.ilen.toNat < p + f then .next (s.raise ⟨.truncatedInput, p⟩)
      else
        let hb := s.memRead .ibuf 0 p
        let ct := s.memRead .ibuf p (s.ilen.toNat - f - p)
        let mic := s.memRead .ibuf (s.ilen.toNat - f) f
        let (ok, s') := s.verifyStage hb ct mic
        if ok then
          let (r, s'') := s'.callDecrypt ct
          decMsgFinish h p mic r s''
        else .next (s'.raise ⟨.integrityCheckFailed, p⟩)

end Sys2Proof.Machine
end

