-- ==== Sys2Proof/Machine/System.lean ====
section
/-! DEFINITION. The system command NOP (45_system). -/

namespace Sys2Proof.Machine

/-- NOP: `STATUS <- OK` and nothing else (45_system R195). -/
def execNop (s : State) : Result := .next s.succeed

end Sys2Proof.Machine
end

