-- ==== Sys2Proof/Machine/Dispatch.lean ====
section
/-! DEFINITION. One arm per command: its meaning. -/

namespace Sys2Proof.Machine

def exec (i : Instr) (s : State) : Host.Outcome State Fault Refusal :=
  match i with
  | .nop => Sys2Proof.Machine.execNop s
  | .ldmf imm => Sys2Proof.Machine.execLdmf imm s
  | .rdmf => Sys2Proof.Machine.execRdmf s
  | .getVer => Sys2Proof.Machine.execGetVer s
  | .setVer imm => Sys2Proof.Machine.execSetVer imm s
  | .getS => Sys2Proof.Machine.execGetS s
  | .setS imm => Sys2Proof.Machine.execSetS imm s
  | .getDsiz => Sys2Proof.Machine.execGetDsiz s
  | .setDsiz imm => Sys2Proof.Machine.execSetDsiz imm s
  | .ldsf imm => Sys2Proof.Machine.execLdsf imm s
  | .rdsf => Sys2Proof.Machine.execRdsf s
  | .getP => Sys2Proof.Machine.execGetP s
  | .setP imm => Sys2Proof.Machine.execSetP imm s
  | .getC => Sys2Proof.Machine.execGetC s
  | .setC imm => Sys2Proof.Machine.execSetC imm s
  | .getMx => Sys2Proof.Machine.execGetMx s
  | .setMx imm => Sys2Proof.Machine.execSetMx imm s
  | .getSt => Sys2Proof.Machine.execGetSt s
  | .setSt imm => Sys2Proof.Machine.execSetSt imm s
  | .ldxf imm => Sys2Proof.Machine.execLdxf imm s
  | .rdxf => Sys2Proof.Machine.execRdxf s
  | .getI => Sys2Proof.Machine.execGetI s
  | .setI imm => Sys2Proof.Machine.execSetI imm s
  | .getA => Sys2Proof.Machine.execGetA s
  | .setA imm => Sys2Proof.Machine.execSetA imm s
  | .getR => Sys2Proof.Machine.execGetR s
  | .setR imm => Sys2Proof.Machine.execSetR imm s
  | .getSx => Sys2Proof.Machine.execGetSx s
  | .setSx imm => Sys2Proof.Machine.execSetSx imm s
  | .getV => Sys2Proof.Machine.execGetV s
  | .setV imm => Sys2Proof.Machine.execSetV imm s
  | .dsizDec imm => Sys2Proof.Machine.execDsizDec imm s
  | .dsizEnc imm => Sys2Proof.Machine.execDsizEnc imm s
  | .stDec imm => Sys2Proof.Machine.execStDec imm s
  | .stEnc imm => Sys2Proof.Machine.execStEnc imm s
  | .encHdr => Sys2Proof.Machine.execEncHdr s
  | .decHdr => Sys2Proof.Machine.execDecHdr s
  | .encPm => Sys2Proof.Machine.execEncPm s
  | .decPm => Sys2Proof.Machine.execDecPm s
  | .encMsg => Sys2Proof.Machine.execEncMsg s
  | .decMsg => Sys2Proof.Machine.execDecMsg s

end Sys2Proof.Machine
end

