-- ==== Sys2Proof/Machine/HostPort.lean ====
section
/-! DEFINITION. The host port (20_memory R50 to R54), the reset event (70_reset R230), and what one host
event does to the machine. -/

namespace Sys2Proof.Machine

/-- The register map of 10_state R10: which register answers to a host-port number. -/
def registerMap : List (Nat × Reg) :=
  [(0x00, .cmd), (0x01, .status), (0x02, .res), (0x03, .pos),
   (0x04, .ctrl), (0x05, .vermask), (0x06, .micsz), (0x07, .ctx),
   (0x10, .tag), (0x11, .len), (0x12, .mf), (0x13, .sid), (0x14, .sf),
   (0x15, .ctr), (0x16, .src), (0x17, .dst), (0x18, .mxlen),
   (0x20, .xf), (0x21, .opc), (0x22, .xid), (0x23, .pid), (0x24, .vid),
   (0x25, .ack), (0x26, .sxlen), (0x27, .paylen),
   (0x30, .miclen), (0x31, .ilen), (0x32, .olen)]

/-- The register with a host-port number, or `none` when the number is unimplemented (10_state R10). -/
def regOfNumber (n : Nat) : Option Reg := registerMap.lookup n

/-- The buffer with a host-port id, or `none` for an id above 5 (20_memory R40, R53). -/
def bufOfId : Nat → Option BufId
  | 0 => some .ibuf
  | 1 => some .obuf
  | 2 => some .mxb
  | 3 => some .sxb
  | 4 => some .pay
  | 5 => some .mic
  | _ => none

/-- A register's value as the host reads it; CMD keeps no value and reads 0 (10_state R30). -/
def State.regValue (s : State) : Reg → Nat
  | .cmd => 0
  | .status => s.status.toNat
  | .res => s.res.toNat
  | .pos => s.pos.toNat
  | .ctrl => s.ctrl.toNat
  | .vermask => s.vermask.toNat
  | .micsz => s.micsz.toNat
  | .ctx => s.ctx.toNat
  | .tag => s.tag.toNat
  | .len => s.len.toNat
  | .mf => s.mf.toNat
  | .sid => s.sid.toNat
  | .sf => s.sf.toNat
  | .ctr => s.ctr.toNat
  | .src => s.src.toNat
  | .dst => s.dst.toNat
  | .mxlen => s.mxlen.toNat
  | .xf => s.xf.toNat
  | .opc => s.opc.toNat
  | .xid => s.xid.toNat
  | .pid => s.pid.toNat
  | .vid => s.vid.toNat
  | .ack => s.ack.toNat
  | .sxlen => s.sxlen.toNat
  | .paylen => s.paylen.toNat
  | .miclen => s.miclen.toNat
  | .ilen => s.ilen.toNat
  | .olen => s.olen.toNat

/-- `HostRead(n)`: the register's value, 0 for an unimplemented number (20_memory R50). -/
def State.hostRead (s : State) (n : Nat) : Nat :=
  match regOfNumber n with
  | some r => s.regValue r
  | none => 0

/-- What a host write does to a register that is not CMD: an RW register takes the value, MF, SF and XF as
their load commands do but without STATUS, and a read-only register ignores it (20_memory R51, R52). -/
def State.putReg (s : State) (r : Reg) (v : Nat) : State :=
  match r with
  | .cmd => s
  | .status => s
  | .res => s
  | .pos => s
  | .ctrl => { s with ctrl := BitVec.ofNat 8 v }
  | .vermask => { s with vermask := BitVec.ofNat 16 v }
  | .micsz => { s with micsz := BitVec.ofNat 8 v }
  | .ctx => { s with ctx := BitVec.ofNat Config.ctxBits v }
  | .tag => { s with tag := BitVec.ofNat 8 v }
  | .len => { s with len := BitVec.ofNat 16 v }
  | .mf => s.putMf (BitVec.ofNat 8 v)
  | .sid => { s with sid := BitVec.ofNat 16 v }
  | .sf => s.putSf (BitVec.ofNat 8 v)
  | .ctr => { s with ctr := BitVec.ofNat 32 v }
  | .src => { s with src := BitVec.ofNat 64 v }
  | .dst => { s with dst := BitVec.ofNat 64 v }
  | .mxlen => { s with mxlen := BitVec.ofNat 16 v }
  | .xf => s.putXf (BitVec.ofNat 8 v)
  | .opc => { s with opc := BitVec.ofNat 8 v }
  | .xid => { s with xid := BitVec.ofNat 16 v }
  | .pid => { s with pid := BitVec.ofNat 16 v }
  | .vid => { s with vid := BitVec.ofNat 16 v }
  | .ack => { s with ack := BitVec.ofNat 32 v }
  | .sxlen => { s with sxlen := BitVec.ofNat 16 v }
  | .paylen => { s with paylen := BitVec.ofNat 16 v }
  | .miclen => { s with miclen := BitVec.ofNat 16 v }
  | .ilen => { s with ilen := BitVec.ofNat 16 v }
  | .olen => s

/-- Which of the three crypto-port calls an observation is (44_message_assembly R177, R178). -/
def Observation.isEncryptCall : Observation → Bool
  | .encryptCall _ _ => true
  | _ => false

/-- The same for `verify`. -/
def Observation.isVerifyCall : Observation → Bool
  | .verifyCall _ _ _ _ => true
  | _ => false

/-- The same for `decrypt`. -/
def Observation.isDecryptCall : Observation → Bool
  | .decryptCall _ _ => true
  | _ => false

/-- A write of CMD: the command the word spells runs to its outcome; a word that spells none is the
Illegal outcome (20_memory R54, 30_encoding R78). -/
def issue (w : CommandWord) (s : State) : Result :=
  match decode w with
  | .ok i => exec i s
  | .error _ => .next s.illegal

/-- `HostWrite(n, v)` (20_memory R51, R54); an unimplemented number is ignored. -/
def hostWrite (n v : Nat) (s : State) : Result :=
  match regOfNumber n with
  | some .cmd => issue (BitVec.ofNat 16 v) s
  | some r => .next (s.putReg r v)
  | none => .next s

/-- `HostBufRead(id, a)`: byte a whatever the length register says, 0 for an offset at or above CAP or an
id above 5 (20_memory R53). -/
def State.hostBufRead (s : State) (id a : Nat) : Byte :=
  match bufOfId id with
  | some b => if a < Config.cap then s.readByte b a else 0#8
  | none => 0#8

/-- `HostBufWrite(id, a, b)`: ignored for OBUF, for an offset at or above CAP and for an id above 5; it
changes no length register (20_memory R53). -/
def State.hostBufWrite (s : State) (id a : Nat) (v : Byte) : State :=
  match bufOfId id with
  | some .obuf => s
  | some b => if a < Config.cap then s.memWrite b a [v] else s
  | none => s

/-- The reset event: every register takes its reset value and every buffer byte becomes unspecified
again (70_reset R230, R231; log entry 3). What the host and the collaborator will do next, and what was
observed, is not the block's to reset. -/
def State.applyReset (s : State) : State :=
  { State.reset with
    epoch := s.epoch + 1
    events := s.events
    encryptAnswers := s.encryptAnswers
    verifyAnswers := s.verifyAnswers
    decryptAnswers := s.decryptAnswers
    calls := s.calls
    obs := s.obs }

/-- The observations that one state's record has and an earlier one's has not. -/
def newObservations (before after : State) : List Observation := after.obs.drop before.obs.length

/-- The reset event in the middle of a command: the command leaves no outcome, and of its crypto-port calls
the collaborator saw those it had made by then, the last possibly still unanswered and then dropped
(70_reset R230). The next answers are those after the calls that were made (log entry 10). -/
def State.abandon (w calls : Nat) (s : State) : State :=
  match issue (BitVec.ofNat 16 w) s with
  | .next t =>
    let seen := (newObservations s t).take calls
    { s.applyReset with
      encryptAnswers := s.encryptAnswers.drop (seen.countP Observation.isEncryptCall)
      verifyAnswers := s.verifyAnswers.drop (seen.countP Observation.isVerifyCall)
      decryptAnswers := s.decryptAnswers.drop (seen.countP Observation.isDecryptCall)
      calls := s.calls + seen.length
      obs := s.obs ++ seen }
  | .fault _ => s.applyReset
  | .refused _ => s.applyReset

/-- An observation is appended to the run's record (70_reset R236). -/
def State.observe (o : Observation) (s : State) : State := { s with obs := s.obs ++ [o] }

/-- What one host event does (20_memory R48, R50 to R54; 70_reset R230, R236). -/
def perform (e : HostEvent) (s : State) : Result :=
  match e with
  | .regRead n => .next (s.observe (.regValue (s.hostRead n)))
  | .regWrite n v => hostWrite n v s
  | .bufRead id a => .next (s.observe (.bufByte (s.hostBufRead id a)))
  | .bufWrite id a v => .next (s.hostBufWrite id a v)
  | .reset => .next s.applyReset
  | .resetDuring w calls => .next (s.abandon w calls)

/-- One step: the host's next event completes before the following one begins; with no event left the
block is idle and starts nothing by itself (70_reset R236; log entry 5). -/
def runNextEvent (s : State) : Result :=
  match s.events with
  | [] => .next s
  | e :: rest => perform e { s with events := rest }

/-- The host's very next event is the write of a word to CMD. -/
def State.enqueueCommand (s : State) (w : Nat) : State :=
  { s with events := .regWrite 0x00 w :: s.events }

end Sys2Proof.Machine
end

