-- ==== Sys2Proof/Machine/Step.lean ====
section
/-! DEFINITION. One step of the machine: the next event of the run (70_reset R236). -/

namespace Sys2Proof.Machine

/-- One step: the host's next event, a command being one event (20_memory R47, R48). -/
def step (s : State) : Host.Outcome State Fault Refusal := runNextEvent s

/-- `s` with the instruction placed where the next step takes it: the host's next event writes its word
to CMD (20_memory R54; log entry 5). -/
def State.withFetchWord (s : State) (nbits w : Nat) : State := s.enqueueCommand (w % 2 ^ nbits)

end Sys2Proof.Machine
end

