-- ==== Sys2Proof/Safety.lean ====
section
/-! DEFINITION. The terms claims are stated in: what a safe step is, the invariant of the machine, the wire
layouts of 30_encoding R61 and R68 written byte by byte (apart from the machine's own packing), and which
parts of two states agree. -/

namespace Sys2Proof

/-! ### Words and the commands they spell -/

/-- The words with the given OP are exactly those of one command with a k-bit operand: IMM[k-1:0] is the
operand, and a word with a bit of IMM[7:k] set is illegal (30_encoding R76, R78). -/
def Spells (op : Byte) (k : Nat) (mk : BitVec k → Instr) : Prop :=
  ∀ imm : Byte, decode (op ++ imm) =
    if imm.toNat < 2 ^ k then .ok (mk (imm.setWidth k)) else .error (.immediateNotZero op imm)

/-- The words with the given OP are exactly those of one command without operand. -/
def SpellsPlain (op : Byte) (i : Instr) : Prop := Spells op 0 fun _ => i

/-! ### The wire layouts -/

namespace Wire

/-- A 16-bit value, least significant byte first (20_memory R43). -/
def u16 (v : BitVec 16) : Bytes := [v.extractLsb' 0 8, v.extractLsb' 8 8]

/-- A 32-bit value, least significant byte first (20_memory R43). -/
def u32 (v : BitVec 32) : Bytes :=
  [v.extractLsb' 0 8, v.extractLsb' 8 8, v.extractLsb' 16 8, v.extractLsb' 24 8]

/-- A 64-bit value, least significant byte first (20_memory R43). -/
def u64 (v : BitVec 64) : Bytes :=
  u32 (v.extractLsb' 0 32) ++ u32 (v.extractLsb' 32 32)

/-- The values a Message Header carries (30_encoding R61); those of absent fields are not on the wire. -/
structure HeaderFields where
  len : BitVec 16
  mf : Byte
  sid : BitVec 16
  sf : Byte
  ctr : BitVec 32
  src : BitVec 64
  dst : BitVec 64
  mx : Bytes
  deriving DecidableEq, Repr

/-- The destination field: 8 bytes for DSIZ = 1, 2 for DSIZ = 2, none for 0 and 3 (30_encoding R61, R64). -/
def destination (mf : Byte) (dst : BitVec 64) : Bytes :=
  if mf.extractLsb' 0 2 = 1#2 then u64 dst
  else if mf.extractLsb' 0 2 = 2#2 then u16 (dst.extractLsb' 0 16)
  else []

/-- A length-prefixed block (30_encoding R70). -/
def block (x : Bytes) : Bytes := u16 (BitVec.ofNat 16 x.length) ++ x

/-- The Message Header on the wire (30_encoding R61): S is bit 2 of the Message Flags, MX bit 5 of the
Security Flags. -/
def header (stream : Bool) (f : HeaderFields) : Bytes :=
  (if stream then u16 f.len else [])
    ++ [f.mf] ++ u16 f.sid ++ [f.sf] ++ u32 f.ctr
    ++ (if f.mf.getLsbD 2 then u64 f.src else [])
    ++ destination f.mf f.dst
    ++ (if f.sf.getLsbD 5 then block f.mx else [])

/-- The widths of a header's fields in wire order, an extensions block being its prefix and then its
content (30_encoding R61, R70). -/
def headerWidths (stream : Bool) (f : HeaderFields) : List Nat :=
  (if stream then [2] else []) ++ [1, 2, 1, 4]
    ++ (if f.mf.getLsbD 2 then [8] else [])
    ++ (if f.mf.extractLsb' 0 2 = 1#2 then [8] else if f.mf.extractLsb' 0 2 = 2#2 then [2] else [])
    ++ (if f.sf.getLsbD 5 then [2, f.mx.length] else [])

/-- A SessionType pattern as SF holds it: 2 becomes 3 (30_encoding R66). -/
def canonical (sf : Byte) : Byte :=
  sf.extractLsb' 2 6 ++ (if sf.extractLsb' 0 2 = 2#2 then 3#2 else sf.extractLsb' 0 2)

/-- What the header registers hold after the fields are decoded: SessionType canonical, absent fields 0, a
Group ID zero-extended (42_header_codec R149, 10_state R29). -/
def HeaderFields.decoded (stream : Bool) (f : HeaderFields) : HeaderFields :=
  { f with
    len := if stream then f.len else 0#16
    sf := canonical f.sf
    src := if f.mf.getLsbD 2 then f.src else 0#64
    dst := if f.mf.extractLsb' 0 2 = 1#2 then f.dst
      else if f.mf.extractLsb' 0 2 = 2#2 then (f.dst.extractLsb' 0 16).setWidth 64 else 0#64
    mx := if f.sf.getLsbD 5 then f.mx else [] }

/-- The destination tag of a DSIZ pattern, `want` (42_header_codec R143). -/
def destinationTag (mf : Byte) : BitVec 2 :=
  if mf.extractLsb' 0 2 = 1#2 then 1#2 else if mf.extractLsb' 0 2 = 2#2 then 2#2 else 0#2

/-- TAG after a header decode: bits 7:5 kept, bits 4:0 by STREAM and the flag bytes (10_state R28). -/
def headerTag (stream : Bool) (f : HeaderFields) (old : Byte) : Byte :=
  old.extractLsb' 5 3 ++ BitVec.ofBool (f.sf.getLsbD 5) ++ destinationTag f.mf
    ++ BitVec.ofBool (f.mf.getLsbD 2) ++ BitVec.ofBool stream

/-- The values a Protocol Message carries (30_encoding R68). -/
structure PmFields where
  xf : Byte
  opc : Byte
  xid : BitVec 16
  pid : BitVec 16
  vid : BitVec 16
  ack : BitVec 32
  sx : Bytes
  pay : Bytes
  deriving DecidableEq, Repr

/-- The Protocol Message up to its payload (30_encoding R68): V is bit 4, A bit 1, SX bit 3 of the
Exchange Flags. -/
def pmHead (f : PmFields) : Bytes :=
  [f.xf, f.opc] ++ u16 f.xid ++ u16 f.pid
    ++ (if f.xf.getLsbD 4 then u16 f.vid else [])
    ++ (if f.xf.getLsbD 1 then u32 f.ack else [])
    ++ (if f.xf.getLsbD 3 then block f.sx else [])

/-- The Protocol Message on the wire: the payload takes the rest (30_encoding R68). -/
def pm (f : PmFields) : Bytes := pmHead f ++ f.pay

/-- The widths of the fields before the payload, in wire order (30_encoding R68, R70). -/
def pmWidths (f : PmFields) : List Nat :=
  [1, 1, 2, 2] ++ (if f.xf.getLsbD 4 then [2] else []) ++ (if f.xf.getLsbD 1 then [4] else [])
    ++ (if f.xf.getLsbD 3 then [2, f.sx.length] else [])

/-- What the Protocol Message registers hold after the fields are decoded: absent fields 0
(43_protocol_message_codec R163, 10_state R29). -/
def PmFields.decoded (f : PmFields) : PmFields :=
  { f with
    vid := if f.xf.getLsbD 4 then f.vid else 0#16
    ack := if f.xf.getLsbD 1 then f.ack else 0#32
    sx := if f.xf.getLsbD 3 then f.sx else [] }

/-- TAG after a Protocol Message decode: bits 4:0 kept, bits 7:5 by the flag byte (10_state R28). -/
def pmTag (f : PmFields) (old : Byte) : Byte :=
  BitVec.ofBool (f.xf.getLsbD 3) ++ BitVec.ofBool (f.xf.getLsbD 1) ++ BitVec.ofBool (f.xf.getLsbD 4)
    ++ old.extractLsb' 0 5

/-- Where the first field that does not fit would start, when `available` bytes are there and the fields
have the given widths (42_header_codec R148). -/
def missingFieldAt (available : Nat) : Nat → List Nat → Nat
  | pos, [] => pos
  | pos, w :: ws => if available < pos + w then pos else missingFieldAt available (pos + w) ws

end Wire

namespace Machine

/-! ### What the registers hold, in the terms of the wire -/

/-- The values the header registers and MXB hold (10_state R11 to R18). -/
def State.headerFields (s : State) : Wire.HeaderFields where
  len := s.len
  mf := s.mf
  sid := s.sid
  sf := s.sf
  ctr := s.ctr
  src := s.src
  dst := s.dst
  mx := s.memRead .mxb 0 s.mxlen.toNat

/-- The values the Protocol Message registers, SXB and PAY hold (10_state R19 to R26). -/
def State.pmFields (s : State) : Wire.PmFields where
  xf := s.xf
  opc := s.opc
  xid := s.xid
  pid := s.pid
  vid := s.vid
  ack := s.ack
  sx := s.memRead .sxb 0 s.sxlen.toNat
  pay := s.memRead .pay 0 s.paylen.toNat

/-- The bytes of the integrity check, MIC[0..MICLEN) (10_state R27). -/
def State.micBytes (s : State) : Bytes := s.memRead .mic 0 s.miclen.toNat

/-- The tags agree with STREAM and the header's flag bits: the five conditions of 42_header_codec R143. -/
def State.HeaderConsistent (s : State) : Prop :=
  s.tag.getLsbD 0 = s.ctrl.getLsbD 0 ∧
  s.tag.getLsbD 1 = s.mf.getLsbD 2 ∧
  s.tag.extractLsb' 2 2 = Wire.destinationTag s.mf ∧
  s.tag.getLsbD 4 = s.sf.getLsbD 5 ∧
  (s.tag.getLsbD 4 = true → s.mxlen.toNat ≤ Config.cap)

/-- The tags agree with the Exchange Flags: the five conditions of 43_protocol_message_codec R162. -/
def State.PmConsistent (s : State) : Prop :=
  s.tag.getLsbD 5 = s.xf.getLsbD 4 ∧
  s.tag.getLsbD 6 = s.xf.getLsbD 1 ∧
  s.tag.getLsbD 7 = s.xf.getLsbD 3 ∧
  (s.tag.getLsbD 7 = true → s.sxlen.toNat ≤ Config.cap) ∧
  s.paylen.toNat ≤ Config.cap

/-- The footer condition of an encode (44_message_assembly R179). -/
def State.FooterConsistent (s : State) : Prop :=
  s.miclen.toNat = (if s.ctrl.getLsbD 2 then s.micsz.toNat else 0) ∧ s.miclen.toNat ≤ Config.cap

/-- VERMASK accepts the version of a Message Flags byte (10_state R35). -/
def State.AcceptsVersion (s : State) (mf : Byte) : Prop :=
  s.vermask.getLsbD (mf.extractLsb' 4 4).toNat = true

/-! ### Parts of a state put back, so that a frame is one equation -/

/-- STATUS and POS of another state (60_exceptions R205). -/
def State.withOutcomeOf (t s : State) : State := { t with status := s.status, pos := s.pos }

/-- OBUF and OLEN of another state. -/
def State.withOutputOf (t s : State) : State := { t with obuf := s.obuf, olen := s.olen }

/-- The header registers, MXB and TAG of another state. -/
def State.withHeaderOf (t s : State) : State :=
  { t with
    len := s.len
    mf := s.mf
    sid := s.sid
    sf := s.sf
    ctr := s.ctr
    src := s.src
    dst := s.dst
    mxlen := s.mxlen
    mxb := s.mxb
    tag := s.tag }

/-- The Protocol Message registers, SXB, PAY and TAG of another state. -/
def State.withPmOf (t s : State) : State :=
  { t with
    xf := s.xf
    opc := s.opc
    xid := s.xid
    pid := s.pid
    vid := s.vid
    ack := s.ack
    sxlen := s.sxlen
    paylen := s.paylen
    sxb := s.sxb
    pay := s.pay
    tag := s.tag }

/-- MIC and MICLEN of another state. -/
def State.withFooterOf (t s : State) : State := { t with mic := s.mic, miclen := s.miclen }

/-- The collaborator's side of another state: the answers still to come, the number of calls made and the
record of what was observed (44_message_assembly R176). -/
def State.withCryptoOf (t s : State) : State :=
  { t with
    encryptAnswers := s.encryptAnswers
    verifyAnswers := s.verifyAnswers
    decryptAnswers := s.decryptAnswers
    calls := s.calls
    obs := s.obs }

/-- The buffers of another state. -/
def State.withBuffersOf (t s : State) : State :=
  { t with
    ibuf := s.ibuf
    obuf := s.obuf
    mxb := s.mxb
    sxb := s.sxb
    pay := s.pay
    mic := s.mic }

/-- Two states hold the same bytes in a buffer from an offset on. -/
def SameBytesFrom (b : BufId) (n : Nat) (t s : State) : Prop :=
  ∀ a, n ≤ a → t.readByte b a = s.readByte b a

/-- The host copies OBUF[0..OLEN) to IBUF and sets ILEN to OLEN (42_header_codec R151). -/
def State.copyOutputToInput (s : State) : State :=
  { s.memWrite .ibuf 0 (s.memRead .obuf 0 s.olen.toNat) with ilen := s.olen }

/-- What no command reads: STATUS, RES, POS (10_state section 7) and the record of what was observed. -/
def State.forgetOutcome (s : State) : State :=
  { s with status := 0#8, res := 0#8, pos := 0#16, obs := [] }

/-- The answer the collaborator gives to `encrypt(pt, CTX)` when it is the next call (44 R176, R177). -/
def State.encryptAnswerTo (s : State) (pt : Bytes) : Bytes :=
  s.encryptAnswers.headD (Config.encryptAnswer s.calls pt s.ctx)

/-- The answer to `verify(hdr, ct, mic, CTX)` when `k` calls come before it and none of them is a verify
(44 R176, R178). -/
def State.verifyAnswerTo (s : State) (k : Nat) (hdr ct mic : Bytes) : Bool :=
  s.verifyAnswers.headD (Config.verifyAnswer (s.calls + k) hdr ct mic s.ctx)

/-- The answer to `decrypt(ct, CTX)` when `k` calls come before it and none of them is a decrypt
(44 R176, R177). -/
def State.decryptAnswerTo (s : State) (k : Nat) (ct : Bytes) : Option Bytes :=
  s.decryptAnswers.headD (Config.decryptAnswer (s.calls + k) ct s.ctx)

/-- The state in which `encrypt(pt, CTX)` has been called and answered. -/
def State.encryptCalled (s : State) (pt : Bytes) : State :=
  { s with
    encryptAnswers := s.encryptAnswers.tail
    calls := s.calls + 1
    obs := s.obs ++ [.encryptCall pt s.ctx] }

/-- The state in which DEC_MSG has made its `verify` call, which it makes in a secure session only
(44 R178). -/
def State.verifyCalled (s : State) (hdr ct mic : Bytes) : State :=
  if s.ctrl.getLsbD 2 then
    { s with
      verifyAnswers := s.verifyAnswers.tail
      calls := s.calls + 1
      obs := s.obs ++ [.verifyCall hdr ct mic s.ctx] }
  else s

/-- The state in which `decrypt(ct, CTX)` has been called and answered. -/
def State.decryptCalled (s : State) (ct : Bytes) : State :=
  { s with
    decryptAnswers := s.decryptAnswers.tail
    calls := s.calls + 1
    obs := s.obs ++ [.decryptCall ct s.ctx] }

/-- The number of verify calls of a DEC_MSG that gets as far as `decrypt`: one in a secure session. -/
def State.verifyCount (s : State) : Nat := if s.ctrl.getLsbD 2 then 1 else 0

/-- The length of the footer: MICSZ in a secure session, else 0 (30_encoding R71). -/
def State.footerSize (s : State) : Nat := if s.ctrl.getLsbD 2 then s.micsz.toNat else 0

/-- `hlen` of 30_encoding R72 for the registers as they stand. -/
def State.hlen (s : State) : Nat :=
  (if s.ctrl.getLsbD 0 then 2 else 0) + 8 + (if s.mf.getLsbD 2 then 8 else 0)
    + (if s.mf.extractLsb' 0 2 = 1#2 then 8 else if s.mf.extractLsb' 0 2 = 2#2 then 2 else 0)
    + (if s.sf.getLsbD 5 then 2 + s.mxlen.toNat else 0)

/-- `plen` of 30_encoding R72 for the registers as they stand. -/
def State.plen (s : State) : Nat :=
  6 + (if s.xf.getLsbD 4 then 2 else 0) + (if s.xf.getLsbD 1 then 4 else 0)
    + (if s.xf.getLsbD 3 then 2 + s.sxlen.toNat else 0) + s.paylen.toNat

/-- The header bytes of the registers as they stand (42_header_codec R142). -/
def State.wireHeader (s : State) : Bytes := Wire.header (s.ctrl.getLsbD 0) s.headerFields

/-- The Protocol Message bytes of the registers as they stand (43 R161). -/
def State.wirePm (s : State) : Bytes := Wire.pm s.pmFields

/-- The bytes a decode is given, IBUF[0..ILEN) (10_state R38). -/
def State.wireInput (s : State) : Bytes := s.memRead .ibuf 0 s.ilen.toNat

/-- The register table of 10_state R10: each number, and the value that a host read of it gives. -/
def State.registerTable (s : State) : List (Nat × Nat) :=
  [(0x00, 0), (0x01, s.status.toNat), (0x02, s.res.toNat), (0x03, s.pos.toNat),
   (0x04, s.ctrl.toNat), (0x05, s.vermask.toNat), (0x06, s.micsz.toNat), (0x07, s.ctx.toNat),
   (0x10, s.tag.toNat), (0x11, s.len.toNat), (0x12, s.mf.toNat), (0x13, s.sid.toNat),
   (0x14, s.sf.toNat), (0x15, s.ctr.toNat), (0x16, s.src.toNat), (0x17, s.dst.toNat),
   (0x18, s.mxlen.toNat), (0x20, s.xf.toNat), (0x21, s.opc.toNat), (0x22, s.xid.toNat),
   (0x23, s.pid.toNat), (0x24, s.vid.toNat), (0x25, s.ack.toNat), (0x26, s.sxlen.toNat),
   (0x27, s.paylen.toNat), (0x30, s.miclen.toNat), (0x31, s.ilen.toNat), (0x32, s.olen.toNat)]

/-- What the header stage of a decode is given: the bytes IBUF[0..ILEN), CTRL.STREAM and VERMASK
(42_header_codec R144). -/
def SameHeaderInputs (s s' : State) : Prop :=
  s.wireInput = s'.wireInput ∧ s.ctrl.getLsbD 0 = s'.ctrl.getLsbD 0 ∧ s.vermask = s'.vermask

/-- What DEC_MSG is given besides: CTRL.SECURE, MICSZ, CTX, and the collaborator's answers, those that the run
fixes and those that the number of the call names (44_message_assembly R181; log entry 4). -/
def SameMessageInputs (s s' : State) : Prop :=
  SameHeaderInputs s s' ∧ s.ctrl.getLsbD 2 = s'.ctrl.getLsbD 2 ∧ s.micsz = s'.micsz ∧
  s.ctx = s'.ctx ∧ s.verifyAnswers = s'.verifyAnswers ∧ s.decryptAnswers = s'.decryptAnswers ∧
  s.calls = s'.calls

/-! ### The position a codec command reports -/

/-- The input starts with a laid-out header of an accepted version, of p bytes (30_encoding R61). -/
def State.HeaderOfLength (s : State) (p : Nat) : Prop :=
  ∃ f rest, s.wireInput = Wire.header (s.ctrl.getLsbD 0) f ++ rest ∧ s.AcceptsVersion f.mf ∧
    p = (Wire.header (s.ctrl.getLsbD 0) f).length

/-- The input is a laid-out header cut short, and the first field that does not fit would start at p
(60_exceptions R201). -/
def State.HeaderCutAt (s : State) (p : Nat) : Prop :=
  ∃ f, f.mx.length < 65536 ∧ s.ilen.toNat < (Wire.header (s.ctrl.getLsbD 0) f).length ∧
    s.wireInput = (Wire.header (s.ctrl.getLsbD 0) f).take s.ilen.toNat ∧
    p = Wire.missingFieldAt s.ilen.toNat 0 (Wire.headerWidths (s.ctrl.getLsbD 0) f)

/-- The input is a Protocol Message cut short before its payload, and the first field that does not fit would
start at p (60_exceptions R201). -/
def State.PmCutAt (s : State) (p : Nat) : Prop :=
  ∃ g : Wire.PmFields, g.sx.length < 65536 ∧ s.ilen.toNat < (Wire.pmHead g).length ∧
    s.wireInput = (Wire.pmHead g).take s.ilen.toNat ∧
    p = Wire.missingFieldAt s.ilen.toNat 0 (Wire.pmWidths g)

/-- A command may end with an error kind and report the position p, started in this state: the columns "Raised
by" and "POS on this outcome" of 60_exceptions R200, with R201 for TruncatedInput. -/
def State.ReportsAt (s : State) (i : Instr) (k : ErrorKind) (p : Nat) : Prop :=
  match k with
  | .truncatedInput =>
    (i = .decHdr ∧ s.HeaderCutAt p) ∨ (i = .decPm ∧ s.PmCutAt p) ∨
      (i = .decMsg ∧ (s.HeaderCutAt p ∨ s.HeaderOfLength p))
  | .trailingBytes =>
    i = .decHdr ∧ s.ctrl.getLsbD 1 = true ∧ s.HeaderOfLength p ∧ p < s.ilen.toNat
  | .invalidFixedValue => False
  | .decryptionFailed => i = .decMsg ∧ s.HeaderOfLength p
  | .integrityCheckFailed => i = .decMsg ∧ s.ctrl.getLsbD 2 = true ∧ s.HeaderOfLength p
  | .unsupportedVersion =>
    (i = .decHdr ∨ i = .decMsg) ∧ p = if s.ctrl.getLsbD 0 then 2 else 0
  | .counterExhausted => False
  | .invariantViolation =>
    i ∈ [.encHdr, .decHdr, .encPm, .decPm, .encMsg, .decMsg] ∧ p = 0
  | .outputOverflow =>
    (i ∈ [.encHdr, .encPm, .encMsg] ∧ p = 0) ∨ (i = .decMsg ∧ s.HeaderOfLength p)
  | .illegalCommand => False

/-! ### Fields of the flag bytes -/

/-- The fields of the flag bytes that have an accessor (40_flag_ops R121, R123). -/
inductive FlagField where
  | ver
  | s
  | dsiz
  | p
  | c
  | mx
  | st
  | i
  | a
  | r
  | sx
  | v
  deriving DecidableEq, Repr

/-- The GET_ command of a field. -/
def FlagField.getter : FlagField → Instr
  | .ver => .getVer
  | .s => .getS
  | .dsiz => .getDsiz
  | .p => .getP
  | .c => .getC
  | .mx => .getMx
  | .st => .getSt
  | .i => .getI
  | .a => .getA
  | .r => .getR
  | .sx => .getSx
  | .v => .getV

/-- The SET_ command of a field, its operand cut from a byte. -/
def FlagField.setter (v : Byte) : FlagField → Instr
  | .ver => .setVer (v.setWidth 4)
  | .s => .setS (v.setWidth 1)
  | .dsiz => .setDsiz (v.setWidth 2)
  | .p => .setP (v.setWidth 1)
  | .c => .setC (v.setWidth 1)
  | .mx => .setMx (v.setWidth 1)
  | .st => .setSt (v.setWidth 2)
  | .i => .setI (v.setWidth 1)
  | .a => .setA (v.setWidth 1)
  | .r => .setR (v.setWidth 1)
  | .sx => .setSx (v.setWidth 1)
  | .v => .setV (v.setWidth 1)

/-- The width of a field (30_encoding R62, R65, R67). -/
def FlagField.width : FlagField → Nat
  | .ver => 4
  | .s => 1
  | .dsiz => 2
  | .p => 1
  | .c => 1
  | .mx => 1
  | .st => 2
  | .i => 1
  | .a => 1
  | .r => 1
  | .sx => 1
  | .v => 1

/-! ### Safe steps and the invariant -/

/-- A step is safe when it answers a next state: no fault, no refusal (00_scope R8). -/
def State.StepsOn (s : State) : Prop := ∃ t, step s = .next t

/-- The STATUS codes that are produced: not 3, not 7, none above 0x0A (60_exceptions R200). -/
def producedCode (c : BitVec 8) : Bool :=
  decide (c.toNat ≤ 0x0A) && c != 0x03#8 && c != 0x07#8

/-- The STATUS codes a command can end with (60_exceptions R200, columns "Raised by"). -/
def possibleCodes : Instr → List (BitVec 8)
  | .encHdr => [0x00#8, 0x08#8, 0x09#8]
  | .encPm => [0x00#8, 0x08#8, 0x09#8]
  | .encMsg => [0x00#8, 0x08#8, 0x09#8]
  | .decHdr => [0x00#8, 0x01#8, 0x02#8, 0x06#8, 0x08#8]
  | .decPm => [0x00#8, 0x01#8, 0x08#8]
  | .decMsg => [0x00#8, 0x01#8, 0x04#8, 0x05#8, 0x06#8, 0x08#8, 0x09#8]
  | _ => [0x00#8]

/-- The six codec commands, which write POS (10_state R33). -/
def isCodec : Instr → Bool
  | .encHdr | .decHdr | .encPm | .decPm | .encMsg | .decMsg => true
  | _ => false

/-- The read-type commands, which write RES (10_state R32). -/
def isReadType : Instr → Bool
  | .rdmf | .rdsf | .rdxf => true
  | .getVer | .getS | .getDsiz => true
  | .getP | .getC | .getMx | .getSt => true
  | .getI | .getA | .getR | .getSx | .getV => true
  | .dsizDec _ | .dsizEnc _ | .stDec _ | .stEnc _ => true
  | _ => false

/-- What every step keeps: SF holds a canonical SessionType (10_state R14), STATUS a code that is produced
(60_exceptions R200), POS and OLEN stay within a buffer (10_state R33, 20_memory R42), and every buffer
keeps its canonical form and its capacity (20_memory R40). -/
structure State.Inv (s : State) : Prop where
  sessionTypeCanonical : s.sf.extractLsb' 0 2 ≠ 2#2
  statusProduced : producedCode s.status = true
  posWithinBuffer : s.pos.toNat ≤ Config.cap
  olenWithinBuffer : s.olen.toNat ≤ Config.cap
  buffersCanonical : ∀ b, (s.buf b).wf = true
  buffersBounded : ∀ b, (s.buf b).bounded = true

end Machine

end Sys2Proof
end

