-- ==== Sys2Proof/Certificates/Slice0/Obligations.lean ====
section
/-! DEFINITION. The statements for the provers. Each docstring says which rule of the spec a statement formalises;
the witnesses of the statements that have hypotheses stand in Sys2Proof/Tests/Slice0.lean. -/

open Sys2Proof Sys2Proof.Machine

/-- One word of every family decodes to the command it spells. Rests on 30_encoding R75, 30_encoding
R76, 30_encoding R77. A sanity statement on fixed words. -/
def Obligations.FamilyWordsDecode : Prop :=
  decode 0x0000#16 = .ok .nop ∧
  decode 0x1016#16 = .ok (.ldmf 0x16#8) ∧
  decode 0x1301#16 = .ok (.setVer 1#4) ∧
  decode 0x1702#16 = .ok (.setDsiz 2#2) ∧
  decode 0x203E#16 = .ok (.ldsf 0x3E#8) ∧
  decode 0x2701#16 = .ok (.setMx 1#1) ∧
  decode 0x3A00#16 = .ok .getV ∧
  decode 0x3201#16 = .error (.immediateNotZero 0x32#8 0x01#8) ∧
  decode 0x40FC#16 = .ok (.dsizDec 0xFC#8) ∧
  decode 0x4302#16 = .ok (.stEnc 2#2) ∧
  decode 0x4404#16 = .error (.unassignedOp 0x44#8) ∧
  decode 0x8000#16 = .ok .encHdr ∧
  decode 0x8100#16 = .ok .decHdr ∧
  decode 0x8200#16 = .ok .encPm ∧
  decode 0x8300#16 = .ok .decPm ∧
  decode 0x8400#16 = .ok .encMsg ∧
  decode 0x8500#16 = .ok .decMsg

/-- Decode and encode agree, in both directions, on every instruction. Rests on 30_encoding R76,
30_encoding R77, 30_encoding R79. -/
def Obligations.DecodeInvertsEncode : Prop :=
  (∀ i : Instr, i.wf = true ∧ decode (encode i) = .ok i) ∧
  (∀ (w : CommandWord) (i : Instr), decode w = .ok i → encode i = w)

/-- The rows of the opcode table are disjoint and cover exactly the words that decode. Rests on
30_encoding R77, 30_encoding R78. -/
def Obligations.OpcodeRowsAreTheCommands : Prop :=
  opcodeTable.length = 41 ∧
  (opcodeTable.Pairwise fun r r' => ∀ w : CommandWord, ¬ (r.covers w = true ∧ r'.covers w = true)) ∧
  (∀ w : CommandWord, legalWord w = true ↔ ∃ i, decode w = .ok i)

/-- Every word is a command or illegal; 1352 are legal and an illegal one changes STATUS only. States
30_encoding R78, 60_exceptions R210. -/
def Obligations.IllegalWordsAndTheirCount : Prop :=
  (∀ w : CommandWord, legalWord w = false ↔ ∃ e, decode w = .error e) ∧
  (∀ (w : CommandWord) (e : DecodeError), decode w = .error e →
    (e = .unassignedOp (opField w) ∧ ∀ i : Instr, opField (encode i) ≠ opField w) ∨
    (e = .immediateNotZero (opField w) (immField w) ∧
      ∃ i : Instr, opField (encode i) = opField w ∧ 2 ^ i.operand.1 ≤ (immField w).toNat)) ∧
  (∀ (w : CommandWord) (s : State), legalWord w = false →
    hostWrite 0x00 w.toNat s = .next { s with status := 0x0A#8 }) ∧
  (∀ p ∈ [(0, 22), (1, 18), (2, 16), (4, 16), (8, 1280)], ∃ words : List CommandWord,
    words.Nodup ∧ words.length = p.2 ∧
      ∀ w, w ∈ words ↔ ∃ i, decode w = .ok i ∧ i.operand.1 = p.1) ∧
  (∃ words : List CommandWord, words.Nodup ∧ words.length = 1352 ∧
    ∀ w, w ∈ words ↔ legalWord w = true) ∧
  (∃ words : List CommandWord, words.Nodup ∧ words.length = 64184 ∧
    ∀ w, w ∈ words ↔ legalWord w = false)

/-- A step runs the command that the word written to CMD spells. Rests on 20_memory R54, 20_memory R47.
The queue of host events is the model's own (log entry 5). -/
def Obligations.StepRunsTheDecodedCommand : Prop :=
  ∀ (s : State) (w : CommandWord) (rest : List HostEvent),
    s.events = .regWrite 0x00 w.toNat :: rest →
    (∀ i, decode w = .ok i → i.wf = true ∧ step s = exec i { s with events := rest }) ∧
    (∀ e, decode w = .error e → step s = .next { s with events := rest, status := 0x0A#8 })

/-- A word placed by withFetchWord is the very next command the step runs. Rests on 20_memory R54. It is
the model's own convention for how a program comes to run (log entry 5). -/
def Obligations.PlacedWordRunsNext : Prop :=
  ∀ (s : State) (w : CommandWord) (i : Instr), decode w = .ok i →
    step (s.withFetchWord 16 w.toNat) = exec i s

/-- Host events happen one at a time, in the host order, each a whole step. Rests on 20_memory R48,
70_reset_and_hazards R236. The queue of events and the record of observations are the model's own
(log entries 5 and 6). -/
def Obligations.EventsHappenInOrder : Prop :=
  ∀ (s : State) (e : HostEvent) (rest : List HostEvent), s.events = e :: rest →
    ∃ t, step s = .next t ∧ perform e { s with events := rest } = .next t ∧ t.events = rest ∧
      ∃ new, t.obs = s.obs ++ new

/-- Every command, event and run of steps answers a next state, the collaborator answering each call
(log entry 8). Rests on 00_scope R8, 70_reset_and_hazards R235, 70_reset_and_hazards R236,
44_message_assembly R176. That ENC_MSG and DEC_MSG end assumes that the collaborator answers each
call, which the model takes for granted (log entry 8); that a step is answered with no event left is
the model's choice (log entry 5). -/
def Obligations.EveryRunGoesOn : Prop :=
  (∀ (i : Instr) (s : State), ∃ t, exec i s = .next t) ∧
  (∀ s : State, s.StepsOn) ∧
  (∀ (k : Nat) (s : State), ∃ t, Sys2Proof.core.run k s = .next t)

/-- With no host event left a step changes nothing (the model choice of log entry 5). Rests on
70_reset_and_hazards R236. -/
def Obligations.IdleBlockDoesNothing : Prop :=
  ∀ s : State, s.events = [] → step s = .next s

/-- A host register read gives the register, 0 for CMD and for a free number, and changes nothing.
States 20_memory R50. The value read is what the model adds to its record of observations (log entry
6). -/
def Obligations.HostRegisterRead : Prop :=
  ∀ s : State,
    (∀ p ∈ s.registerTable, perform (.regRead p.1) s =
      .next { s with obs := s.obs ++ [.regValue p.2] }) ∧
    (∀ n, n ∉ s.registerTable.map Prod.fst → perform (.regRead n) s =
      .next { s with obs := s.obs ++ [.regValue 0] })

/-- A host register write sets that register only; read-only and free numbers ignore it. States
20_memory R51. A value wider than the register is refused by the model's well-formedness check (log
entry 7). -/
def Obligations.HostRegisterWrite : Prop :=
  ∀ s : State,
    (∀ v : BitVec 8, perform (.regWrite 0x04 v.toNat) s = .next { s with ctrl := v }) ∧
    (∀ v : BitVec 16, perform (.regWrite 0x05 v.toNat) s = .next { s with vermask := v }) ∧
    (∀ v : BitVec 8, perform (.regWrite 0x06 v.toNat) s = .next { s with micsz := v }) ∧
    (∀ v : BitVec Config.ctxBits, perform (.regWrite 0x07 v.toNat) s = .next { s with ctx := v }) ∧
    (∀ v : BitVec 8, perform (.regWrite 0x10 v.toNat) s = .next { s with tag := v }) ∧
    (∀ v : BitVec 16, perform (.regWrite 0x11 v.toNat) s = .next { s with len := v }) ∧
    (∀ v : BitVec 8, perform (.regWrite 0x12 v.toNat) s = .next { s with mf := v }) ∧
    (∀ v : BitVec 16, perform (.regWrite 0x13 v.toNat) s = .next { s with sid := v }) ∧
    (∀ v : BitVec 8, perform (.regWrite 0x14 v.toNat) s = .next { s with sf := Wire.canonical v }) ∧
    (∀ v : BitVec 32, perform (.regWrite 0x15 v.toNat) s = .next { s with ctr := v }) ∧
    (∀ v : BitVec 64, perform (.regWrite 0x16 v.toNat) s = .next { s with src := v }) ∧
    (∀ v : BitVec 64, perform (.regWrite 0x17 v.toNat) s = .next { s with dst := v }) ∧
    (∀ v : BitVec 16, perform (.regWrite 0x18 v.toNat) s = .next { s with mxlen := v }) ∧
    (∀ v : BitVec 8, perform (.regWrite 0x20 v.toNat) s = .next { s with xf := v }) ∧
    (∀ v : BitVec 8, perform (.regWrite 0x21 v.toNat) s = .next { s with opc := v }) ∧
    (∀ v : BitVec 16, perform (.regWrite 0x22 v.toNat) s = .next { s with xid := v }) ∧
    (∀ v : BitVec 16, perform (.regWrite 0x23 v.toNat) s = .next { s with pid := v }) ∧
    (∀ v : BitVec 16, perform (.regWrite 0x24 v.toNat) s = .next { s with vid := v }) ∧
    (∀ v : BitVec 32, perform (.regWrite 0x25 v.toNat) s = .next { s with ack := v }) ∧
    (∀ v : BitVec 16, perform (.regWrite 0x26 v.toNat) s = .next { s with sxlen := v }) ∧
    (∀ v : BitVec 16, perform (.regWrite 0x27 v.toNat) s = .next { s with paylen := v }) ∧
    (∀ v : BitVec 16, perform (.regWrite 0x30 v.toNat) s = .next { s with miclen := v }) ∧
    (∀ v : BitVec 16, perform (.regWrite 0x31 v.toNat) s = .next { s with ilen := v }) ∧
    (∀ n ∈ [0x01, 0x02, 0x03, 0x32], ∀ v, perform (.regWrite n v) s = .next s) ∧
    (∀ n, n ∉ s.registerTable.map Prod.fst → ∀ v, perform (.regWrite n v) s = .next s) ∧
    (∀ w : CommandWord, perform (.regWrite 0x00 w.toNat) s = issue w s) ∧
    (∀ (r : Reg) (v : Nat), 2 ^ r.width ≤ v → (HostEvent.regWrite r.number v).wf = false)

/-- A host write of MF, SF or XF is the load command without STATUS. States 20_memory R52. -/
def Obligations.HostWriteOfAFlagByte : Prop :=
  ∀ (s : State) (b : Byte),
    (∃ t, exec (.ldmf b) s = .next t ∧
      perform (.regWrite 0x12 b.toNat) s = .next { t with status := s.status }) ∧
    (∃ t, exec (.ldsf b) s = .next t ∧
      perform (.regWrite 0x14 b.toNat) s = .next { t with status := s.status } ∧
      t.sf = b.extractLsb' 2 6 ++ (if b.extractLsb' 0 2 = 2#2 then 3#2 else b.extractLsb' 0 2) ∧
      t.sf.extractLsb' 0 2 ≠ 2#2) ∧
    (∃ t, exec (.ldxf b) s = .next t ∧
      perform (.regWrite 0x20 b.toNat) s = .next { t with status := s.status }) ∧
    (perform (.regRead 0x12) s = .next { s with obs := s.obs ++ [.regValue s.mf.toNat] }) ∧
    (perform (.regRead 0x14) s = .next { s with obs := s.obs ++ [.regValue s.sf.toNat] }) ∧
    (perform (.regRead 0x20) s = .next { s with obs := s.obs ++ [.regValue s.xf.toNat] })

/-- Host buffer reads and writes reach one byte, whatever the length registers say. Rests on 20_memory
R53. That a byte nothing has written reads as a free value that stays the same until the next reset
is the model's choice (log entry 3), and the record of observations is its own (log entry 6). -/
def Obligations.HostBufferAccess : Prop :=
  ∀ (s : State) (id a : Nat) (v : Byte),
    BufId.id .ibuf = 0 ∧ BufId.id .obuf = 1 ∧ BufId.id .mxb = 2 ∧ BufId.id .sxb = 3 ∧
    BufId.id .pay = 4 ∧ BufId.id .mic = 5 ∧
    (∀ b : BufId, b.id = id → a < Config.cap →
      perform (.bufRead id a) s = .next { s with obs := s.obs ++ [.bufByte (s.readByte b a)] }) ∧
    (Config.cap ≤ a ∨ 5 < id →
      perform (.bufRead id a) s = .next { s with obs := s.obs ++ [.bufByte 0x00#8] }) ∧
    (∃ t, perform (.bufWrite id a v) s = .next t ∧ t.withBuffersOf s = s ∧
      ∀ (b : BufId) (a' : Nat), t.readByte b a' =
        if b.id = id ∧ b ≠ .obuf ∧ a < Config.cap ∧ a' = a then v else s.readByte b a') ∧
    (∀ (b : BufId) (a' : Nat), (s.buf b).get? a' = none →
      s.readByte b a' = Config.initialByte s.epoch b.id a')

/-- The reset event puts every register at its reset value and makes every buffer byte unspecified
again. Rests on 70_reset_and_hazards R230, 70_reset_and_hazards R231. The epoch, the queue, the
answers, the record and the event resetDuring are the model's own (log entries 3 to 6 and 10). -/
def Obligations.ResetEvent : Prop :=
  ∀ s : State,
    (perform .reset s = .next { State.reset with
      epoch := s.epoch + 1, events := s.events, encryptAnswers := s.encryptAnswers,
      verifyAnswers := s.verifyAnswers, decryptAnswers := s.decryptAnswers, calls := s.calls,
      obs := s.obs }) ∧
    (∀ (w : CommandWord) (k : Nat) (t : State), issue w s = .next t → ∃ u,
      perform (.resetDuring w.toNat k) s = .next u ∧
      u.withCryptoOf s = { State.reset with
        epoch := s.epoch + 1, events := s.events, encryptAnswers := s.encryptAnswers,
        verifyAnswers := s.verifyAnswers, decryptAnswers := s.decryptAnswers, calls := s.calls,
        obs := s.obs } ∧
      u.obs = s.obs ++ (newObservations s t).take k) ∧
    (∀ (b : BufId) (a : Nat) (t : State), perform .reset s = .next t →
      t.readByte b a = Config.initialByte (s.epoch + 1) b.id a)

/-- After reset every register has its stated value and the encodes give the stated zero bytes. States
70_reset_and_hazards R231. The unspecified buffer bytes are the model's free values (log entry 3). -/
def Obligations.StateAfterReset : Prop :=
  let s := State.reset
  (s.status = 0x00#8 ∧ s.res = 0x00#8 ∧ s.pos = 0#16 ∧ s.ctrl = 0x00#8 ∧ s.vermask = 0xFFFF#16 ∧
    s.micsz = 16#8 ∧ s.ctx.toNat = 0 ∧ s.tag = 0x00#8 ∧ s.len = 0#16 ∧ s.mf = 0x00#8 ∧
    s.sid = 0#16 ∧ s.sf = 0x00#8 ∧ s.ctr = 0#32 ∧ s.src = 0#64 ∧ s.dst = 0#64 ∧ s.mxlen = 0#16 ∧
    s.xf = 0x00#8 ∧ s.opc = 0#8 ∧ s.xid = 0#16 ∧ s.pid = 0#16 ∧ s.vid = 0#16 ∧ s.ack = 0#32 ∧
    s.sxlen = 0#16 ∧ s.paylen = 0#16 ∧ s.miclen = 0#16 ∧ s.ilen = 0#16 ∧ s.olen = 0#16) ∧
  (∀ (b : BufId) (a : Nat), s.readByte b a = Config.initialByte 0 b.id a) ∧
  s.HeaderConsistent ∧ s.PmConsistent ∧ s.FooterConsistent ∧
  (∃ t, exec .encHdr s = .next t ∧ t.status = 0x00#8 ∧ t.olen = 8#16 ∧
    t.memRead .obuf 0 8 = [0#8, 0#8, 0#8, 0#8, 0#8, 0#8, 0#8, 0#8]) ∧
  (∃ t, exec .encPm s = .next t ∧ t.status = 0x00#8 ∧ t.olen = 6#16 ∧
    t.memRead .obuf 0 6 = [0#8, 0#8, 0#8, 0#8, 0#8, 0#8])

/-- NOP sets STATUS to OK and changes nothing else. States 45_system R195. -/
def Obligations.NopSetsStatusOnly : Prop :=
  SpellsPlain 0x00#8 .nop ∧ ∀ s : State, exec .nop s = .next { s with status := 0x00#8 }

/-- LDMF stores its byte in MF exactly and RDMF reads MF exactly. States 40_flag_ops R91, 40_flag_ops
R92. -/
def Obligations.MfIsLoadedAndRead : Prop :=
  ∀ s : State,
    (Spells 0x10#8 8 .ldmf ∧ ∀ imm : BitVec 8, exec (.ldmf imm) s =
      .next { s with mf := imm, status := 0x00#8 }) ∧
    (SpellsPlain 0x11#8 .rdmf ∧ exec .rdmf s =
      .next { s with res := s.mf, status := 0x00#8 })

/-- GET_VER, GET_S and GET_DSIZ read their field of MF into RES. States 40_flag_ops R93, 40_flag_ops
R95, 40_flag_ops R97. -/
def Obligations.MfFieldsAreRead : Prop :=
  ∀ s : State,
    (SpellsPlain 0x12#8 .getVer ∧ exec .getVer s =
      .next { s with res := (s.mf.extractLsb' 4 4).setWidth 8, status := 0x00#8 }) ∧
    (SpellsPlain 0x14#8 .getS ∧ exec .getS s =
      .next { s with res := (s.mf.extractLsb' 2 1).setWidth 8, status := 0x00#8 }) ∧
    (SpellsPlain 0x16#8 .getDsiz ∧ exec .getDsiz s =
      .next { s with res := (s.mf.extractLsb' 0 2).setWidth 8, status := 0x00#8 })

/-- SET_VER, SET_S and SET_DSIZ replace their field of MF and no other bit. States 40_flag_ops R94,
40_flag_ops R96, 40_flag_ops R98. -/
def Obligations.MfFieldsAreSet : Prop :=
  ∀ s : State,
    (Spells 0x13#8 4 .setVer ∧ ∀ imm : BitVec 4, exec (.setVer imm) s =
      .next { s with mf := imm ++ s.mf.extractLsb' 0 4, status := 0x00#8 }) ∧
    (Spells 0x15#8 1 .setS ∧ ∀ imm : BitVec 1, exec (.setS imm) s =
      .next { s with mf := s.mf.extractLsb' 3 5 ++ imm ++ s.mf.extractLsb' 0 2, status := 0x00#8 }) ∧
    (Spells 0x17#8 2 .setDsiz ∧ ∀ imm : BitVec 2, exec (.setDsiz imm) s =
      .next { s with mf := s.mf.extractLsb' 2 6 ++ imm, status := 0x00#8 })

/-- LDSF stores its byte in SF with SessionType 2 as 3, and RDSF reads SF. States 40_flag_ops R99,
40_flag_ops R100. -/
def Obligations.SfIsLoadedAndRead : Prop :=
  ∀ s : State,
    (Spells 0x20#8 8 .ldsf ∧ ∀ imm : BitVec 8, exec (.ldsf imm) s =
      .next { s with sf := (if imm.extractLsb' 0 2 = 2#2 then imm + 1#8 else imm), status := 0x00#8 }) ∧
    (SpellsPlain 0x21#8 .rdsf ∧ exec .rdsf s =
      .next { s with res := s.sf, status := 0x00#8 }) ∧
    (∀ b : Byte, ∃ t u, exec (.ldsf b) s = .next t ∧ exec .rdsf t = .next u ∧
      u.res.extractLsb' 2 6 = b.extractLsb' 2 6 ∧ u.res.extractLsb' 0 2 ≠ 2#2)

/-- GET_P, GET_C, GET_MX and GET_ST read their field of SF into RES. States 40_flag_ops R101,
40_flag_ops R103, 40_flag_ops R105, 40_flag_ops R107. -/
def Obligations.SfFieldsAreRead : Prop :=
  ∀ s : State,
    (SpellsPlain 0x22#8 .getP ∧ exec .getP s =
      .next { s with res := (s.sf.extractLsb' 7 1).setWidth 8, status := 0x00#8 }) ∧
    (SpellsPlain 0x24#8 .getC ∧ exec .getC s =
      .next { s with res := (s.sf.extractLsb' 6 1).setWidth 8, status := 0x00#8 }) ∧
    (SpellsPlain 0x26#8 .getMx ∧ exec .getMx s =
      .next { s with res := (s.sf.extractLsb' 5 1).setWidth 8, status := 0x00#8 }) ∧
    (SpellsPlain 0x28#8 .getSt ∧ exec .getSt s =
      .next { s with res := (if s.sf.extractLsb' 0 2 = 2#2 then 3#2 else s.sf.extractLsb' 0 2).setWidth 8, status := 0x00#8 })

/-- SET_P, SET_C, SET_MX and SET_ST replace their field of SF and no other bit. States 40_flag_ops R102,
40_flag_ops R104, 40_flag_ops R106, 40_flag_ops R108. -/
def Obligations.SfFieldsAreSet : Prop :=
  ∀ s : State,
    (Spells 0x23#8 1 .setP ∧ ∀ imm : BitVec 1, exec (.setP imm) s =
      .next { s with sf := imm ++ s.sf.extractLsb' 0 7, status := 0x00#8 }) ∧
    (Spells 0x25#8 1 .setC ∧ ∀ imm : BitVec 1, exec (.setC imm) s =
      .next { s with sf := s.sf.extractLsb' 7 1 ++ imm ++ s.sf.extractLsb' 0 6, status := 0x00#8 }) ∧
    (Spells 0x27#8 1 .setMx ∧ ∀ imm : BitVec 1, exec (.setMx imm) s =
      .next { s with sf := s.sf.extractLsb' 6 2 ++ imm ++ s.sf.extractLsb' 0 5, status := 0x00#8 }) ∧
    (Spells 0x29#8 2 .setSt ∧ ∀ imm : BitVec 2, exec (.setSt imm) s =
      .next { s with sf := s.sf.extractLsb' 2 6 ++ (if imm = 2#2 then 3#2 else imm), status := 0x00#8 })

/-- LDXF stores its byte in XF exactly and RDXF reads XF exactly. States 40_flag_ops R109, 40_flag_ops
R110. -/
def Obligations.XfIsLoadedAndRead : Prop :=
  ∀ s : State,
    (Spells 0x30#8 8 .ldxf ∧ ∀ imm : BitVec 8, exec (.ldxf imm) s =
      .next { s with xf := imm, status := 0x00#8 }) ∧
    (SpellsPlain 0x31#8 .rdxf ∧ exec .rdxf s =
      .next { s with res := s.xf, status := 0x00#8 })

/-- GET_I, GET_A, GET_R, GET_SX and GET_V read their bit of XF into RES. States 40_flag_ops R111,
40_flag_ops R113, 40_flag_ops R115, 40_flag_ops R117, 40_flag_ops R119. -/
def Obligations.XfFieldsAreRead : Prop :=
  ∀ s : State,
    (SpellsPlain 0x32#8 .getI ∧ exec .getI s =
      .next { s with res := (s.xf.extractLsb' 0 1).setWidth 8, status := 0x00#8 }) ∧
    (SpellsPlain 0x34#8 .getA ∧ exec .getA s =
      .next { s with res := (s.xf.extractLsb' 1 1).setWidth 8, status := 0x00#8 }) ∧
    (SpellsPlain 0x36#8 .getR ∧ exec .getR s =
      .next { s with res := (s.xf.extractLsb' 2 1).setWidth 8, status := 0x00#8 }) ∧
    (SpellsPlain 0x38#8 .getSx ∧ exec .getSx s =
      .next { s with res := (s.xf.extractLsb' 3 1).setWidth 8, status := 0x00#8 }) ∧
    (SpellsPlain 0x3A#8 .getV ∧ exec .getV s =
      .next { s with res := (s.xf.extractLsb' 4 1).setWidth 8, status := 0x00#8 })

/-- SET_I, SET_A, SET_R, SET_SX and SET_V replace their bit of XF and no other. States 40_flag_ops R112,
40_flag_ops R114, 40_flag_ops R116, 40_flag_ops R118, 40_flag_ops R120. -/
def Obligations.XfFieldsAreSet : Prop :=
  ∀ s : State,
    (Spells 0x33#8 1 .setI ∧ ∀ imm : BitVec 1, exec (.setI imm) s =
      .next { s with xf := s.xf.extractLsb' 1 7 ++ imm, status := 0x00#8 }) ∧
    (Spells 0x35#8 1 .setA ∧ ∀ imm : BitVec 1, exec (.setA imm) s =
      .next { s with xf := s.xf.extractLsb' 2 6 ++ imm ++ s.xf.extractLsb' 0 1, status := 0x00#8 }) ∧
    (Spells 0x37#8 1 .setR ∧ ∀ imm : BitVec 1, exec (.setR imm) s =
      .next { s with xf := s.xf.extractLsb' 3 5 ++ imm ++ s.xf.extractLsb' 0 2, status := 0x00#8 }) ∧
    (Spells 0x39#8 1 .setSx ∧ ∀ imm : BitVec 1, exec (.setSx imm) s =
      .next { s with xf := s.xf.extractLsb' 4 4 ++ imm ++ s.xf.extractLsb' 0 3, status := 0x00#8 }) ∧
    (Spells 0x3B#8 1 .setV ∧ ∀ imm : BitVec 1, exec (.setV imm) s =
      .next { s with xf := s.xf.extractLsb' 5 3 ++ imm ++ s.xf.extractLsb' 0 4, status := 0x00#8 })

/-- A SET_ changes its own field and no other field, reserved bit or flag register. States 40_flag_ops
R121. -/
def Obligations.FlagIsolation : Prop :=
  ∀ (f g : FlagField) (v : Byte) (s : State), ∃ t u u',
    exec (f.setter v) s = .next t ∧ exec g.getter s = .next u ∧ exec g.getter t = .next u' ∧
    (f ≠ g → u'.res = u.res) ∧
    (f = g → u'.res = if f = .st ∧ v.extractLsb' 0 2 = 2#2 then 3#8
      else BitVec.ofNat 8 (v.toNat % 2 ^ f.width)) ∧
    (t.mf.getLsbD 3 = s.mf.getLsbD 3 ∧ t.sf.extractLsb' 2 3 = s.sf.extractLsb' 2 3 ∧
      t.xf.extractLsb' 5 3 = s.xf.extractLsb' 5 3) ∧
    (f ∈ [.ver, .s, .dsiz] → t.sf = s.sf ∧ t.xf = s.xf) ∧
    (f ∈ [.p, .c, .mx, .st] → t.mf = s.mf ∧ t.xf = s.xf) ∧
    (f ∈ [.i, .a, .r, .sx, .v] → t.mf = s.mf ∧ t.sf = s.sf)

/-- Load then read is the identity on flag bytes, but for SessionType 2, and read then load is too.
States 40_flag_ops R122. -/
def Obligations.FlagByteRoundTrip : Prop :=
  ∀ s : State,
    (∀ b : Byte, ∃ t u, exec (.ldmf b) s = .next t ∧ exec .rdmf t = .next u ∧ u.res = b) ∧
    (∀ b : Byte, ∃ t u, exec (.ldxf b) s = .next t ∧ exec .rdxf t = .next u ∧ u.res = b) ∧
    (∀ b : Byte, ∃ t u, exec (.ldsf b) s = .next t ∧ exec .rdsf t = .next u ∧
      u.res = if b.extractLsb' 0 2 = 2#2 then b + 1#8 else b) ∧
    (∃ t u, exec .rdmf s = .next t ∧ exec (.ldmf t.res) t = .next u ∧ u.mf = s.mf) ∧
    (∃ t u, exec .rdxf s = .next t ∧ exec (.ldxf t.res) t = .next u ∧ u.xf = s.xf) ∧
    (s.sf.extractLsb' 0 2 ≠ 2#2 →
      ∃ t u, exec .rdsf s = .next t ∧ exec (.ldsf t.res) t = .next u ∧ u.sf = s.sf) ∧
    (∀ (i : Instr) (t : State), isCodec i = false → exec i s = .next t →
      (t.mf.getLsbD 3 = s.mf.getLsbD 3 ∨ ∃ b, i = .ldmf b ∧ t.mf.getLsbD 3 = b.getLsbD 3) ∧
      (t.sf.extractLsb' 2 3 = s.sf.extractLsb' 2 3 ∨
        ∃ b, i = .ldsf b ∧ t.sf.extractLsb' 2 3 = b.extractLsb' 2 3) ∧
      (t.xf.extractLsb' 5 3 = s.xf.extractLsb' 5 3 ∨
        ∃ b, i = .ldxf b ∧ t.xf.extractLsb' 5 3 = b.extractLsb' 5 3))

/-- DSIZ_DEC gives the low two bits of its byte and DSIZ_ENC its code. States 41_enum_ops R131,
41_enum_ops R132. -/
def Obligations.DsizCommands : Prop :=
  ∀ s : State,
    (Spells 0x40#8 8 .dsizDec ∧ ∀ imm : BitVec 8, exec (.dsizDec imm) s =
      .next { s with res := (imm.extractLsb' 0 2).setWidth 8, status := 0x00#8 }) ∧
    (Spells 0x41#8 2 .dsizEnc ∧ ∀ imm : BitVec 2, exec (.dsizEnc imm) s =
      .next { s with res := imm.setWidth 8, status := 0x00#8 })

/-- ST_DEC and ST_ENC give the canonical SessionType code, 3 for the patterns 2 and 3. States
41_enum_ops R133, 41_enum_ops R134. -/
def Obligations.SessionTypeCommands : Prop :=
  ∀ s : State,
    (Spells 0x42#8 8 .stDec ∧ ∀ imm : BitVec 8, exec (.stDec imm) s =
      .next { s with
        res := (if imm.extractLsb' 0 2 = 2#2 then 3#2 else imm.extractLsb' 0 2).setWidth 8
        status := 0x00#8 }) ∧
    (Spells 0x43#8 2 .stEnc ∧ ∀ imm : BitVec 2, exec (.stEnc imm) s =
      .next { s with res := (if imm = 2#2 then 3#2 else imm).setWidth 8, status := 0x00#8 })

/-- DSIZ codes are a bijection, SessionType loses pattern 2 only, and the flag commands use the same
maps. States 41_enum_ops R135. -/
def Obligations.EnumerationLaws : Prop :=
  ∀ s : State,
    (∀ b : Byte, ∃ t u, exec (.dsizDec b) s = .next t ∧ exec (.stDec b) s = .next u ∧
      t.status = 0x00#8 ∧ u.status = 0x00#8) ∧
    (∀ b : Byte, ∃ t u, exec (.dsizDec b) s = .next t ∧
      exec (.dsizEnc (t.res.extractLsb' 0 2)) t = .next u ∧
      u.res.extractLsb' 0 2 = b.extractLsb' 0 2) ∧
    (∀ c : BitVec 2, ∃ t u, exec (.dsizEnc c) s = .next t ∧ exec (.dsizDec t.res) t = .next u ∧
      u.res = c.setWidth 8) ∧
    (∀ c : BitVec 2, c ≠ 2#2 → ∃ t u, exec (.stEnc c) s = .next t ∧
      exec (.stDec t.res) t = .next u ∧ u.res = c.setWidth 8) ∧
    (∀ b : Byte, ∃ t u, exec (.stDec b) s = .next t ∧
      exec (.stEnc (t.res.extractLsb' 0 2)) t = .next u ∧
      u.res.extractLsb' 0 2 = if b.extractLsb' 0 2 = 2#2 then 3#2 else b.extractLsb' 0 2) ∧
    exec .getDsiz s = exec (.dsizDec s.mf) s ∧
    exec .getSt s = exec (.stDec s.sf) s ∧
    (∀ c : BitVec 2, ∃ t u, exec (.dsizEnc c) s = .next t ∧ exec (.setDsiz c) s = .next u ∧
      u.mf = s.mf.extractLsb' 2 6 ++ t.res.extractLsb' 0 2) ∧
    (∀ c : BitVec 2, ∃ t u, exec (.stEnc c) s = .next t ∧ exec (.setSt c) s = .next u ∧
      u.sf = s.sf.extractLsb' 2 6 ++ t.res.extractLsb' 0 2)

/-- ENC_HDR writes the wire header to OBUF, or reports why not and writes nothing. States
42_header_codec R142, 42_header_codec R143. -/
def Obligations.EncHdrEmitsTheHeader : Prop :=
  SpellsPlain 0x80#8 .encHdr ∧ ∀ s : State,
    (s.HeaderConsistent → s.wireHeader.length ≤ Config.cap → ∃ t, exec .encHdr s = .next t ∧
      t.memRead .obuf 0 s.wireHeader.length = s.wireHeader ∧
      t.olen.toNat = s.wireHeader.length ∧ t.pos.toNat = s.wireHeader.length ∧ t.status = 0x00#8 ∧
      SameBytesFrom .obuf s.wireHeader.length t s ∧ (t.withOutcomeOf s).withOutputOf s = s) ∧
    (s.HeaderConsistent → Config.cap < s.wireHeader.length →
      exec .encHdr s = .next { s with status := 0x09#8, pos := 0#16 }) ∧
    (¬ s.HeaderConsistent → exec .encHdr s = .next { s with status := 0x08#8, pos := 0#16 }) ∧
    s.wireHeader.length = s.hlen

/-- DEC_HDR of a laid-out header of an accepted version loads exactly its fields. States 42_header_codec
R146, 42_header_codec R147, 42_header_codec R149. -/
def Obligations.DecHdrReadsTheHeader : Prop :=
  SpellsPlain 0x81#8 .decHdr ∧ ∀ (s : State) (f : Wire.HeaderFields) (rest : Bytes),
    s.ilen.toNat ≤ Config.cap →
    s.wireInput = Wire.header (s.ctrl.getLsbD 0) f ++ rest →
    s.AcceptsVersion f.mf → (s.ctrl.getLsbD 1 = true → rest = []) →
    ∃ t, exec .decHdr s = .next t ∧
      t.headerFields = f.decoded (s.ctrl.getLsbD 0) ∧
      t.tag = Wire.headerTag (s.ctrl.getLsbD 0) f s.tag ∧
      t.pos.toNat = (Wire.header (s.ctrl.getLsbD 0) f).length ∧ t.status = 0x00#8 ∧
      SameBytesFrom .mxb t.mxlen.toNat t s ∧ (t.withHeaderOf s).withOutcomeOf s = s

/-- DEC_HDR of a header that is cut short reports TruncatedInput where the first missing field starts.
States 42_header_codec R148. -/
def Obligations.DecHdrTruncation : Prop :=
  ∀ (s : State) (f : Wire.HeaderFields),
    s.ilen.toNat ≤ Config.cap → f.mx.length < 65536 →
    s.wireInput = (Wire.header (s.ctrl.getLsbD 0) f).take s.ilen.toNat →
    s.ilen.toNat < (Wire.header (s.ctrl.getLsbD 0) f).length →
    (s.ilen.toNat ≤ (if s.ctrl.getLsbD 0 then 2 else 0) ∨ s.AcceptsVersion f.mf) →
    exec .decHdr s = .next { s with
      status := 0x01#8
      pos := BitVec.ofNat 16
        (Wire.missingFieldAt s.ilen.toNat 0 (Wire.headerWidths (s.ctrl.getLsbD 0) f)) }

/-- A version outside VERMASK is UnsupportedVersion at the Message Flags byte, for decodes only. States
42_header_codec R145, 60_exceptions R206. -/
def Obligations.VersionCheck : Prop :=
  ∀ s : State,
    (∀ (len : BitVec 16) (mf : Byte) (rest : Bytes), s.ilen.toNat ≤ Config.cap →
      s.wireInput = (if s.ctrl.getLsbD 0 then Wire.u16 len else []) ++ [mf] ++ rest →
      ¬ s.AcceptsVersion mf →
      exec .decHdr s = .next { s with
        status := 0x06#8, pos := if s.ctrl.getLsbD 0 then 2#16 else 0#16 } ∧
      exec .decMsg s = .next { s with
        status := 0x06#8, pos := if s.ctrl.getLsbD 0 then 2#16 else 0#16 }) ∧
    (∀ (i : Instr) (t : State), exec i s = .next t → t.status = 0x06#8 →
      (i = .decHdr ∨ i = .decMsg) ∧
      ¬ s.AcceptsVersion (s.readByte .ibuf (if s.ctrl.getLsbD 0 then 2 else 0))) ∧
    (s.ilen.toNat ≤ (if s.ctrl.getLsbD 0 then 2 else 0) →
      ∃ t, exec .decHdr s = .next t ∧ t.status = 0x01#8) ∧
    (s.vermask = 0xFFFF#16 → ∀ mf, s.AcceptsVersion mf)

/-- Bytes after the header are left unread, or TrailingBytes when CTRL.EXACT = 1. States 42_header_codec
R150. -/
def Obligations.TrailingBytesPolicy : Prop :=
  (∀ (s : State) (f : Wire.HeaderFields) (rest : Bytes),
    s.ilen.toNat ≤ Config.cap →
    s.wireInput = Wire.header (s.ctrl.getLsbD 0) f ++ rest →
    s.AcceptsVersion f.mf → rest ≠ [] →
    (s.ctrl.getLsbD 1 = false → ∃ t, exec .decHdr s = .next t ∧ t.status = 0x00#8 ∧
      t.pos.toNat = (Wire.header (s.ctrl.getLsbD 0) f).length ∧
      t.headerFields = f.decoded (s.ctrl.getLsbD 0)) ∧
    (s.ctrl.getLsbD 1 = true → exec .decHdr s = .next { s with
      status := 0x02#8
      pos := BitVec.ofNat 16 (Wire.header (s.ctrl.getLsbD 0) f).length })) ∧
  (∀ (i : Instr) (s t : State) (c : BitVec 8), i ≠ .decHdr →
    (∀ k, k ≠ 1 → c.getLsbD k = s.ctrl.getLsbD k) → exec i s = .next t →
    exec i { s with ctrl := c } = .next { t with ctrl := c })

/-- The header codec round-trips, from registers through bytes and from bytes through registers. States
42_header_codec R151. -/
def Obligations.HeaderRoundTrip : Prop :=
  (∀ s : State, s.HeaderConsistent → s.wireHeader.length ≤ Config.cap → s.AcceptsVersion s.mf →
    s.sf.extractLsb' 0 2 ≠ 2#2 →
    ∃ t u, exec .encHdr s = .next t ∧ exec .decHdr t.copyOutputToInput = .next u ∧
      u.status = 0x00#8 ∧ u.pos = t.olen ∧ u.mf = s.mf ∧ u.sf = s.sf ∧ u.tag = s.tag ∧
      u.headerFields = s.headerFields.decoded (s.ctrl.getLsbD 0)) ∧
  (∀ s t : State, exec .decHdr s = .next t → t.status = 0x00#8 →
    t.HeaderConsistent ∧ ∃ u, exec .encHdr t = .next u ∧ u.status = 0x00#8 ∧ u.olen = t.pos ∧
      ∀ a, a < t.pos.toNat → u.readByte .obuf a =
        if a = (if s.ctrl.getLsbD 0 then 5 else 3) then Wire.canonical (s.readByte .ibuf a)
        else s.readByte .ibuf a)

/-- A successful DEC_HDR consumes exactly hlen bytes and sets the tags its flag bytes imply. States
42_header_codec R152. -/
def Obligations.HeaderPresence : Prop :=
  (∀ s t : State, exec .decHdr s = .next t → t.status = 0x00#8 →
    t.mf = s.readByte .ibuf (if s.ctrl.getLsbD 0 then 2 else 0) ∧
    t.sf.getLsbD 5 = (s.readByte .ibuf (if s.ctrl.getLsbD 0 then 5 else 3)).getLsbD 5 ∧
    t.pos.toNat = t.hlen ∧
    t.tag.getLsbD 1 = t.mf.getLsbD 2 ∧ t.tag.extractLsb' 2 2 = Wire.destinationTag t.mf ∧
    t.tag.getLsbD 4 = t.sf.getLsbD 5 ∧ t.tag.getLsbD 0 = s.ctrl.getLsbD 0) ∧
  (∀ s t : State, exec .encHdr s = .next t → t.status = 0x00#8 →
    t.olen.toNat = s.hlen ∧ t.memRead .obuf 0 s.hlen = s.wireHeader)

/-- ENC_PM writes the wire Protocol Message to OBUF, or reports why not and writes nothing. States
43_protocol_message_codec R161, 43_protocol_message_codec R162. -/
def Obligations.EncPmEmitsTheMessage : Prop :=
  SpellsPlain 0x82#8 .encPm ∧ ∀ s : State,
    (s.PmConsistent → s.wirePm.length ≤ Config.cap → ∃ t, exec .encPm s = .next t ∧
      t.memRead .obuf 0 s.wirePm.length = s.wirePm ∧
      t.olen.toNat = s.wirePm.length ∧ t.pos.toNat = s.wirePm.length ∧ t.status = 0x00#8 ∧
      SameBytesFrom .obuf s.wirePm.length t s ∧ (t.withOutcomeOf s).withOutputOf s = s) ∧
    (s.PmConsistent → Config.cap < s.wirePm.length →
      exec .encPm s = .next { s with status := 0x09#8, pos := 0#16 }) ∧
    (¬ s.PmConsistent → exec .encPm s = .next { s with status := 0x08#8, pos := 0#16 }) ∧
    s.wirePm.length = s.plen

/-- DEC_PM loads exactly the fields of a Protocol Message, or reports the first field that does not fit.
States 43_protocol_message_codec R164. -/
def Obligations.DecPmReadsTheMessage : Prop :=
  SpellsPlain 0x83#8 .decPm ∧ ∀ (s : State) (f : Wire.PmFields), s.ilen.toNat ≤ Config.cap →
    (s.wireInput = Wire.pm f → ∃ t, exec .decPm s = .next t ∧
      t.pmFields = f.decoded ∧ t.tag = Wire.pmTag f s.tag ∧ t.pos = s.ilen ∧ t.status = 0x00#8 ∧
      SameBytesFrom .sxb t.sxlen.toNat t s ∧ SameBytesFrom .pay t.paylen.toNat t s ∧
      (t.withPmOf s).withOutcomeOf s = s) ∧
    (s.wireInput = (Wire.pmHead f).take s.ilen.toNat → s.ilen.toNat < (Wire.pmHead f).length →
      f.sx.length < 65536 →
      exec .decPm s = .next { s with
        status := 0x01#8
        pos := BitVec.ofNat 16 (Wire.missingFieldAt s.ilen.toNat 0 (Wire.pmWidths f)) })

/-- The Protocol Message codec round-trips in both directions with no exception. States
43_protocol_message_codec R166. -/
def Obligations.PmRoundTrip : Prop :=
  (∀ s : State, s.PmConsistent → s.wirePm.length ≤ Config.cap →
    ∃ t u, exec .encPm s = .next t ∧ exec .decPm t.copyOutputToInput = .next u ∧
      u.status = 0x00#8 ∧ u.pos = t.olen ∧ u.xf = s.xf ∧ u.tag = s.tag ∧
      u.pmFields = s.pmFields.decoded) ∧
  (∀ s t : State, exec .decPm s = .next t → t.status = 0x00#8 →
    (∃ u, exec .encPm t = .next u ∧ u.status = 0x00#8 ∧ u.olen = s.ilen ∧
      u.memRead .obuf 0 s.ilen.toNat = s.wireInput) ∧
    t.xf = s.readByte .ibuf 0 ∧ t.tag.getLsbD 5 = t.xf.getLsbD 4 ∧
    t.tag.getLsbD 6 = t.xf.getLsbD 1 ∧ t.tag.getLsbD 7 = t.xf.getLsbD 3 ∧
    t.paylen.toNat = s.ilen.toNat - (6 + (if t.xf.getLsbD 4 then 2 else 0)
      + (if t.xf.getLsbD 1 then 4 else 0) + (if t.xf.getLsbD 3 then 2 + t.sxlen.toNat else 0)))

/-- ENC_MSG writes header, encrypt answer and integrity check to OBUF, or reports why not. States
44_message_assembly R179, 44_message_assembly R180. How an answer is given, and the record of calls,
are the model's own (log entries 4 and 6). -/
def Obligations.EncMsgAssemblesTheMessage : Prop :=
  SpellsPlain 0x84#8 .encMsg ∧ ∀ s : State,
    (s.HeaderConsistent ∧ s.PmConsistent ∧ s.FooterConsistent →
      s.wireHeader.length ≤ Config.cap → s.wirePm.length ≤ Config.cap →
      (∀ out, out = s.wireHeader ++ s.encryptAnswerTo s.wirePm ++ s.micBytes →
        out.length ≤ Config.cap → ∃ t, exec .encMsg s = .next t ∧
          t.memRead .obuf 0 out.length = out ∧ t.olen.toNat = out.length ∧
          t.pos.toNat = out.length ∧ t.status = 0x00#8 ∧ SameBytesFrom .obuf out.length t s ∧
          (t.withOutcomeOf s).withOutputOf s = s.encryptCalled s.wirePm) ∧
      (Config.cap < (s.wireHeader ++ s.encryptAnswerTo s.wirePm ++ s.micBytes).length →
        exec .encMsg s =
          .next { s.encryptCalled s.wirePm with status := 0x09#8, pos := 0#16 })) ∧
    (s.HeaderConsistent ∧ s.PmConsistent ∧ s.FooterConsistent →
      Config.cap < s.wireHeader.length ∨ Config.cap < s.wirePm.length →
      exec .encMsg s = .next { s with status := 0x09#8, pos := 0#16 }) ∧
    (¬ (s.HeaderConsistent ∧ s.PmConsistent ∧ s.FooterConsistent) →
      exec .encMsg s = .next { s with status := 0x08#8, pos := 0#16 })

/-- DEC_MSG of a well-formed message, verified and decrypted, loads every field of it. Rests on
44_message_assembly R181, 44_message_assembly R178. How an answer is given, and the record of calls,
are the model's own (log entries 4 and 6). -/
def Obligations.DecMsgTakesTheMessageApart : Prop :=
  SpellsPlain 0x85#8 .decMsg ∧
  ∀ (s : State) (f : Wire.HeaderFields) (g : Wire.PmFields) (hb ct mic : Bytes),
    s.ilen.toNat ≤ Config.cap → hb = Wire.header (s.ctrl.getLsbD 0) f →
    s.wireInput = hb ++ ct ++ mic → mic.length = s.footerSize → s.AcceptsVersion f.mf →
    (s.ctrl.getLsbD 2 = true → s.verifyAnswerTo 0 hb ct mic = true) →
    s.decryptAnswerTo s.verifyCount ct = some (Wire.pm g) → (Wire.pm g).length ≤ Config.cap →
    ∃ t, exec .decMsg s = .next t ∧
      t.headerFields = f.decoded (s.ctrl.getLsbD 0) ∧ t.pmFields = g.decoded ∧
      t.micBytes = mic ∧ t.tag = Wire.pmTag g (Wire.headerTag (s.ctrl.getLsbD 0) f s.tag) ∧
      t.pos = s.ilen ∧ t.status = 0x00#8 ∧
      SameBytesFrom .mxb t.mxlen.toNat t s ∧ SameBytesFrom .sxb t.sxlen.toNat t s ∧
      SameBytesFrom .pay t.paylen.toNat t s ∧ SameBytesFrom .mic t.miclen.toNat t s ∧
      (((t.withHeaderOf s).withPmOf s).withFooterOf s).withOutcomeOf s =
        (s.verifyCalled hb ct mic).decryptCalled ct

/-- DEC_MSG stops at the first failing stage: header, footer split, verify, decrypt, Protocol Message.
States 44_message_assembly R182. How an answer is given, and the record of calls, are the model's
own (log entries 4 and 6). -/
def Obligations.DecMsgErrorsAndTheirOrder : Prop :=
  ∀ s : State,
    (∀ t, exec .decHdr s = .next t → t.status ∈ [0x01#8, 0x06#8, 0x08#8] →
      exec .decMsg s = .next t) ∧
    (∀ (f : Wire.HeaderFields) (hb rest : Bytes) (p : BitVec 16),
      s.ilen.toNat ≤ Config.cap → hb = Wire.header (s.ctrl.getLsbD 0) f →
      p = BitVec.ofNat 16 hb.length → s.wireInput = hb ++ rest → s.AcceptsVersion f.mf →
      (rest.length < s.footerSize →
        exec .decMsg s = .next { s with status := 0x01#8, pos := p }) ∧
      (∀ ct mic, rest = ct ++ mic → mic.length = s.footerSize →
        (s.ctrl.getLsbD 2 = true → s.verifyAnswerTo 0 hb ct mic = false →
          exec .decMsg s = .next { s.verifyCalled hb ct mic with status := 0x05#8, pos := p }) ∧
        ((s.ctrl.getLsbD 2 = true → s.verifyAnswerTo 0 hb ct mic = true) →
          (s.decryptAnswerTo s.verifyCount ct = none →
            exec .decMsg s = .next { (s.verifyCalled hb ct mic).decryptCalled ct with
              status := 0x04#8, pos := p }) ∧
          (∀ pt, s.decryptAnswerTo s.verifyCount ct = some pt → Config.cap < pt.length →
            exec .decMsg s = .next { (s.verifyCalled hb ct mic).decryptCalled ct with
              status := 0x09#8, pos := p }) ∧
          (∀ pt (g : Wire.PmFields), s.decryptAnswerTo s.verifyCount ct = some pt →
            pt.length ≤ Config.cap → pt = (Wire.pmHead g).take pt.length →
            pt.length < (Wire.pmHead g).length → g.sx.length < 65536 →
            exec .decMsg s = .next { (s.verifyCalled hb ct mic).decryptCalled ct with
              status := 0x01#8, pos := p }))))

/-- With a transparent collaborator a message round-trips through ENC_MSG and DEC_MSG. Rests on
44_message_assembly R183. How an answer is given is the model's own (log entry 4). -/
def Obligations.TransparentRoundTrip : Prop :=
  (∀ s : State, s.HeaderConsistent ∧ s.PmConsistent ∧ s.FooterConsistent →
    s.sf.extractLsb' 0 2 ≠ 2#2 → s.AcceptsVersion s.mf →
    (s.wireHeader ++ s.wirePm ++ s.micBytes).length ≤ Config.cap →
    s.encryptAnswerTo s.wirePm = s.wirePm →
    (s.ctrl.getLsbD 2 = true →
      s.verifyAnswerTo 1 s.wireHeader s.wirePm s.micBytes = true) →
    s.decryptAnswerTo (1 + s.verifyCount) s.wirePm = some s.wirePm →
    ∃ t u, exec .encMsg s = .next t ∧
      t.memRead .obuf 0 t.olen.toNat = s.wireHeader ++ s.wirePm ++ s.micBytes ∧
      exec .decMsg t.copyOutputToInput = .next u ∧ u.status = 0x00#8 ∧
      u.pos = t.copyOutputToInput.ilen ∧ u.mf = s.mf ∧ u.sf = s.sf ∧ u.xf = s.xf ∧ u.tag = s.tag ∧
      u.headerFields = s.headerFields.decoded (s.ctrl.getLsbD 0) ∧
      u.pmFields = s.pmFields.decoded ∧ u.micBytes = s.micBytes) ∧
  (∀ s t : State, exec .encMsg s = .next t → t.status = 0x00#8 →
    t.memRead .obuf 0 t.olen.toNat = s.wireHeader ++ s.encryptAnswerTo s.wirePm ++ s.micBytes)

/-- The encodes produce hlen, plen and hlen + |encrypt answer| + MICSZ bytes. States 30_encoding R72. -/
def Obligations.LengthsOfEncodings : Prop :=
  ∀ s t : State,
    (exec .encHdr s = .next t → t.status = 0x00#8 → t.olen.toNat = s.hlen) ∧
    (exec .encPm s = .next t → t.status = 0x00#8 → t.olen.toNat = s.plen) ∧
    (exec .encMsg s = .next t → t.status = 0x00#8 →
      t.olen.toNat = s.hlen + (s.encryptAnswerTo s.wirePm).length
        + (if s.ctrl.getLsbD 2 then s.micsz.toNat else 0)) ∧
    8 ≤ s.hlen ∧ State.reset.hlen = 8 ∧ (s.sf.getLsbD 5 = false → s.hlen ≤ 26) ∧
    ({ State.reset with ctrl := 0x01#8, mf := 0x05#8 } : State).hlen = 26 ∧
    6 ≤ s.plen ∧ State.reset.plen = 6

/-- Only ENC_MSG and DEC_MSG use the crypto port, with at most one call of each kind and requests within
CAP. Rests on 44_message_assembly R176, 44_message_assembly R178, 20_memory R59. The record and the
count of calls are the model's own (log entries 4 and 6). -/
def Obligations.OnlyMessageCommandsCall : Prop :=
  ∀ (i : Instr) (s t : State), exec i s = .next t →
    t.obs = s.obs ++ newObservations s t ∧ t.calls = s.calls + (newObservations s t).length ∧
    (i ≠ .encMsg → i ≠ .decMsg → newObservations s t = [] ∧ t.withCryptoOf s = t) ∧
    (i = .encMsg → newObservations s t = [] ∨
      ∃ pt, newObservations s t = [.encryptCall pt s.ctx] ∧ pt.length ≤ Config.cap) ∧
    (i = .decMsg → newObservations s t = [] ∨
      (∃ hb ct mic, hb.length + ct.length + mic.length = s.ilen.toNat ∧
        s.ilen.toNat ≤ Config.cap ∧
        ((s.ctrl.getLsbD 2 = true ∧
            (newObservations s t = [.verifyCall hb ct mic s.ctx] ∧
                s.verifyAnswerTo 0 hb ct mic = false ∨
              newObservations s t = [.verifyCall hb ct mic s.ctx, .decryptCall ct s.ctx] ∧
                s.verifyAnswerTo 0 hb ct mic = true)) ∨
          (s.ctrl.getLsbD 2 = false ∧ newObservations s t = [.decryptCall ct s.ctx]))))

/-- A command that fails changes STATUS and POS and nothing else; its crypto-port calls stay made.
States 60_exceptions R205. The answers still to come, the count and the record of calls are the
model's own (log entries 4 and 6). -/
def Obligations.ErrorsKeepTheState : Prop :=
  (∀ (i : Instr) (s t : State), exec i s = .next t → t.status ≠ 0x00#8 →
    (∃ k p, s.ReportsAt i k p ∧
      t.withCryptoOf s = { s with status := k.code, pos := BitVec.ofNat 16 p }) ∧
    (∃ made, t.obs = s.obs ++ made) ∧ s.calls ≤ t.calls) ∧
  (∀ (w : CommandWord) (e : DecodeError) (s : State), decode w = .error e →
    issue w s = .next { s with status := 0x0A#8 })

/-- Each command ends with one of its own STATUS codes and with POS as the table says. Rests on
60_exceptions R200, 60_exceptions R201, 60_exceptions R202, 60_exceptions R203, 60_exceptions R211,
10_state R33. The positions stand in State.ReportsAt, one line for each kind. -/
def Obligations.StatusAndPositionOfCommands : Prop :=
  (∀ (i : Instr) (s t : State), exec i s = .next t →
    t.status ∈ possibleCodes i ∧ producedCode t.status = true ∧
    (isCodec i = false → t.pos = s.pos) ∧
    (t.status = 0x00#8 →
      (i ∈ [.encHdr, .encPm, .encMsg] → t.pos = t.olen) ∧
      (i = .decHdr → s.HeaderOfLength t.pos.toNat) ∧
      (i ∈ [.decPm, .decMsg] → t.pos = s.ilen)) ∧
    (∀ k : ErrorKind, t.status = k.code → s.ReportsAt i k t.pos.toNat)) ∧
  (∀ (w : CommandWord) (e : DecodeError) (s : State), decode w = .error e →
    issue w s = .next { s with status := 0x0A#8 })

/-- InvariantViolation is raised exactly when a check fails or a length register exceeds CAP. States
60_exceptions R207, 60_exceptions R209. -/
def Obligations.InvariantViolationExactly : Prop :=
  ∀ (i : Instr) (s t : State), exec i s = .next t →
    (t.status = 0x08#8 ↔
      (i = .encHdr ∧ ¬ s.HeaderConsistent) ∨ (i = .encPm ∧ ¬ s.PmConsistent) ∨
      (i = .encMsg ∧ ¬ (s.HeaderConsistent ∧ s.PmConsistent ∧ s.FooterConsistent)) ∨
      (i ∈ [.decHdr, .decPm, .decMsg] ∧ Config.cap < s.ilen.toNat)) ∧
    (t.status = 0x08#8 → t = { s with status := 0x08#8, pos := 0#16 }) ∧
    (t.status = 0x00#8 →
      (i ∈ [.decHdr, .decMsg] → t.mxlen.toNat ≤ Config.cap) ∧
      (i ∈ [.decPm, .decMsg] → t.sxlen.toNat ≤ Config.cap ∧ t.paylen.toNat ≤ Config.cap) ∧
      (i = .decMsg → t.miclen.toNat ≤ Config.cap))

/-- Every step keeps the invariant: canonical SF, produced STATUS, POS and OLEN within CAP, canonical
buffers. Rests on 10_state R14, 10_state R33, 20_memory R40, 60_exceptions R200. The canonical form
of a buffer's cells is the model's own (log entry 3). -/
def Obligations.InvariantIsKept : Prop :=
  ∀ s t : State, s.Inv → step s = .next t → t.Inv

/-- The state after reset satisfies the invariant. Rests on 70_reset_and_hazards R231, 10_state R14. The
canonical form of a buffer's cells is the model's own (log entry 3). -/
def Obligations.InvariantAtReset : Prop :=
  State.reset.Inv

/-- No command reads STATUS, RES or POS: what earlier commands left there changes no result. Rests on
10_state R31, 10_state R39, 00_scope R5. The record of observations is the model's own (log entry
6). -/
def Obligations.OutcomeIsNotRead : Prop :=
  ∀ (i : Instr) (s s' : State), s.forgetOutcome = s'.forgetOutcome →
    ∃ t t', exec i s = .next t ∧ exec i s' = .next t' ∧ t.status = t'.status ∧
      t.forgetOutcome = t'.forgetOutcome ∧ newObservations s t = newObservations s' t' ∧
      (if isReadType i then t.res = t'.res else t.res = s.res ∧ t'.res = s'.res) ∧
      (if isCodec i then t.pos = t'.pos else t.pos = s.pos ∧ t'.pos = s'.pos)

/-- A decode depends on its input, the settings its rule reads and, for DEC_MSG, the collaborator's
answers (log entry 4). Rests on 10_state R29, 00_scope R5, 10_state R39. How an answer is given, and
the count of calls, are the model's own (log entry 4), and so is the record of calls (log entry 6). -/
def Obligations.DecodesForgetEarlierMessages : Prop :=
  ∀ s s' : State,
    (s.wireInput = s'.wireInput → ∃ t t', exec .decPm s = .next t ∧ exec .decPm s' = .next t' ∧
      t.status = t'.status ∧ t.pos = t'.pos ∧
      (t.status = 0x00#8 → t.pmFields = t'.pmFields ∧
        t.tag.extractLsb' 5 3 = t'.tag.extractLsb' 5 3)) ∧
    (SameHeaderInputs s s' → s.ctrl.getLsbD 1 = s'.ctrl.getLsbD 1 →
      ∃ t t', exec .decHdr s = .next t ∧ exec .decHdr s' = .next t' ∧
        t.status = t'.status ∧ t.pos = t'.pos ∧
        (t.status = 0x00#8 → t.headerFields = t'.headerFields ∧
          t.tag.extractLsb' 0 5 = t'.tag.extractLsb' 0 5)) ∧
    (SameMessageInputs s s' → ∃ t t', exec .decMsg s = .next t ∧ exec .decMsg s' = .next t' ∧
      t.status = t'.status ∧ t.pos = t'.pos ∧ newObservations s t = newObservations s' t' ∧
      (t.status = 0x00#8 → t.headerFields = t'.headerFields ∧ t.pmFields = t'.pmFields ∧
        t.tag = t'.tag ∧ t.micBytes = t'.micBytes))

/-- After a successful decode an absent field has register 0, length 0 and tag 0, and its buffer is as
it was. Rests on 10_state R29, 10_state R28. -/
def Obligations.AbsentFieldsReadZero : Prop :=
  (∀ (i : Instr) (s t : State), i = .decHdr ∨ i = .decMsg → exec i s = .next t →
    t.status = 0x00#8 →
    t.tag.getLsbD 0 = s.ctrl.getLsbD 0 ∧ t.tag.getLsbD 1 = t.mf.getLsbD 2 ∧
    t.tag.extractLsb' 2 2 = Wire.destinationTag t.mf ∧ t.tag.getLsbD 4 = t.sf.getLsbD 5 ∧
    (t.tag.getLsbD 0 = false → t.len = 0#16) ∧ (t.tag.getLsbD 1 = false → t.src = 0#64) ∧
    (t.tag.extractLsb' 2 2 = 0#2 → t.dst = 0#64) ∧
    (t.tag.getLsbD 4 = false → t.mxlen = 0#16 ∧ SameBytesFrom .mxb 0 t s)) ∧
  (∀ (i : Instr) (s t : State), i = .decPm ∨ i = .decMsg → exec i s = .next t →
    t.status = 0x00#8 →
    t.tag.getLsbD 5 = t.xf.getLsbD 4 ∧ t.tag.getLsbD 6 = t.xf.getLsbD 1 ∧
    t.tag.getLsbD 7 = t.xf.getLsbD 3 ∧
    (t.tag.getLsbD 5 = false → t.vid = 0#16) ∧ (t.tag.getLsbD 6 = false → t.ack = 0#32) ∧
    (t.tag.getLsbD 7 = false → t.sxlen = 0#16 ∧ SameBytesFrom .sxb 0 t s)) ∧
  (∀ s t : State, exec .decMsg s = .next t → t.status = 0x00#8 → s.ctrl.getLsbD 2 = false →
    t.miclen = 0#16 ∧ SameBytesFrom .mic 0 t s)

/-- No command writes CTRL, VERMASK, MICSZ, CTX, ILEN or IBUF, and each buffer has its own writers.
Rests on 20_memory R40, 10_state R28, 10_state R32. -/
def Obligations.SettingsAndInputAreNotWritten : Prop :=
  ∀ (i : Instr) (s t : State), exec i s = .next t →
    t.ctrl = s.ctrl ∧ t.vermask = s.vermask ∧ t.micsz = s.micsz ∧ t.ctx = s.ctx ∧
    t.ilen = s.ilen ∧ t.ibuf = s.ibuf ∧ t.epoch = s.epoch ∧ t.events = s.events ∧
    (i ∉ [.encHdr, .encPm, .encMsg] → t.obuf = s.obuf ∧ t.olen = s.olen) ∧
    (i ∉ [.decHdr, .decMsg] → t.mxb = s.mxb ∧ t.mxlen = s.mxlen ∧
      t.tag.extractLsb' 0 5 = s.tag.extractLsb' 0 5) ∧
    (i ∉ [.decPm, .decMsg] → t.sxb = s.sxb ∧ t.sxlen = s.sxlen ∧ t.pay = s.pay ∧
      t.paylen = s.paylen ∧ t.tag.extractLsb' 5 3 = s.tag.extractLsb' 5 3) ∧
    (i ≠ .decMsg → t.mic = s.mic ∧ t.miclen = s.miclen) ∧
    (isReadType i = false → t.res = s.res)
end

