-- ==== Sys2Proof/Laws/State.lean ====
section
/-! SUPPORT. One lemma per field per update of the state, so that no later proof unfolds a record update. -/

namespace Sys2Proof.Machine

/-! ### `succeed` -/

@[simp] theorem State.succeed_status (s : State) :
    s.succeed.status = statusOk := rfl

@[simp] theorem State.succeed_res (s : State) :
    s.succeed.res = s.res := rfl

@[simp] theorem State.succeed_pos (s : State) :
    s.succeed.pos = s.pos := rfl

@[simp] theorem State.succeed_ctrl (s : State) :
    s.succeed.ctrl = s.ctrl := rfl

@[simp] theorem State.succeed_vermask (s : State) :
    s.succeed.vermask = s.vermask := rfl

@[simp] theorem State.succeed_micsz (s : State) :
    s.succeed.micsz = s.micsz := rfl

@[simp] theorem State.succeed_ctx (s : State) :
    s.succeed.ctx = s.ctx := rfl

@[simp] theorem State.succeed_tag (s : State) :
    s.succeed.tag = s.tag := rfl

@[simp] theorem State.succeed_len (s : State) :
    s.succeed.len = s.len := rfl

@[simp] theorem State.succeed_mf (s : State) :
    s.succeed.mf = s.mf := rfl

@[simp] theorem State.succeed_sid (s : State) :
    s.succeed.sid = s.sid := rfl

@[simp] theorem State.succeed_sf (s : State) :
    s.succeed.sf = s.sf := rfl

@[simp] theorem State.succeed_ctr (s : State) :
    s.succeed.ctr = s.ctr := rfl

@[simp] theorem State.succeed_src (s : State) :
    s.succeed.src = s.src := rfl

@[simp] theorem State.succeed_dst (s : State) :
    s.succeed.dst = s.dst := rfl

@[simp] theorem State.succeed_mxlen (s : State) :
    s.succeed.mxlen = s.mxlen := rfl

@[simp] theorem State.succeed_xf (s : State) :
    s.succeed.xf = s.xf := rfl

@[simp] theorem State.succeed_opc (s : State) :
    s.succeed.opc = s.opc := rfl

@[simp] theorem State.succeed_xid (s : State) :
    s.succeed.xid = s.xid := rfl

@[simp] theorem State.succeed_pid (s : State) :
    s.succeed.pid = s.pid := rfl

@[simp] theorem State.succeed_vid (s : State) :
    s.succeed.vid = s.vid := rfl

@[simp] theorem State.succeed_ack (s : State) :
    s.succeed.ack = s.ack := rfl

@[simp] theorem State.succeed_sxlen (s : State) :
    s.succeed.sxlen = s.sxlen := rfl

@[simp] theorem State.succeed_paylen (s : State) :
    s.succeed.paylen = s.paylen := rfl

@[simp] theorem State.succeed_miclen (s : State) :
    s.succeed.miclen = s.miclen := rfl

@[simp] theorem State.succeed_ilen (s : State) :
    s.succeed.ilen = s.ilen := rfl

@[simp] theorem State.succeed_olen (s : State) :
    s.succeed.olen = s.olen := rfl

@[simp] theorem State.succeed_ibuf (s : State) :
    s.succeed.ibuf = s.ibuf := rfl

@[simp] theorem State.succeed_obuf (s : State) :
    s.succeed.obuf = s.obuf := rfl

@[simp] theorem State.succeed_mxb (s : State) :
    s.succeed.mxb = s.mxb := rfl

@[simp] theorem State.succeed_sxb (s : State) :
    s.succeed.sxb = s.sxb := rfl

@[simp] theorem State.succeed_pay (s : State) :
    s.succeed.pay = s.pay := rfl

@[simp] theorem State.succeed_mic (s : State) :
    s.succeed.mic = s.mic := rfl

@[simp] theorem State.succeed_epoch (s : State) :
    s.succeed.epoch = s.epoch := rfl

@[simp] theorem State.succeed_events (s : State) :
    s.succeed.events = s.events := rfl

@[simp] theorem State.succeed_encryptAnswers (s : State) :
    s.succeed.encryptAnswers = s.encryptAnswers := rfl

@[simp] theorem State.succeed_verifyAnswers (s : State) :
    s.succeed.verifyAnswers = s.verifyAnswers := rfl

@[simp] theorem State.succeed_decryptAnswers (s : State) :
    s.succeed.decryptAnswers = s.decryptAnswers := rfl

@[simp] theorem State.succeed_calls (s : State) :
    s.succeed.calls = s.calls := rfl

@[simp] theorem State.succeed_obs (s : State) :
    s.succeed.obs = s.obs := rfl

/-! ### `succeedAt` -/

@[simp] theorem State.succeedAt_status (p : Nat) (s : State) :
    (s.succeedAt p).status = statusOk := rfl

@[simp] theorem State.succeedAt_res (p : Nat) (s : State) :
    (s.succeedAt p).res = s.res := rfl

@[simp] theorem State.succeedAt_pos (p : Nat) (s : State) :
    (s.succeedAt p).pos = BitVec.ofNat 16 p := rfl

@[simp] theorem State.succeedAt_ctrl (p : Nat) (s : State) :
    (s.succeedAt p).ctrl = s.ctrl := rfl

@[simp] theorem State.succeedAt_vermask (p : Nat) (s : State) :
    (s.succeedAt p).vermask = s.vermask := rfl

@[simp] theorem State.succeedAt_micsz (p : Nat) (s : State) :
    (s.succeedAt p).micsz = s.micsz := rfl

@[simp] theorem State.succeedAt_ctx (p : Nat) (s : State) :
    (s.succeedAt p).ctx = s.ctx := rfl

@[simp] theorem State.succeedAt_tag (p : Nat) (s : State) :
    (s.succeedAt p).tag = s.tag := rfl

@[simp] theorem State.succeedAt_len (p : Nat) (s : State) :
    (s.succeedAt p).len = s.len := rfl

@[simp] theorem State.succeedAt_mf (p : Nat) (s : State) :
    (s.succeedAt p).mf = s.mf := rfl

@[simp] theorem State.succeedAt_sid (p : Nat) (s : State) :
    (s.succeedAt p).sid = s.sid := rfl

@[simp] theorem State.succeedAt_sf (p : Nat) (s : State) :
    (s.succeedAt p).sf = s.sf := rfl

@[simp] theorem State.succeedAt_ctr (p : Nat) (s : State) :
    (s.succeedAt p).ctr = s.ctr := rfl

@[simp] theorem State.succeedAt_src (p : Nat) (s : State) :
    (s.succeedAt p).src = s.src := rfl

@[simp] theorem State.succeedAt_dst (p : Nat) (s : State) :
    (s.succeedAt p).dst = s.dst := rfl

@[simp] theorem State.succeedAt_mxlen (p : Nat) (s : State) :
    (s.succeedAt p).mxlen = s.mxlen := rfl

@[simp] theorem State.succeedAt_xf (p : Nat) (s : State) :
    (s.succeedAt p).xf = s.xf := rfl

@[simp] theorem State.succeedAt_opc (p : Nat) (s : State) :
    (s.succeedAt p).opc = s.opc := rfl

@[simp] theorem State.succeedAt_xid (p : Nat) (s : State) :
    (s.succeedAt p).xid = s.xid := rfl

@[simp] theorem State.succeedAt_pid (p : Nat) (s : State) :
    (s.succeedAt p).pid = s.pid := rfl

@[simp] theorem State.succeedAt_vid (p : Nat) (s : State) :
    (s.succeedAt p).vid = s.vid := rfl

@[simp] theorem State.succeedAt_ack (p : Nat) (s : State) :
    (s.succeedAt p).ack = s.ack := rfl

@[simp] theorem State.succeedAt_sxlen (p : Nat) (s : State) :
    (s.succeedAt p).sxlen = s.sxlen := rfl

@[simp] theorem State.succeedAt_paylen (p : Nat) (s : State) :
    (s.succeedAt p).paylen = s.paylen := rfl

@[simp] theorem State.succeedAt_miclen (p : Nat) (s : State) :
    (s.succeedAt p).miclen = s.miclen := rfl

@[simp] theorem State.succeedAt_ilen (p : Nat) (s : State) :
    (s.succeedAt p).ilen = s.ilen := rfl

@[simp] theorem State.succeedAt_olen (p : Nat) (s : State) :
    (s.succeedAt p).olen = s.olen := rfl

@[simp] theorem State.succeedAt_ibuf (p : Nat) (s : State) :
    (s.succeedAt p).ibuf = s.ibuf := rfl

@[simp] theorem State.succeedAt_obuf (p : Nat) (s : State) :
    (s.succeedAt p).obuf = s.obuf := rfl

@[simp] theorem State.succeedAt_mxb (p : Nat) (s : State) :
    (s.succeedAt p).mxb = s.mxb := rfl

@[simp] theorem State.succeedAt_sxb (p : Nat) (s : State) :
    (s.succeedAt p).sxb = s.sxb := rfl

@[simp] theorem State.succeedAt_pay (p : Nat) (s : State) :
    (s.succeedAt p).pay = s.pay := rfl

@[simp] theorem State.succeedAt_mic (p : Nat) (s : State) :
    (s.succeedAt p).mic = s.mic := rfl

@[simp] theorem State.succeedAt_epoch (p : Nat) (s : State) :
    (s.succeedAt p).epoch = s.epoch := rfl

@[simp] theorem State.succeedAt_events (p : Nat) (s : State) :
    (s.succeedAt p).events = s.events := rfl

@[simp] theorem State.succeedAt_encryptAnswers (p : Nat) (s : State) :
    (s.succeedAt p).encryptAnswers = s.encryptAnswers := rfl

@[simp] theorem State.succeedAt_verifyAnswers (p : Nat) (s : State) :
    (s.succeedAt p).verifyAnswers = s.verifyAnswers := rfl

@[simp] theorem State.succeedAt_decryptAnswers (p : Nat) (s : State) :
    (s.succeedAt p).decryptAnswers = s.decryptAnswers := rfl

@[simp] theorem State.succeedAt_calls (p : Nat) (s : State) :
    (s.succeedAt p).calls = s.calls := rfl

@[simp] theorem State.succeedAt_obs (p : Nat) (s : State) :
    (s.succeedAt p).obs = s.obs := rfl

/-! ### `raise` -/

@[simp] theorem State.raise_status (e : CodecError) (s : State) :
    (s.raise e).status = e.kind.code := rfl

@[simp] theorem State.raise_res (e : CodecError) (s : State) :
    (s.raise e).res = s.res := rfl

@[simp] theorem State.raise_pos (e : CodecError) (s : State) :
    (s.raise e).pos = BitVec.ofNat 16 e.pos := rfl

@[simp] theorem State.raise_ctrl (e : CodecError) (s : State) :
    (s.raise e).ctrl = s.ctrl := rfl

@[simp] theorem State.raise_vermask (e : CodecError) (s : State) :
    (s.raise e).vermask = s.vermask := rfl

@[simp] theorem State.raise_micsz (e : CodecError) (s : State) :
    (s.raise e).micsz = s.micsz := rfl

@[simp] theorem State.raise_ctx (e : CodecError) (s : State) :
    (s.raise e).ctx = s.ctx := rfl

@[simp] theorem State.raise_tag (e : CodecError) (s : State) :
    (s.raise e).tag = s.tag := rfl

@[simp] theorem State.raise_len (e : CodecError) (s : State) :
    (s.raise e).len = s.len := rfl

@[simp] theorem State.raise_mf (e : CodecError) (s : State) :
    (s.raise e).mf = s.mf := rfl

@[simp] theorem State.raise_sid (e : CodecError) (s : State) :
    (s.raise e).sid = s.sid := rfl

@[simp] theorem State.raise_sf (e : CodecError) (s : State) :
    (s.raise e).sf = s.sf := rfl

@[simp] theorem State.raise_ctr (e : CodecError) (s : State) :
    (s.raise e).ctr = s.ctr := rfl

@[simp] theorem State.raise_src (e : CodecError) (s : State) :
    (s.raise e).src = s.src := rfl

@[simp] theorem State.raise_dst (e : CodecError) (s : State) :
    (s.raise e).dst = s.dst := rfl

@[simp] theorem State.raise_mxlen (e : CodecError) (s : State) :
    (s.raise e).mxlen = s.mxlen := rfl

@[simp] theorem State.raise_xf (e : CodecError) (s : State) :
    (s.raise e).xf = s.xf := rfl

@[simp] theorem State.raise_opc (e : CodecError) (s : State) :
    (s.raise e).opc = s.opc := rfl

@[simp] theorem State.raise_xid (e : CodecError) (s : State) :
    (s.raise e).xid = s.xid := rfl

@[simp] theorem State.raise_pid (e : CodecError) (s : State) :
    (s.raise e).pid = s.pid := rfl

@[simp] theorem State.raise_vid (e : CodecError) (s : State) :
    (s.raise e).vid = s.vid := rfl

@[simp] theorem State.raise_ack (e : CodecError) (s : State) :
    (s.raise e).ack = s.ack := rfl

@[simp] theorem State.raise_sxlen (e : CodecError) (s : State) :
    (s.raise e).sxlen = s.sxlen := rfl

@[simp] theorem State.raise_paylen (e : CodecError) (s : State) :
    (s.raise e).paylen = s.paylen := rfl

@[simp] theorem State.raise_miclen (e : CodecError) (s : State) :
    (s.raise e).miclen = s.miclen := rfl

@[simp] theorem State.raise_ilen (e : CodecError) (s : State) :
    (s.raise e).ilen = s.ilen := rfl

@[simp] theorem State.raise_olen (e : CodecError) (s : State) :
    (s.raise e).olen = s.olen := rfl

@[simp] theorem State.raise_ibuf (e : CodecError) (s : State) :
    (s.raise e).ibuf = s.ibuf := rfl

@[simp] theorem State.raise_obuf (e : CodecError) (s : State) :
    (s.raise e).obuf = s.obuf := rfl

@[simp] theorem State.raise_mxb (e : CodecError) (s : State) :
    (s.raise e).mxb = s.mxb := rfl

@[simp] theorem State.raise_sxb (e : CodecError) (s : State) :
    (s.raise e).sxb = s.sxb := rfl

@[simp] theorem State.raise_pay (e : CodecError) (s : State) :
    (s.raise e).pay = s.pay := rfl

@[simp] theorem State.raise_mic (e : CodecError) (s : State) :
    (s.raise e).mic = s.mic := rfl

@[simp] theorem State.raise_epoch (e : CodecError) (s : State) :
    (s.raise e).epoch = s.epoch := rfl

@[simp] theorem State.raise_events (e : CodecError) (s : State) :
    (s.raise e).events = s.events := rfl

@[simp] theorem State.raise_encryptAnswers (e : CodecError) (s : State) :
    (s.raise e).encryptAnswers = s.encryptAnswers := rfl

@[simp] theorem State.raise_verifyAnswers (e : CodecError) (s : State) :
    (s.raise e).verifyAnswers = s.verifyAnswers := rfl

@[simp] theorem State.raise_decryptAnswers (e : CodecError) (s : State) :
    (s.raise e).decryptAnswers = s.decryptAnswers := rfl

@[simp] theorem State.raise_calls (e : CodecError) (s : State) :
    (s.raise e).calls = s.calls := rfl

@[simp] theorem State.raise_obs (e : CodecError) (s : State) :
    (s.raise e).obs = s.obs := rfl

/-! ### `illegal` -/

@[simp] theorem State.illegal_status (s : State) :
    s.illegal.status = ErrorKind.illegalCommand.code := rfl

@[simp] theorem State.illegal_res (s : State) :
    s.illegal.res = s.res := rfl

@[simp] theorem State.illegal_pos (s : State) :
    s.illegal.pos = s.pos := rfl

@[simp] theorem State.illegal_ctrl (s : State) :
    s.illegal.ctrl = s.ctrl := rfl

@[simp] theorem State.illegal_vermask (s : State) :
    s.illegal.vermask = s.vermask := rfl

@[simp] theorem State.illegal_micsz (s : State) :
    s.illegal.micsz = s.micsz := rfl

@[simp] theorem State.illegal_ctx (s : State) :
    s.illegal.ctx = s.ctx := rfl

@[simp] theorem State.illegal_tag (s : State) :
    s.illegal.tag = s.tag := rfl

@[simp] theorem State.illegal_len (s : State) :
    s.illegal.len = s.len := rfl

@[simp] theorem State.illegal_mf (s : State) :
    s.illegal.mf = s.mf := rfl

@[simp] theorem State.illegal_sid (s : State) :
    s.illegal.sid = s.sid := rfl

@[simp] theorem State.illegal_sf (s : State) :
    s.illegal.sf = s.sf := rfl

@[simp] theorem State.illegal_ctr (s : State) :
    s.illegal.ctr = s.ctr := rfl

@[simp] theorem State.illegal_src (s : State) :
    s.illegal.src = s.src := rfl

@[simp] theorem State.illegal_dst (s : State) :
    s.illegal.dst = s.dst := rfl

@[simp] theorem State.illegal_mxlen (s : State) :
    s.illegal.mxlen = s.mxlen := rfl

@[simp] theorem State.illegal_xf (s : State) :
    s.illegal.xf = s.xf := rfl

@[simp] theorem State.illegal_opc (s : State) :
    s.illegal.opc = s.opc := rfl

@[simp] theorem State.illegal_xid (s : State) :
    s.illegal.xid = s.xid := rfl

@[simp] theorem State.illegal_pid (s : State) :
    s.illegal.pid = s.pid := rfl

@[simp] theorem State.illegal_vid (s : State) :
    s.illegal.vid = s.vid := rfl

@[simp] theorem State.illegal_ack (s : State) :
    s.illegal.ack = s.ack := rfl

@[simp] theorem State.illegal_sxlen (s : State) :
    s.illegal.sxlen = s.sxlen := rfl

@[simp] theorem State.illegal_paylen (s : State) :
    s.illegal.paylen = s.paylen := rfl

@[simp] theorem State.illegal_miclen (s : State) :
    s.illegal.miclen = s.miclen := rfl

@[simp] theorem State.illegal_ilen (s : State) :
    s.illegal.ilen = s.ilen := rfl

@[simp] theorem State.illegal_olen (s : State) :
    s.illegal.olen = s.olen := rfl

@[simp] theorem State.illegal_ibuf (s : State) :
    s.illegal.ibuf = s.ibuf := rfl

@[simp] theorem State.illegal_obuf (s : State) :
    s.illegal.obuf = s.obuf := rfl

@[simp] theorem State.illegal_mxb (s : State) :
    s.illegal.mxb = s.mxb := rfl

@[simp] theorem State.illegal_sxb (s : State) :
    s.illegal.sxb = s.sxb := rfl

@[simp] theorem State.illegal_pay (s : State) :
    s.illegal.pay = s.pay := rfl

@[simp] theorem State.illegal_mic (s : State) :
    s.illegal.mic = s.mic := rfl

@[simp] theorem State.illegal_epoch (s : State) :
    s.illegal.epoch = s.epoch := rfl

@[simp] theorem State.illegal_events (s : State) :
    s.illegal.events = s.events := rfl

@[simp] theorem State.illegal_encryptAnswers (s : State) :
    s.illegal.encryptAnswers = s.encryptAnswers := rfl

@[simp] theorem State.illegal_verifyAnswers (s : State) :
    s.illegal.verifyAnswers = s.verifyAnswers := rfl

@[simp] theorem State.illegal_decryptAnswers (s : State) :
    s.illegal.decryptAnswers = s.decryptAnswers := rfl

@[simp] theorem State.illegal_calls (s : State) :
    s.illegal.calls = s.calls := rfl

@[simp] theorem State.illegal_obs (s : State) :
    s.illegal.obs = s.obs := rfl

/-! ### `answer` -/

@[simp] theorem State.answer_status (v : Byte) (s : State) :
    (s.answer v).status = statusOk := rfl

@[simp] theorem State.answer_res (v : Byte) (s : State) :
    (s.answer v).res = v := rfl

@[simp] theorem State.answer_pos (v : Byte) (s : State) :
    (s.answer v).pos = s.pos := rfl

@[simp] theorem State.answer_ctrl (v : Byte) (s : State) :
    (s.answer v).ctrl = s.ctrl := rfl

@[simp] theorem State.answer_vermask (v : Byte) (s : State) :
    (s.answer v).vermask = s.vermask := rfl

@[simp] theorem State.answer_micsz (v : Byte) (s : State) :
    (s.answer v).micsz = s.micsz := rfl

@[simp] theorem State.answer_ctx (v : Byte) (s : State) :
    (s.answer v).ctx = s.ctx := rfl

@[simp] theorem State.answer_tag (v : Byte) (s : State) :
    (s.answer v).tag = s.tag := rfl

@[simp] theorem State.answer_len (v : Byte) (s : State) :
    (s.answer v).len = s.len := rfl

@[simp] theorem State.answer_mf (v : Byte) (s : State) :
    (s.answer v).mf = s.mf := rfl

@[simp] theorem State.answer_sid (v : Byte) (s : State) :
    (s.answer v).sid = s.sid := rfl

@[simp] theorem State.answer_sf (v : Byte) (s : State) :
    (s.answer v).sf = s.sf := rfl

@[simp] theorem State.answer_ctr (v : Byte) (s : State) :
    (s.answer v).ctr = s.ctr := rfl

@[simp] theorem State.answer_src (v : Byte) (s : State) :
    (s.answer v).src = s.src := rfl

@[simp] theorem State.answer_dst (v : Byte) (s : State) :
    (s.answer v).dst = s.dst := rfl

@[simp] theorem State.answer_mxlen (v : Byte) (s : State) :
    (s.answer v).mxlen = s.mxlen := rfl

@[simp] theorem State.answer_xf (v : Byte) (s : State) :
    (s.answer v).xf = s.xf := rfl

@[simp] theorem State.answer_opc (v : Byte) (s : State) :
    (s.answer v).opc = s.opc := rfl

@[simp] theorem State.answer_xid (v : Byte) (s : State) :
    (s.answer v).xid = s.xid := rfl

@[simp] theorem State.answer_pid (v : Byte) (s : State) :
    (s.answer v).pid = s.pid := rfl

@[simp] theorem State.answer_vid (v : Byte) (s : State) :
    (s.answer v).vid = s.vid := rfl

@[simp] theorem State.answer_ack (v : Byte) (s : State) :
    (s.answer v).ack = s.ack := rfl

@[simp] theorem State.answer_sxlen (v : Byte) (s : State) :
    (s.answer v).sxlen = s.sxlen := rfl

@[simp] theorem State.answer_paylen (v : Byte) (s : State) :
    (s.answer v).paylen = s.paylen := rfl

@[simp] theorem State.answer_miclen (v : Byte) (s : State) :
    (s.answer v).miclen = s.miclen := rfl

@[simp] theorem State.answer_ilen (v : Byte) (s : State) :
    (s.answer v).ilen = s.ilen := rfl

@[simp] theorem State.answer_olen (v : Byte) (s : State) :
    (s.answer v).olen = s.olen := rfl

@[simp] theorem State.answer_ibuf (v : Byte) (s : State) :
    (s.answer v).ibuf = s.ibuf := rfl

@[simp] theorem State.answer_obuf (v : Byte) (s : State) :
    (s.answer v).obuf = s.obuf := rfl

@[simp] theorem State.answer_mxb (v : Byte) (s : State) :
    (s.answer v).mxb = s.mxb := rfl

@[simp] theorem State.answer_sxb (v : Byte) (s : State) :
    (s.answer v).sxb = s.sxb := rfl

@[simp] theorem State.answer_pay (v : Byte) (s : State) :
    (s.answer v).pay = s.pay := rfl

@[simp] theorem State.answer_mic (v : Byte) (s : State) :
    (s.answer v).mic = s.mic := rfl

@[simp] theorem State.answer_epoch (v : Byte) (s : State) :
    (s.answer v).epoch = s.epoch := rfl

@[simp] theorem State.answer_events (v : Byte) (s : State) :
    (s.answer v).events = s.events := rfl

@[simp] theorem State.answer_encryptAnswers (v : Byte) (s : State) :
    (s.answer v).encryptAnswers = s.encryptAnswers := rfl

@[simp] theorem State.answer_verifyAnswers (v : Byte) (s : State) :
    (s.answer v).verifyAnswers = s.verifyAnswers := rfl

@[simp] theorem State.answer_decryptAnswers (v : Byte) (s : State) :
    (s.answer v).decryptAnswers = s.decryptAnswers := rfl

@[simp] theorem State.answer_calls (v : Byte) (s : State) :
    (s.answer v).calls = s.calls := rfl

@[simp] theorem State.answer_obs (v : Byte) (s : State) :
    (s.answer v).obs = s.obs := rfl

/-! ### `putMf` -/

@[simp] theorem State.putMf_status (b : Byte) (s : State) :
    (s.putMf b).status = s.status := rfl

@[simp] theorem State.putMf_res (b : Byte) (s : State) :
    (s.putMf b).res = s.res := rfl

@[simp] theorem State.putMf_pos (b : Byte) (s : State) :
    (s.putMf b).pos = s.pos := rfl

@[simp] theorem State.putMf_ctrl (b : Byte) (s : State) :
    (s.putMf b).ctrl = s.ctrl := rfl

@[simp] theorem State.putMf_vermask (b : Byte) (s : State) :
    (s.putMf b).vermask = s.vermask := rfl

@[simp] theorem State.putMf_micsz (b : Byte) (s : State) :
    (s.putMf b).micsz = s.micsz := rfl

@[simp] theorem State.putMf_ctx (b : Byte) (s : State) :
    (s.putMf b).ctx = s.ctx := rfl

@[simp] theorem State.putMf_tag (b : Byte) (s : State) :
    (s.putMf b).tag = s.tag := rfl

@[simp] theorem State.putMf_len (b : Byte) (s : State) :
    (s.putMf b).len = s.len := rfl

@[simp] theorem State.putMf_mf (b : Byte) (s : State) :
    (s.putMf b).mf = b := rfl

@[simp] theorem State.putMf_sid (b : Byte) (s : State) :
    (s.putMf b).sid = s.sid := rfl

@[simp] theorem State.putMf_sf (b : Byte) (s : State) :
    (s.putMf b).sf = s.sf := rfl

@[simp] theorem State.putMf_ctr (b : Byte) (s : State) :
    (s.putMf b).ctr = s.ctr := rfl

@[simp] theorem State.putMf_src (b : Byte) (s : State) :
    (s.putMf b).src = s.src := rfl

@[simp] theorem State.putMf_dst (b : Byte) (s : State) :
    (s.putMf b).dst = s.dst := rfl

@[simp] theorem State.putMf_mxlen (b : Byte) (s : State) :
    (s.putMf b).mxlen = s.mxlen := rfl

@[simp] theorem State.putMf_xf (b : Byte) (s : State) :
    (s.putMf b).xf = s.xf := rfl

@[simp] theorem State.putMf_opc (b : Byte) (s : State) :
    (s.putMf b).opc = s.opc := rfl

@[simp] theorem State.putMf_xid (b : Byte) (s : State) :
    (s.putMf b).xid = s.xid := rfl

@[simp] theorem State.putMf_pid (b : Byte) (s : State) :
    (s.putMf b).pid = s.pid := rfl

@[simp] theorem State.putMf_vid (b : Byte) (s : State) :
    (s.putMf b).vid = s.vid := rfl

@[simp] theorem State.putMf_ack (b : Byte) (s : State) :
    (s.putMf b).ack = s.ack := rfl

@[simp] theorem State.putMf_sxlen (b : Byte) (s : State) :
    (s.putMf b).sxlen = s.sxlen := rfl

@[simp] theorem State.putMf_paylen (b : Byte) (s : State) :
    (s.putMf b).paylen = s.paylen := rfl

@[simp] theorem State.putMf_miclen (b : Byte) (s : State) :
    (s.putMf b).miclen = s.miclen := rfl

@[simp] theorem State.putMf_ilen (b : Byte) (s : State) :
    (s.putMf b).ilen = s.ilen := rfl

@[simp] theorem State.putMf_olen (b : Byte) (s : State) :
    (s.putMf b).olen = s.olen := rfl

@[simp] theorem State.putMf_ibuf (b : Byte) (s : State) :
    (s.putMf b).ibuf = s.ibuf := rfl

@[simp] theorem State.putMf_obuf (b : Byte) (s : State) :
    (s.putMf b).obuf = s.obuf := rfl

@[simp] theorem State.putMf_mxb (b : Byte) (s : State) :
    (s.putMf b).mxb = s.mxb := rfl

@[simp] theorem State.putMf_sxb (b : Byte) (s : State) :
    (s.putMf b).sxb = s.sxb := rfl

@[simp] theorem State.putMf_pay (b : Byte) (s : State) :
    (s.putMf b).pay = s.pay := rfl

@[simp] theorem State.putMf_mic (b : Byte) (s : State) :
    (s.putMf b).mic = s.mic := rfl

@[simp] theorem State.putMf_epoch (b : Byte) (s : State) :
    (s.putMf b).epoch = s.epoch := rfl

@[simp] theorem State.putMf_events (b : Byte) (s : State) :
    (s.putMf b).events = s.events := rfl

@[simp] theorem State.putMf_encryptAnswers (b : Byte) (s : State) :
    (s.putMf b).encryptAnswers = s.encryptAnswers := rfl

@[simp] theorem State.putMf_verifyAnswers (b : Byte) (s : State) :
    (s.putMf b).verifyAnswers = s.verifyAnswers := rfl

@[simp] theorem State.putMf_decryptAnswers (b : Byte) (s : State) :
    (s.putMf b).decryptAnswers = s.decryptAnswers := rfl

@[simp] theorem State.putMf_calls (b : Byte) (s : State) :
    (s.putMf b).calls = s.calls := rfl

@[simp] theorem State.putMf_obs (b : Byte) (s : State) :
    (s.putMf b).obs = s.obs := rfl

/-! ### `putSf` -/

@[simp] theorem State.putSf_status (b : Byte) (s : State) :
    (s.putSf b).status = s.status := rfl

@[simp] theorem State.putSf_res (b : Byte) (s : State) :
    (s.putSf b).res = s.res := rfl

@[simp] theorem State.putSf_pos (b : Byte) (s : State) :
    (s.putSf b).pos = s.pos := rfl

@[simp] theorem State.putSf_ctrl (b : Byte) (s : State) :
    (s.putSf b).ctrl = s.ctrl := rfl

@[simp] theorem State.putSf_vermask (b : Byte) (s : State) :
    (s.putSf b).vermask = s.vermask := rfl

@[simp] theorem State.putSf_micsz (b : Byte) (s : State) :
    (s.putSf b).micsz = s.micsz := rfl

@[simp] theorem State.putSf_ctx (b : Byte) (s : State) :
    (s.putSf b).ctx = s.ctx := rfl

@[simp] theorem State.putSf_tag (b : Byte) (s : State) :
    (s.putSf b).tag = s.tag := rfl

@[simp] theorem State.putSf_len (b : Byte) (s : State) :
    (s.putSf b).len = s.len := rfl

@[simp] theorem State.putSf_mf (b : Byte) (s : State) :
    (s.putSf b).mf = s.mf := rfl

@[simp] theorem State.putSf_sid (b : Byte) (s : State) :
    (s.putSf b).sid = s.sid := rfl

@[simp] theorem State.putSf_sf (b : Byte) (s : State) :
    (s.putSf b).sf = canonSF b := rfl

@[simp] theorem State.putSf_ctr (b : Byte) (s : State) :
    (s.putSf b).ctr = s.ctr := rfl

@[simp] theorem State.putSf_src (b : Byte) (s : State) :
    (s.putSf b).src = s.src := rfl

@[simp] theorem State.putSf_dst (b : Byte) (s : State) :
    (s.putSf b).dst = s.dst := rfl

@[simp] theorem State.putSf_mxlen (b : Byte) (s : State) :
    (s.putSf b).mxlen = s.mxlen := rfl

@[simp] theorem State.putSf_xf (b : Byte) (s : State) :
    (s.putSf b).xf = s.xf := rfl

@[simp] theorem State.putSf_opc (b : Byte) (s : State) :
    (s.putSf b).opc = s.opc := rfl

@[simp] theorem State.putSf_xid (b : Byte) (s : State) :
    (s.putSf b).xid = s.xid := rfl

@[simp] theorem State.putSf_pid (b : Byte) (s : State) :
    (s.putSf b).pid = s.pid := rfl

@[simp] theorem State.putSf_vid (b : Byte) (s : State) :
    (s.putSf b).vid = s.vid := rfl

@[simp] theorem State.putSf_ack (b : Byte) (s : State) :
    (s.putSf b).ack = s.ack := rfl

@[simp] theorem State.putSf_sxlen (b : Byte) (s : State) :
    (s.putSf b).sxlen = s.sxlen := rfl

@[simp] theorem State.putSf_paylen (b : Byte) (s : State) :
    (s.putSf b).paylen = s.paylen := rfl

@[simp] theorem State.putSf_miclen (b : Byte) (s : State) :
    (s.putSf b).miclen = s.miclen := rfl

@[simp] theorem State.putSf_ilen (b : Byte) (s : State) :
    (s.putSf b).ilen = s.ilen := rfl

@[simp] theorem State.putSf_olen (b : Byte) (s : State) :
    (s.putSf b).olen = s.olen := rfl

@[simp] theorem State.putSf_ibuf (b : Byte) (s : State) :
    (s.putSf b).ibuf = s.ibuf := rfl

@[simp] theorem State.putSf_obuf (b : Byte) (s : State) :
    (s.putSf b).obuf = s.obuf := rfl

@[simp] theorem State.putSf_mxb (b : Byte) (s : State) :
    (s.putSf b).mxb = s.mxb := rfl

@[simp] theorem State.putSf_sxb (b : Byte) (s : State) :
    (s.putSf b).sxb = s.sxb := rfl

@[simp] theorem State.putSf_pay (b : Byte) (s : State) :
    (s.putSf b).pay = s.pay := rfl

@[simp] theorem State.putSf_mic (b : Byte) (s : State) :
    (s.putSf b).mic = s.mic := rfl

@[simp] theorem State.putSf_epoch (b : Byte) (s : State) :
    (s.putSf b).epoch = s.epoch := rfl

@[simp] theorem State.putSf_events (b : Byte) (s : State) :
    (s.putSf b).events = s.events := rfl

@[simp] theorem State.putSf_encryptAnswers (b : Byte) (s : State) :
    (s.putSf b).encryptAnswers = s.encryptAnswers := rfl

@[simp] theorem State.putSf_verifyAnswers (b : Byte) (s : State) :
    (s.putSf b).verifyAnswers = s.verifyAnswers := rfl

@[simp] theorem State.putSf_decryptAnswers (b : Byte) (s : State) :
    (s.putSf b).decryptAnswers = s.decryptAnswers := rfl

@[simp] theorem State.putSf_calls (b : Byte) (s : State) :
    (s.putSf b).calls = s.calls := rfl

@[simp] theorem State.putSf_obs (b : Byte) (s : State) :
    (s.putSf b).obs = s.obs := rfl

/-! ### `putXf` -/

@[simp] theorem State.putXf_status (b : Byte) (s : State) :
    (s.putXf b).status = s.status := rfl

@[simp] theorem State.putXf_res (b : Byte) (s : State) :
    (s.putXf b).res = s.res := rfl

@[simp] theorem State.putXf_pos (b : Byte) (s : State) :
    (s.putXf b).pos = s.pos := rfl

@[simp] theorem State.putXf_ctrl (b : Byte) (s : State) :
    (s.putXf b).ctrl = s.ctrl := rfl

@[simp] theorem State.putXf_vermask (b : Byte) (s : State) :
    (s.putXf b).vermask = s.vermask := rfl

@[simp] theorem State.putXf_micsz (b : Byte) (s : State) :
    (s.putXf b).micsz = s.micsz := rfl

@[simp] theorem State.putXf_ctx (b : Byte) (s : State) :
    (s.putXf b).ctx = s.ctx := rfl

@[simp] theorem State.putXf_tag (b : Byte) (s : State) :
    (s.putXf b).tag = s.tag := rfl

@[simp] theorem State.putXf_len (b : Byte) (s : State) :
    (s.putXf b).len = s.len := rfl

@[simp] theorem State.putXf_mf (b : Byte) (s : State) :
    (s.putXf b).mf = s.mf := rfl

@[simp] theorem State.putXf_sid (b : Byte) (s : State) :
    (s.putXf b).sid = s.sid := rfl

@[simp] theorem State.putXf_sf (b : Byte) (s : State) :
    (s.putXf b).sf = s.sf := rfl

@[simp] theorem State.putXf_ctr (b : Byte) (s : State) :
    (s.putXf b).ctr = s.ctr := rfl

@[simp] theorem State.putXf_src (b : Byte) (s : State) :
    (s.putXf b).src = s.src := rfl

@[simp] theorem State.putXf_dst (b : Byte) (s : State) :
    (s.putXf b).dst = s.dst := rfl

@[simp] theorem State.putXf_mxlen (b : Byte) (s : State) :
    (s.putXf b).mxlen = s.mxlen := rfl

@[simp] theorem State.putXf_xf (b : Byte) (s : State) :
    (s.putXf b).xf = b := rfl

@[simp] theorem State.putXf_opc (b : Byte) (s : State) :
    (s.putXf b).opc = s.opc := rfl

@[simp] theorem State.putXf_xid (b : Byte) (s : State) :
    (s.putXf b).xid = s.xid := rfl

@[simp] theorem State.putXf_pid (b : Byte) (s : State) :
    (s.putXf b).pid = s.pid := rfl

@[simp] theorem State.putXf_vid (b : Byte) (s : State) :
    (s.putXf b).vid = s.vid := rfl

@[simp] theorem State.putXf_ack (b : Byte) (s : State) :
    (s.putXf b).ack = s.ack := rfl

@[simp] theorem State.putXf_sxlen (b : Byte) (s : State) :
    (s.putXf b).sxlen = s.sxlen := rfl

@[simp] theorem State.putXf_paylen (b : Byte) (s : State) :
    (s.putXf b).paylen = s.paylen := rfl

@[simp] theorem State.putXf_miclen (b : Byte) (s : State) :
    (s.putXf b).miclen = s.miclen := rfl

@[simp] theorem State.putXf_ilen (b : Byte) (s : State) :
    (s.putXf b).ilen = s.ilen := rfl

@[simp] theorem State.putXf_olen (b : Byte) (s : State) :
    (s.putXf b).olen = s.olen := rfl

@[simp] theorem State.putXf_ibuf (b : Byte) (s : State) :
    (s.putXf b).ibuf = s.ibuf := rfl

@[simp] theorem State.putXf_obuf (b : Byte) (s : State) :
    (s.putXf b).obuf = s.obuf := rfl

@[simp] theorem State.putXf_mxb (b : Byte) (s : State) :
    (s.putXf b).mxb = s.mxb := rfl

@[simp] theorem State.putXf_sxb (b : Byte) (s : State) :
    (s.putXf b).sxb = s.sxb := rfl

@[simp] theorem State.putXf_pay (b : Byte) (s : State) :
    (s.putXf b).pay = s.pay := rfl

@[simp] theorem State.putXf_mic (b : Byte) (s : State) :
    (s.putXf b).mic = s.mic := rfl

@[simp] theorem State.putXf_epoch (b : Byte) (s : State) :
    (s.putXf b).epoch = s.epoch := rfl

@[simp] theorem State.putXf_events (b : Byte) (s : State) :
    (s.putXf b).events = s.events := rfl

@[simp] theorem State.putXf_encryptAnswers (b : Byte) (s : State) :
    (s.putXf b).encryptAnswers = s.encryptAnswers := rfl

@[simp] theorem State.putXf_verifyAnswers (b : Byte) (s : State) :
    (s.putXf b).verifyAnswers = s.verifyAnswers := rfl

@[simp] theorem State.putXf_decryptAnswers (b : Byte) (s : State) :
    (s.putXf b).decryptAnswers = s.decryptAnswers := rfl

@[simp] theorem State.putXf_calls (b : Byte) (s : State) :
    (s.putXf b).calls = s.calls := rfl

@[simp] theorem State.putXf_obs (b : Byte) (s : State) :
    (s.putXf b).obs = s.obs := rfl

/-! ### `setBuf` -/

@[simp] theorem State.setBuf_status (s : State) (b : BufId) (m : Memory) :
    (s.setBuf b m).status = s.status := by cases b <;> rfl

@[simp] theorem State.setBuf_res (s : State) (b : BufId) (m : Memory) :
    (s.setBuf b m).res = s.res := by cases b <;> rfl

@[simp] theorem State.setBuf_pos (s : State) (b : BufId) (m : Memory) :
    (s.setBuf b m).pos = s.pos := by cases b <;> rfl

@[simp] theorem State.setBuf_ctrl (s : State) (b : BufId) (m : Memory) :
    (s.setBuf b m).ctrl = s.ctrl := by cases b <;> rfl

@[simp] theorem State.setBuf_vermask (s : State) (b : BufId) (m : Memory) :
    (s.setBuf b m).vermask = s.vermask := by cases b <;> rfl

@[simp] theorem State.setBuf_micsz (s : State) (b : BufId) (m : Memory) :
    (s.setBuf b m).micsz = s.micsz := by cases b <;> rfl

@[simp] theorem State.setBuf_ctx (s : State) (b : BufId) (m : Memory) :
    (s.setBuf b m).ctx = s.ctx := by cases b <;> rfl

@[simp] theorem State.setBuf_tag (s : State) (b : BufId) (m : Memory) :
    (s.setBuf b m).tag = s.tag := by cases b <;> rfl

@[simp] theorem State.setBuf_len (s : State) (b : BufId) (m : Memory) :
    (s.setBuf b m).len = s.len := by cases b <;> rfl

@[simp] theorem State.setBuf_mf (s : State) (b : BufId) (m : Memory) :
    (s.setBuf b m).mf = s.mf := by cases b <;> rfl

@[simp] theorem State.setBuf_sid (s : State) (b : BufId) (m : Memory) :
    (s.setBuf b m).sid = s.sid := by cases b <;> rfl

@[simp] theorem State.setBuf_sf (s : State) (b : BufId) (m : Memory) :
    (s.setBuf b m).sf = s.sf := by cases b <;> rfl

@[simp] theorem State.setBuf_ctr (s : State) (b : BufId) (m : Memory) :
    (s.setBuf b m).ctr = s.ctr := by cases b <;> rfl

@[simp] theorem State.setBuf_src (s : State) (b : BufId) (m : Memory) :
    (s.setBuf b m).src = s.src := by cases b <;> rfl

@[simp] theorem State.setBuf_dst (s : State) (b : BufId) (m : Memory) :
    (s.setBuf b m).dst = s.dst := by cases b <;> rfl

@[simp] theorem State.setBuf_mxlen (s : State) (b : BufId) (m : Memory) :
    (s.setBuf b m).mxlen = s.mxlen := by cases b <;> rfl

@[simp] theorem State.setBuf_xf (s : State) (b : BufId) (m : Memory) :
    (s.setBuf b m).xf = s.xf := by cases b <;> rfl

@[simp] theorem State.setBuf_opc (s : State) (b : BufId) (m : Memory) :
    (s.setBuf b m).opc = s.opc := by cases b <;> rfl

@[simp] theorem State.setBuf_xid (s : State) (b : BufId) (m : Memory) :
    (s.setBuf b m).xid = s.xid := by cases b <;> rfl

@[simp] theorem State.setBuf_pid (s : State) (b : BufId) (m : Memory) :
    (s.setBuf b m).pid = s.pid := by cases b <;> rfl

@[simp] theorem State.setBuf_vid (s : State) (b : BufId) (m : Memory) :
    (s.setBuf b m).vid = s.vid := by cases b <;> rfl

@[simp] theorem State.setBuf_ack (s : State) (b : BufId) (m : Memory) :
    (s.setBuf b m).ack = s.ack := by cases b <;> rfl

@[simp] theorem State.setBuf_sxlen (s : State) (b : BufId) (m : Memory) :
    (s.setBuf b m).sxlen = s.sxlen := by cases b <;> rfl

@[simp] theorem State.setBuf_paylen (s : State) (b : BufId) (m : Memory) :
    (s.setBuf b m).paylen = s.paylen := by cases b <;> rfl

@[simp] theorem State.setBuf_miclen (s : State) (b : BufId) (m : Memory) :
    (s.setBuf b m).miclen = s.miclen := by cases b <;> rfl

@[simp] theorem State.setBuf_ilen (s : State) (b : BufId) (m : Memory) :
    (s.setBuf b m).ilen = s.ilen := by cases b <;> rfl

@[simp] theorem State.setBuf_olen (s : State) (b : BufId) (m : Memory) :
    (s.setBuf b m).olen = s.olen := by cases b <;> rfl

@[simp] theorem State.setBuf_epoch (s : State) (b : BufId) (m : Memory) :
    (s.setBuf b m).epoch = s.epoch := by cases b <;> rfl

@[simp] theorem State.setBuf_events (s : State) (b : BufId) (m : Memory) :
    (s.setBuf b m).events = s.events := by cases b <;> rfl

@[simp] theorem State.setBuf_encryptAnswers (s : State) (b : BufId) (m : Memory) :
    (s.setBuf b m).encryptAnswers = s.encryptAnswers := by cases b <;> rfl

@[simp] theorem State.setBuf_verifyAnswers (s : State) (b : BufId) (m : Memory) :
    (s.setBuf b m).verifyAnswers = s.verifyAnswers := by cases b <;> rfl

@[simp] theorem State.setBuf_decryptAnswers (s : State) (b : BufId) (m : Memory) :
    (s.setBuf b m).decryptAnswers = s.decryptAnswers := by cases b <;> rfl

@[simp] theorem State.setBuf_calls (s : State) (b : BufId) (m : Memory) :
    (s.setBuf b m).calls = s.calls := by cases b <;> rfl

@[simp] theorem State.setBuf_obs (s : State) (b : BufId) (m : Memory) :
    (s.setBuf b m).obs = s.obs := by cases b <;> rfl

/-! ### `memWrite` -/

@[simp] theorem State.memWrite_status (s : State) (b : BufId) (a : Nat) (x : Bytes) :
    (s.memWrite b a x).status = s.status := by cases b <;> rfl

@[simp] theorem State.memWrite_res (s : State) (b : BufId) (a : Nat) (x : Bytes) :
    (s.memWrite b a x).res = s.res := by cases b <;> rfl

@[simp] theorem State.memWrite_pos (s : State) (b : BufId) (a : Nat) (x : Bytes) :
    (s.memWrite b a x).pos = s.pos := by cases b <;> rfl

@[simp] theorem State.memWrite_ctrl (s : State) (b : BufId) (a : Nat) (x : Bytes) :
    (s.memWrite b a x).ctrl = s.ctrl := by cases b <;> rfl

@[simp] theorem State.memWrite_vermask (s : State) (b : BufId) (a : Nat) (x : Bytes) :
    (s.memWrite b a x).vermask = s.vermask := by cases b <;> rfl

@[simp] theorem State.memWrite_micsz (s : State) (b : BufId) (a : Nat) (x : Bytes) :
    (s.memWrite b a x).micsz = s.micsz := by cases b <;> rfl

@[simp] theorem State.memWrite_ctx (s : State) (b : BufId) (a : Nat) (x : Bytes) :
    (s.memWrite b a x).ctx = s.ctx := by cases b <;> rfl

@[simp] theorem State.memWrite_tag (s : State) (b : BufId) (a : Nat) (x : Bytes) :
    (s.memWrite b a x).tag = s.tag := by cases b <;> rfl

@[simp] theorem State.memWrite_len (s : State) (b : BufId) (a : Nat) (x : Bytes) :
    (s.memWrite b a x).len = s.len := by cases b <;> rfl

@[simp] theorem State.memWrite_mf (s : State) (b : BufId) (a : Nat) (x : Bytes) :
    (s.memWrite b a x).mf = s.mf := by cases b <;> rfl

@[simp] theorem State.memWrite_sid (s : State) (b : BufId) (a : Nat) (x : Bytes) :
    (s.memWrite b a x).sid = s.sid := by cases b <;> rfl

@[simp] theorem State.memWrite_sf (s : State) (b : BufId) (a : Nat) (x : Bytes) :
    (s.memWrite b a x).sf = s.sf := by cases b <;> rfl

@[simp] theorem State.memWrite_ctr (s : State) (b : BufId) (a : Nat) (x : Bytes) :
    (s.memWrite b a x).ctr = s.ctr := by cases b <;> rfl

@[simp] theorem State.memWrite_src (s : State) (b : BufId) (a : Nat) (x : Bytes) :
    (s.memWrite b a x).src = s.src := by cases b <;> rfl

@[simp] theorem State.memWrite_dst (s : State) (b : BufId) (a : Nat) (x : Bytes) :
    (s.memWrite b a x).dst = s.dst := by cases b <;> rfl

@[simp] theorem State.memWrite_mxlen (s : State) (b : BufId) (a : Nat) (x : Bytes) :
    (s.memWrite b a x).mxlen = s.mxlen := by cases b <;> rfl

@[simp] theorem State.memWrite_xf (s : State) (b : BufId) (a : Nat) (x : Bytes) :
    (s.memWrite b a x).xf = s.xf := by cases b <;> rfl

@[simp] theorem State.memWrite_opc (s : State) (b : BufId) (a : Nat) (x : Bytes) :
    (s.memWrite b a x).opc = s.opc := by cases b <;> rfl

@[simp] theorem State.memWrite_xid (s : State) (b : BufId) (a : Nat) (x : Bytes) :
    (s.memWrite b a x).xid = s.xid := by cases b <;> rfl

@[simp] theorem State.memWrite_pid (s : State) (b : BufId) (a : Nat) (x : Bytes) :
    (s.memWrite b a x).pid = s.pid := by cases b <;> rfl

@[simp] theorem State.memWrite_vid (s : State) (b : BufId) (a : Nat) (x : Bytes) :
    (s.memWrite b a x).vid = s.vid := by cases b <;> rfl

@[simp] theorem State.memWrite_ack (s : State) (b : BufId) (a : Nat) (x : Bytes) :
    (s.memWrite b a x).ack = s.ack := by cases b <;> rfl

@[simp] theorem State.memWrite_sxlen (s : State) (b : BufId) (a : Nat) (x : Bytes) :
    (s.memWrite b a x).sxlen = s.sxlen := by cases b <;> rfl

@[simp] theorem State.memWrite_paylen (s : State) (b : BufId) (a : Nat) (x : Bytes) :
    (s.memWrite b a x).paylen = s.paylen := by cases b <;> rfl

@[simp] theorem State.memWrite_miclen (s : State) (b : BufId) (a : Nat) (x : Bytes) :
    (s.memWrite b a x).miclen = s.miclen := by cases b <;> rfl

@[simp] theorem State.memWrite_ilen (s : State) (b : BufId) (a : Nat) (x : Bytes) :
    (s.memWrite b a x).ilen = s.ilen := by cases b <;> rfl

@[simp] theorem State.memWrite_olen (s : State) (b : BufId) (a : Nat) (x : Bytes) :
    (s.memWrite b a x).olen = s.olen := by cases b <;> rfl

@[simp] theorem State.memWrite_epoch (s : State) (b : BufId) (a : Nat) (x : Bytes) :
    (s.memWrite b a x).epoch = s.epoch := by cases b <;> rfl

@[simp] theorem State.memWrite_events (s : State) (b : BufId) (a : Nat) (x : Bytes) :
    (s.memWrite b a x).events = s.events := by cases b <;> rfl

@[simp] theorem State.memWrite_encryptAnswers (s : State) (b : BufId) (a : Nat) (x : Bytes) :
    (s.memWrite b a x).encryptAnswers = s.encryptAnswers := by cases b <;> rfl

@[simp] theorem State.memWrite_verifyAnswers (s : State) (b : BufId) (a : Nat) (x : Bytes) :
    (s.memWrite b a x).verifyAnswers = s.verifyAnswers := by cases b <;> rfl

@[simp] theorem State.memWrite_decryptAnswers (s : State) (b : BufId) (a : Nat) (x : Bytes) :
    (s.memWrite b a x).decryptAnswers = s.decryptAnswers := by cases b <;> rfl

@[simp] theorem State.memWrite_calls (s : State) (b : BufId) (a : Nat) (x : Bytes) :
    (s.memWrite b a x).calls = s.calls := by cases b <;> rfl

@[simp] theorem State.memWrite_obs (s : State) (b : BufId) (a : Nat) (x : Bytes) :
    (s.memWrite b a x).obs = s.obs := by cases b <;> rfl

/-! ### `commitBlock` -/

@[simp] theorem State.commitBlock_status (b : BufId) (present : Bool) (x : Bytes) (s : State) :
    (s.commitBlock b present x).status = s.status := by cases present <;> cases b <;> rfl

@[simp] theorem State.commitBlock_res (b : BufId) (present : Bool) (x : Bytes) (s : State) :
    (s.commitBlock b present x).res = s.res := by cases present <;> cases b <;> rfl

@[simp] theorem State.commitBlock_pos (b : BufId) (present : Bool) (x : Bytes) (s : State) :
    (s.commitBlock b present x).pos = s.pos := by cases present <;> cases b <;> rfl

@[simp] theorem State.commitBlock_ctrl (b : BufId) (present : Bool) (x : Bytes) (s : State) :
    (s.commitBlock b present x).ctrl = s.ctrl := by cases present <;> cases b <;> rfl

@[simp] theorem State.commitBlock_vermask (b : BufId) (present : Bool) (x : Bytes) (s : State) :
    (s.commitBlock b present x).vermask = s.vermask := by cases present <;> cases b <;> rfl

@[simp] theorem State.commitBlock_micsz (b : BufId) (present : Bool) (x : Bytes) (s : State) :
    (s.commitBlock b present x).micsz = s.micsz := by cases present <;> cases b <;> rfl

@[simp] theorem State.commitBlock_ctx (b : BufId) (present : Bool) (x : Bytes) (s : State) :
    (s.commitBlock b present x).ctx = s.ctx := by cases present <;> cases b <;> rfl

@[simp] theorem State.commitBlock_tag (b : BufId) (present : Bool) (x : Bytes) (s : State) :
    (s.commitBlock b present x).tag = s.tag := by cases present <;> cases b <;> rfl

@[simp] theorem State.commitBlock_len (b : BufId) (present : Bool) (x : Bytes) (s : State) :
    (s.commitBlock b present x).len = s.len := by cases present <;> cases b <;> rfl

@[simp] theorem State.commitBlock_mf (b : BufId) (present : Bool) (x : Bytes) (s : State) :
    (s.commitBlock b present x).mf = s.mf := by cases present <;> cases b <;> rfl

@[simp] theorem State.commitBlock_sid (b : BufId) (present : Bool) (x : Bytes) (s : State) :
    (s.commitBlock b present x).sid = s.sid := by cases present <;> cases b <;> rfl

@[simp] theorem State.commitBlock_sf (b : BufId) (present : Bool) (x : Bytes) (s : State) :
    (s.commitBlock b present x).sf = s.sf := by cases present <;> cases b <;> rfl

@[simp] theorem State.commitBlock_ctr (b : BufId) (present : Bool) (x : Bytes) (s : State) :
    (s.commitBlock b present x).ctr = s.ctr := by cases present <;> cases b <;> rfl

@[simp] theorem State.commitBlock_src (b : BufId) (present : Bool) (x : Bytes) (s : State) :
    (s.commitBlock b present x).src = s.src := by cases present <;> cases b <;> rfl

@[simp] theorem State.commitBlock_dst (b : BufId) (present : Bool) (x : Bytes) (s : State) :
    (s.commitBlock b present x).dst = s.dst := by cases present <;> cases b <;> rfl

@[simp] theorem State.commitBlock_mxlen (b : BufId) (present : Bool) (x : Bytes) (s : State) :
    (s.commitBlock b present x).mxlen = s.mxlen := by cases present <;> cases b <;> rfl

@[simp] theorem State.commitBlock_xf (b : BufId) (present : Bool) (x : Bytes) (s : State) :
    (s.commitBlock b present x).xf = s.xf := by cases present <;> cases b <;> rfl

@[simp] theorem State.commitBlock_opc (b : BufId) (present : Bool) (x : Bytes) (s : State) :
    (s.commitBlock b present x).opc = s.opc := by cases present <;> cases b <;> rfl

@[simp] theorem State.commitBlock_xid (b : BufId) (present : Bool) (x : Bytes) (s : State) :
    (s.commitBlock b present x).xid = s.xid := by cases present <;> cases b <;> rfl

@[simp] theorem State.commitBlock_pid (b : BufId) (present : Bool) (x : Bytes) (s : State) :
    (s.commitBlock b present x).pid = s.pid := by cases present <;> cases b <;> rfl

@[simp] theorem State.commitBlock_vid (b : BufId) (present : Bool) (x : Bytes) (s : State) :
    (s.commitBlock b present x).vid = s.vid := by cases present <;> cases b <;> rfl

@[simp] theorem State.commitBlock_ack (b : BufId) (present : Bool) (x : Bytes) (s : State) :
    (s.commitBlock b present x).ack = s.ack := by cases present <;> cases b <;> rfl

@[simp] theorem State.commitBlock_sxlen (b : BufId) (present : Bool) (x : Bytes) (s : State) :
    (s.commitBlock b present x).sxlen = s.sxlen := by cases present <;> cases b <;> rfl

@[simp] theorem State.commitBlock_paylen (b : BufId) (present : Bool) (x : Bytes) (s : State) :
    (s.commitBlock b present x).paylen = s.paylen := by cases present <;> cases b <;> rfl

@[simp] theorem State.commitBlock_miclen (b : BufId) (present : Bool) (x : Bytes) (s : State) :
    (s.commitBlock b present x).miclen = s.miclen := by cases present <;> cases b <;> rfl

@[simp] theorem State.commitBlock_ilen (b : BufId) (present : Bool) (x : Bytes) (s : State) :
    (s.commitBlock b present x).ilen = s.ilen := by cases present <;> cases b <;> rfl

@[simp] theorem State.commitBlock_olen (b : BufId) (present : Bool) (x : Bytes) (s : State) :
    (s.commitBlock b present x).olen = s.olen := by cases present <;> cases b <;> rfl

@[simp] theorem State.commitBlock_epoch (b : BufId) (present : Bool) (x : Bytes) (s : State) :
    (s.commitBlock b present x).epoch = s.epoch := by cases present <;> cases b <;> rfl

@[simp] theorem State.commitBlock_events (b : BufId) (present : Bool) (x : Bytes) (s : State) :
    (s.commitBlock b present x).events = s.events := by cases present <;> cases b <;> rfl

@[simp] theorem State.commitBlock_encryptAnswers (b : BufId) (present : Bool) (x : Bytes) (s : State) :
    (s.commitBlock b present x).encryptAnswers = s.encryptAnswers := by cases present <;> cases b <;> rfl

@[simp] theorem State.commitBlock_verifyAnswers (b : BufId) (present : Bool) (x : Bytes) (s : State) :
    (s.commitBlock b present x).verifyAnswers = s.verifyAnswers := by cases present <;> cases b <;> rfl

@[simp] theorem State.commitBlock_decryptAnswers (b : BufId) (present : Bool) (x : Bytes) (s : State) :
    (s.commitBlock b present x).decryptAnswers = s.decryptAnswers := by cases present <;> cases b <;> rfl

@[simp] theorem State.commitBlock_calls (b : BufId) (present : Bool) (x : Bytes) (s : State) :
    (s.commitBlock b present x).calls = s.calls := by cases present <;> cases b <;> rfl

@[simp] theorem State.commitBlock_obs (b : BufId) (present : Bool) (x : Bytes) (s : State) :
    (s.commitBlock b present x).obs = s.obs := by cases present <;> cases b <;> rfl

/-! ### `callEncrypt` -/

@[simp] theorem State.callEncrypt_status (pt : Bytes) (s : State) :
    (s.callEncrypt pt).2.status = s.status := rfl

@[simp] theorem State.callEncrypt_res (pt : Bytes) (s : State) :
    (s.callEncrypt pt).2.res = s.res := rfl

@[simp] theorem State.callEncrypt_pos (pt : Bytes) (s : State) :
    (s.callEncrypt pt).2.pos = s.pos := rfl

@[simp] theorem State.callEncrypt_ctrl (pt : Bytes) (s : State) :
    (s.callEncrypt pt).2.ctrl = s.ctrl := rfl

@[simp] theorem State.callEncrypt_vermask (pt : Bytes) (s : State) :
    (s.callEncrypt pt).2.vermask = s.vermask := rfl

@[simp] theorem State.callEncrypt_micsz (pt : Bytes) (s : State) :
    (s.callEncrypt pt).2.micsz = s.micsz := rfl

@[simp] theorem State.callEncrypt_ctx (pt : Bytes) (s : State) :
    (s.callEncrypt pt).2.ctx = s.ctx := rfl

@[simp] theorem State.callEncrypt_tag (pt : Bytes) (s : State) :
    (s.callEncrypt pt).2.tag = s.tag := rfl

@[simp] theorem State.callEncrypt_len (pt : Bytes) (s : State) :
    (s.callEncrypt pt).2.len = s.len := rfl

@[simp] theorem State.callEncrypt_mf (pt : Bytes) (s : State) :
    (s.callEncrypt pt).2.mf = s.mf := rfl

@[simp] theorem State.callEncrypt_sid (pt : Bytes) (s : State) :
    (s.callEncrypt pt).2.sid = s.sid := rfl

@[simp] theorem State.callEncrypt_sf (pt : Bytes) (s : State) :
    (s.callEncrypt pt).2.sf = s.sf := rfl

@[simp] theorem State.callEncrypt_ctr (pt : Bytes) (s : State) :
    (s.callEncrypt pt).2.ctr = s.ctr := rfl

@[simp] theorem State.callEncrypt_src (pt : Bytes) (s : State) :
    (s.callEncrypt pt).2.src = s.src := rfl

@[simp] theorem State.callEncrypt_dst (pt : Bytes) (s : State) :
    (s.callEncrypt pt).2.dst = s.dst := rfl

@[simp] theorem State.callEncrypt_mxlen (pt : Bytes) (s : State) :
    (s.callEncrypt pt).2.mxlen = s.mxlen := rfl

@[simp] theorem State.callEncrypt_xf (pt : Bytes) (s : State) :
    (s.callEncrypt pt).2.xf = s.xf := rfl

@[simp] theorem State.callEncrypt_opc (pt : Bytes) (s : State) :
    (s.callEncrypt pt).2.opc = s.opc := rfl

@[simp] theorem State.callEncrypt_xid (pt : Bytes) (s : State) :
    (s.callEncrypt pt).2.xid = s.xid := rfl

@[simp] theorem State.callEncrypt_pid (pt : Bytes) (s : State) :
    (s.callEncrypt pt).2.pid = s.pid := rfl

@[simp] theorem State.callEncrypt_vid (pt : Bytes) (s : State) :
    (s.callEncrypt pt).2.vid = s.vid := rfl

@[simp] theorem State.callEncrypt_ack (pt : Bytes) (s : State) :
    (s.callEncrypt pt).2.ack = s.ack := rfl

@[simp] theorem State.callEncrypt_sxlen (pt : Bytes) (s : State) :
    (s.callEncrypt pt).2.sxlen = s.sxlen := rfl

@[simp] theorem State.callEncrypt_paylen (pt : Bytes) (s : State) :
    (s.callEncrypt pt).2.paylen = s.paylen := rfl

@[simp] theorem State.callEncrypt_miclen (pt : Bytes) (s : State) :
    (s.callEncrypt pt).2.miclen = s.miclen := rfl

@[simp] theorem State.callEncrypt_ilen (pt : Bytes) (s : State) :
    (s.callEncrypt pt).2.ilen = s.ilen := rfl

@[simp] theorem State.callEncrypt_olen (pt : Bytes) (s : State) :
    (s.callEncrypt pt).2.olen = s.olen := rfl

@[simp] theorem State.callEncrypt_ibuf (pt : Bytes) (s : State) :
    (s.callEncrypt pt).2.ibuf = s.ibuf := rfl

@[simp] theorem State.callEncrypt_obuf (pt : Bytes) (s : State) :
    (s.callEncrypt pt).2.obuf = s.obuf := rfl

@[simp] theorem State.callEncrypt_mxb (pt : Bytes) (s : State) :
    (s.callEncrypt pt).2.mxb = s.mxb := rfl

@[simp] theorem State.callEncrypt_sxb (pt : Bytes) (s : State) :
    (s.callEncrypt pt).2.sxb = s.sxb := rfl

@[simp] theorem State.callEncrypt_pay (pt : Bytes) (s : State) :
    (s.callEncrypt pt).2.pay = s.pay := rfl

@[simp] theorem State.callEncrypt_mic (pt : Bytes) (s : State) :
    (s.callEncrypt pt).2.mic = s.mic := rfl

@[simp] theorem State.callEncrypt_epoch (pt : Bytes) (s : State) :
    (s.callEncrypt pt).2.epoch = s.epoch := rfl

@[simp] theorem State.callEncrypt_events (pt : Bytes) (s : State) :
    (s.callEncrypt pt).2.events = s.events := rfl

@[simp] theorem State.callEncrypt_encryptAnswers (pt : Bytes) (s : State) :
    (s.callEncrypt pt).2.encryptAnswers = s.encryptAnswers.tail := rfl

@[simp] theorem State.callEncrypt_verifyAnswers (pt : Bytes) (s : State) :
    (s.callEncrypt pt).2.verifyAnswers = s.verifyAnswers := rfl

@[simp] theorem State.callEncrypt_decryptAnswers (pt : Bytes) (s : State) :
    (s.callEncrypt pt).2.decryptAnswers = s.decryptAnswers := rfl

@[simp] theorem State.callEncrypt_calls (pt : Bytes) (s : State) :
    (s.callEncrypt pt).2.calls = s.calls + 1 := rfl

@[simp] theorem State.callEncrypt_obs (pt : Bytes) (s : State) :
    (s.callEncrypt pt).2.obs = s.obs ++ [.encryptCall pt s.ctx] := rfl

/-! ### `callVerify` -/

@[simp] theorem State.callVerify_status (hdr ct mic : Bytes) (s : State) :
    (s.callVerify hdr ct mic).2.status = s.status := rfl

@[simp] theorem State.callVerify_res (hdr ct mic : Bytes) (s : State) :
    (s.callVerify hdr ct mic).2.res = s.res := rfl

@[simp] theorem State.callVerify_pos (hdr ct mic : Bytes) (s : State) :
    (s.callVerify hdr ct mic).2.pos = s.pos := rfl

@[simp] theorem State.callVerify_ctrl (hdr ct mic : Bytes) (s : State) :
    (s.callVerify hdr ct mic).2.ctrl = s.ctrl := rfl

@[simp] theorem State.callVerify_vermask (hdr ct mic : Bytes) (s : State) :
    (s.callVerify hdr ct mic).2.vermask = s.vermask := rfl

@[simp] theorem State.callVerify_micsz (hdr ct mic : Bytes) (s : State) :
    (s.callVerify hdr ct mic).2.micsz = s.micsz := rfl

@[simp] theorem State.callVerify_ctx (hdr ct mic : Bytes) (s : State) :
    (s.callVerify hdr ct mic).2.ctx = s.ctx := rfl

@[simp] theorem State.callVerify_tag (hdr ct mic : Bytes) (s : State) :
    (s.callVerify hdr ct mic).2.tag = s.tag := rfl

@[simp] theorem State.callVerify_len (hdr ct mic : Bytes) (s : State) :
    (s.callVerify hdr ct mic).2.len = s.len := rfl

@[simp] theorem State.callVerify_mf (hdr ct mic : Bytes) (s : State) :
    (s.callVerify hdr ct mic).2.mf = s.mf := rfl

@[simp] theorem State.callVerify_sid (hdr ct mic : Bytes) (s : State) :
    (s.callVerify hdr ct mic).2.sid = s.sid := rfl

@[simp] theorem State.callVerify_sf (hdr ct mic : Bytes) (s : State) :
    (s.callVerify hdr ct mic).2.sf = s.sf := rfl

@[simp] theorem State.callVerify_ctr (hdr ct mic : Bytes) (s : State) :
    (s.callVerify hdr ct mic).2.ctr = s.ctr := rfl

@[simp] theorem State.callVerify_src (hdr ct mic : Bytes) (s : State) :
    (s.callVerify hdr ct mic).2.src = s.src := rfl

@[simp] theorem State.callVerify_dst (hdr ct mic : Bytes) (s : State) :
    (s.callVerify hdr ct mic).2.dst = s.dst := rfl

@[simp] theorem State.callVerify_mxlen (hdr ct mic : Bytes) (s : State) :
    (s.callVerify hdr ct mic).2.mxlen = s.mxlen := rfl

@[simp] theorem State.callVerify_xf (hdr ct mic : Bytes) (s : State) :
    (s.callVerify hdr ct mic).2.xf = s.xf := rfl

@[simp] theorem State.callVerify_opc (hdr ct mic : Bytes) (s : State) :
    (s.callVerify hdr ct mic).2.opc = s.opc := rfl

@[simp] theorem State.callVerify_xid (hdr ct mic : Bytes) (s : State) :
    (s.callVerify hdr ct mic).2.xid = s.xid := rfl

@[simp] theorem State.callVerify_pid (hdr ct mic : Bytes) (s : State) :
    (s.callVerify hdr ct mic).2.pid = s.pid := rfl

@[simp] theorem State.callVerify_vid (hdr ct mic : Bytes) (s : State) :
    (s.callVerify hdr ct mic).2.vid = s.vid := rfl

@[simp] theorem State.callVerify_ack (hdr ct mic : Bytes) (s : State) :
    (s.callVerify hdr ct mic).2.ack = s.ack := rfl

@[simp] theorem State.callVerify_sxlen (hdr ct mic : Bytes) (s : State) :
    (s.callVerify hdr ct mic).2.sxlen = s.sxlen := rfl

@[simp] theorem State.callVerify_paylen (hdr ct mic : Bytes) (s : State) :
    (s.callVerify hdr ct mic).2.paylen = s.paylen := rfl

@[simp] theorem State.callVerify_miclen (hdr ct mic : Bytes) (s : State) :
    (s.callVerify hdr ct mic).2.miclen = s.miclen := rfl

@[simp] theorem State.callVerify_ilen (hdr ct mic : Bytes) (s : State) :
    (s.callVerify hdr ct mic).2.ilen = s.ilen := rfl

@[simp] theorem State.callVerify_olen (hdr ct mic : Bytes) (s : State) :
    (s.callVerify hdr ct mic).2.olen = s.olen := rfl

@[simp] theorem State.callVerify_ibuf (hdr ct mic : Bytes) (s : State) :
    (s.callVerify hdr ct mic).2.ibuf = s.ibuf := rfl

@[simp] theorem State.callVerify_obuf (hdr ct mic : Bytes) (s : State) :
    (s.callVerify hdr ct mic).2.obuf = s.obuf := rfl

@[simp] theorem State.callVerify_mxb (hdr ct mic : Bytes) (s : State) :
    (s.callVerify hdr ct mic).2.mxb = s.mxb := rfl

@[simp] theorem State.callVerify_sxb (hdr ct mic : Bytes) (s : State) :
    (s.callVerify hdr ct mic).2.sxb = s.sxb := rfl

@[simp] theorem State.callVerify_pay (hdr ct mic : Bytes) (s : State) :
    (s.callVerify hdr ct mic).2.pay = s.pay := rfl

@[simp] theorem State.callVerify_mic (hdr ct mic : Bytes) (s : State) :
    (s.callVerify hdr ct mic).2.mic = s.mic := rfl

@[simp] theorem State.callVerify_epoch (hdr ct mic : Bytes) (s : State) :
    (s.callVerify hdr ct mic).2.epoch = s.epoch := rfl

@[simp] theorem State.callVerify_events (hdr ct mic : Bytes) (s : State) :
    (s.callVerify hdr ct mic).2.events = s.events := rfl

@[simp] theorem State.callVerify_encryptAnswers (hdr ct mic : Bytes) (s : State) :
    (s.callVerify hdr ct mic).2.encryptAnswers = s.encryptAnswers := rfl

@[simp] theorem State.callVerify_verifyAnswers (hdr ct mic : Bytes) (s : State) :
    (s.callVerify hdr ct mic).2.verifyAnswers = s.verifyAnswers.tail := rfl

@[simp] theorem State.callVerify_decryptAnswers (hdr ct mic : Bytes) (s : State) :
    (s.callVerify hdr ct mic).2.decryptAnswers = s.decryptAnswers := rfl

@[simp] theorem State.callVerify_calls (hdr ct mic : Bytes) (s : State) :
    (s.callVerify hdr ct mic).2.calls = s.calls + 1 := rfl

@[simp] theorem State.callVerify_obs (hdr ct mic : Bytes) (s : State) :
    (s.callVerify hdr ct mic).2.obs = s.obs ++ [.verifyCall hdr ct mic s.ctx] := rfl

/-! ### `callDecrypt` -/

@[simp] theorem State.callDecrypt_status (ct : Bytes) (s : State) :
    (s.callDecrypt ct).2.status = s.status := rfl

@[simp] theorem State.callDecrypt_res (ct : Bytes) (s : State) :
    (s.callDecrypt ct).2.res = s.res := rfl

@[simp] theorem State.callDecrypt_pos (ct : Bytes) (s : State) :
    (s.callDecrypt ct).2.pos = s.pos := rfl

@[simp] theorem State.callDecrypt_ctrl (ct : Bytes) (s : State) :
    (s.callDecrypt ct).2.ctrl = s.ctrl := rfl

@[simp] theorem State.callDecrypt_vermask (ct : Bytes) (s : State) :
    (s.callDecrypt ct).2.vermask = s.vermask := rfl

@[simp] theorem State.callDecrypt_micsz (ct : Bytes) (s : State) :
    (s.callDecrypt ct).2.micsz = s.micsz := rfl

@[simp] theorem State.callDecrypt_ctx (ct : Bytes) (s : State) :
    (s.callDecrypt ct).2.ctx = s.ctx := rfl

@[simp] theorem State.callDecrypt_tag (ct : Bytes) (s : State) :
    (s.callDecrypt ct).2.tag = s.tag := rfl

@[simp] theorem State.callDecrypt_len (ct : Bytes) (s : State) :
    (s.callDecrypt ct).2.len = s.len := rfl

@[simp] theorem State.callDecrypt_mf (ct : Bytes) (s : State) :
    (s.callDecrypt ct).2.mf = s.mf := rfl

@[simp] theorem State.callDecrypt_sid (ct : Bytes) (s : State) :
    (s.callDecrypt ct).2.sid = s.sid := rfl

@[simp] theorem State.callDecrypt_sf (ct : Bytes) (s : State) :
    (s.callDecrypt ct).2.sf = s.sf := rfl

@[simp] theorem State.callDecrypt_ctr (ct : Bytes) (s : State) :
    (s.callDecrypt ct).2.ctr = s.ctr := rfl

@[simp] theorem State.callDecrypt_src (ct : Bytes) (s : State) :
    (s.callDecrypt ct).2.src = s.src := rfl

@[simp] theorem State.callDecrypt_dst (ct : Bytes) (s : State) :
    (s.callDecrypt ct).2.dst = s.dst := rfl

@[simp] theorem State.callDecrypt_mxlen (ct : Bytes) (s : State) :
    (s.callDecrypt ct).2.mxlen = s.mxlen := rfl

@[simp] theorem State.callDecrypt_xf (ct : Bytes) (s : State) :
    (s.callDecrypt ct).2.xf = s.xf := rfl

@[simp] theorem State.callDecrypt_opc (ct : Bytes) (s : State) :
    (s.callDecrypt ct).2.opc = s.opc := rfl

@[simp] theorem State.callDecrypt_xid (ct : Bytes) (s : State) :
    (s.callDecrypt ct).2.xid = s.xid := rfl

@[simp] theorem State.callDecrypt_pid (ct : Bytes) (s : State) :
    (s.callDecrypt ct).2.pid = s.pid := rfl

@[simp] theorem State.callDecrypt_vid (ct : Bytes) (s : State) :
    (s.callDecrypt ct).2.vid = s.vid := rfl

@[simp] theorem State.callDecrypt_ack (ct : Bytes) (s : State) :
    (s.callDecrypt ct).2.ack = s.ack := rfl

@[simp] theorem State.callDecrypt_sxlen (ct : Bytes) (s : State) :
    (s.callDecrypt ct).2.sxlen = s.sxlen := rfl

@[simp] theorem State.callDecrypt_paylen (ct : Bytes) (s : State) :
    (s.callDecrypt ct).2.paylen = s.paylen := rfl

@[simp] theorem State.callDecrypt_miclen (ct : Bytes) (s : State) :
    (s.callDecrypt ct).2.miclen = s.miclen := rfl

@[simp] theorem State.callDecrypt_ilen (ct : Bytes) (s : State) :
    (s.callDecrypt ct).2.ilen = s.ilen := rfl

@[simp] theorem State.callDecrypt_olen (ct : Bytes) (s : State) :
    (s.callDecrypt ct).2.olen = s.olen := rfl

@[simp] theorem State.callDecrypt_ibuf (ct : Bytes) (s : State) :
    (s.callDecrypt ct).2.ibuf = s.ibuf := rfl

@[simp] theorem State.callDecrypt_obuf (ct : Bytes) (s : State) :
    (s.callDecrypt ct).2.obuf = s.obuf := rfl

@[simp] theorem State.callDecrypt_mxb (ct : Bytes) (s : State) :
    (s.callDecrypt ct).2.mxb = s.mxb := rfl

@[simp] theorem State.callDecrypt_sxb (ct : Bytes) (s : State) :
    (s.callDecrypt ct).2.sxb = s.sxb := rfl

@[simp] theorem State.callDecrypt_pay (ct : Bytes) (s : State) :
    (s.callDecrypt ct).2.pay = s.pay := rfl

@[simp] theorem State.callDecrypt_mic (ct : Bytes) (s : State) :
    (s.callDecrypt ct).2.mic = s.mic := rfl

@[simp] theorem State.callDecrypt_epoch (ct : Bytes) (s : State) :
    (s.callDecrypt ct).2.epoch = s.epoch := rfl

@[simp] theorem State.callDecrypt_events (ct : Bytes) (s : State) :
    (s.callDecrypt ct).2.events = s.events := rfl

@[simp] theorem State.callDecrypt_encryptAnswers (ct : Bytes) (s : State) :
    (s.callDecrypt ct).2.encryptAnswers = s.encryptAnswers := rfl

@[simp] theorem State.callDecrypt_verifyAnswers (ct : Bytes) (s : State) :
    (s.callDecrypt ct).2.verifyAnswers = s.verifyAnswers := rfl

@[simp] theorem State.callDecrypt_decryptAnswers (ct : Bytes) (s : State) :
    (s.callDecrypt ct).2.decryptAnswers = s.decryptAnswers.tail := rfl

@[simp] theorem State.callDecrypt_calls (ct : Bytes) (s : State) :
    (s.callDecrypt ct).2.calls = s.calls + 1 := rfl

@[simp] theorem State.callDecrypt_obs (ct : Bytes) (s : State) :
    (s.callDecrypt ct).2.obs = s.obs ++ [.decryptCall ct s.ctx] := rfl

/-! ### `observe` -/

@[simp] theorem State.observe_status (o : Observation) (s : State) :
    (s.observe o).status = s.status := rfl

@[simp] theorem State.observe_res (o : Observation) (s : State) :
    (s.observe o).res = s.res := rfl

@[simp] theorem State.observe_pos (o : Observation) (s : State) :
    (s.observe o).pos = s.pos := rfl

@[simp] theorem State.observe_ctrl (o : Observation) (s : State) :
    (s.observe o).ctrl = s.ctrl := rfl

@[simp] theorem State.observe_vermask (o : Observation) (s : State) :
    (s.observe o).vermask = s.vermask := rfl

@[simp] theorem State.observe_micsz (o : Observation) (s : State) :
    (s.observe o).micsz = s.micsz := rfl

@[simp] theorem State.observe_ctx (o : Observation) (s : State) :
    (s.observe o).ctx = s.ctx := rfl

@[simp] theorem State.observe_tag (o : Observation) (s : State) :
    (s.observe o).tag = s.tag := rfl

@[simp] theorem State.observe_len (o : Observation) (s : State) :
    (s.observe o).len = s.len := rfl

@[simp] theorem State.observe_mf (o : Observation) (s : State) :
    (s.observe o).mf = s.mf := rfl

@[simp] theorem State.observe_sid (o : Observation) (s : State) :
    (s.observe o).sid = s.sid := rfl

@[simp] theorem State.observe_sf (o : Observation) (s : State) :
    (s.observe o).sf = s.sf := rfl

@[simp] theorem State.observe_ctr (o : Observation) (s : State) :
    (s.observe o).ctr = s.ctr := rfl

@[simp] theorem State.observe_src (o : Observation) (s : State) :
    (s.observe o).src = s.src := rfl

@[simp] theorem State.observe_dst (o : Observation) (s : State) :
    (s.observe o).dst = s.dst := rfl

@[simp] theorem State.observe_mxlen (o : Observation) (s : State) :
    (s.observe o).mxlen = s.mxlen := rfl

@[simp] theorem State.observe_xf (o : Observation) (s : State) :
    (s.observe o).xf = s.xf := rfl

@[simp] theorem State.observe_opc (o : Observation) (s : State) :
    (s.observe o).opc = s.opc := rfl

@[simp] theorem State.observe_xid (o : Observation) (s : State) :
    (s.observe o).xid = s.xid := rfl

@[simp] theorem State.observe_pid (o : Observation) (s : State) :
    (s.observe o).pid = s.pid := rfl

@[simp] theorem State.observe_vid (o : Observation) (s : State) :
    (s.observe o).vid = s.vid := rfl

@[simp] theorem State.observe_ack (o : Observation) (s : State) :
    (s.observe o).ack = s.ack := rfl

@[simp] theorem State.observe_sxlen (o : Observation) (s : State) :
    (s.observe o).sxlen = s.sxlen := rfl

@[simp] theorem State.observe_paylen (o : Observation) (s : State) :
    (s.observe o).paylen = s.paylen := rfl

@[simp] theorem State.observe_miclen (o : Observation) (s : State) :
    (s.observe o).miclen = s.miclen := rfl

@[simp] theorem State.observe_ilen (o : Observation) (s : State) :
    (s.observe o).ilen = s.ilen := rfl

@[simp] theorem State.observe_olen (o : Observation) (s : State) :
    (s.observe o).olen = s.olen := rfl

@[simp] theorem State.observe_ibuf (o : Observation) (s : State) :
    (s.observe o).ibuf = s.ibuf := rfl

@[simp] theorem State.observe_obuf (o : Observation) (s : State) :
    (s.observe o).obuf = s.obuf := rfl

@[simp] theorem State.observe_mxb (o : Observation) (s : State) :
    (s.observe o).mxb = s.mxb := rfl

@[simp] theorem State.observe_sxb (o : Observation) (s : State) :
    (s.observe o).sxb = s.sxb := rfl

@[simp] theorem State.observe_pay (o : Observation) (s : State) :
    (s.observe o).pay = s.pay := rfl

@[simp] theorem State.observe_mic (o : Observation) (s : State) :
    (s.observe o).mic = s.mic := rfl

@[simp] theorem State.observe_epoch (o : Observation) (s : State) :
    (s.observe o).epoch = s.epoch := rfl

@[simp] theorem State.observe_events (o : Observation) (s : State) :
    (s.observe o).events = s.events := rfl

@[simp] theorem State.observe_encryptAnswers (o : Observation) (s : State) :
    (s.observe o).encryptAnswers = s.encryptAnswers := rfl

@[simp] theorem State.observe_verifyAnswers (o : Observation) (s : State) :
    (s.observe o).verifyAnswers = s.verifyAnswers := rfl

@[simp] theorem State.observe_decryptAnswers (o : Observation) (s : State) :
    (s.observe o).decryptAnswers = s.decryptAnswers := rfl

@[simp] theorem State.observe_calls (o : Observation) (s : State) :
    (s.observe o).calls = s.calls := rfl

@[simp] theorem State.observe_obs (o : Observation) (s : State) :
    (s.observe o).obs = s.obs ++ [o] := rfl

/-! ### `enqueueCommand` -/

@[simp] theorem State.enqueueCommand_status (s : State) (w : Nat) :
    (s.enqueueCommand w).status = s.status := rfl

@[simp] theorem State.enqueueCommand_res (s : State) (w : Nat) :
    (s.enqueueCommand w).res = s.res := rfl

@[simp] theorem State.enqueueCommand_pos (s : State) (w : Nat) :
    (s.enqueueCommand w).pos = s.pos := rfl

@[simp] theorem State.enqueueCommand_ctrl (s : State) (w : Nat) :
    (s.enqueueCommand w).ctrl = s.ctrl := rfl

@[simp] theorem State.enqueueCommand_vermask (s : State) (w : Nat) :
    (s.enqueueCommand w).vermask = s.vermask := rfl

@[simp] theorem State.enqueueCommand_micsz (s : State) (w : Nat) :
    (s.enqueueCommand w).micsz = s.micsz := rfl

@[simp] theorem State.enqueueCommand_ctx (s : State) (w : Nat) :
    (s.enqueueCommand w).ctx = s.ctx := rfl

@[simp] theorem State.enqueueCommand_tag (s : State) (w : Nat) :
    (s.enqueueCommand w).tag = s.tag := rfl

@[simp] theorem State.enqueueCommand_len (s : State) (w : Nat) :
    (s.enqueueCommand w).len = s.len := rfl

@[simp] theorem State.enqueueCommand_mf (s : State) (w : Nat) :
    (s.enqueueCommand w).mf = s.mf := rfl

@[simp] theorem State.enqueueCommand_sid (s : State) (w : Nat) :
    (s.enqueueCommand w).sid = s.sid := rfl

@[simp] theorem State.enqueueCommand_sf (s : State) (w : Nat) :
    (s.enqueueCommand w).sf = s.sf := rfl

@[simp] theorem State.enqueueCommand_ctr (s : State) (w : Nat) :
    (s.enqueueCommand w).ctr = s.ctr := rfl

@[simp] theorem State.enqueueCommand_src (s : State) (w : Nat) :
    (s.enqueueCommand w).src = s.src := rfl

@[simp] theorem State.enqueueCommand_dst (s : State) (w : Nat) :
    (s.enqueueCommand w).dst = s.dst := rfl

@[simp] theorem State.enqueueCommand_mxlen (s : State) (w : Nat) :
    (s.enqueueCommand w).mxlen = s.mxlen := rfl

@[simp] theorem State.enqueueCommand_xf (s : State) (w : Nat) :
    (s.enqueueCommand w).xf = s.xf := rfl

@[simp] theorem State.enqueueCommand_opc (s : State) (w : Nat) :
    (s.enqueueCommand w).opc = s.opc := rfl

@[simp] theorem State.enqueueCommand_xid (s : State) (w : Nat) :
    (s.enqueueCommand w).xid = s.xid := rfl

@[simp] theorem State.enqueueCommand_pid (s : State) (w : Nat) :
    (s.enqueueCommand w).pid = s.pid := rfl

@[simp] theorem State.enqueueCommand_vid (s : State) (w : Nat) :
    (s.enqueueCommand w).vid = s.vid := rfl

@[simp] theorem State.enqueueCommand_ack (s : State) (w : Nat) :
    (s.enqueueCommand w).ack = s.ack := rfl

@[simp] theorem State.enqueueCommand_sxlen (s : State) (w : Nat) :
    (s.enqueueCommand w).sxlen = s.sxlen := rfl

@[simp] theorem State.enqueueCommand_paylen (s : State) (w : Nat) :
    (s.enqueueCommand w).paylen = s.paylen := rfl

@[simp] theorem State.enqueueCommand_miclen (s : State) (w : Nat) :
    (s.enqueueCommand w).miclen = s.miclen := rfl

@[simp] theorem State.enqueueCommand_ilen (s : State) (w : Nat) :
    (s.enqueueCommand w).ilen = s.ilen := rfl

@[simp] theorem State.enqueueCommand_olen (s : State) (w : Nat) :
    (s.enqueueCommand w).olen = s.olen := rfl

@[simp] theorem State.enqueueCommand_ibuf (s : State) (w : Nat) :
    (s.enqueueCommand w).ibuf = s.ibuf := rfl

@[simp] theorem State.enqueueCommand_obuf (s : State) (w : Nat) :
    (s.enqueueCommand w).obuf = s.obuf := rfl

@[simp] theorem State.enqueueCommand_mxb (s : State) (w : Nat) :
    (s.enqueueCommand w).mxb = s.mxb := rfl

@[simp] theorem State.enqueueCommand_sxb (s : State) (w : Nat) :
    (s.enqueueCommand w).sxb = s.sxb := rfl

@[simp] theorem State.enqueueCommand_pay (s : State) (w : Nat) :
    (s.enqueueCommand w).pay = s.pay := rfl

@[simp] theorem State.enqueueCommand_mic (s : State) (w : Nat) :
    (s.enqueueCommand w).mic = s.mic := rfl

@[simp] theorem State.enqueueCommand_epoch (s : State) (w : Nat) :
    (s.enqueueCommand w).epoch = s.epoch := rfl

@[simp] theorem State.enqueueCommand_events (s : State) (w : Nat) :
    (s.enqueueCommand w).events = .regWrite 0x00 w :: s.events := rfl

@[simp] theorem State.enqueueCommand_encryptAnswers (s : State) (w : Nat) :
    (s.enqueueCommand w).encryptAnswers = s.encryptAnswers := rfl

@[simp] theorem State.enqueueCommand_verifyAnswers (s : State) (w : Nat) :
    (s.enqueueCommand w).verifyAnswers = s.verifyAnswers := rfl

@[simp] theorem State.enqueueCommand_decryptAnswers (s : State) (w : Nat) :
    (s.enqueueCommand w).decryptAnswers = s.decryptAnswers := rfl

@[simp] theorem State.enqueueCommand_calls (s : State) (w : Nat) :
    (s.enqueueCommand w).calls = s.calls := rfl

@[simp] theorem State.enqueueCommand_obs (s : State) (w : Nat) :
    (s.enqueueCommand w).obs = s.obs := rfl

end Sys2Proof.Machine
end

