-- ==== Sys2Proof/Laws/Memory.lean ====
section
/-! SUPPORT. What the memory operations do, once: read after write, the frame of a write, and that every
operation keeps the canonical form and the capacity of a buffer. -/

namespace Sys2Proof.Machine

/-! ### One buffer's list of cells -/

theorem Memory.get?_set (m : Memory) (a a' : Nat) (v : Byte) :
    (Memory.set m a v).get? a' = if a' = a then some v else m.get? a' := by
  induction m with
  | nil => simp [Memory.set, Memory.get?]
  | cons c m ih =>
    obtain ⟨b, w⟩ := c
    simp only [Memory.set]
    split
    · simp [Memory.get?]
    · split
      · subst_vars; simp only [Memory.get?]; split <;> rfl
      · simp only [Memory.get?, ih]
        by_cases hb : a' = b
        · subst hb; simp; intro h; omega
        · simp [hb]

theorem Memory.get?_write (x : Bytes) (m : Memory) (a a' : Nat) :
    (m.write a x).get? a' =
      if a ≤ a' ∧ a' < a + x.length then x[a' - a]? else m.get? a' := by
  induction x generalizing m a with
  | nil =>
    have : ¬ (a ≤ a' ∧ a' < a + ([] : Bytes).length) := by simp
    rw [if_neg this]; rfl
  | cons v x ih =>
    rw [Memory.write, ih, Memory.get?_set]
    by_cases h : a' = a
    · subst h; simp
    · by_cases h' : a ≤ a' ∧ a' < a + (v :: x).length
      · have h'' : a + 1 ≤ a' ∧ a' < a + 1 + x.length := by
          simp only [List.length_cons] at h'; omega
        rw [if_pos h', if_pos h'', show a' - a = (a' - (a + 1)) + 1 by omega]
        simp
      · have h'' : ¬ (a + 1 ≤ a' ∧ a' < a + 1 + x.length) := by
          simp only [List.length_cons] at h'; omega
        rw [if_neg h', if_neg h'', if_neg h]

theorem Memory.wfFrom_mono {lo lo' : Nat} {m : Memory} (h : lo' ≤ lo)
    (hm : Memory.wfFrom lo m = true) : Memory.wfFrom lo' m = true := by
  cases m with
  | nil => rfl
  | cons c m =>
    obtain ⟨b, w⟩ := c
    simp only [Memory.wfFrom, Bool.and_eq_true, decide_eq_true_eq] at hm ⊢
    exact ⟨by omega, hm.2⟩

theorem Memory.wfFrom_set {lo a : Nat} {v : Byte} {m : Memory} (h : lo ≤ a)
    (hm : Memory.wfFrom lo m = true) : Memory.wfFrom lo (Memory.set m a v) = true := by
  induction m generalizing lo with
  | nil => simp [Memory.set, Memory.wfFrom, h]
  | cons c m ih =>
    obtain ⟨b, w⟩ := c
    simp only [Memory.wfFrom, Bool.and_eq_true, decide_eq_true_eq] at hm
    simp only [Memory.set]
    split
    · simp only [Memory.wfFrom, Bool.and_eq_true, decide_eq_true_eq]
      exact ⟨h, by omega, hm.2⟩
    · split
      · subst_vars
        simp only [Memory.wfFrom, Bool.and_eq_true, decide_eq_true_eq]
        exact hm
      · simp only [Memory.wfFrom, Bool.and_eq_true, decide_eq_true_eq]
        exact ⟨hm.1, ih (by omega) hm.2⟩

/-- Writing one byte keeps the canonical form. -/
theorem Memory.wf_set {m : Memory} (a : Nat) (v : Byte) (hm : m.wf = true) :
    (Memory.set m a v).wf = true :=
  Memory.wfFrom_set (Nat.zero_le a) hm

/-- Writing a sequence keeps the canonical form. -/
theorem Memory.wf_write (x : Bytes) {m : Memory} (a : Nat) (hm : m.wf = true) :
    (m.write a x).wf = true := by
  induction x generalizing m a with
  | nil => exact hm
  | cons v x ih => exact ih (a + 1) (Memory.wf_set a v hm)

theorem Memory.bounded_set {m : Memory} {a : Nat} (v : Byte) (ha : a < Config.cap)
    (hm : m.bounded = true) : (Memory.set m a v).bounded = true := by
  induction m with
  | nil => simp [Memory.set, Memory.bounded, ha]
  | cons c m ih =>
    obtain ⟨b, w⟩ := c
    simp only [Memory.bounded, List.all_cons, Bool.and_eq_true, decide_eq_true_eq] at hm ih
    simp only [Memory.set]
    split
    · simp only [Memory.bounded, List.all_cons, Bool.and_eq_true, decide_eq_true_eq]
      exact ⟨ha, hm.1, hm.2⟩
    · split
      · simp only [Memory.bounded, List.all_cons, Bool.and_eq_true, decide_eq_true_eq]
        exact ⟨ha, hm.2⟩
      · simp only [Memory.bounded, List.all_cons, Bool.and_eq_true, decide_eq_true_eq]
        exact ⟨hm.1, ih hm.2⟩

/-- Writing a sequence that fits the buffer lists no offset at or above CAP. -/
theorem Memory.bounded_write (x : Bytes) {m : Memory} {a : Nat} (ha : a + x.length ≤ Config.cap)
    (hm : m.bounded = true) : (m.write a x).bounded = true := by
  induction x generalizing m a with
  | nil => exact hm
  | cons v x ih =>
    simp only [List.length_cons] at ha
    exact ih (by omega) (Memory.bounded_set v (by omega) hm)

theorem Memory.get?_eq_none_of_wfFrom {lo a : Nat} {m : Memory}
    (hm : Memory.wfFrom lo m = true) (h : a < lo) : m.get? a = none := by
  induction m generalizing lo with
  | nil => rfl
  | cons c m ih =>
    obtain ⟨b, w⟩ := c
    simp only [Memory.wfFrom, Bool.and_eq_true, decide_eq_true_eq] at hm
    simp only [Memory.get?]
    rw [if_neg (by omega)]
    exact ih hm.2 (by omega)

theorem Memory.ext_of_wfFrom {lo : Nat} {m m' : Memory} (hm : Memory.wfFrom lo m = true)
    (hm' : Memory.wfFrom lo m' = true) (h : ∀ a, m.get? a = m'.get? a) : m = m' := by
  induction m generalizing lo m' with
  | nil =>
    cases m' with
    | nil => rfl
    | cons c' m' => have := h c'.1; simp [Memory.get?] at this
  | cons c m ih =>
    obtain ⟨b, w⟩ := c
    cases m' with
    | nil => have := h b; simp [Memory.get?] at this
    | cons c' m' =>
      obtain ⟨b', w'⟩ := c'
      simp only [Memory.wfFrom, Bool.and_eq_true, decide_eq_true_eq] at hm hm'
      have hb : b = b' := by
        have h₁ := h b
        have h₂ := h b'
        simp only [Memory.get?] at h₁ h₂
        by_contra hne
        rcases Nat.lt_or_gt_of_ne hne with hlt | hlt
        · rw [if_pos trivial, if_neg hne, Memory.get?_eq_none_of_wfFrom hm'.2 (by omega)] at h₁
          cases h₁
        · rw [if_neg (Ne.symm hne), if_pos trivial,
            Memory.get?_eq_none_of_wfFrom hm.2 (by omega)] at h₂
          cases h₂
      subst hb
      have hw : w = w' := by simpa [Memory.get?] using h b
      subst hw
      congr 1
      refine ih hm.2 hm'.2 fun a => ?_
      by_cases ha : a = b
      · subst ha
        rw [Memory.get?_eq_none_of_wfFrom hm.2 (by omega),
          Memory.get?_eq_none_of_wfFrom hm'.2 (by omega)]
      · have := h a
        simpa only [Memory.get?, if_neg ha] using this

/-- Two canonical memories that read alike are the same data. -/
theorem Memory.ext {m m' : Memory} (hm : m.wf = true) (hm' : m'.wf = true)
    (h : ∀ a, m.get? a = m'.get? a) : m = m' :=
  Memory.ext_of_wfFrom hm hm' h

/-! ### The buffers of a state -/

@[simp] theorem State.buf_setBuf (s : State) (b b' : BufId) (m : Memory) :
    (s.setBuf b m).buf b' = if b' = b then m else s.buf b' := by
  cases b <;> cases b' <;> rfl

@[simp] theorem State.buf_memWrite (s : State) (b b' : BufId) (a : Nat) (x : Bytes) :
    (s.memWrite b a x).buf b' = if b' = b then (s.buf b).write a x else s.buf b' := by
  simp [State.memWrite]

/-- What MemWrite does to every byte of every buffer (20_memory R42). -/
theorem State.readByte_memWrite (s : State) (b b' : BufId) (a a' : Nat) (x : Bytes) :
    (s.memWrite b a x).readByte b' a' =
      if b' = b ∧ a ≤ a' ∧ a' < a + x.length then x.getD (a' - a) 0#8 else s.readByte b' a' := by
  unfold State.readByte
  rw [State.buf_memWrite]
  by_cases hb : b' = b
  · subst hb
    simp only [if_true, true_and, Memory.get?_write, State.memWrite_epoch]
    by_cases h : a ≤ a' ∧ a' < a + x.length
    · have hx : a' - a < x.length := by omega
      simp [h, hx]
    · simp [h]
  · simp [hb]

/-- A buffer's bytes depend only on its own cells and on the epoch. -/
theorem State.readByte_congr {s t : State} {b : BufId} (hb : s.buf b = t.buf b)
    (he : s.epoch = t.epoch) (a : Nat) : s.readByte b a = t.readByte b a := by
  unfold State.readByte; rw [hb, he]

@[simp] theorem State.memRead_length (s : State) (b : BufId) (a n : Nat) :
    (s.memRead b a n).length = n := by
  induction n generalizing a with
  | zero => rfl
  | succ n ih => simp [State.memRead, ih]

@[simp] theorem State.memRead_zero (s : State) (b : BufId) (a : Nat) : s.memRead b a 0 = [] := rfl

theorem State.memRead_getElem (s : State) (b : BufId) (a n i : Nat)
    (h : i < (s.memRead b a n).length) : (s.memRead b a n)[i] = s.readByte b (a + i) := by
  induction n generalizing a i with
  | zero => simp at h
  | succ n ih =>
    cases i with
    | zero => rfl
    | succ i =>
      simp only [State.memRead, List.getElem_cons_succ]
      rw [ih]
      congr 1
      omega

/-- MemRead of a range is determined by the bytes of that range. -/
theorem State.memRead_congr {s t : State} {b b' : BufId} {a a' n : Nat}
    (h : ∀ i, i < n → s.readByte b (a + i) = t.readByte b' (a' + i)) :
    s.memRead b a n = t.memRead b' a' n := by
  apply List.ext_getElem (by simp)
  intro i h₁ h₂
  rw [State.memRead_getElem, State.memRead_getElem]
  exact h i (by simpa using h₁)

theorem State.memRead_eq_of_readByte {s t : State} {b : BufId}
    (h : ∀ a, s.readByte b a = t.readByte b a) (a n : Nat) :
    s.memRead b a n = t.memRead b a n :=
  State.memRead_congr fun i _ => h (a + i)

/-- MemRead depends only on the buffer's own cells and on the epoch. -/
theorem State.memRead_of_buf {s t : State} {b : BufId} (hb : s.buf b = t.buf b)
    (he : s.epoch = t.epoch) (a n : Nat) : s.memRead b a n = t.memRead b a n :=
  State.memRead_eq_of_readByte (State.readByte_congr hb he) a n

/-- A sequence is what MemRead gives exactly when its bytes are the buffer's. -/
theorem State.memRead_eq_iff (s : State) (b : BufId) (a : Nat) (x : Bytes) :
    s.memRead b a x.length = x ↔ ∀ i (h : i < x.length), s.readByte b (a + i) = x[i] := by
  constructor
  · intro hx i hi
    have := State.memRead_getElem s b a x.length i (by simpa using hi)
    rw [← this]
    simp [hx]
  · intro hx
    apply List.ext_getElem (by simp)
    intro i h₁ h₂
    rw [State.memRead_getElem]
    exact hx i h₂

/-- Reading what was just written (20_memory R41, R42). -/
@[simp] theorem State.memRead_memWrite_self (s : State) (b : BufId) (a : Nat) (x : Bytes) :
    (s.memWrite b a x).memRead b a x.length = x := by
  rw [State.memRead_eq_iff]
  intro i hi
  rw [State.readByte_memWrite, if_pos ⟨rfl, by omega, by omega⟩]
  simp [hi]

/-- A write to one buffer leaves the reads of another alone. -/
theorem State.memRead_memWrite_of_ne (s : State) {b b' : BufId} (h : b' ≠ b) (a a' n : Nat)
    (x : Bytes) : (s.memWrite b a x).memRead b' a' n = s.memRead b' a' n :=
  State.memRead_congr fun i _ => by rw [State.readByte_memWrite, if_neg (by tauto)]

theorem State.memRead_append (s : State) (b : BufId) (a n m : Nat) :
    s.memRead b a (n + m) = s.memRead b a n ++ s.memRead b (a + n) m := by
  induction n generalizing a with
  | zero => simp
  | succ n ih =>
    rw [Nat.succ_add]
    simp only [State.memRead, List.cons_append, ih]
    rw [show a + 1 + n = a + (n + 1) by omega]

theorem State.memRead_take (s : State) (b : BufId) (a n k : Nat) (h : k ≤ n) :
    (s.memRead b a n).take k = s.memRead b a k := by
  obtain ⟨m, rfl⟩ := Nat.exists_eq_add_of_le h
  rw [State.memRead_append]
  exact List.take_left' (by simp)

theorem State.memRead_drop (s : State) (b : BufId) (a n k : Nat) (h : k ≤ n) :
    (s.memRead b a n).drop k = s.memRead b (a + k) (n - k) := by
  obtain ⟨m, rfl⟩ := Nat.exists_eq_add_of_le h
  rw [State.memRead_append, List.drop_left' (by simp)]
  congr 1
  omega

/-! ### CAP -/

theorem Config.cap_ge : 64 ≤ Config.cap := Nat.le_add_left 64 _

theorem Config.cap_le : Config.cap ≤ 65535 := by
  have := Config.spareCapacity.isLt
  unfold Config.cap
  omega

/-- A length that fits a buffer fits a 16-bit register. -/
theorem toNat_ofNat_of_le_cap {n : Nat} (h : n ≤ Config.cap) : (BitVec.ofNat 16 n).toNat = n := by
  have := Config.cap_le
  rw [BitVec.toNat_ofNat]
  exact Nat.mod_eq_of_lt (by omega)

end Sys2Proof.Machine
end

