-- ==== Sys2Proof/Laws/Bits.lean ====
section
/-! SUPPORT. Bit fields as slices, the enumeration codecs, and little-endian packing. -/

namespace Sys2Proof.Machine

/-! ### Field get and field set -/

theorem getField_version (r : Byte) : getField 4 4 r = BitVec.ofNat 8 (r.toNat / 16) := by
  revert r; decide +kernel

theorem getField_low2 (r : Byte) : getField 0 2 r = (r.extractLsb' 0 2).setWidth 8 := by
  revert r; decide +kernel

theorem getField_bit (lo : Nat) (h : lo < 8) (r : Byte) :
    getField lo 1 r = if r.getLsbD lo then 1#8 else 0#8 := by
  revert r
  interval_cases lo <;> decide +kernel

theorem setField_version (v : BitVec 4) (r : Byte) :
    setField 4 v r = v ++ r.extractLsb' 0 4 := by
  revert v r; decide +kernel

theorem setField_low2 (v : BitVec 2) (r : Byte) :
    setField 0 v r = r.extractLsb' 2 6 ++ v := by
  revert v r; decide +kernel

/-- A one-bit set changes that bit and no other. -/
theorem setField_bit (lo : Nat) (h : lo < 8) (v : BitVec 1) (r : Byte) (i : Nat) :
    (setField lo v r).getLsbD i = if i = lo then v.getLsbD 0 else r.getLsbD i := by
  by_cases hi : i < 8
  · revert v r
    interval_cases lo <;> interval_cases i <;> decide +kernel
  · rw [BitVec.getLsbD_of_ge _ _ (by omega), if_neg (by omega), BitVec.getLsbD_of_ge _ _ (by omega)]

/-! ### The enumerations -/

theorem canonST_eq (x : BitVec 2) : canonST x = if x = 2#2 then 3#2 else x := by
  revert x; decide

theorem canonST_ne_two (x : BitVec 2) : canonST x ≠ 2#2 := by
  revert x; decide

theorem canonSF_eq (b : Byte) : canonSF b = Wire.canonical b := by
  revert b; decide +kernel

theorem canonical_low (b : Byte) : (Wire.canonical b).extractLsb' 0 2 ≠ 2#2 := by
  revert b; decide +kernel

theorem canonical_of_low {b : Byte} (h : b.extractLsb' 0 2 ≠ 2#2) : Wire.canonical b = b := by
  revert b; decide +kernel

theorem canonical_bits (b : Byte) (i : Nat) (h : 2 ≤ i) :
    (Wire.canonical b).getLsbD i = b.getLsbD i := by
  by_cases hi : i < 8
  · revert b
    interval_cases i <;> decide +kernel
  · rw [BitVec.getLsbD_of_ge _ _ (by omega), BitVec.getLsbD_of_ge _ _ (by omega)]

theorem dsizToBits_ofBits (x : BitVec 2) : dsizToBits (dsizOfBits x) = x := by
  revert x; decide

theorem dsizOfBits_toBits (d : Dsiz) : dsizOfBits (dsizToBits d) = d := by
  cases d <;> rfl

theorem sessionTypeOfBits_toBits (t : SessionType) :
    sessionTypeOfBits (sessionTypeToBits t) = t := by
  cases t <;> rfl

theorem wantDstT_mfDsiz (mf : Byte) : wantDstT (mfDsiz mf) = Wire.destinationTag mf := by
  revert mf; decide +kernel

theorem mfVersion_eq (mf : Byte) : mfVersion mf = (mf.extractLsb' 4 4).toNat := by
  revert mf; decide +kernel

/-! ### The tags -/

theorem setHeaderTags_eq (lenV srcV mxV : Bool) (dstT : BitVec 2) (tag : Byte) :
    setHeaderTags lenV srcV dstT mxV tag =
      tag.extractLsb' 5 3 ++ BitVec.ofBool mxV ++ dstT ++ BitVec.ofBool srcV
        ++ BitVec.ofBool lenV := by
  revert tag dstT
  cases lenV <;> cases srcV <;> cases mxV <;> decide +kernel

theorem setPmTags_eq (vidV ackV sxV : Bool) (tag : Byte) :
    setPmTags vidV ackV sxV tag =
      BitVec.ofBool sxV ++ BitVec.ofBool ackV ++ BitVec.ofBool vidV ++ tag.extractLsb' 0 5 := by
  revert tag
  cases vidV <;> cases ackV <;> cases sxV <;> decide +kernel

/-! ### Little-endian packing -/

@[simp] theorem leBytes_length (n v : Nat) : (leBytes n v).length = n := by
  induction n generalizing v with
  | zero => rfl
  | succ n ih => simp [leBytes, ih]

@[simp] theorem le_length (n : Nat) {w : Nat} (v : BitVec w) : (le n v).length = n :=
  leBytes_length n v.toNat

theorem unle_lt (x : Bytes) : unle x < 256 ^ x.length := by
  induction x with
  | nil => simp [unle]
  | cons b x ih =>
    have := b.isLt
    simp only [unle, List.length_cons, pow_succ]
    omega

/-- Unpacking undoes packing, up to the width packed (00_scope section 5). -/
theorem unle_leBytes (n v : Nat) : unle (leBytes n v) = v % 256 ^ n := by
  induction n generalizing v with
  | zero => simp [leBytes, unle, Nat.mod_one]
  | succ n ih =>
    simp only [leBytes, unle, ih, BitVec.toNat_ofNat]
    rw [show 256 ^ (n + 1) = 256 * 256 ^ n by rw [Nat.pow_succ, Nat.mul_comm], Nat.mod_mul]

/-- Packing undoes unpacking. -/
theorem leBytes_unle (x : Bytes) : leBytes x.length (unle x) = x := by
  induction x with
  | nil => rfl
  | cons b x ih =>
    have hb := b.isLt
    simp only [unle, List.length_cons, leBytes]
    congr 1
    · apply BitVec.eq_of_toNat_eq
      simp only [BitVec.toNat_ofNat]
      omega
    · rw [show (b.toNat + 256 * unle x) / 256 = unle x by omega]
      exact ih

/-- A register of 8n bits survives packing and unpacking (20_memory R43). -/
theorem unle_le {n w : Nat} (h : w = 8 * n) (v : BitVec w) : unle (le n v) = v.toNat := by
  subst h
  rw [le, unle_leBytes]
  apply Nat.mod_eq_of_lt
  have := v.isLt
  rwa [show (256 : Nat) = 2 ^ 8 by rfl, ← pow_mul]

theorem ofNat_extract {w : Nat} (v : BitVec w) (k : Nat) :
    BitVec.ofNat 8 (v.toNat / 2 ^ k) = v.extractLsb' k 8 := by
  apply BitVec.eq_of_toNat_eq
  simp [BitVec.extractLsb'_toNat, Nat.shiftRight_eq_div_pow]

theorem le2_eq (v : BitVec 16) : le 2 v = Wire.u16 v := by
  have h₀ := ofNat_extract v 0
  have h₁ := ofNat_extract v 8
  simp only [pow_zero, Nat.div_one] at h₀
  simp only [le, leBytes, Wire.u16, ← h₀, ← h₁]
  norm_num

theorem le4_eq (v : BitVec 32) : le 4 v = Wire.u32 v := by
  have h₀ := ofNat_extract v 0
  simp only [pow_zero, Nat.div_one] at h₀
  simp only [le, leBytes, Wire.u32, ← h₀, ← ofNat_extract v 8, ← ofNat_extract v 16,
    ← ofNat_extract v 24, Nat.div_div_eq_div_mul]
  norm_num

theorem le8_eq (v : BitVec 64) : le 8 v = Wire.u64 v := by
  have h : ∀ a b, a + 8 ≤ 32 →
      (v.extractLsb' b 32).extractLsb' a 8 = v.extractLsb' (b + a) 8 := by
    intro a b hab
    ext i hi
    simp only [BitVec.getElem_extractLsb', BitVec.getLsbD_extractLsb']
    have : a + i < 32 := by omega
    simp [this, Nat.add_assoc]
  have h₀ := ofNat_extract v 0
  simp only [pow_zero, Nat.div_one] at h₀
  simp only [Wire.u64, Wire.u32, h 0 0 (by omega), h 8 0 (by omega), h 16 0 (by omega),
    h 24 0 (by omega), h 0 32 (by omega), h 8 32 (by omega), h 16 32 (by omega),
    h 24 32 (by omega)]
  simp only [le, leBytes, Nat.zero_add, Nat.add_zero, ← h₀, ← ofNat_extract v 8,
    ← ofNat_extract v 16, ← ofNat_extract v 24, ← ofNat_extract v 32, ← ofNat_extract v 40,
    ← ofNat_extract v 48, ← ofNat_extract v 56, Nat.div_div_eq_div_mul]
  norm_num [Nat.reduceAdd, ← ofNat_extract]

end Sys2Proof.Machine
end

