-- ==== Sys2Proof/Laws/CommitFields.lean ====
section
/-! SUPPORT. One lemma per field that an encode's output, a commit and a crypto-port call leave alone, so
that no later proof unfolds them. -/

namespace Sys2Proof.Machine

/-! ### `emit` -/

@[simp] theorem State.emit_res (out : Bytes) (s : State) :
    (s.emit out).res = s.res := by
  unfold State.emit
  split <;> rfl

@[simp] theorem State.emit_ctrl (out : Bytes) (s : State) :
    (s.emit out).ctrl = s.ctrl := by
  unfold State.emit
  split <;> rfl

@[simp] theorem State.emit_vermask (out : Bytes) (s : State) :
    (s.emit out).vermask = s.vermask := by
  unfold State.emit
  split <;> rfl

@[simp] theorem State.emit_micsz (out : Bytes) (s : State) :
    (s.emit out).micsz = s.micsz := by
  unfold State.emit
  split <;> rfl

@[simp] theorem State.emit_ctx (out : Bytes) (s : State) :
    (s.emit out).ctx = s.ctx := by
  unfold State.emit
  split <;> rfl

@[simp] theorem State.emit_tag (out : Bytes) (s : State) :
    (s.emit out).tag = s.tag := by
  unfold State.emit
  split <;> rfl

@[simp] theorem State.emit_len (out : Bytes) (s : State) :
    (s.emit out).len = s.len := by
  unfold State.emit
  split <;> rfl

@[simp] theorem State.emit_mf (out : Bytes) (s : State) :
    (s.emit out).mf = s.mf := by
  unfold State.emit
  split <;> rfl

@[simp] theorem State.emit_sid (out : Bytes) (s : State) :
    (s.emit out).sid = s.sid := by
  unfold State.emit
  split <;> rfl

@[simp] theorem State.emit_sf (out : Bytes) (s : State) :
    (s.emit out).sf = s.sf := by
  unfold State.emit
  split <;> rfl

@[simp] theorem State.emit_ctr (out : Bytes) (s : State) :
    (s.emit out).ctr = s.ctr := by
  unfold State.emit
  split <;> rfl

@[simp] theorem State.emit_src (out : Bytes) (s : State) :
    (s.emit out).src = s.src := by
  unfold State.emit
  split <;> rfl

@[simp] theorem State.emit_dst (out : Bytes) (s : State) :
    (s.emit out).dst = s.dst := by
  unfold State.emit
  split <;> rfl

@[simp] theorem State.emit_mxlen (out : Bytes) (s : State) :
    (s.emit out).mxlen = s.mxlen := by
  unfold State.emit
  split <;> rfl

@[simp] theorem State.emit_xf (out : Bytes) (s : State) :
    (s.emit out).xf = s.xf := by
  unfold State.emit
  split <;> rfl

@[simp] theorem State.emit_opc (out : Bytes) (s : State) :
    (s.emit out).opc = s.opc := by
  unfold State.emit
  split <;> rfl

@[simp] theorem State.emit_xid (out : Bytes) (s : State) :
    (s.emit out).xid = s.xid := by
  unfold State.emit
  split <;> rfl

@[simp] theorem State.emit_pid (out : Bytes) (s : State) :
    (s.emit out).pid = s.pid := by
  unfold State.emit
  split <;> rfl

@[simp] theorem State.emit_vid (out : Bytes) (s : State) :
    (s.emit out).vid = s.vid := by
  unfold State.emit
  split <;> rfl

@[simp] theorem State.emit_ack (out : Bytes) (s : State) :
    (s.emit out).ack = s.ack := by
  unfold State.emit
  split <;> rfl

@[simp] theorem State.emit_sxlen (out : Bytes) (s : State) :
    (s.emit out).sxlen = s.sxlen := by
  unfold State.emit
  split <;> rfl

@[simp] theorem State.emit_paylen (out : Bytes) (s : State) :
    (s.emit out).paylen = s.paylen := by
  unfold State.emit
  split <;> rfl

@[simp] theorem State.emit_miclen (out : Bytes) (s : State) :
    (s.emit out).miclen = s.miclen := by
  unfold State.emit
  split <;> rfl

@[simp] theorem State.emit_ilen (out : Bytes) (s : State) :
    (s.emit out).ilen = s.ilen := by
  unfold State.emit
  split <;> rfl

@[simp] theorem State.emit_ibuf (out : Bytes) (s : State) :
    (s.emit out).ibuf = s.ibuf := by
  unfold State.emit
  split <;> rfl

@[simp] theorem State.emit_mxb (out : Bytes) (s : State) :
    (s.emit out).mxb = s.mxb := by
  unfold State.emit
  split <;> rfl

@[simp] theorem State.emit_sxb (out : Bytes) (s : State) :
    (s.emit out).sxb = s.sxb := by
  unfold State.emit
  split <;> rfl

@[simp] theorem State.emit_pay (out : Bytes) (s : State) :
    (s.emit out).pay = s.pay := by
  unfold State.emit
  split <;> rfl

@[simp] theorem State.emit_mic (out : Bytes) (s : State) :
    (s.emit out).mic = s.mic := by
  unfold State.emit
  split <;> rfl

@[simp] theorem State.emit_epoch (out : Bytes) (s : State) :
    (s.emit out).epoch = s.epoch := by
  unfold State.emit
  split <;> rfl

@[simp] theorem State.emit_events (out : Bytes) (s : State) :
    (s.emit out).events = s.events := by
  unfold State.emit
  split <;> rfl

@[simp] theorem State.emit_encryptAnswers (out : Bytes) (s : State) :
    (s.emit out).encryptAnswers = s.encryptAnswers := by
  unfold State.emit
  split <;> rfl

@[simp] theorem State.emit_verifyAnswers (out : Bytes) (s : State) :
    (s.emit out).verifyAnswers = s.verifyAnswers := by
  unfold State.emit
  split <;> rfl

@[simp] theorem State.emit_decryptAnswers (out : Bytes) (s : State) :
    (s.emit out).decryptAnswers = s.decryptAnswers := by
  unfold State.emit
  split <;> rfl

@[simp] theorem State.emit_calls (out : Bytes) (s : State) :
    (s.emit out).calls = s.calls := by
  unfold State.emit
  split <;> rfl

@[simp] theorem State.emit_obs (out : Bytes) (s : State) :
    (s.emit out).obs = s.obs := by
  unfold State.emit
  split <;> rfl

/-! ### `hdrCommit` -/

@[simp] theorem hdrCommit_status (h : Header) (s : State) :
    (hdrCommit h s).status = s.status := by
  unfold hdrCommit State.commitBlock
  cases h.mxV <;> rfl

@[simp] theorem hdrCommit_res (h : Header) (s : State) :
    (hdrCommit h s).res = s.res := by
  unfold hdrCommit State.commitBlock
  cases h.mxV <;> rfl

@[simp] theorem hdrCommit_pos (h : Header) (s : State) :
    (hdrCommit h s).pos = s.pos := by
  unfold hdrCommit State.commitBlock
  cases h.mxV <;> rfl

@[simp] theorem hdrCommit_ctrl (h : Header) (s : State) :
    (hdrCommit h s).ctrl = s.ctrl := by
  unfold hdrCommit State.commitBlock
  cases h.mxV <;> rfl

@[simp] theorem hdrCommit_vermask (h : Header) (s : State) :
    (hdrCommit h s).vermask = s.vermask := by
  unfold hdrCommit State.commitBlock
  cases h.mxV <;> rfl

@[simp] theorem hdrCommit_micsz (h : Header) (s : State) :
    (hdrCommit h s).micsz = s.micsz := by
  unfold hdrCommit State.commitBlock
  cases h.mxV <;> rfl

@[simp] theorem hdrCommit_ctx (h : Header) (s : State) :
    (hdrCommit h s).ctx = s.ctx := by
  unfold hdrCommit State.commitBlock
  cases h.mxV <;> rfl

@[simp] theorem hdrCommit_xf (h : Header) (s : State) :
    (hdrCommit h s).xf = s.xf := by
  unfold hdrCommit State.commitBlock
  cases h.mxV <;> rfl

@[simp] theorem hdrCommit_opc (h : Header) (s : State) :
    (hdrCommit h s).opc = s.opc := by
  unfold hdrCommit State.commitBlock
  cases h.mxV <;> rfl

@[simp] theorem hdrCommit_xid (h : Header) (s : State) :
    (hdrCommit h s).xid = s.xid := by
  unfold hdrCommit State.commitBlock
  cases h.mxV <;> rfl

@[simp] theorem hdrCommit_pid (h : Header) (s : State) :
    (hdrCommit h s).pid = s.pid := by
  unfold hdrCommit State.commitBlock
  cases h.mxV <;> rfl

@[simp] theorem hdrCommit_vid (h : Header) (s : State) :
    (hdrCommit h s).vid = s.vid := by
  unfold hdrCommit State.commitBlock
  cases h.mxV <;> rfl

@[simp] theorem hdrCommit_ack (h : Header) (s : State) :
    (hdrCommit h s).ack = s.ack := by
  unfold hdrCommit State.commitBlock
  cases h.mxV <;> rfl

@[simp] theorem hdrCommit_sxlen (h : Header) (s : State) :
    (hdrCommit h s).sxlen = s.sxlen := by
  unfold hdrCommit State.commitBlock
  cases h.mxV <;> rfl

@[simp] theorem hdrCommit_paylen (h : Header) (s : State) :
    (hdrCommit h s).paylen = s.paylen := by
  unfold hdrCommit State.commitBlock
  cases h.mxV <;> rfl

@[simp] theorem hdrCommit_miclen (h : Header) (s : State) :
    (hdrCommit h s).miclen = s.miclen := by
  unfold hdrCommit State.commitBlock
  cases h.mxV <;> rfl

@[simp] theorem hdrCommit_ilen (h : Header) (s : State) :
    (hdrCommit h s).ilen = s.ilen := by
  unfold hdrCommit State.commitBlock
  cases h.mxV <;> rfl

@[simp] theorem hdrCommit_olen (h : Header) (s : State) :
    (hdrCommit h s).olen = s.olen := by
  unfold hdrCommit State.commitBlock
  cases h.mxV <;> rfl

@[simp] theorem hdrCommit_ibuf (h : Header) (s : State) :
    (hdrCommit h s).ibuf = s.ibuf := by
  unfold hdrCommit State.commitBlock
  cases h.mxV <;> rfl

@[simp] theorem hdrCommit_obuf (h : Header) (s : State) :
    (hdrCommit h s).obuf = s.obuf := by
  unfold hdrCommit State.commitBlock
  cases h.mxV <;> rfl

@[simp] theorem hdrCommit_sxb (h : Header) (s : State) :
    (hdrCommit h s).sxb = s.sxb := by
  unfold hdrCommit State.commitBlock
  cases h.mxV <;> rfl

@[simp] theorem hdrCommit_pay (h : Header) (s : State) :
    (hdrCommit h s).pay = s.pay := by
  unfold hdrCommit State.commitBlock
  cases h.mxV <;> rfl

@[simp] theorem hdrCommit_mic (h : Header) (s : State) :
    (hdrCommit h s).mic = s.mic := by
  unfold hdrCommit State.commitBlock
  cases h.mxV <;> rfl

@[simp] theorem hdrCommit_epoch (h : Header) (s : State) :
    (hdrCommit h s).epoch = s.epoch := by
  unfold hdrCommit State.commitBlock
  cases h.mxV <;> rfl

@[simp] theorem hdrCommit_events (h : Header) (s : State) :
    (hdrCommit h s).events = s.events := by
  unfold hdrCommit State.commitBlock
  cases h.mxV <;> rfl

@[simp] theorem hdrCommit_encryptAnswers (h : Header) (s : State) :
    (hdrCommit h s).encryptAnswers = s.encryptAnswers := by
  unfold hdrCommit State.commitBlock
  cases h.mxV <;> rfl

@[simp] theorem hdrCommit_verifyAnswers (h : Header) (s : State) :
    (hdrCommit h s).verifyAnswers = s.verifyAnswers := by
  unfold hdrCommit State.commitBlock
  cases h.mxV <;> rfl

@[simp] theorem hdrCommit_decryptAnswers (h : Header) (s : State) :
    (hdrCommit h s).decryptAnswers = s.decryptAnswers := by
  unfold hdrCommit State.commitBlock
  cases h.mxV <;> rfl

@[simp] theorem hdrCommit_calls (h : Header) (s : State) :
    (hdrCommit h s).calls = s.calls := by
  unfold hdrCommit State.commitBlock
  cases h.mxV <;> rfl

@[simp] theorem hdrCommit_obs (h : Header) (s : State) :
    (hdrCommit h s).obs = s.obs := by
  unfold hdrCommit State.commitBlock
  cases h.mxV <;> rfl

/-! ### `pmCommit` -/

@[simp] theorem pmCommit_status (m : ProtocolMessage) (s : State) :
    (pmCommit m s).status = s.status := by
  unfold pmCommit State.commitBlock
  cases m.sxV <;> rfl

@[simp] theorem pmCommit_res (m : ProtocolMessage) (s : State) :
    (pmCommit m s).res = s.res := by
  unfold pmCommit State.commitBlock
  cases m.sxV <;> rfl

@[simp] theorem pmCommit_pos (m : ProtocolMessage) (s : State) :
    (pmCommit m s).pos = s.pos := by
  unfold pmCommit State.commitBlock
  cases m.sxV <;> rfl

@[simp] theorem pmCommit_ctrl (m : ProtocolMessage) (s : State) :
    (pmCommit m s).ctrl = s.ctrl := by
  unfold pmCommit State.commitBlock
  cases m.sxV <;> rfl

@[simp] theorem pmCommit_vermask (m : ProtocolMessage) (s : State) :
    (pmCommit m s).vermask = s.vermask := by
  unfold pmCommit State.commitBlock
  cases m.sxV <;> rfl

@[simp] theorem pmCommit_micsz (m : ProtocolMessage) (s : State) :
    (pmCommit m s).micsz = s.micsz := by
  unfold pmCommit State.commitBlock
  cases m.sxV <;> rfl

@[simp] theorem pmCommit_ctx (m : ProtocolMessage) (s : State) :
    (pmCommit m s).ctx = s.ctx := by
  unfold pmCommit State.commitBlock
  cases m.sxV <;> rfl

@[simp] theorem pmCommit_len (m : ProtocolMessage) (s : State) :
    (pmCommit m s).len = s.len := by
  unfold pmCommit State.commitBlock
  cases m.sxV <;> rfl

@[simp] theorem pmCommit_mf (m : ProtocolMessage) (s : State) :
    (pmCommit m s).mf = s.mf := by
  unfold pmCommit State.commitBlock
  cases m.sxV <;> rfl

@[simp] theorem pmCommit_sid (m : ProtocolMessage) (s : State) :
    (pmCommit m s).sid = s.sid := by
  unfold pmCommit State.commitBlock
  cases m.sxV <;> rfl

@[simp] theorem pmCommit_sf (m : ProtocolMessage) (s : State) :
    (pmCommit m s).sf = s.sf := by
  unfold pmCommit State.commitBlock
  cases m.sxV <;> rfl

@[simp] theorem pmCommit_ctr (m : ProtocolMessage) (s : State) :
    (pmCommit m s).ctr = s.ctr := by
  unfold pmCommit State.commitBlock
  cases m.sxV <;> rfl

@[simp] theorem pmCommit_src (m : ProtocolMessage) (s : State) :
    (pmCommit m s).src = s.src := by
  unfold pmCommit State.commitBlock
  cases m.sxV <;> rfl

@[simp] theorem pmCommit_dst (m : ProtocolMessage) (s : State) :
    (pmCommit m s).dst = s.dst := by
  unfold pmCommit State.commitBlock
  cases m.sxV <;> rfl

@[simp] theorem pmCommit_mxlen (m : ProtocolMessage) (s : State) :
    (pmCommit m s).mxlen = s.mxlen := by
  unfold pmCommit State.commitBlock
  cases m.sxV <;> rfl

@[simp] theorem pmCommit_miclen (m : ProtocolMessage) (s : State) :
    (pmCommit m s).miclen = s.miclen := by
  unfold pmCommit State.commitBlock
  cases m.sxV <;> rfl

@[simp] theorem pmCommit_ilen (m : ProtocolMessage) (s : State) :
    (pmCommit m s).ilen = s.ilen := by
  unfold pmCommit State.commitBlock
  cases m.sxV <;> rfl

@[simp] theorem pmCommit_olen (m : ProtocolMessage) (s : State) :
    (pmCommit m s).olen = s.olen := by
  unfold pmCommit State.commitBlock
  cases m.sxV <;> rfl

@[simp] theorem pmCommit_ibuf (m : ProtocolMessage) (s : State) :
    (pmCommit m s).ibuf = s.ibuf := by
  unfold pmCommit State.commitBlock
  cases m.sxV <;> rfl

@[simp] theorem pmCommit_obuf (m : ProtocolMessage) (s : State) :
    (pmCommit m s).obuf = s.obuf := by
  unfold pmCommit State.commitBlock
  cases m.sxV <;> rfl

@[simp] theorem pmCommit_mxb (m : ProtocolMessage) (s : State) :
    (pmCommit m s).mxb = s.mxb := by
  unfold pmCommit State.commitBlock
  cases m.sxV <;> rfl

@[simp] theorem pmCommit_mic (m : ProtocolMessage) (s : State) :
    (pmCommit m s).mic = s.mic := by
  unfold pmCommit State.commitBlock
  cases m.sxV <;> rfl

@[simp] theorem pmCommit_epoch (m : ProtocolMessage) (s : State) :
    (pmCommit m s).epoch = s.epoch := by
  unfold pmCommit State.commitBlock
  cases m.sxV <;> rfl

@[simp] theorem pmCommit_events (m : ProtocolMessage) (s : State) :
    (pmCommit m s).events = s.events := by
  unfold pmCommit State.commitBlock
  cases m.sxV <;> rfl

@[simp] theorem pmCommit_encryptAnswers (m : ProtocolMessage) (s : State) :
    (pmCommit m s).encryptAnswers = s.encryptAnswers := by
  unfold pmCommit State.commitBlock
  cases m.sxV <;> rfl

@[simp] theorem pmCommit_verifyAnswers (m : ProtocolMessage) (s : State) :
    (pmCommit m s).verifyAnswers = s.verifyAnswers := by
  unfold pmCommit State.commitBlock
  cases m.sxV <;> rfl

@[simp] theorem pmCommit_decryptAnswers (m : ProtocolMessage) (s : State) :
    (pmCommit m s).decryptAnswers = s.decryptAnswers := by
  unfold pmCommit State.commitBlock
  cases m.sxV <;> rfl

@[simp] theorem pmCommit_calls (m : ProtocolMessage) (s : State) :
    (pmCommit m s).calls = s.calls := by
  unfold pmCommit State.commitBlock
  cases m.sxV <;> rfl

@[simp] theorem pmCommit_obs (m : ProtocolMessage) (s : State) :
    (pmCommit m s).obs = s.obs := by
  unfold pmCommit State.commitBlock
  cases m.sxV <;> rfl

/-! ### `msgCommit` -/

@[simp] theorem msgCommit_status (h : Header) (m : ProtocolMessage) (x : Bytes) (s : State) :
    (msgCommit h m x s).status = s.status := by
  unfold msgCommit
  simp [State.memWrite, State.setBuf]

@[simp] theorem msgCommit_res (h : Header) (m : ProtocolMessage) (x : Bytes) (s : State) :
    (msgCommit h m x s).res = s.res := by
  unfold msgCommit
  simp [State.memWrite, State.setBuf]

@[simp] theorem msgCommit_pos (h : Header) (m : ProtocolMessage) (x : Bytes) (s : State) :
    (msgCommit h m x s).pos = s.pos := by
  unfold msgCommit
  simp [State.memWrite, State.setBuf]

@[simp] theorem msgCommit_ctrl (h : Header) (m : ProtocolMessage) (x : Bytes) (s : State) :
    (msgCommit h m x s).ctrl = s.ctrl := by
  unfold msgCommit
  simp [State.memWrite, State.setBuf]

@[simp] theorem msgCommit_vermask (h : Header) (m : ProtocolMessage) (x : Bytes) (s : State) :
    (msgCommit h m x s).vermask = s.vermask := by
  unfold msgCommit
  simp [State.memWrite, State.setBuf]

@[simp] theorem msgCommit_micsz (h : Header) (m : ProtocolMessage) (x : Bytes) (s : State) :
    (msgCommit h m x s).micsz = s.micsz := by
  unfold msgCommit
  simp [State.memWrite, State.setBuf]

@[simp] theorem msgCommit_ctx (h : Header) (m : ProtocolMessage) (x : Bytes) (s : State) :
    (msgCommit h m x s).ctx = s.ctx := by
  unfold msgCommit
  simp [State.memWrite, State.setBuf]

@[simp] theorem msgCommit_ilen (h : Header) (m : ProtocolMessage) (x : Bytes) (s : State) :
    (msgCommit h m x s).ilen = s.ilen := by
  unfold msgCommit
  simp [State.memWrite, State.setBuf]

@[simp] theorem msgCommit_olen (h : Header) (m : ProtocolMessage) (x : Bytes) (s : State) :
    (msgCommit h m x s).olen = s.olen := by
  unfold msgCommit
  simp [State.memWrite, State.setBuf]

@[simp] theorem msgCommit_ibuf (h : Header) (m : ProtocolMessage) (x : Bytes) (s : State) :
    (msgCommit h m x s).ibuf = s.ibuf := by
  unfold msgCommit
  simp [State.memWrite, State.setBuf]

@[simp] theorem msgCommit_obuf (h : Header) (m : ProtocolMessage) (x : Bytes) (s : State) :
    (msgCommit h m x s).obuf = s.obuf := by
  unfold msgCommit
  simp [State.memWrite, State.setBuf]

@[simp] theorem msgCommit_epoch (h : Header) (m : ProtocolMessage) (x : Bytes) (s : State) :
    (msgCommit h m x s).epoch = s.epoch := by
  unfold msgCommit
  simp [State.memWrite, State.setBuf]

@[simp] theorem msgCommit_events (h : Header) (m : ProtocolMessage) (x : Bytes) (s : State) :
    (msgCommit h m x s).events = s.events := by
  unfold msgCommit
  simp [State.memWrite, State.setBuf]

@[simp] theorem msgCommit_encryptAnswers (h : Header) (m : ProtocolMessage) (x : Bytes) (s : State) :
    (msgCommit h m x s).encryptAnswers = s.encryptAnswers := by
  unfold msgCommit
  simp [State.memWrite, State.setBuf]

@[simp] theorem msgCommit_verifyAnswers (h : Header) (m : ProtocolMessage) (x : Bytes) (s : State) :
    (msgCommit h m x s).verifyAnswers = s.verifyAnswers := by
  unfold msgCommit
  simp [State.memWrite, State.setBuf]

@[simp] theorem msgCommit_decryptAnswers (h : Header) (m : ProtocolMessage) (x : Bytes) (s : State) :
    (msgCommit h m x s).decryptAnswers = s.decryptAnswers := by
  unfold msgCommit
  simp [State.memWrite, State.setBuf]

@[simp] theorem msgCommit_calls (h : Header) (m : ProtocolMessage) (x : Bytes) (s : State) :
    (msgCommit h m x s).calls = s.calls := by
  unfold msgCommit
  simp [State.memWrite, State.setBuf]

@[simp] theorem msgCommit_obs (h : Header) (m : ProtocolMessage) (x : Bytes) (s : State) :
    (msgCommit h m x s).obs = s.obs := by
  unfold msgCommit
  simp [State.memWrite, State.setBuf]

/-! ### The states after a crypto-port call -/

@[simp] theorem State.encryptCalled_status (s : State) (pt : Bytes) :
    (s.encryptCalled pt).status = s.status := rfl

@[simp] theorem State.encryptCalled_res (s : State) (pt : Bytes) :
    (s.encryptCalled pt).res = s.res := rfl

@[simp] theorem State.encryptCalled_pos (s : State) (pt : Bytes) :
    (s.encryptCalled pt).pos = s.pos := rfl

@[simp] theorem State.encryptCalled_ctrl (s : State) (pt : Bytes) :
    (s.encryptCalled pt).ctrl = s.ctrl := rfl

@[simp] theorem State.encryptCalled_vermask (s : State) (pt : Bytes) :
    (s.encryptCalled pt).vermask = s.vermask := rfl

@[simp] theorem State.encryptCalled_micsz (s : State) (pt : Bytes) :
    (s.encryptCalled pt).micsz = s.micsz := rfl

@[simp] theorem State.encryptCalled_ctx (s : State) (pt : Bytes) :
    (s.encryptCalled pt).ctx = s.ctx := rfl

@[simp] theorem State.encryptCalled_tag (s : State) (pt : Bytes) :
    (s.encryptCalled pt).tag = s.tag := rfl

@[simp] theorem State.encryptCalled_len (s : State) (pt : Bytes) :
    (s.encryptCalled pt).len = s.len := rfl

@[simp] theorem State.encryptCalled_mf (s : State) (pt : Bytes) :
    (s.encryptCalled pt).mf = s.mf := rfl

@[simp] theorem State.encryptCalled_sid (s : State) (pt : Bytes) :
    (s.encryptCalled pt).sid = s.sid := rfl

@[simp] theorem State.encryptCalled_sf (s : State) (pt : Bytes) :
    (s.encryptCalled pt).sf = s.sf := rfl

@[simp] theorem State.encryptCalled_ctr (s : State) (pt : Bytes) :
    (s.encryptCalled pt).ctr = s.ctr := rfl

@[simp] theorem State.encryptCalled_src (s : State) (pt : Bytes) :
    (s.encryptCalled pt).src = s.src := rfl

@[simp] theorem State.encryptCalled_dst (s : State) (pt : Bytes) :
    (s.encryptCalled pt).dst = s.dst := rfl

@[simp] theorem State.encryptCalled_mxlen (s : State) (pt : Bytes) :
    (s.encryptCalled pt).mxlen = s.mxlen := rfl

@[simp] theorem State.encryptCalled_xf (s : State) (pt : Bytes) :
    (s.encryptCalled pt).xf = s.xf := rfl

@[simp] theorem State.encryptCalled_opc (s : State) (pt : Bytes) :
    (s.encryptCalled pt).opc = s.opc := rfl

@[simp] theorem State.encryptCalled_xid (s : State) (pt : Bytes) :
    (s.encryptCalled pt).xid = s.xid := rfl

@[simp] theorem State.encryptCalled_pid (s : State) (pt : Bytes) :
    (s.encryptCalled pt).pid = s.pid := rfl

@[simp] theorem State.encryptCalled_vid (s : State) (pt : Bytes) :
    (s.encryptCalled pt).vid = s.vid := rfl

@[simp] theorem State.encryptCalled_ack (s : State) (pt : Bytes) :
    (s.encryptCalled pt).ack = s.ack := rfl

@[simp] theorem State.encryptCalled_sxlen (s : State) (pt : Bytes) :
    (s.encryptCalled pt).sxlen = s.sxlen := rfl

@[simp] theorem State.encryptCalled_paylen (s : State) (pt : Bytes) :
    (s.encryptCalled pt).paylen = s.paylen := rfl

@[simp] theorem State.encryptCalled_miclen (s : State) (pt : Bytes) :
    (s.encryptCalled pt).miclen = s.miclen := rfl

@[simp] theorem State.encryptCalled_ilen (s : State) (pt : Bytes) :
    (s.encryptCalled pt).ilen = s.ilen := rfl

@[simp] theorem State.encryptCalled_olen (s : State) (pt : Bytes) :
    (s.encryptCalled pt).olen = s.olen := rfl

@[simp] theorem State.encryptCalled_ibuf (s : State) (pt : Bytes) :
    (s.encryptCalled pt).ibuf = s.ibuf := rfl

@[simp] theorem State.encryptCalled_obuf (s : State) (pt : Bytes) :
    (s.encryptCalled pt).obuf = s.obuf := rfl

@[simp] theorem State.encryptCalled_mxb (s : State) (pt : Bytes) :
    (s.encryptCalled pt).mxb = s.mxb := rfl

@[simp] theorem State.encryptCalled_sxb (s : State) (pt : Bytes) :
    (s.encryptCalled pt).sxb = s.sxb := rfl

@[simp] theorem State.encryptCalled_pay (s : State) (pt : Bytes) :
    (s.encryptCalled pt).pay = s.pay := rfl

@[simp] theorem State.encryptCalled_mic (s : State) (pt : Bytes) :
    (s.encryptCalled pt).mic = s.mic := rfl

@[simp] theorem State.encryptCalled_epoch (s : State) (pt : Bytes) :
    (s.encryptCalled pt).epoch = s.epoch := rfl

@[simp] theorem State.encryptCalled_events (s : State) (pt : Bytes) :
    (s.encryptCalled pt).events = s.events := rfl

@[simp] theorem State.encryptCalled_verifyAnswers (s : State) (pt : Bytes) :
    (s.encryptCalled pt).verifyAnswers = s.verifyAnswers := rfl

@[simp] theorem State.encryptCalled_decryptAnswers (s : State) (pt : Bytes) :
    (s.encryptCalled pt).decryptAnswers = s.decryptAnswers := rfl

@[simp] theorem State.decryptCalled_status (s : State) (ct : Bytes) :
    (s.decryptCalled ct).status = s.status := rfl

@[simp] theorem State.decryptCalled_res (s : State) (ct : Bytes) :
    (s.decryptCalled ct).res = s.res := rfl

@[simp] theorem State.decryptCalled_pos (s : State) (ct : Bytes) :
    (s.decryptCalled ct).pos = s.pos := rfl

@[simp] theorem State.decryptCalled_ctrl (s : State) (ct : Bytes) :
    (s.decryptCalled ct).ctrl = s.ctrl := rfl

@[simp] theorem State.decryptCalled_vermask (s : State) (ct : Bytes) :
    (s.decryptCalled ct).vermask = s.vermask := rfl

@[simp] theorem State.decryptCalled_micsz (s : State) (ct : Bytes) :
    (s.decryptCalled ct).micsz = s.micsz := rfl

@[simp] theorem State.decryptCalled_ctx (s : State) (ct : Bytes) :
    (s.decryptCalled ct).ctx = s.ctx := rfl

@[simp] theorem State.decryptCalled_tag (s : State) (ct : Bytes) :
    (s.decryptCalled ct).tag = s.tag := rfl

@[simp] theorem State.decryptCalled_len (s : State) (ct : Bytes) :
    (s.decryptCalled ct).len = s.len := rfl

@[simp] theorem State.decryptCalled_mf (s : State) (ct : Bytes) :
    (s.decryptCalled ct).mf = s.mf := rfl

@[simp] theorem State.decryptCalled_sid (s : State) (ct : Bytes) :
    (s.decryptCalled ct).sid = s.sid := rfl

@[simp] theorem State.decryptCalled_sf (s : State) (ct : Bytes) :
    (s.decryptCalled ct).sf = s.sf := rfl

@[simp] theorem State.decryptCalled_ctr (s : State) (ct : Bytes) :
    (s.decryptCalled ct).ctr = s.ctr := rfl

@[simp] theorem State.decryptCalled_src (s : State) (ct : Bytes) :
    (s.decryptCalled ct).src = s.src := rfl

@[simp] theorem State.decryptCalled_dst (s : State) (ct : Bytes) :
    (s.decryptCalled ct).dst = s.dst := rfl

@[simp] theorem State.decryptCalled_mxlen (s : State) (ct : Bytes) :
    (s.decryptCalled ct).mxlen = s.mxlen := rfl

@[simp] theorem State.decryptCalled_xf (s : State) (ct : Bytes) :
    (s.decryptCalled ct).xf = s.xf := rfl

@[simp] theorem State.decryptCalled_opc (s : State) (ct : Bytes) :
    (s.decryptCalled ct).opc = s.opc := rfl

@[simp] theorem State.decryptCalled_xid (s : State) (ct : Bytes) :
    (s.decryptCalled ct).xid = s.xid := rfl

@[simp] theorem State.decryptCalled_pid (s : State) (ct : Bytes) :
    (s.decryptCalled ct).pid = s.pid := rfl

@[simp] theorem State.decryptCalled_vid (s : State) (ct : Bytes) :
    (s.decryptCalled ct).vid = s.vid := rfl

@[simp] theorem State.decryptCalled_ack (s : State) (ct : Bytes) :
    (s.decryptCalled ct).ack = s.ack := rfl

@[simp] theorem State.decryptCalled_sxlen (s : State) (ct : Bytes) :
    (s.decryptCalled ct).sxlen = s.sxlen := rfl

@[simp] theorem State.decryptCalled_paylen (s : State) (ct : Bytes) :
    (s.decryptCalled ct).paylen = s.paylen := rfl

@[simp] theorem State.decryptCalled_miclen (s : State) (ct : Bytes) :
    (s.decryptCalled ct).miclen = s.miclen := rfl

@[simp] theorem State.decryptCalled_ilen (s : State) (ct : Bytes) :
    (s.decryptCalled ct).ilen = s.ilen := rfl

@[simp] theorem State.decryptCalled_olen (s : State) (ct : Bytes) :
    (s.decryptCalled ct).olen = s.olen := rfl

@[simp] theorem State.decryptCalled_ibuf (s : State) (ct : Bytes) :
    (s.decryptCalled ct).ibuf = s.ibuf := rfl

@[simp] theorem State.decryptCalled_obuf (s : State) (ct : Bytes) :
    (s.decryptCalled ct).obuf = s.obuf := rfl

@[simp] theorem State.decryptCalled_mxb (s : State) (ct : Bytes) :
    (s.decryptCalled ct).mxb = s.mxb := rfl

@[simp] theorem State.decryptCalled_sxb (s : State) (ct : Bytes) :
    (s.decryptCalled ct).sxb = s.sxb := rfl

@[simp] theorem State.decryptCalled_pay (s : State) (ct : Bytes) :
    (s.decryptCalled ct).pay = s.pay := rfl

@[simp] theorem State.decryptCalled_mic (s : State) (ct : Bytes) :
    (s.decryptCalled ct).mic = s.mic := rfl

@[simp] theorem State.decryptCalled_epoch (s : State) (ct : Bytes) :
    (s.decryptCalled ct).epoch = s.epoch := rfl

@[simp] theorem State.decryptCalled_events (s : State) (ct : Bytes) :
    (s.decryptCalled ct).events = s.events := rfl

@[simp] theorem State.decryptCalled_encryptAnswers (s : State) (ct : Bytes) :
    (s.decryptCalled ct).encryptAnswers = s.encryptAnswers := rfl

@[simp] theorem State.decryptCalled_verifyAnswers (s : State) (ct : Bytes) :
    (s.decryptCalled ct).verifyAnswers = s.verifyAnswers := rfl

@[simp] theorem State.verifyCalled_status (s : State) (hdr ct mic : Bytes) :
    (s.verifyCalled hdr ct mic).status = s.status := by
  unfold State.verifyCalled
  split <;> rfl

@[simp] theorem State.verifyCalled_res (s : State) (hdr ct mic : Bytes) :
    (s.verifyCalled hdr ct mic).res = s.res := by
  unfold State.verifyCalled
  split <;> rfl

@[simp] theorem State.verifyCalled_pos (s : State) (hdr ct mic : Bytes) :
    (s.verifyCalled hdr ct mic).pos = s.pos := by
  unfold State.verifyCalled
  split <;> rfl

@[simp] theorem State.verifyCalled_ctrl (s : State) (hdr ct mic : Bytes) :
    (s.verifyCalled hdr ct mic).ctrl = s.ctrl := by
  unfold State.verifyCalled
  split <;> rfl

@[simp] theorem State.verifyCalled_vermask (s : State) (hdr ct mic : Bytes) :
    (s.verifyCalled hdr ct mic).vermask = s.vermask := by
  unfold State.verifyCalled
  split <;> rfl

@[simp] theorem State.verifyCalled_micsz (s : State) (hdr ct mic : Bytes) :
    (s.verifyCalled hdr ct mic).micsz = s.micsz := by
  unfold State.verifyCalled
  split <;> rfl

@[simp] theorem State.verifyCalled_ctx (s : State) (hdr ct mic : Bytes) :
    (s.verifyCalled hdr ct mic).ctx = s.ctx := by
  unfold State.verifyCalled
  split <;> rfl

@[simp] theorem State.verifyCalled_tag (s : State) (hdr ct mic : Bytes) :
    (s.verifyCalled hdr ct mic).tag = s.tag := by
  unfold State.verifyCalled
  split <;> rfl

@[simp] theorem State.verifyCalled_len (s : State) (hdr ct mic : Bytes) :
    (s.verifyCalled hdr ct mic).len = s.len := by
  unfold State.verifyCalled
  split <;> rfl

@[simp] theorem State.verifyCalled_mf (s : State) (hdr ct mic : Bytes) :
    (s.verifyCalled hdr ct mic).mf = s.mf := by
  unfold State.verifyCalled
  split <;> rfl

@[simp] theorem State.verifyCalled_sid (s : State) (hdr ct mic : Bytes) :
    (s.verifyCalled hdr ct mic).sid = s.sid := by
  unfold State.verifyCalled
  split <;> rfl

@[simp] theorem State.verifyCalled_sf (s : State) (hdr ct mic : Bytes) :
    (s.verifyCalled hdr ct mic).sf = s.sf := by
  unfold State.verifyCalled
  split <;> rfl

@[simp] theorem State.verifyCalled_ctr (s : State) (hdr ct mic : Bytes) :
    (s.verifyCalled hdr ct mic).ctr = s.ctr := by
  unfold State.verifyCalled
  split <;> rfl

@[simp] theorem State.verifyCalled_src (s : State) (hdr ct mic : Bytes) :
    (s.verifyCalled hdr ct mic).src = s.src := by
  unfold State.verifyCalled
  split <;> rfl

@[simp] theorem State.verifyCalled_dst (s : State) (hdr ct mic : Bytes) :
    (s.verifyCalled hdr ct mic).dst = s.dst := by
  unfold State.verifyCalled
  split <;> rfl

@[simp] theorem State.verifyCalled_mxlen (s : State) (hdr ct mic : Bytes) :
    (s.verifyCalled hdr ct mic).mxlen = s.mxlen := by
  unfold State.verifyCalled
  split <;> rfl

@[simp] theorem State.verifyCalled_xf (s : State) (hdr ct mic : Bytes) :
    (s.verifyCalled hdr ct mic).xf = s.xf := by
  unfold State.verifyCalled
  split <;> rfl

@[simp] theorem State.verifyCalled_opc (s : State) (hdr ct mic : Bytes) :
    (s.verifyCalled hdr ct mic).opc = s.opc := by
  unfold State.verifyCalled
  split <;> rfl

@[simp] theorem State.verifyCalled_xid (s : State) (hdr ct mic : Bytes) :
    (s.verifyCalled hdr ct mic).xid = s.xid := by
  unfold State.verifyCalled
  split <;> rfl

@[simp] theorem State.verifyCalled_pid (s : State) (hdr ct mic : Bytes) :
    (s.verifyCalled hdr ct mic).pid = s.pid := by
  unfold State.verifyCalled
  split <;> rfl

@[simp] theorem State.verifyCalled_vid (s : State) (hdr ct mic : Bytes) :
    (s.verifyCalled hdr ct mic).vid = s.vid := by
  unfold State.verifyCalled
  split <;> rfl

@[simp] theorem State.verifyCalled_ack (s : State) (hdr ct mic : Bytes) :
    (s.verifyCalled hdr ct mic).ack = s.ack := by
  unfold State.verifyCalled
  split <;> rfl

@[simp] theorem State.verifyCalled_sxlen (s : State) (hdr ct mic : Bytes) :
    (s.verifyCalled hdr ct mic).sxlen = s.sxlen := by
  unfold State.verifyCalled
  split <;> rfl

@[simp] theorem State.verifyCalled_paylen (s : State) (hdr ct mic : Bytes) :
    (s.verifyCalled hdr ct mic).paylen = s.paylen := by
  unfold State.verifyCalled
  split <;> rfl

@[simp] theorem State.verifyCalled_miclen (s : State) (hdr ct mic : Bytes) :
    (s.verifyCalled hdr ct mic).miclen = s.miclen := by
  unfold State.verifyCalled
  split <;> rfl

@[simp] theorem State.verifyCalled_ilen (s : State) (hdr ct mic : Bytes) :
    (s.verifyCalled hdr ct mic).ilen = s.ilen := by
  unfold State.verifyCalled
  split <;> rfl

@[simp] theorem State.verifyCalled_olen (s : State) (hdr ct mic : Bytes) :
    (s.verifyCalled hdr ct mic).olen = s.olen := by
  unfold State.verifyCalled
  split <;> rfl

@[simp] theorem State.verifyCalled_ibuf (s : State) (hdr ct mic : Bytes) :
    (s.verifyCalled hdr ct mic).ibuf = s.ibuf := by
  unfold State.verifyCalled
  split <;> rfl

@[simp] theorem State.verifyCalled_obuf (s : State) (hdr ct mic : Bytes) :
    (s.verifyCalled hdr ct mic).obuf = s.obuf := by
  unfold State.verifyCalled
  split <;> rfl

@[simp] theorem State.verifyCalled_mxb (s : State) (hdr ct mic : Bytes) :
    (s.verifyCalled hdr ct mic).mxb = s.mxb := by
  unfold State.verifyCalled
  split <;> rfl

@[simp] theorem State.verifyCalled_sxb (s : State) (hdr ct mic : Bytes) :
    (s.verifyCalled hdr ct mic).sxb = s.sxb := by
  unfold State.verifyCalled
  split <;> rfl

@[simp] theorem State.verifyCalled_pay (s : State) (hdr ct mic : Bytes) :
    (s.verifyCalled hdr ct mic).pay = s.pay := by
  unfold State.verifyCalled
  split <;> rfl

@[simp] theorem State.verifyCalled_mic (s : State) (hdr ct mic : Bytes) :
    (s.verifyCalled hdr ct mic).mic = s.mic := by
  unfold State.verifyCalled
  split <;> rfl

@[simp] theorem State.verifyCalled_epoch (s : State) (hdr ct mic : Bytes) :
    (s.verifyCalled hdr ct mic).epoch = s.epoch := by
  unfold State.verifyCalled
  split <;> rfl

@[simp] theorem State.verifyCalled_events (s : State) (hdr ct mic : Bytes) :
    (s.verifyCalled hdr ct mic).events = s.events := by
  unfold State.verifyCalled
  split <;> rfl

@[simp] theorem State.verifyCalled_encryptAnswers (s : State) (hdr ct mic : Bytes) :
    (s.verifyCalled hdr ct mic).encryptAnswers = s.encryptAnswers := by
  unfold State.verifyCalled
  split <;> rfl

@[simp] theorem State.verifyCalled_decryptAnswers (s : State) (hdr ct mic : Bytes) :
    (s.verifyCalled hdr ct mic).decryptAnswers = s.decryptAnswers := by
  unfold State.verifyCalled
  split <;> rfl

end Sys2Proof.Machine
end

