-- ==== Sys2Proof/Laws/Cursor.lean ====
section
/-! SUPPORT. What the byte cursor of a decode does at one field, said once: it reads the field and moves
past it, or reports where the field would start. Each lemma speaks of the bytes from the cursor on. -/

namespace Sys2Proof.Machine

/-- Everything `takeBytes` can do (20_memory R45, 42_header_codec R148). -/
theorem takeBytes_cases (s : Bytes) (pos n : Nat) :
    (s.length < pos + n ∧ takeBytes s pos n = .error ⟨.truncatedInput, pos⟩) ∨
    (pos + n ≤ s.length ∧ takeBytes s pos n = .ok ((s.drop pos).take n, pos + n)) := by
  unfold takeBytes
  split
  · exact .inl ⟨‹_›, rfl⟩
  · exact .inr ⟨by omega, rfl⟩

/-- The bytes at the cursor are read and the cursor stands at what follows them. -/
theorem takeBytes_of_drop {s x rest : Bytes} {pos : Nat} (h : s.drop pos = x ++ rest)
    (hp : pos ≤ s.length) :
    takeBytes s pos x.length = .ok (x, pos + x.length) ∧ s.drop (pos + x.length) = rest ∧
      pos + x.length ≤ s.length := by
  have hlen : s.length - pos = x.length + rest.length := by
    rw [← List.length_drop, h, List.length_append]
  have hle : pos + x.length ≤ s.length := by omega
  refine ⟨?_, ?_, hle⟩
  · unfold takeBytes
    rw [if_neg (by omega), h, List.take_left' rfl]
  · rw [← List.drop_drop, h, List.drop_left' rfl]

/-- Fewer bytes than the field needs: TruncatedInput at the cursor. -/
theorem takeBytes_of_short {s : Bytes} {pos n : Nat} (h : s.length < pos + n) :
    takeBytes s pos n = .error ⟨.truncatedInput, pos⟩ := by
  unfold takeBytes
  rw [if_pos h]

theorem takeBytes_ok {s x : Bytes} {pos n p : Nat} (h : takeBytes s pos n = .ok (x, p)) :
    x.length = n ∧ p = pos + n ∧ s.drop pos = x ++ s.drop p ∧ p ≤ s.length := by
  rcases takeBytes_cases s pos n with ⟨_, h'⟩ | ⟨hle, h'⟩
  · rw [h'] at h; cases h
  · rw [h'] at h
    simp only [Except.ok.injEq, Prod.mk.injEq] at h
    obtain ⟨rfl, rfl⟩ := h
    refine ⟨by rw [List.length_take, List.length_drop]; omega, rfl, ?_, hle⟩
    rw [← List.drop_drop, List.take_append_drop]

theorem takeBytes_error {s : Bytes} {pos n : Nat} {e : CodecError}
    (h : takeBytes s pos n = .error e) :
    e = ⟨.truncatedInput, pos⟩ ∧ s.length < pos + n := by
  rcases takeBytes_cases s pos n with ⟨hlt, h'⟩ | ⟨_, h'⟩
  · rw [h'] at h; cases h; exact ⟨rfl, hlt⟩
  · rw [h'] at h; cases h

theorem takeField_eq (w : Nat) (s : Bytes) (pos n : Nat) :
    takeField w s pos n =
      match takeBytes s pos n with
      | .ok (x, p) => .ok (BitVec.ofNat w (unle x), p)
      | .error e => .error e := by
  unfold takeField
  cases takeBytes s pos n <;> rfl

/-- A packed field at the cursor is read back. -/
theorem takeField_of_drop {w n : Nat} {s rest : Bytes} {pos : Nat} (v : BitVec w)
    (hw : w = 8 * n) (h : s.drop pos = le n v ++ rest) (hp : pos ≤ s.length) :
    takeField w s pos n = .ok (v, pos + n) ∧ s.drop (pos + n) = rest ∧ pos + n ≤ s.length := by
  obtain ⟨h₁, h₂, h₃⟩ := takeBytes_of_drop h hp
  rw [le_length] at h₁ h₂ h₃
  refine ⟨?_, h₂, h₃⟩
  rw [takeField_eq, h₁]
  simp [unle_le hw]

theorem takeField_of_short {w : Nat} {s : Bytes} {pos n : Nat} (h : s.length < pos + n) :
    takeField w s pos n = .error ⟨.truncatedInput, pos⟩ := by
  rw [takeField_eq, takeBytes_of_short h]

/-- A field that was read stands packed at the cursor. -/
theorem takeField_ok {w n : Nat} {s : Bytes} {pos p : Nat} {v : BitVec w} (hw : w = 8 * n)
    (h : takeField w s pos n = .ok (v, p)) :
    p = pos + n ∧ s.drop pos = le n v ++ s.drop p ∧ p ≤ s.length := by
  rw [takeField_eq] at h
  split at h
  · rename_i x p' hx
    obtain ⟨hl, rfl, hd, hle⟩ := takeBytes_ok hx
    simp only [Except.ok.injEq, Prod.mk.injEq] at h
    obtain ⟨rfl, rfl⟩ := h
    refine ⟨rfl, ?_, hle⟩
    have hlt := unle_lt x
    rw [hl, show (256 : Nat) = 2 ^ 8 by rfl, ← pow_mul] at hlt
    rw [le, BitVec.toNat_ofNat, hw, Nat.mod_eq_of_lt hlt]
    conv_rhs => rw [← hl, leBytes_unle]
    rwa [hl]
  · cases h

/-- A field that is narrower on the wire than its register is zero-extended (42_header_codec R146). -/
theorem takeField_narrow_of_drop {w n k : Nat} {s rest : Bytes} {pos : Nat} (v : BitVec k)
    (hk : k = 8 * n) (h : s.drop pos = le n v ++ rest) (hp : pos ≤ s.length) :
    takeField w s pos n = .ok (v.setWidth w, pos + n) ∧ s.drop (pos + n) = rest ∧
      pos + n ≤ s.length := by
  obtain ⟨h₁, h₂, h₃⟩ := takeBytes_of_drop h hp
  rw [le_length] at h₁ h₂ h₃
  refine ⟨?_, h₂, h₃⟩
  rw [takeField_eq, h₁]
  simp only [unle_le hk, Except.ok.injEq, Prod.mk.injEq, and_true]
  apply BitVec.eq_of_toNat_eq
  simp

theorem takeField_error {w : Nat} {s : Bytes} {pos n : Nat} {e : CodecError}
    (h : takeField w s pos n = .error e) :
    e = ⟨.truncatedInput, pos⟩ ∧ s.length < pos + n := by
  rw [takeField_eq] at h
  split at h
  · cases h
  · rename_i e' he
    cases h
    exact takeBytes_error he

theorem takeBlock_eq (s : Bytes) (pos : Nat) :
    takeBlock true s pos =
      match takeField 16 s pos 2 with
      | .ok (n, p) => takeBytes s p n.toNat
      | .error e => .error e := by
  unfold takeBlock
  rw [if_pos rfl]
  cases takeField 16 s pos 2 <;> rfl

/-- A length-prefixed block at the cursor is read back (30_encoding R70). -/
theorem takeBlock_of_drop {s x rest : Bytes} {pos : Nat} (hx : x.length < 65536)
    (h : s.drop pos = Wire.block x ++ rest) (hp : pos ≤ s.length) :
    takeBlock true s pos = .ok (x, pos + (Wire.block x).length) ∧
      s.drop (pos + (Wire.block x).length) = rest ∧ pos + (Wire.block x).length ≤ s.length := by
  have hb : Wire.block x = le 2 (BitVec.ofNat 16 x.length) ++ x := by rw [le2_eq]; rfl
  have hn : (BitVec.ofNat 16 x.length).toNat = x.length := by
    rw [BitVec.toNat_ofNat]; exact Nat.mod_eq_of_lt hx
  rw [hb, List.append_assoc] at h
  obtain ⟨h₁, h₂, h₃⟩ := takeField_of_drop (w := 16) _ rfl h hp
  obtain ⟨h₄, h₅, h₆⟩ := takeBytes_of_drop h₂ h₃
  rw [hb, List.length_append, le_length, ← Nat.add_assoc]
  refine ⟨?_, h₅, h₆⟩
  rw [takeBlock_eq, h₁]
  simp only [hn]
  exact h₄

/-- A block that was read stands at the cursor behind its length. -/
theorem takeBlock_ok {s x : Bytes} {pos p : Nat} (h : takeBlock true s pos = .ok (x, p)) :
    p = pos + (Wire.block x).length ∧ s.drop pos = Wire.block x ++ s.drop p ∧ p ≤ s.length ∧
      x.length < 65536 := by
  rw [takeBlock_eq] at h
  split at h
  · rename_i n q hn
    obtain ⟨rfl, hd, hq⟩ := takeField_ok (w := 16) rfl hn
    obtain ⟨hl, rfl, hd', hle⟩ := takeBytes_ok h
    have hx : BitVec.ofNat 16 x.length = n := by
      rw [hl]; exact BitVec.ofNat_toNat 16 n |>.trans (by simp)
    have hb : Wire.block x = le 2 n ++ x := by rw [← hx, le2_eq]; rfl
    refine ⟨by rw [hb, List.length_append, le_length, hl]; omega, ?_, hle, ?_⟩
    · rw [hd, hd', hb, List.append_assoc]
    · rw [hl]; exact n.isLt
  · cases h

theorem takeBlock_error {s : Bytes} {pos : Nat} {e : CodecError}
    (h : takeBlock true s pos = .error e) :
    (e = ⟨.truncatedInput, pos⟩ ∧ s.length < pos + 2) ∨
    (e = ⟨.truncatedInput, pos + 2⟩ ∧ pos + 2 ≤ s.length) := by
  rw [takeBlock_eq] at h
  split at h
  · rename_i n q hn
    obtain ⟨rfl, hd, hq⟩ := takeField_ok (w := 16) rfl hn
    exact .inr ⟨(takeBytes_error h).1, hq⟩
  · rename_i e' he
    cases h
    exact .inl (takeField_error he)

/-! ### Fields that exist when a flag bit says so -/

theorem takeOptional_true (w : Nat) (s : Bytes) (pos n : Nat) :
    takeOptional true w s pos n = takeField w s pos n := rfl

theorem takeOptional_false (w : Nat) (s : Bytes) (pos n : Nat) :
    takeOptional false w s pos n = .ok (0#w, pos) := rfl

theorem takeBlock_false (s : Bytes) (pos : Nat) : takeBlock false s pos = .ok ([], pos) := rfl

/-- An optional field: packed bytes when present, none when absent (30_encoding R74). -/
theorem takeOptional_of_drop {w n : Nat} {s rest : Bytes} {pos : Nat} (present : Bool) (v : BitVec w)
    (hw : w = 8 * n) (h : s.drop pos = (if present then le n v else []) ++ rest)
    (hp : pos ≤ s.length) :
    takeOptional present w s pos n =
        .ok (if present then v else 0#w, pos + (if present then n else 0)) ∧
      s.drop (pos + (if present then n else 0)) = rest ∧
      pos + (if present then n else 0) ≤ s.length := by
  cases present
  · exact ⟨rfl, h, hp⟩
  · exact takeField_of_drop v hw h hp

theorem takeOptional_ok {w n : Nat} {s : Bytes} {pos p : Nat} {present : Bool} {v : BitVec w}
    (hw : w = 8 * n) (h : takeOptional present w s pos n = .ok (v, p)) (hp : pos ≤ s.length) :
    p = pos + (if present then n else 0) ∧ v = (if present then v else 0#w) ∧
      s.drop pos = (if present then le n v else []) ++ s.drop p ∧ p ≤ s.length := by
  cases present
  · rw [takeOptional_false] at h
    cases h
    exact ⟨rfl, rfl, rfl, hp⟩
  · obtain ⟨h₁, h₂, h₃⟩ := takeField_ok hw h
    exact ⟨h₁, rfl, h₂, h₃⟩

theorem takeOptional_error {w n : Nat} {s : Bytes} {pos : Nat} {present : Bool} {e : CodecError}
    (h : takeOptional present w s pos n = .error e) :
    present = true ∧ e = ⟨.truncatedInput, pos⟩ ∧ s.length < pos + n := by
  cases present
  · cases h
  · exact ⟨rfl, takeField_error h⟩

/-- An optional length-prefixed block. -/
theorem takeBlock_of_drop' {s x rest : Bytes} {pos : Nat} (present : Bool)
    (hx : present = true → x.length < 65536)
    (h : s.drop pos = (if present then Wire.block x else []) ++ rest) (hp : pos ≤ s.length) :
    takeBlock present s pos =
        .ok (if present then x else [], pos + (if present then Wire.block x else []).length) ∧
      s.drop (pos + (if present then Wire.block x else []).length) = rest ∧
      pos + (if present then Wire.block x else []).length ≤ s.length := by
  cases present
  · exact ⟨rfl, h, hp⟩
  · exact takeBlock_of_drop (hx rfl) h hp

theorem takeBlock_ok' {s x : Bytes} {pos p : Nat} {present : Bool}
    (h : takeBlock present s pos = .ok (x, p)) (hp : pos ≤ s.length) :
    p = pos + (if present then Wire.block x else []).length ∧
      x = (if present then x else []) ∧
      s.drop pos = (if present then Wire.block x else []) ++ s.drop p ∧ p ≤ s.length ∧
      x.length < 65536 := by
  cases present
  · rw [takeBlock_false] at h
    cases h
    exact ⟨rfl, rfl, rfl, hp, by simp⟩
  · obtain ⟨h₁, h₂, h₃, h₄⟩ := takeBlock_ok h
    exact ⟨h₁, rfl, h₂, h₃, h₄⟩

end Sys2Proof.Machine
end

