-- ==== Sys2Proof/Laws/Header.lean ====
section
/-! SUPPORT. The Message Header codec, one lemma per operation: the bytes it emits are the wire layout, the
check is the five conditions, a parse reads back what the layout wrote and nothing else, and the commit
writes the header registers. -/

namespace Sys2Proof.Machine

/-! ### Encode -/

theorem dsiz_cases (mf : Byte) :
    (mf.extractLsb' 0 2 = 1#2 ∧ mfDsiz mf = .nodeID) ∨
    (mf.extractLsb' 0 2 = 2#2 ∧ mfDsiz mf = .groupID) ∨
    (mf.extractLsb' 0 2 ≠ 1#2 ∧ mf.extractLsb' 0 2 ≠ 2#2 ∧
      (mfDsiz mf = .notPresent ∨ mfDsiz mf = .reserved)) := by
  revert mf; decide +kernel

theorem dstBytes_eq (mf : Byte) (dst : BitVec 64) :
    dstBytes (mfDsiz mf) dst = Wire.destination mf dst := by
  have hset : dst.setWidth 16 = dst.extractLsb' 0 16 := by
    apply BitVec.eq_of_toNat_eq; simp
  rcases dsiz_cases mf with ⟨h, hd⟩ | ⟨h, hd⟩ | ⟨h₁, h₂, hd⟩
  · simp [dstBytes, Wire.destination, h, hd, le8_eq]
  · simp [dstBytes, Wire.destination, h, hd, le2_eq, hset]
  · rcases hd with hd | hd <;> simp [dstBytes, Wire.destination, h₁, h₂, hd]

/-- `hdr_bytes` is the wire layout of the header registers (42_header_codec R142, 30_encoding R61). -/
theorem hdrBytes_eq (s : State) : hdrBytes s = Wire.header s.stream s.headerFields := by
  have hb : le 2 s.mxlen ++ s.memRead .mxb 0 s.mxlen.toNat =
      Wire.block (s.memRead .mxb 0 s.mxlen.toNat) := by
    simp [Wire.block, le2_eq]
  unfold hdrBytes Wire.header
  rw [hb, dstBytes_eq]
  simp only [le2_eq, le4_eq, le8_eq, State.headerFields, mfS, sfMx]
  rfl

/-- `hdr_check` is the five conditions (42_header_codec R143). -/
theorem hdrCheck_iff (s : State) : hdrCheck s = true ↔ s.HeaderConsistent := by
  unfold hdrCheck State.HeaderConsistent
  rw [wantDstT_mfDsiz]
  simp only [Bool.and_eq_true, Bool.or_eq_true, beq_iff_eq, Bool.not_eq_true', decide_eq_true_eq,
    tagLenV, tagSrcV, tagDstT, tagMxV, mfS, sfMx, State.stream, and_assoc]
  refine and_congr_right fun _ => and_congr_right fun _ => and_congr_right fun _ =>
    and_congr_right fun _ => ?_
  cases s.tag.getLsbD 4 <;> simp

theorem destination_length (mf : Byte) (dst : BitVec 64) :
    (Wire.destination mf dst).length =
      if mf.extractLsb' 0 2 = 1#2 then 8 else if mf.extractLsb' 0 2 = 2#2 then 2 else 0 := by
  unfold Wire.destination
  split
  · rfl
  · split <;> rfl

theorem block_length (x : Bytes) : (Wire.block x).length = 2 + x.length := by
  simp only [Wire.block, Wire.u16, List.length_append, List.length_cons, List.length_nil]

/-- The length of a header (30_encoding R72). -/
theorem header_length (stream : Bool) (f : Wire.HeaderFields) :
    (Wire.header stream f).length =
      (if stream then 2 else 0) + 8 + (if f.mf.getLsbD 2 then 8 else 0)
        + (if f.mf.extractLsb' 0 2 = 1#2 then 8 else if f.mf.extractLsb' 0 2 = 2#2 then 2 else 0)
        + (if f.sf.getLsbD 5 then 2 + f.mx.length else 0) := by
  unfold Wire.header
  simp only [List.length_append, destination_length]
  have h₁ : (if stream then Wire.u16 f.len else []).length = if stream then 2 else 0 := by
    cases stream <;> rfl
  have h₂ : (if f.mf.getLsbD 2 then Wire.u64 f.src else []).length =
      if f.mf.getLsbD 2 then 8 else 0 := by split <;> rfl
  have h₃ : (if f.sf.getLsbD 5 then Wire.block f.mx else []).length =
      if f.sf.getLsbD 5 then 2 + f.mx.length else 0 := by
    split
    · exact block_length f.mx
    · rfl
  rw [h₁, h₂, h₃]
  simp [Wire.u16, Wire.u32]

/-! ### Decode -/

/-- The value a parse builds from a header's fields. -/
def parsedHeader (stream : Bool) (f : Wire.HeaderFields) : Header where
  len := (f.decoded stream).len
  lenV := stream
  mf := f.mf
  sid := f.sid
  sf := f.sf
  ctr := f.ctr
  src := (f.decoded stream).src
  srcV := f.mf.getLsbD 2
  dst := (f.decoded stream).dst
  dstT := Wire.destinationTag f.mf
  mx := (f.decoded stream).mx
  mxV := f.sf.getLsbD 5

theorem versionAccepted_iff (s : State) (mf : Byte) :
    versionAccepted s.vermask mf = true ↔ s.AcceptsVersion mf := by
  rw [versionAccepted, mfVersion_eq]; rfl

theorem takeDst_of_drop {s rest : Bytes} {pos : Nat} (mf : Byte) (dst : BitVec 64)
    (h : s.drop pos = Wire.destination mf dst ++ rest) (hp : pos ≤ s.length) :
    takeDst (mfDsiz mf) s pos =
        .ok (if mf.extractLsb' 0 2 = 1#2 then dst
          else if mf.extractLsb' 0 2 = 2#2 then (dst.extractLsb' 0 16).setWidth 64 else 0#64,
          pos + (Wire.destination mf dst).length) ∧
      s.drop (pos + (Wire.destination mf dst).length) = rest ∧
      pos + (Wire.destination mf dst).length ≤ s.length := by
  rw [destination_length]
  rcases dsiz_cases mf with ⟨hm, hd⟩ | ⟨hm, hd⟩ | ⟨h₁, h₂, hd⟩
  · rw [Wire.destination, if_pos hm, ← le8_eq] at h
    simp only [hd, hm, if_true, takeDst]
    exact takeField_of_drop dst rfl h hp
  · rw [Wire.destination, if_neg (by rw [hm]; decide), if_pos hm, ← le2_eq] at h
    simp only [hd, hm, takeDst, show ¬ (2#2 = 1#2) by decide, if_true, if_false]
    exact takeField_narrow_of_drop (k := 16) _ rfl h hp
  · rw [Wire.destination, if_neg h₁, if_neg h₂] at h
    simp only [if_neg h₁, if_neg h₂]
    rcases hd with hd | hd <;> simp only [hd, takeDst] <;> exact ⟨rfl, h, hp⟩

theorem takeDst_ok {s : Bytes} {pos p : Nat} {mf : Byte} {dst : BitVec 64}
    (h : takeDst (mfDsiz mf) s pos = .ok (dst, p)) (hp : pos ≤ s.length) :
    p = pos + (Wire.destination mf dst).length ∧
      dst = (if mf.extractLsb' 0 2 = 1#2 then dst
          else if mf.extractLsb' 0 2 = 2#2 then (dst.extractLsb' 0 16).setWidth 64 else 0#64) ∧
      s.drop pos = Wire.destination mf dst ++ s.drop p ∧ p ≤ s.length := by
  rw [destination_length]
  rcases dsiz_cases mf with ⟨hm, hd⟩ | ⟨hm, hd⟩ | ⟨h₁, h₂, hd⟩
  · simp only [hd, takeDst] at h
    obtain ⟨hp', hdr, hle⟩ := takeField_ok rfl h
    rw [Wire.destination]
    simp only [if_pos hm, ← le8_eq]
    exact ⟨hp', trivial, hdr, hle⟩
  · simp only [hd, takeDst] at h
    rw [takeField_eq] at h
    split at h
    · rename_i x q hx
      obtain ⟨hl, rfl, hdr, hle⟩ := takeBytes_ok hx
      simp only [Except.ok.injEq, Prod.mk.injEq] at h
      obtain ⟨rfl, rfl⟩ := h
      have hlt := unle_lt x
      rw [hl] at hlt
      have hx16 : (BitVec.ofNat 64 (unle x)).extractLsb' 0 16 = BitVec.ofNat 16 (unle x) := by
        apply BitVec.eq_of_toNat_eq
        simp
      rw [Wire.destination]
      simp only [hm, show ¬ (2#2 = 1#2) by decide, if_true, if_false]
      refine ⟨trivial, ?_, ?_, hle⟩
      · rw [hx16]
        apply BitVec.eq_of_toNat_eq
        simp only [BitVec.toNat_ofNat, BitVec.toNat_setWidth]
        omega
      · rw [hx16, ← le2_eq, le, BitVec.toNat_ofNat, Nat.mod_eq_of_lt (by omega)]
        conv_rhs => rw [← hl, leBytes_unle, hl]
        exact hdr
    · cases h
  · rw [Wire.destination]
    simp only [if_neg h₁, if_neg h₂]
    rcases hd with hd | hd <;> simp only [hd, takeDst, Except.ok.injEq, Prod.mk.injEq] at h <;>
      obtain ⟨rfl, rfl⟩ := h <;> exact ⟨rfl, rfl, rfl, hp⟩

theorem takeDst_error {s : Bytes} {pos : Nat} {d : Dsiz} {e : CodecError}
    (h : takeDst d s pos = .error e) :
    e = ⟨.truncatedInput, pos⟩ ∧ ∃ n, s.length < pos + n := by
  cases d
  · cases h
  · exact ⟨(takeField_error h).1, 8, (takeField_error h).2⟩
  · exact ⟨(takeField_error h).1, 2, (takeField_error h).2⟩
  · cases h

/-- The parse of 42_header_codec R144 as nested matches, one for each field in wire order. -/
theorem hdrParse_eq (stream : Bool) (vermask : BitVec 16) (s : Bytes) :
    hdrParse stream vermask s =
      match takeOptional stream 16 s 0 2 with
      | .error e => .error e
      | .ok (len, q) =>
      match takeField 8 s q 1 with
      | .error e => .error e
      | .ok (mf, p) =>
      match checkVersion vermask mf q with
      | .error e => .error e
      | .ok () =>
      match takeField 16 s p 2 with
      | .error e => .error e
      | .ok (sid, p) =>
      match takeField 8 s p 1 with
      | .error e => .error e
      | .ok (sf, p) =>
      match takeField 32 s p 4 with
      | .error e => .error e
      | .ok (ctr, p) =>
      match takeOptional (mfS mf) 64 s p 8 with
      | .error e => .error e
      | .ok (src, p) =>
      match takeDst (mfDsiz mf) s p with
      | .error e => .error e
      | .ok (dst, p) =>
      match takeBlock (sfMx sf) s p with
      | .error e => .error e
      | .ok (mx, p) =>
        .ok ({ len := len, lenV := stream, mf := mf, sid := sid, sf := sf, ctr := ctr,
               src := src, srcV := mfS mf, dst := dst, dstT := wantDstT (mfDsiz mf),
               mx := mx, mxV := sfMx sf }, p) := by
  unfold hdrParse
  rcases takeOptional stream 16 s 0 2 with e | ⟨len, q⟩
  · rfl
  rcases h₁ : takeField 8 s q 1 with e | ⟨mf, p₁⟩
  · simp only [bind, Except.bind, h₁]
  rcases h₂ : checkVersion vermask mf q with e | ⟨⟩
  · simp only [bind, Except.bind, h₁, h₂]
  rcases h₃ : takeField 16 s p₁ 2 with e | ⟨sid, p₂⟩
  · simp only [bind, Except.bind, h₁, h₂, h₃]
  rcases h₄ : takeField 8 s p₂ 1 with e | ⟨sf, p₃⟩
  · simp only [bind, Except.bind, h₁, h₂, h₃, h₄]
  rcases h₅ : takeField 32 s p₃ 4 with e | ⟨ctr, p₄⟩
  · simp only [bind, Except.bind, h₁, h₂, h₃, h₄, h₅]
  rcases h₆ : takeOptional (mfS mf) 64 s p₄ 8 with e | ⟨src, p₅⟩
  · simp only [bind, Except.bind, h₁, h₂, h₃, h₄, h₅, h₆]
  rcases h₇ : takeDst (mfDsiz mf) s p₅ with e | ⟨dst, p₆⟩
  · simp only [bind, Except.bind, h₁, h₂, h₃, h₄, h₅, h₆, h₇]
  rcases h₈ : takeBlock (sfMx sf) s p₆ with e | ⟨mx, p₇⟩
  · simp only [bind, Except.bind, h₁, h₂, h₃, h₄, h₅, h₆, h₇, h₈]
  · simp only [bind, Except.bind, h₁, h₂, h₃, h₄, h₅, h₆, h₇, h₈]
    rfl

end Sys2Proof.Machine
end

