-- ==== Sys2Proof/Laws/HeaderParse.lean ====
section
/-! SUPPORT. What `hdr_parse` does on every input: it reads back a laid-out header, it accepts nothing else,
it reports the first field that does not fit, and it refuses a version at the Message Flags byte. -/

namespace Sys2Proof.Machine

theorem singleton_eq_le (b : Byte) : [b] = le 1 b := by
  simp [le, leBytes]

theorem checkVersion_ok {vermask : BitVec 16} {mf : Byte} {pos : Nat}
    (h : vermask.getLsbD (mf.extractLsb' 4 4).toNat = true) : checkVersion vermask mf pos = .ok () := by
  unfold checkVersion versionAccepted
  rw [mfVersion_eq, if_pos h]

theorem checkVersion_error {vermask : BitVec 16} {mf : Byte} {pos : Nat}
    (h : vermask.getLsbD (mf.extractLsb' 4 4).toNat = false) :
    checkVersion vermask mf pos = .error ⟨.unsupportedVersion, pos⟩ := by
  unfold checkVersion versionAccepted
  simp only [mfVersion_eq, h, Bool.false_eq_true, if_false]

/-- A laid-out header is read back whole, whatever follows it (42_header_codec R144 to R147). -/
theorem hdrParse_header {stream : Bool} {vermask : BitVec 16} {f : Wire.HeaderFields} {s rest : Bytes}
    (hs : s = Wire.header stream f ++ rest)
    (hv : vermask.getLsbD (f.mf.extractLsb' 4 4).toNat = true)
    (hx : f.sf.getLsbD 5 = true → f.mx.length < 65536) :
    hdrParse stream vermask s = .ok (parsedHeader stream f, (Wire.header stream f).length) := by
  have h₀ : s.drop 0 = (if stream then le 2 f.len else []) ++ (le 1 f.mf ++ (le 2 f.sid ++
      (le 1 f.sf ++ (le 4 f.ctr ++ ((if f.mf.getLsbD 2 then le 8 f.src else []) ++
      (Wire.destination f.mf f.dst ++ ((if f.sf.getLsbD 5 then Wire.block f.mx else [])
      ++ rest))))))) := by
    rw [List.drop_zero, hs]
    simp only [Wire.header, ← le2_eq, ← le4_eq, ← le8_eq, singleton_eq_le, List.append_assoc]
  obtain ⟨e₁, h₁, l₁⟩ := takeOptional_of_drop stream f.len rfl h₀ (Nat.zero_le _)
  obtain ⟨e₂, h₂, l₂⟩ := takeField_of_drop f.mf rfl h₁ l₁
  obtain ⟨e₃, h₃, l₃⟩ := takeField_of_drop f.sid rfl h₂ l₂
  obtain ⟨e₄, h₄, l₄⟩ := takeField_of_drop f.sf rfl h₃ l₃
  obtain ⟨e₅, h₅, l₅⟩ := takeField_of_drop f.ctr rfl h₄ l₄
  obtain ⟨e₆, h₆, l₆⟩ := takeOptional_of_drop (f.mf.getLsbD 2) f.src rfl h₅ l₅
  obtain ⟨e₇, h₇, l₇⟩ := takeDst_of_drop f.mf f.dst h₆ l₆
  obtain ⟨e₈, h₈, l₈⟩ := takeBlock_of_drop' (f.sf.getLsbD 5) hx h₇ l₇
  rw [hdrParse_eq, e₁]
  simp only [e₂, checkVersion_ok hv, e₃, e₄, e₅, mfS, sfMx, e₆, e₇, e₈, Except.ok.injEq,
    Prod.mk.injEq]
  refine ⟨?_, ?_⟩
  · simp only [parsedHeader, Wire.HeaderFields.decoded, wantDstT_mfDsiz]
  · rw [header_length, destination_length]
    have : (if f.sf.getLsbD 5 then Wire.block f.mx else []).length =
        if f.sf.getLsbD 5 then 2 + f.mx.length else 0 := by
      split
      · exact block_length f.mx
      · rfl
    rw [this]
    omega

/-- What a parse accepts is a laid-out header of an accepted version, and its value is that header's
(42_header_codec R144 to R147). -/
theorem hdrParse_ok {stream : Bool} {vermask : BitVec 16} {s : Bytes} {h : Header} {p : Nat}
    (hp : hdrParse stream vermask s = .ok (h, p)) :
    ∃ f, s = Wire.header stream f ++ s.drop p ∧ p = (Wire.header stream f).length ∧
      p ≤ s.length ∧ vermask.getLsbD (f.mf.extractLsb' 4 4).toNat = true ∧
      f.mx.length < 65536 ∧ h = parsedHeader stream f ∧
      f.len = (f.decoded stream).len ∧ f.src = (f.decoded stream).src ∧
      f.dst = (f.decoded stream).dst ∧ f.mx = (f.decoded stream).mx := by
  rw [hdrParse_eq] at hp
  rcases e₁ : takeOptional stream 16 s 0 2 with e | ⟨len, q⟩
  · simp [e₁] at hp
  rcases e₂ : takeField 8 s q 1 with e | ⟨mf, p₁⟩
  · simp [e₁, e₂] at hp
  rcases ev : checkVersion vermask mf q with e | ⟨⟩
  · simp [e₁, e₂, ev] at hp
  rcases e₃ : takeField 16 s p₁ 2 with e | ⟨sid, p₂⟩
  · simp [e₁, e₂, ev, e₃] at hp
  rcases e₄ : takeField 8 s p₂ 1 with e | ⟨sf, p₃⟩
  · simp [e₁, e₂, ev, e₃, e₄] at hp
  rcases e₅ : takeField 32 s p₃ 4 with e | ⟨ctr, p₄⟩
  · simp [e₁, e₂, ev, e₃, e₄, e₅] at hp
  rcases e₆ : takeOptional (mfS mf) 64 s p₄ 8 with e | ⟨src, p₅⟩
  · simp [e₁, e₂, ev, e₃, e₄, e₅, e₆] at hp
  rcases e₇ : takeDst (mfDsiz mf) s p₅ with e | ⟨dst, p₆⟩
  · simp [e₁, e₂, ev, e₃, e₄, e₅, e₆, e₇] at hp
  rcases e₈ : takeBlock (sfMx sf) s p₆ with e | ⟨mx, p₇⟩
  · simp [e₁, e₂, ev, e₃, e₄, e₅, e₆, e₇, e₈] at hp
  simp only [e₁, e₂, ev, e₃, e₄, e₅, e₆, e₇, e₈, Except.ok.injEq, Prod.mk.injEq] at hp
  obtain ⟨rfl, rfl⟩ := hp
  obtain ⟨q₁, v₁, d₁, l₁⟩ := takeOptional_ok rfl e₁ (Nat.zero_le _)
  obtain ⟨q₂, d₂, l₂⟩ := takeField_ok rfl e₂
  obtain ⟨q₃, d₃, l₃⟩ := takeField_ok rfl e₃
  obtain ⟨q₄, d₄, l₄⟩ := takeField_ok rfl e₄
  obtain ⟨q₅, d₅, l₅⟩ := takeField_ok rfl e₅
  obtain ⟨q₆, v₆, d₆, l₆⟩ := takeOptional_ok rfl e₆ l₅
  obtain ⟨q₇, v₇, d₇, l₇⟩ := takeDst_ok e₇ l₆
  obtain ⟨q₈, v₈, d₈, l₈, b₈⟩ := takeBlock_ok' e₈ l₇
  have hs : s = Wire.header stream ⟨len, mf, sid, sf, ctr, src, dst, mx⟩ ++ s.drop p₇ := by
    conv_lhs => rw [← List.drop_zero (l := s), d₁, d₂, d₃, d₄, d₅, d₆, d₇, d₈]
    simp only [Wire.header, ← le2_eq, ← le4_eq, ← le8_eq, singleton_eq_le, List.append_assoc, mfS,
      sfMx]
    rfl
  have hl : p₇ = (Wire.header stream ⟨len, mf, sid, sf, ctr, src, dst, mx⟩).length := by
    have := congrArg List.length hs
    rw [List.length_append, List.length_drop] at this
    omega
  refine ⟨⟨len, mf, sid, sf, ctr, src, dst, mx⟩, hs, hl, l₈, ?_, b₈, ?_, v₁, v₆, v₇, v₈⟩
  · by_contra hv
    rw [checkVersion_error (by simpa using hv)] at ev
    cases ev
  · unfold parsedHeader Wire.HeaderFields.decoded
    rw [wantDstT_mfDsiz]
    exact (Header.mk.injEq ..).mpr ⟨v₁, rfl, rfl, rfl, rfl, rfl, v₆, rfl, v₇, rfl, v₈, rfl⟩

/-- The version test stands directly behind the Message Flags byte: nothing after it matters
(42_header_codec R145). -/
theorem hdrParse_version {stream : Bool} {vermask : BitVec 16} {len : BitVec 16} {mf : Byte}
    {s rest : Bytes} (hs : s = (if stream then Wire.u16 len else []) ++ [mf] ++ rest)
    (hv : vermask.getLsbD (mf.extractLsb' 4 4).toNat = false) :
    hdrParse stream vermask s = .error ⟨.unsupportedVersion, if stream then 2 else 0⟩ := by
  have h₀ : s.drop 0 = (if stream then le 2 len else []) ++ (le 1 mf ++ rest) := by
    rw [List.drop_zero, hs]
    simp only [← le2_eq, singleton_eq_le, List.append_assoc]
  obtain ⟨e₁, h₁, l₁⟩ := takeOptional_of_drop stream len rfl h₀ (Nat.zero_le _)
  obtain ⟨e₂, h₂, l₂⟩ := takeField_of_drop mf rfl h₁ l₁
  rw [Nat.zero_add] at e₁ e₂
  rw [hdrParse_eq, e₁]
  simp only [e₂, checkVersion_error hv]

/-! ### Inputs that end inside a field -/

/-- In an input cut short, a field that fits stands whole at the cursor. -/
theorem cut_fits {s x y : Bytes} {pos : Nat} (h : s.drop pos = (x ++ y).take (s.length - pos))
    (hfit : pos + x.length ≤ s.length) :
    s.drop pos = x ++ y.take (s.length - (pos + x.length)) := by
  rw [h, List.take_append, List.take_of_length_le (by omega), Nat.sub_sub]

/-- An input that ends inside a laid-out header of an accepted version is TruncatedInput at the first
field that does not fit (42_header_codec R148). -/
theorem hdrParse_cut {stream : Bool} {vermask : BitVec 16} {f : Wire.HeaderFields} {s : Bytes}
    (hs : s = (Wire.header stream f).take s.length)
    (hlt : s.length < (Wire.header stream f).length)
    (hv : vermask.getLsbD (f.mf.extractLsb' 4 4).toNat = true)
    (hx : f.sf.getLsbD 5 = true → f.mx.length < 65536) :
    hdrParse stream vermask s =
      .error ⟨.truncatedInput, Wire.missingFieldAt s.length 0 (Wire.headerWidths stream f)⟩ := by
  have c₀ : s.drop 0 = ((if stream then le 2 f.len else []) ++ (le 1 f.mf ++ (le 2 f.sid ++
      (le 1 f.sf ++ (le 4 f.ctr ++ ((if f.mf.getLsbD 2 then le 8 f.src else []) ++
      (Wire.destination f.mf f.dst ++ (if f.sf.getLsbD 5 then Wire.block f.mx else [])))))))).take
      (s.length - 0) := by
    rw [List.drop_zero]
    conv_lhs => rw [hs]
    simp only [Wire.header, ← le2_eq, ← le4_eq, ← le8_eq, singleton_eq_le, List.append_assoc,
      Nat.sub_zero]
  rw [header_length] at hlt
  rw [hdrParse_eq, Wire.headerWidths]
  have hmfS : mfS f.mf = f.mf.getLsbD 2 := rfl
  have hsfMx : sfMx f.sf = f.sf.getLsbD 5 := rfl
  generalize f.mf.getLsbD 2 = S at *
  generalize f.sf.getLsbD 5 = M at *
  -- the Message Length
  have g₁ : (if stream then le 2 f.len else []).length = if stream then 2 else 0 := by
    cases stream <;> rfl
  by_cases b₁ : s.length < (if stream then 2 else 0)
  · cases stream
    · simp at b₁
    · simp only [if_true] at b₁
      rw [takeOptional_true, takeField_of_short (by omega)]
      simp [Wire.missingFieldAt, b₁]
  obtain ⟨e₁, d₁, l₁⟩ := takeOptional_of_drop stream f.len rfl
    (cut_fits c₀ (by rw [g₁]; omega)) (Nat.zero_le _)
  rw [g₁, Nat.zero_add] at d₁
  rw [Nat.zero_add] at l₁
  have w₁ : ∀ ws, Wire.missingFieldAt s.length 0 ((if stream then [2] else []) ++ ws) =
      Wire.missingFieldAt s.length (if stream then 2 else 0) ws := by
    intro ws
    cases stream
    · rfl
    · simp only [if_true] at b₁ ⊢
      simp [Wire.missingFieldAt, b₁]
  simp only [List.append_assoc, w₁, e₁, Nat.zero_add]
  generalize hq : (if stream then 2 else 0) = q at *
  -- the Message Flags, and the fixed fields up to the Message Counter
  by_cases b₂ : s.length < q + 1
  · simp [takeField_of_short b₂, Wire.missingFieldAt, b₂]
  obtain ⟨e₂, d₂, l₂⟩ := takeField_of_drop f.mf rfl (cut_fits d₁ (by simp; omega)) l₁
  simp only [e₂, checkVersion_ok hv]
  rw [le_length] at d₂
  by_cases b₃ : s.length < q + 1 + 2
  · simp [takeField_of_short b₃, Wire.missingFieldAt, b₂, b₃]
  obtain ⟨e₃, d₃, l₃⟩ := takeField_of_drop f.sid rfl (cut_fits d₂ (by simp; omega)) l₂
  simp only [e₃]
  rw [le_length] at d₃
  by_cases b₄ : s.length < q + 1 + 2 + 1
  · simp [takeField_of_short b₄, Wire.missingFieldAt, b₂, b₃, b₄]
  obtain ⟨e₄, d₄, l₄⟩ := takeField_of_drop f.sf rfl (cut_fits d₃ (by simp; omega)) l₃
  simp only [e₄]
  rw [le_length] at d₄
  by_cases b₅ : s.length < q + 1 + 2 + 1 + 4
  · simp [takeField_of_short b₅, Wire.missingFieldAt, b₂, b₃, b₄, b₅]
  obtain ⟨e₅, d₅, l₅⟩ := takeField_of_drop f.ctr rfl (cut_fits d₄ (by simp; omega)) l₄
  simp only [e₅]
  rw [le_length] at d₅
  have w₅ : ∀ ws, Wire.missingFieldAt s.length q ([1, 2, 1, 4] ++ ws) =
      Wire.missingFieldAt s.length (q + 1 + 2 + 1 + 4) ws := by
    intro ws
    simp [Wire.missingFieldAt, b₂, b₃, b₄, b₅]
  rw [w₅]
  have hq₅ : q + 1 + 2 + 1 + 4 = q + 8 := by omega
  rw [hq₅] at e₅ d₅ l₅ b₅ ⊢
  clear w₅ w₁ b₁ b₂ b₃ b₄ e₁ e₂ e₃ e₄ e₅ d₁ d₂ d₃ d₄ l₁ l₂ l₃ l₄ c₀
  generalize hr : q + 8 = r at *
  -- the Source Node ID
  have g₆ : (if S then le 8 f.src else []).length = if S then 8 else 0 := by cases S <;> rfl
  rw [hmfS]
  by_cases b₆ : s.length < r + (if S then 8 else 0)
  · cases S
    · simp only [Bool.false_eq_true, if_false] at b₆; omega
    · simp only [if_true] at b₆ ⊢
      simp [takeOptional_true, takeField_of_short b₆, Wire.missingFieldAt, b₆]
  obtain ⟨e₆, d₆, l₆⟩ := takeOptional_of_drop S f.src rfl (cut_fits d₅ (by rw [g₆]; omega)) l₅
  rw [g₆] at d₆
  have w₆ : ∀ ws, Wire.missingFieldAt s.length r ((if S then [8] else []) ++ ws) =
      Wire.missingFieldAt s.length (r + (if S then 8 else 0)) ws := by
    intro ws
    cases S
    · rfl
    · simp only [if_true] at b₆ ⊢
      simp [Wire.missingFieldAt, b₆]
  simp only [e₆, w₆]
  generalize hu : r + (if S then 8 else 0) = u at *
  clear w₆ e₆ d₅ l₅ b₆
  -- the destination
  have g₇ := destination_length f.mf f.dst
  by_cases b₇ : s.length < u + (Wire.destination f.mf f.dst).length
  · rw [g₇] at b₇
    rcases dsiz_cases f.mf with ⟨hm, hd⟩ | ⟨hm, hd⟩ | ⟨h₁, h₂, hd⟩
    · simp only [hm, if_true] at b₇ ⊢
      simp [hd, takeDst, takeField_of_short b₇, Wire.missingFieldAt, b₇]
    · simp only [hm, show ¬ (2#2 = 1#2) by decide, if_true, if_false] at b₇ ⊢
      simp [hd, takeDst, takeField_of_short b₇, Wire.missingFieldAt, b₇]
    · rw [if_neg h₁, if_neg h₂] at b₇; omega
  obtain ⟨e₇, d₇, l₇⟩ := takeDst_of_drop f.mf f.dst (cut_fits d₆ (by omega)) l₆
  have w₇ : ∀ ws, Wire.missingFieldAt s.length u ((if f.mf.extractLsb' 0 2 = 1#2 then [8]
        else if f.mf.extractLsb' 0 2 = 2#2 then [2] else []) ++ ws) =
      Wire.missingFieldAt s.length (u + (Wire.destination f.mf f.dst).length) ws := by
    intro ws
    rw [g₇] at b₇ ⊢
    rcases dsiz_cases f.mf with ⟨hm, hd⟩ | ⟨hm, hd⟩ | ⟨h₁, h₂, hd⟩
    · simp only [hm, if_true] at b₇ ⊢
      simp [Wire.missingFieldAt, b₇]
    · simp only [hm, show ¬ (2#2 = 1#2) by decide, if_true, if_false] at b₇ ⊢
      simp [Wire.missingFieldAt, b₇]
    · simp [h₁, h₂]
  simp only [e₇, w₇]
  rw [← g₇] at hlt
  generalize hv₇ : u + (Wire.destination f.mf f.dst).length = v at *
  clear w₇ e₇ d₆ l₆ b₇
  -- the Message Extensions
  rw [hsfMx]
  cases M
  · simp only [Bool.false_eq_true, if_false] at hlt
    omega
  · simp only [if_true] at d₇ hlt ⊢
    have hb : Wire.block f.mx = le 2 (BitVec.ofNat 16 f.mx.length) ++ f.mx := by rw [le2_eq]; rfl
    have hn : (BitVec.ofNat 16 f.mx.length).toNat = f.mx.length := by
      rw [BitVec.toNat_ofNat]; exact Nat.mod_eq_of_lt (hx rfl)
    rw [hb] at d₇
    rw [takeBlock_eq]
    by_cases b₈ : s.length < v + 2
    · simp [takeField_of_short b₈, Wire.missingFieldAt, b₈]
    obtain ⟨e₈, d₈, l₈⟩ := takeField_of_drop _ rfl (cut_fits d₇ (by simp; omega)) l₇
    have b₉ : s.length < v + 2 + f.mx.length := by omega
    simp only [e₈, hn]
    rw [takeBytes_of_short b₉]
    simp [Wire.missingFieldAt, b₈, b₉]

/-- An input that ends before the Message Flags byte is TruncatedInput, whatever VERMASK is
(42_header_codec R145, R148). -/
theorem hdrParse_short {stream : Bool} {vermask : BitVec 16} {f : Wire.HeaderFields} {s : Bytes}
    (h : s.length ≤ if stream then 2 else 0) :
    hdrParse stream vermask s =
      .error ⟨.truncatedInput, Wire.missingFieldAt s.length 0 (Wire.headerWidths stream f)⟩ := by
  rw [hdrParse_eq]
  cases stream
  · have hl : s.length < 0 + 1 := by simpa using Nat.lt_succ_of_le h
    simp only [takeOptional_false, takeField_of_short hl]
    simp only [Wire.headerWidths, Bool.false_eq_true, if_false, List.nil_append, List.cons_append,
      Wire.missingFieldAt, if_pos hl]
  · simp only [if_true] at h
    by_cases hl : s.length < 0 + 2
    · simp only [takeOptional_true, takeField_of_short hl]
      simp only [Wire.headerWidths, if_true, List.cons_append, Wire.missingFieldAt, if_pos hl]
    · have hd : s.drop 0 = le 2 (BitVec.ofNat 16 (unle s)) ++ [] := by
        have hs : s.length = 2 := by omega
        have hu := unle_lt s
        rw [hs, show 256 ^ 2 = 2 ^ 16 from rfl] at hu
        rw [List.drop_zero, List.append_nil, le, BitVec.toNat_ofNat, Nat.mod_eq_of_lt hu]
        conv_rhs => rw [← hs, leBytes_unle]
      obtain ⟨e₁, _, _⟩ := takeField_of_drop (w := 16) _ rfl hd (Nat.zero_le _)
      have hl' : s.length < 0 + 2 + 1 := by omega
      simp only [takeOptional_true, e₁, takeField_of_short hl']
      simp only [Wire.headerWidths, if_true, List.cons_append, List.nil_append,
        Wire.missingFieldAt, if_neg hl, if_pos hl']

/-- Every error of a parse is TruncatedInput, or UnsupportedVersion at the Message Flags byte, at an offset
within the input (60_exceptions R201, R206). -/
theorem hdrParse_error {stream : Bool} {vermask : BitVec 16} {s : Bytes} {e : CodecError}
    (h : hdrParse stream vermask s = .error e) :
    (e.kind = .truncatedInput ∨
      (e = ⟨.unsupportedVersion, if stream then 2 else 0⟩ ∧ ∃ mf rest, s.drop e.pos = mf :: rest ∧
        vermask.getLsbD (mf.extractLsb' 4 4).toNat = false)) ∧
      e.pos ≤ s.length := by
  rw [hdrParse_eq] at h
  rcases e₁ : takeOptional stream 16 s 0 2 with e' | ⟨len, q⟩
  · simp only [e₁, Except.error.injEq] at h
    subst h
    obtain ⟨_, rfl, _⟩ := takeOptional_error e₁
    exact ⟨.inl rfl, Nat.zero_le _⟩
  obtain ⟨q₁, v₁, d₁, l₁⟩ := takeOptional_ok rfl e₁ (Nat.zero_le _)
  rcases e₂ : takeField 8 s q 1 with e' | ⟨mf, p₁⟩
  · simp only [e₁, e₂, Except.error.injEq] at h
    subst h
    obtain ⟨rfl, _⟩ := takeField_error e₂
    exact ⟨.inl rfl, l₁⟩
  obtain ⟨q₂, d₂, l₂⟩ := takeField_ok rfl e₂
  rcases ev : checkVersion vermask mf q with e' | ⟨⟩
  · simp only [e₁, e₂, ev, Except.error.injEq] at h
    subst h
    unfold checkVersion at ev
    split at ev
    · cases ev
    · rename_i hv
      cases ev
      rw [← singleton_eq_le] at d₂
      refine ⟨.inr ⟨by rw [q₁, Nat.zero_add], mf, _, d₂, ?_⟩, l₁⟩
      rw [← mfVersion_eq]
      simpa [versionAccepted] using hv
  rcases e₃ : takeField 16 s p₁ 2 with e' | ⟨sid, p₂⟩
  · simp only [e₁, e₂, ev, e₃, Except.error.injEq] at h
    subst h
    obtain ⟨rfl, _⟩ := takeField_error e₃
    exact ⟨.inl rfl, l₂⟩
  obtain ⟨q₃, d₃, l₃⟩ := takeField_ok rfl e₃
  rcases e₄ : takeField 8 s p₂ 1 with e' | ⟨sf, p₃⟩
  · simp only [e₁, e₂, ev, e₃, e₄, Except.error.injEq] at h
    subst h
    obtain ⟨rfl, _⟩ := takeField_error e₄
    exact ⟨.inl rfl, l₃⟩
  obtain ⟨q₄, d₄, l₄⟩ := takeField_ok rfl e₄
  rcases e₅ : takeField 32 s p₃ 4 with e' | ⟨ctr, p₄⟩
  · simp only [e₁, e₂, ev, e₃, e₄, e₅, Except.error.injEq] at h
    subst h
    obtain ⟨rfl, _⟩ := takeField_error e₅
    exact ⟨.inl rfl, l₄⟩
  obtain ⟨q₅, d₅, l₅⟩ := takeField_ok rfl e₅
  rcases e₆ : takeOptional (mfS mf) 64 s p₄ 8 with e' | ⟨src, p₅⟩
  · simp only [e₁, e₂, ev, e₃, e₄, e₅, e₆, Except.error.injEq] at h
    subst h
    obtain ⟨_, rfl, _⟩ := takeOptional_error e₆
    exact ⟨.inl rfl, l₅⟩
  obtain ⟨q₆, v₆, d₆, l₆⟩ := takeOptional_ok rfl e₆ l₅
  rcases e₇ : takeDst (mfDsiz mf) s p₅ with e' | ⟨dst, p₆⟩
  · simp only [e₁, e₂, ev, e₃, e₄, e₅, e₆, e₇, Except.error.injEq] at h
    subst h
    obtain ⟨rfl, _⟩ := takeDst_error e₇
    exact ⟨.inl rfl, l₆⟩
  obtain ⟨q₇, v₇, d₇, l₇⟩ := takeDst_ok e₇ l₆
  rcases e₈ : takeBlock (sfMx sf) s p₆ with e' | ⟨mx, p₇⟩
  · simp only [e₁, e₂, ev, e₃, e₄, e₅, e₆, e₇, e₈, Except.error.injEq] at h
    subst h
    cases hM : sfMx sf
    · rw [hM] at e₈; cases e₈
    · rw [hM] at e₈
      rcases takeBlock_error e₈ with ⟨rfl, _⟩ | ⟨rfl, hl⟩
      · exact ⟨.inl rfl, l₇⟩
      · exact ⟨.inl rfl, hl⟩
  · simp [e₁, e₂, ev, e₃, e₄, e₅, e₆, e₇, e₈] at h

end Sys2Proof.Machine
end

