-- ==== Sys2Proof/Laws/Pm.lean ====
section
/-! SUPPORT. The Protocol Message codec, one lemma per operation: the bytes it emits are the wire layout, the
check is the five conditions, and what the parse does on every input. -/

namespace Sys2Proof.Machine

/-! ### Encode -/

/-- `pm_bytes` is the wire layout of the Protocol Message registers (43 R161, 30_encoding R68). -/
theorem pmBytes_eq (s : State) : pmBytes s = Wire.pm s.pmFields := by
  have hb : le 2 s.sxlen ++ s.memRead .sxb 0 s.sxlen.toNat =
      Wire.block (s.memRead .sxb 0 s.sxlen.toNat) := by
    simp [Wire.block, le2_eq]
  unfold pmBytes Wire.pm Wire.pmHead
  rw [hb]
  simp only [le2_eq, le4_eq, State.pmFields, xfV, xfA, xfSx]
  rfl

/-- `pm_check` is the five conditions (43_protocol_message_codec R162). -/
theorem pmCheck_iff (s : State) : pmCheck s = true ↔ s.PmConsistent := by
  unfold pmCheck State.PmConsistent
  simp only [Bool.and_eq_true, Bool.or_eq_true, beq_iff_eq, Bool.not_eq_true', decide_eq_true_eq,
    tagVidV, tagAckV, tagSxV, xfV, xfA, xfSx, and_assoc]
  refine and_congr_right fun _ => and_congr_right fun _ => and_congr_right fun _ =>
    and_congr_left fun _ => ?_
  cases s.tag.getLsbD 7 <;> simp

/-- The length of a Protocol Message up to its payload (30_encoding R72). -/
theorem pmHead_length (f : Wire.PmFields) :
    (Wire.pmHead f).length =
      6 + (if f.xf.getLsbD 4 then 2 else 0) + (if f.xf.getLsbD 1 then 4 else 0)
        + (if f.xf.getLsbD 3 then 2 + f.sx.length else 0) := by
  unfold Wire.pmHead
  simp only [List.length_append]
  have h₁ : (if f.xf.getLsbD 4 then Wire.u16 f.vid else []).length =
      if f.xf.getLsbD 4 then 2 else 0 := by split <;> rfl
  have h₂ : (if f.xf.getLsbD 1 then Wire.u32 f.ack else []).length =
      if f.xf.getLsbD 1 then 4 else 0 := by split <;> rfl
  have h₃ : (if f.xf.getLsbD 3 then Wire.block f.sx else []).length =
      if f.xf.getLsbD 3 then 2 + f.sx.length else 0 := by
    split
    · exact block_length f.sx
    · rfl
  rw [h₁, h₂, h₃]
  simp [Wire.u16]

/-! ### Decode -/

/-- The value a parse builds from a Protocol Message's fields. -/
def parsedPm (f : Wire.PmFields) : ProtocolMessage where
  xf := f.xf
  opc := f.opc
  xid := f.xid
  pid := f.pid
  vid := f.decoded.vid
  vidV := f.xf.getLsbD 4
  ack := f.decoded.ack
  ackV := f.xf.getLsbD 1
  sx := f.decoded.sx
  sxV := f.xf.getLsbD 3
  pay := f.pay

/-- The parse of 43_protocol_message_codec R163 as nested matches, one for each field in wire order. -/
theorem pmParse_eq (s : Bytes) :
    pmParse s =
      match takeField 8 s 0 1 with
      | .error e => .error e
      | .ok (xf, p) =>
      match takeField 8 s p 1 with
      | .error e => .error e
      | .ok (opc, p) =>
      match takeField 16 s p 2 with
      | .error e => .error e
      | .ok (xid, p) =>
      match takeField 16 s p 2 with
      | .error e => .error e
      | .ok (pid, p) =>
      match takeOptional (xfV xf) 16 s p 2 with
      | .error e => .error e
      | .ok (vid, p) =>
      match takeOptional (xfA xf) 32 s p 4 with
      | .error e => .error e
      | .ok (ack, p) =>
      match takeBlock (xfSx xf) s p with
      | .error e => .error e
      | .ok (sx, p) =>
        .ok { xf := xf, opc := opc, xid := xid, pid := pid, vid := vid, vidV := xfV xf,
              ack := ack, ackV := xfA xf, sx := sx, sxV := xfSx xf, pay := s.drop p } := by
  unfold pmParse
  rcases takeField 8 s 0 1 with e | ⟨xf, p₁⟩
  · rfl
  rcases h₂ : takeField 8 s p₁ 1 with e | ⟨opc, p₂⟩
  · simp only [bind, Except.bind, h₂]
  rcases h₃ : takeField 16 s p₂ 2 with e | ⟨xid, p₃⟩
  · simp only [bind, Except.bind, h₂, h₃]
  rcases h₄ : takeField 16 s p₃ 2 with e | ⟨pid, p₄⟩
  · simp only [bind, Except.bind, h₂, h₃, h₄]
  rcases h₅ : takeOptional (xfV xf) 16 s p₄ 2 with e | ⟨vid, p₅⟩
  · simp only [bind, Except.bind, h₂, h₃, h₄, h₅]
  rcases h₆ : takeOptional (xfA xf) 32 s p₅ 4 with e | ⟨ack, p₆⟩
  · simp only [bind, Except.bind, h₂, h₃, h₄, h₅, h₆]
  rcases h₇ : takeBlock (xfSx xf) s p₆ with e | ⟨sx, p₇⟩
  · simp only [bind, Except.bind, h₂, h₃, h₄, h₅, h₆, h₇]
  · simp only [bind, Except.bind, h₂, h₃, h₄, h₅, h₆, h₇]
    rfl

/-- A laid-out Protocol Message is read back whole, its payload being everything that follows
(43_protocol_message_codec R163 to R165). -/
theorem pmParse_pm {f : Wire.PmFields} {s : Bytes} (hs : s = Wire.pm f)
    (hx : f.xf.getLsbD 3 = true → f.sx.length < 65536) : pmParse s = .ok (parsedPm f) := by
  have h₀ : s.drop 0 = le 1 f.xf ++ (le 1 f.opc ++ (le 2 f.xid ++ (le 2 f.pid ++
      ((if f.xf.getLsbD 4 then le 2 f.vid else []) ++ ((if f.xf.getLsbD 1 then le 4 f.ack else [])
      ++ ((if f.xf.getLsbD 3 then Wire.block f.sx else []) ++ f.pay)))))) := by
    rw [List.drop_zero, hs]
    simp only [Wire.pm, Wire.pmHead, ← le2_eq, ← le4_eq, ← singleton_eq_le, List.append_assoc]
    rfl
  obtain ⟨e₁, h₁, l₁⟩ := takeField_of_drop f.xf rfl h₀ (Nat.zero_le _)
  obtain ⟨e₂, h₂, l₂⟩ := takeField_of_drop f.opc rfl h₁ l₁
  obtain ⟨e₃, h₃, l₃⟩ := takeField_of_drop f.xid rfl h₂ l₂
  obtain ⟨e₄, h₄, l₄⟩ := takeField_of_drop f.pid rfl h₃ l₃
  obtain ⟨e₅, h₅, l₅⟩ := takeOptional_of_drop (f.xf.getLsbD 4) f.vid rfl h₄ l₄
  obtain ⟨e₆, h₆, l₆⟩ := takeOptional_of_drop (f.xf.getLsbD 1) f.ack rfl h₅ l₅
  obtain ⟨e₇, h₇, l₇⟩ := takeBlock_of_drop' (f.xf.getLsbD 3) hx h₆ l₆
  rw [pmParse_eq, e₁]
  simp only [e₂, e₃, e₄, xfV, xfA, xfSx, e₅, e₆, e₇, h₇]
  rfl

/-- What a parse accepts is a laid-out Protocol Message, and its value is that message's
(43_protocol_message_codec R163 to R165). -/
theorem pmParse_ok {s : Bytes} {m : ProtocolMessage} (hp : pmParse s = .ok m) :
    ∃ f, s = Wire.pm f ∧ f.sx.length < 65536 ∧ m = parsedPm f ∧ f.vid = f.decoded.vid ∧
      f.ack = f.decoded.ack ∧ f.sx = f.decoded.sx := by
  rw [pmParse_eq] at hp
  rcases e₁ : takeField 8 s 0 1 with e | ⟨xf, p₁⟩
  · simp [e₁] at hp
  rcases e₂ : takeField 8 s p₁ 1 with e | ⟨opc, p₂⟩
  · simp [e₁, e₂] at hp
  rcases e₃ : takeField 16 s p₂ 2 with e | ⟨xid, p₃⟩
  · simp [e₁, e₂, e₃] at hp
  rcases e₄ : takeField 16 s p₃ 2 with e | ⟨pid, p₄⟩
  · simp [e₁, e₂, e₃, e₄] at hp
  rcases e₅ : takeOptional (xfV xf) 16 s p₄ 2 with e | ⟨vid, p₅⟩
  · simp [e₁, e₂, e₃, e₄, e₅] at hp
  rcases e₆ : takeOptional (xfA xf) 32 s p₅ 4 with e | ⟨ack, p₆⟩
  · simp [e₁, e₂, e₃, e₄, e₅, e₆] at hp
  rcases e₇ : takeBlock (xfSx xf) s p₆ with e | ⟨sx, p₇⟩
  · simp [e₁, e₂, e₃, e₄, e₅, e₆, e₇] at hp
  simp only [e₁, e₂, e₃, e₄, e₅, e₆, e₇, Except.ok.injEq] at hp
  subst hp
  obtain ⟨q₁, d₁, l₁⟩ := takeField_ok rfl e₁
  obtain ⟨q₂, d₂, l₂⟩ := takeField_ok rfl e₂
  obtain ⟨q₃, d₃, l₃⟩ := takeField_ok rfl e₃
  obtain ⟨q₄, d₄, l₄⟩ := takeField_ok rfl e₄
  obtain ⟨q₅, v₅, d₅, l₅⟩ := takeOptional_ok rfl e₅ l₄
  obtain ⟨q₆, v₆, d₆, l₆⟩ := takeOptional_ok rfl e₆ l₅
  obtain ⟨q₇, v₇, d₇, l₇, b₇⟩ := takeBlock_ok' e₇ l₆
  refine ⟨⟨xf, opc, xid, pid, vid, ack, sx, s.drop p₇⟩, ?_, b₇, ?_, v₅, v₆, v₇⟩
  · conv_lhs => rw [← List.drop_zero (l := s), d₁, d₂, d₃, d₄, d₅, d₆, d₇]
    simp only [Wire.pm, Wire.pmHead, ← le2_eq, ← le4_eq, ← singleton_eq_le, List.append_assoc, xfV,
      xfA, xfSx]
    rfl
  · unfold parsedPm Wire.PmFields.decoded
    exact (ProtocolMessage.mk.injEq ..).mpr ⟨rfl, rfl, rfl, rfl, v₅, rfl, v₆, rfl, v₇, rfl, rfl⟩

/-- A plaintext that ends before its payload begins is TruncatedInput at the first field that does not fit
(43_protocol_message_codec R164). -/
theorem pmParse_cut {f : Wire.PmFields} {s : Bytes} (hs : s = (Wire.pmHead f).take s.length)
    (hlt : s.length < (Wire.pmHead f).length)
    (hx : f.xf.getLsbD 3 = true → f.sx.length < 65536) :
    pmParse s = .error ⟨.truncatedInput, Wire.missingFieldAt s.length 0 (Wire.pmWidths f)⟩ := by
  have c₀ : s.drop 0 = (le 1 f.xf ++ (le 1 f.opc ++ (le 2 f.xid ++ (le 2 f.pid ++
      ((if f.xf.getLsbD 4 then le 2 f.vid else []) ++ ((if f.xf.getLsbD 1 then le 4 f.ack else [])
      ++ (if f.xf.getLsbD 3 then Wire.block f.sx else []))))))).take (s.length - 0) := by
    rw [List.drop_zero]
    conv_lhs => rw [hs]
    simp only [Wire.pmHead, ← le2_eq, ← le4_eq, ← singleton_eq_le, List.append_assoc,
      Nat.sub_zero]
    rfl
  rw [pmHead_length] at hlt
  rw [pmParse_eq, Wire.pmWidths]
  have hV : xfV f.xf = f.xf.getLsbD 4 := rfl
  have hA : xfA f.xf = f.xf.getLsbD 1 := rfl
  have hX : xfSx f.xf = f.xf.getLsbD 3 := rfl
  generalize f.xf.getLsbD 4 = V at *
  generalize f.xf.getLsbD 1 = A at *
  generalize f.xf.getLsbD 3 = X at *
  simp only [List.append_assoc]
  by_cases b₁ : s.length < 0 + 1
  · simp [takeField_of_short b₁, Wire.missingFieldAt, show s.length < 1 by omega]
  obtain ⟨e₁, d₁, l₁⟩ := takeField_of_drop f.xf rfl (cut_fits c₀ (by simp; omega)) (Nat.zero_le _)
  rw [le_length] at d₁
  simp only [e₁, hV, hA, hX]
  by_cases b₂ : s.length < 0 + 1 + 1
  · simp only [takeField_of_short b₂, List.cons_append, Wire.missingFieldAt, b₁, b₂, if_true,
      if_false]
  obtain ⟨e₂, d₂, l₂⟩ := takeField_of_drop f.opc rfl (cut_fits d₁ (by simp; omega)) l₁
  rw [le_length] at d₂
  simp only [e₂]
  by_cases b₃ : s.length < 0 + 1 + 1 + 2
  · simp only [takeField_of_short b₃, List.cons_append, Wire.missingFieldAt, b₁, b₂, b₃, if_true,
      if_false]
  obtain ⟨e₃, d₃, l₃⟩ := takeField_of_drop f.xid rfl (cut_fits d₂ (by simp; omega)) l₂
  rw [le_length] at d₃
  simp only [e₃]
  by_cases b₄ : s.length < 0 + 1 + 1 + 2 + 2
  · simp only [takeField_of_short b₄, List.cons_append, Wire.missingFieldAt, b₁, b₂, b₃, b₄, if_true,
      if_false]
  obtain ⟨e₄, d₄, l₄⟩ := takeField_of_drop f.pid rfl (cut_fits d₃ (by simp; omega)) l₃
  rw [le_length] at d₄
  have w₄ : ∀ ws, Wire.missingFieldAt s.length 0 ([1, 1, 2, 2] ++ ws) =
      Wire.missingFieldAt s.length (0 + 1 + 1 + 2 + 2) ws := by
    intro ws
    simp only [List.cons_append, Wire.missingFieldAt, b₁, b₂, b₃, b₄, if_false, List.nil_append]
  rw [w₄]
  simp only [e₄]
  clear w₄ b₁ b₂ b₃ e₁ e₂ e₃ e₄ d₁ d₂ d₃ l₁ l₂ l₃ c₀
  have hr' : 0 + 1 + 1 + 2 + 2 = 6 := rfl
  rw [hr'] at d₄ l₄ b₄ ⊢
  generalize hr : 6 = r at *
  -- the Vendor ID
  have g₅ : (if V then le 2 f.vid else []).length = if V then 2 else 0 := by cases V <;> rfl
  by_cases b₅ : s.length < r + (if V then 2 else 0)
  · cases V
    · simp only [Bool.false_eq_true, if_false] at b₅; omega
    · simp only [if_true] at b₅ ⊢
      simp [takeOptional_true, takeField_of_short b₅, Wire.missingFieldAt, b₅]
  obtain ⟨e₅, d₅, l₅⟩ := takeOptional_of_drop V f.vid rfl (cut_fits d₄ (by rw [g₅]; omega)) l₄
  rw [g₅] at d₅
  have w₅ : ∀ ws, Wire.missingFieldAt s.length r ((if V then [2] else []) ++ ws) =
      Wire.missingFieldAt s.length (r + (if V then 2 else 0)) ws := by
    intro ws
    cases V
    · rfl
    · simp only [if_true] at b₅ ⊢
      simp [Wire.missingFieldAt, b₅]
  simp only [e₅, w₅]
  generalize hu : r + (if V then 2 else 0) = u at *
  clear w₅ e₅ d₄ l₄ b₅
  -- the Acknowledged Message Counter
  have g₆ : (if A then le 4 f.ack else []).length = if A then 4 else 0 := by cases A <;> rfl
  by_cases b₆ : s.length < u + (if A then 4 else 0)
  · cases A
    · simp only [Bool.false_eq_true, if_false] at b₆; omega
    · simp only [if_true] at b₆ ⊢
      simp [takeOptional_true, takeField_of_short b₆, Wire.missingFieldAt, b₆]
  obtain ⟨e₆, d₆, l₆⟩ := takeOptional_of_drop A f.ack rfl (cut_fits d₅ (by rw [g₆]; omega)) l₅
  rw [g₆] at d₆
  have w₆ : ∀ ws, Wire.missingFieldAt s.length u ((if A then [4] else []) ++ ws) =
      Wire.missingFieldAt s.length (u + (if A then 4 else 0)) ws := by
    intro ws
    cases A
    · rfl
    · simp only [if_true] at b₆ ⊢
      simp [Wire.missingFieldAt, b₆]
  simp only [e₆, w₆]
  generalize hv : u + (if A then 4 else 0) = v at *
  clear w₆ e₆ d₅ l₅ b₆
  -- the Secured Extensions
  cases X
  · simp only [Bool.false_eq_true, if_false] at hlt
    omega
  · simp only [if_true] at d₆ hlt ⊢
    have hb : Wire.block f.sx = le 2 (BitVec.ofNat 16 f.sx.length) ++ f.sx := by rw [le2_eq]; rfl
    have hn : (BitVec.ofNat 16 f.sx.length).toNat = f.sx.length := by
      rw [BitVec.toNat_ofNat]; exact Nat.mod_eq_of_lt (hx rfl)
    rw [hb] at d₆
    rw [takeBlock_eq]
    by_cases b₇ : s.length < v + 2
    · simp [takeField_of_short b₇, Wire.missingFieldAt, b₇]
    obtain ⟨e₇, d₇, l₇⟩ := takeField_of_drop _ rfl (cut_fits d₆ (by simp; omega)) l₆
    have b₈ : s.length < v + 2 + f.sx.length := by omega
    simp only [e₇, hn]
    rw [takeBytes_of_short b₈]
    simp [Wire.missingFieldAt, b₇, b₈]

/-- Every error of a parse is TruncatedInput, at an offset within the plaintext (60_exceptions R201). -/
theorem pmParse_error {s : Bytes} {e : CodecError} (h : pmParse s = .error e) :
    e.kind = .truncatedInput ∧ e.pos ≤ s.length := by
  rw [pmParse_eq] at h
  rcases e₁ : takeField 8 s 0 1 with e' | ⟨xf, p₁⟩
  · simp only [e₁, Except.error.injEq] at h
    subst h
    obtain ⟨rfl, _⟩ := takeField_error e₁
    exact ⟨rfl, Nat.zero_le _⟩
  obtain ⟨q₁, d₁, l₁⟩ := takeField_ok rfl e₁
  rcases e₂ : takeField 8 s p₁ 1 with e' | ⟨opc, p₂⟩
  · simp only [e₁, e₂, Except.error.injEq] at h
    subst h
    obtain ⟨rfl, _⟩ := takeField_error e₂
    exact ⟨rfl, l₁⟩
  obtain ⟨q₂, d₂, l₂⟩ := takeField_ok rfl e₂
  rcases e₃ : takeField 16 s p₂ 2 with e' | ⟨xid, p₃⟩
  · simp only [e₁, e₂, e₃, Except.error.injEq] at h
    subst h
    obtain ⟨rfl, _⟩ := takeField_error e₃
    exact ⟨rfl, l₂⟩
  obtain ⟨q₃, d₃, l₃⟩ := takeField_ok rfl e₃
  rcases e₄ : takeField 16 s p₃ 2 with e' | ⟨pid, p₄⟩
  · simp only [e₁, e₂, e₃, e₄, Except.error.injEq] at h
    subst h
    obtain ⟨rfl, _⟩ := takeField_error e₄
    exact ⟨rfl, l₃⟩
  obtain ⟨q₄, d₄, l₄⟩ := takeField_ok rfl e₄
  rcases e₅ : takeOptional (xfV xf) 16 s p₄ 2 with e' | ⟨vid, p₅⟩
  · simp only [e₁, e₂, e₃, e₄, e₅, Except.error.injEq] at h
    subst h
    obtain ⟨_, rfl, _⟩ := takeOptional_error e₅
    exact ⟨rfl, l₄⟩
  obtain ⟨q₅, v₅, d₅, l₅⟩ := takeOptional_ok rfl e₅ l₄
  rcases e₆ : takeOptional (xfA xf) 32 s p₅ 4 with e' | ⟨ack, p₆⟩
  · simp only [e₁, e₂, e₃, e₄, e₅, e₆, Except.error.injEq] at h
    subst h
    obtain ⟨_, rfl, _⟩ := takeOptional_error e₆
    exact ⟨rfl, l₅⟩
  obtain ⟨q₆, v₆, d₆, l₆⟩ := takeOptional_ok rfl e₆ l₅
  rcases e₇ : takeBlock (xfSx xf) s p₆ with e' | ⟨sx, p₇⟩
  · simp only [e₁, e₂, e₃, e₄, e₅, e₆, e₇, Except.error.injEq] at h
    subst h
    cases hX : xfSx xf
    · rw [hX] at e₇; cases e₇
    · rw [hX] at e₇
      rcases takeBlock_error e₇ with ⟨rfl, _⟩ | ⟨rfl, hl⟩
      · exact ⟨rfl, l₆⟩
      · exact ⟨rfl, hl⟩
  · simp [e₁, e₂, e₃, e₄, e₅, e₆, e₇] at h

end Sys2Proof.Machine
end

