-- ==== Sys2Proof/Laws/Commit.lean ====
section
/-! SUPPORT. What a command writes when it ends, said once for each shared ending: an encode's output, and
the commit of a decoded header, of a decoded Protocol Message and of a whole message. -/

namespace Sys2Proof.Machine

/-! ### The end of an encode -/

/-- Bytes over CAP: OutputOverflow, nothing written (60_exceptions R208). -/
theorem State.emit_of_long {s : State} {out : Bytes} (h : Config.cap < out.length) :
    s.emit out = s.raise ⟨.outputOverflow, 0⟩ := by
  unfold State.emit; rw [if_pos h]

theorem State.emit_of_fits {s : State} {out : Bytes} (h : out.length ≤ Config.cap) :
    s.emit out =
      ({ s.memWrite .obuf 0 out with olen := BitVec.ofNat 16 out.length }).succeedAt out.length := by
  unfold State.emit; rw [if_neg (by omega)]

/-- Bytes that fit: OBUF starts with them, OLEN and POS count them, STATUS is OK, the rest of OBUF and every
other part of the state is as before (42_header_codec R142). -/
theorem State.emit_spec {s : State} {out : Bytes} (h : out.length ≤ Config.cap) :
    (s.emit out).memRead .obuf 0 out.length = out ∧
      (s.emit out).olen.toNat = out.length ∧
      (s.emit out).pos.toNat = out.length ∧
      (s.emit out).status = 0x00#8 ∧
      SameBytesFrom .obuf out.length (s.emit out) s ∧
      ((s.emit out).withOutcomeOf s).withOutputOf s = s := by
  rw [State.emit_of_fits h]
  refine ⟨?_, toNat_ofNat_of_le_cap h, toNat_ofNat_of_le_cap h, rfl, ?_, rfl⟩
  · refine Eq.trans ?_ (State.memRead_memWrite_self s .obuf 0 out)
    exact State.memRead_congr fun i _ => rfl
  · intro a ha
    refine Eq.trans (b := (s.memWrite .obuf 0 out).readByte .obuf a) rfl ?_
    rw [State.readByte_memWrite, if_neg (by omega)]

/-! ### Errors -/

theorem ErrorKind.code_ne_ok (k : ErrorKind) : k.code ≠ 0x00#8 := by
  cases k <;> decide

/-- Each error kind has its own code (60_exceptions R200). -/
theorem ErrorKind.code_inj {k k' : ErrorKind} (h : k.code = k'.code) : k = k' := by
  cases k <;> cases k' <;> first | rfl | exact absurd h (by decide)

/-- An error is never the outcome OK (60_exceptions R200, R205). -/
theorem State.raise_status_ne_ok (e : CodecError) (s : State) : (s.raise e).status ≠ 0x00#8 :=
  e.kind.code_ne_ok

/-! ### What an outcome leaves of the fields -/

@[simp] theorem State.succeedAt_headerFields (s : State) (p : Nat) :
    (s.succeedAt p).headerFields = s.headerFields := by
  unfold State.headerFields
  rw [State.memRead_of_buf (s := s.succeedAt p) (t := s) rfl rfl]
  rfl

@[simp] theorem State.succeedAt_pmFields (s : State) (p : Nat) :
    (s.succeedAt p).pmFields = s.pmFields := by
  unfold State.pmFields
  rw [State.memRead_of_buf (s := s.succeedAt p) (t := s) (b := .sxb) rfl rfl,
    State.memRead_of_buf (s := s.succeedAt p) (t := s) (b := .pay) rfl rfl]
  rfl

@[simp] theorem State.succeedAt_micBytes (s : State) (p : Nat) :
    (s.succeedAt p).micBytes = s.micBytes :=
  State.memRead_of_buf (s := s.succeedAt p) (t := s) (b := .mic) rfl rfl _ _

/-- The header fields of a state depend on the header registers, MXB and the epoch. -/
theorem State.headerFields_congr {s t : State} (h : s.withHeaderOf t = s) (he : s.epoch = t.epoch) :
    s.headerFields = t.headerFields := by
  have hb : s.buf .mxb = t.buf .mxb := by rw [← h]; rfl
  unfold State.headerFields
  rw [State.memRead_of_buf hb he, ← h]
  rfl

/-- The Protocol Message fields of a state depend on its registers, SXB, PAY and the epoch. -/
theorem State.pmFields_congr {s t : State} (h : s.withPmOf t = s) (he : s.epoch = t.epoch) :
    s.pmFields = t.pmFields := by
  have hb : s.buf .sxb = t.buf .sxb := by rw [← h]; rfl
  have hb' : s.buf .pay = t.buf .pay := by rw [← h]; rfl
  unfold State.pmFields
  rw [State.memRead_of_buf hb he, State.memRead_of_buf hb' he, ← h]
  rfl

/-! ### The footer condition -/

/-- `ftr_check` is the footer condition (44_message_assembly R179). -/
theorem ftrCheck_iff (s : State) : ftrCheck s = true ↔ s.FooterConsistent := by
  unfold ftrCheck State.FooterConsistent State.footerLength State.secure
  simp only [Bool.and_eq_true, beq_iff_eq, decide_eq_true_eq]

/-! ### The commit of a header -/

theorem State.readByte_commitBlock (s : State) (b b' : BufId) (present : Bool) (x : Bytes) (a : Nat) :
    (s.commitBlock b present x).readByte b' a =
      if present = true ∧ b' = b ∧ a < x.length then x.getD a 0#8 else s.readByte b' a := by
  unfold State.commitBlock
  cases present
  · simp
  · simp [State.readByte_memWrite]

/-- Everything a header commit does (42_header_codec R149, 10_state R29). -/
theorem hdrCommit_spec (stream : Bool) (f : Wire.HeaderFields) (s : State)
    (hx : f.sf.getLsbD 5 = true → f.mx.length < 65536) :
    (hdrCommit (parsedHeader stream f) s).headerFields = f.decoded stream ∧
      (hdrCommit (parsedHeader stream f) s).tag = Wire.headerTag stream f s.tag ∧
      SameBytesFrom .mxb (f.decoded stream).mx.length (hdrCommit (parsedHeader stream f) s) s ∧
      (hdrCommit (parsedHeader stream f) s).withHeaderOf s = s := by
  have hl : ((f.decoded stream).mx).length < 65536 := by
    unfold Wire.HeaderFields.decoded
    dsimp only
    split
    · exact hx ‹_›
    · simp
  have hn : (BitVec.ofNat 16 (f.decoded stream).mx.length).toNat = (f.decoded stream).mx.length := by
    rw [BitVec.toNat_ofNat]; exact Nat.mod_eq_of_lt hl
  have hb : ∀ a, (hdrCommit (parsedHeader stream f) s).readByte .mxb a =
      (s.commitBlock .mxb (f.sf.getLsbD 5) (f.decoded stream).mx).readByte .mxb a := fun a => rfl
  have hM : (f.decoded stream).mx = if f.sf.getLsbD 5 then f.mx else [] := rfl
  refine ⟨?_, ?_, ?_, ?_⟩
  · have hmx : (hdrCommit (parsedHeader stream f) s).memRead .mxb 0
        (hdrCommit (parsedHeader stream f) s).mxlen.toNat = (f.decoded stream).mx := by
      rw [show (hdrCommit (parsedHeader stream f) s).mxlen =
        BitVec.ofNat 16 (f.decoded stream).mx.length from rfl, hn, State.memRead_eq_iff]
      intro i hi
      rw [hb, State.readByte_commitBlock, Nat.zero_add]
      cases hp : f.sf.getLsbD 5
      · rw [hM, hp] at hi; simp at hi
      · rw [if_pos ⟨rfl, rfl, hi⟩]; simp [hi]
    unfold State.headerFields
    rw [hmx, show (hdrCommit (parsedHeader stream f) s).sf = canonSF f.sf from rfl, canonSF_eq]
    rfl
  · rw [show (hdrCommit (parsedHeader stream f) s).tag = setHeaderTags stream (f.mf.getLsbD 2)
      (Wire.destinationTag f.mf) (f.sf.getLsbD 5)
      (s.commitBlock .mxb (f.sf.getLsbD 5) (f.decoded stream).mx).tag from rfl,
      State.commitBlock_tag, setHeaderTags_eq]
    rfl
  · intro a ha
    rw [hb, State.readByte_commitBlock, if_neg (by omega)]
  · unfold hdrCommit State.commitBlock
    cases (parsedHeader stream f).mxV <;> rfl

/-- A header commit reads from and writes to no buffer but MXB. -/
theorem hdrCommit_readByte (h : Header) (s : State) {b : BufId} (hb : b ≠ .mxb) (a : Nat) :
    (hdrCommit h s).readByte b a = s.readByte b a := by
  refine Eq.trans (b := (s.commitBlock .mxb h.mxV h.mx).readByte b a) rfl ?_
  rw [State.readByte_commitBlock, if_neg (by tauto)]

/-! ### The commit of a Protocol Message -/

/-- Everything the commit of a Protocol Message does (43_protocol_message_codec R163, 10_state R29). -/
theorem pmCommit_spec (f : Wire.PmFields) (s : State)
    (hx : f.xf.getLsbD 3 = true → f.sx.length < 65536) (hp : f.pay.length < 65536) :
    (pmCommit (parsedPm f) s).pmFields = f.decoded ∧
      (pmCommit (parsedPm f) s).tag = Wire.pmTag f s.tag ∧
      SameBytesFrom .sxb f.decoded.sx.length (pmCommit (parsedPm f) s) s ∧
      SameBytesFrom .pay f.pay.length (pmCommit (parsedPm f) s) s ∧
      (pmCommit (parsedPm f) s).withPmOf s = s := by
  have hl : f.decoded.sx.length < 65536 := by
    unfold Wire.PmFields.decoded
    dsimp only
    split
    · exact hx ‹_›
    · simp
  have hn : (BitVec.ofNat 16 f.decoded.sx.length).toNat = f.decoded.sx.length := by
    rw [BitVec.toNat_ofNat]; exact Nat.mod_eq_of_lt hl
  have hm : (BitVec.ofNat 16 f.pay.length).toNat = f.pay.length := by
    rw [BitVec.toNat_ofNat]; exact Nat.mod_eq_of_lt hp
  have hb : ∀ b a, (pmCommit (parsedPm f) s).readByte b a =
      ((s.commitBlock .sxb (f.xf.getLsbD 3) f.decoded.sx).memWrite .pay 0 f.pay).readByte b a :=
    fun b a => rfl
  have hS : f.decoded.sx = if f.xf.getLsbD 3 then f.sx else [] := rfl
  refine ⟨?_, ?_, ?_, ?_, ?_⟩
  · have hsx : (pmCommit (parsedPm f) s).memRead .sxb 0 (pmCommit (parsedPm f) s).sxlen.toNat =
        f.decoded.sx := by
      rw [show (pmCommit (parsedPm f) s).sxlen = BitVec.ofNat 16 f.decoded.sx.length from rfl, hn,
        State.memRead_eq_iff]
      intro i hi
      rw [hb, State.readByte_memWrite, if_neg (by simp), State.readByte_commitBlock, Nat.zero_add]
      cases hp : f.xf.getLsbD 3
      · rw [hS, hp] at hi; simp at hi
      · rw [if_pos ⟨rfl, rfl, hi⟩]; simp [hi]
    have hpay : (pmCommit (parsedPm f) s).memRead .pay 0 (pmCommit (parsedPm f) s).paylen.toNat =
        f.pay := by
      rw [show (pmCommit (parsedPm f) s).paylen = BitVec.ofNat 16 f.pay.length from rfl, hm,
        State.memRead_eq_iff]
      intro i hi
      rw [hb, State.readByte_memWrite, if_pos ⟨rfl, by omega, by omega⟩]
      simp [hi]
    unfold State.pmFields
    rw [hsx, hpay]
    rfl
  · rw [show (pmCommit (parsedPm f) s).tag = setPmTags (f.xf.getLsbD 4) (f.xf.getLsbD 1)
      (f.xf.getLsbD 3)
      ((s.commitBlock .sxb (f.xf.getLsbD 3) f.decoded.sx).memWrite .pay 0 f.pay).tag from rfl,
      State.memWrite_tag, State.commitBlock_tag, setPmTags_eq]
    rfl
  · intro a ha
    rw [hb, State.readByte_memWrite, if_neg (by simp), State.readByte_commitBlock, if_neg (by omega)]
  · intro a ha
    rw [hb, State.readByte_memWrite, if_neg (by omega), State.readByte_commitBlock, if_neg (by simp)]
  · unfold pmCommit State.commitBlock State.memWrite
    cases (parsedPm f).sxV <;> rfl

/-- The commit of a Protocol Message writes to no buffer but SXB and PAY. -/
theorem pmCommit_readByte (m : ProtocolMessage) (s : State) {b : BufId} (h₁ : b ≠ .sxb)
    (h₂ : b ≠ .pay) (a : Nat) : (pmCommit m s).readByte b a = s.readByte b a := by
  refine Eq.trans (b := ((s.commitBlock .sxb m.sxV m.sx).memWrite .pay 0 m.pay).readByte b a) rfl ?_
  rw [State.readByte_memWrite, if_neg (by tauto), State.readByte_commitBlock, if_neg (by tauto)]

/-! ### The commit of a message -/

theorem State.mxlen_of_headerFields {t : State} {f : Wire.HeaderFields} (h : t.headerFields = f) :
    t.mxlen.toNat = f.mx.length := by
  subst h; simp [State.headerFields]

theorem State.sxlen_of_pmFields {t : State} {g : Wire.PmFields} (h : t.pmFields = g) :
    t.sxlen.toNat = g.sx.length := by
  subst h; simp [State.pmFields]

theorem State.paylen_of_pmFields {t : State} {g : Wire.PmFields} (h : t.pmFields = g) :
    t.paylen.toNat = g.pay.length := by
  subst h; simp [State.pmFields]

/-- The commit of a message, seen byte by byte in MIC. -/
theorem msgCommit_readByte_mic (h : Header) (m : ProtocolMessage) (x : Bytes) (s : State) (a : Nat) :
    (msgCommit h m x s).readByte .mic a = if a < x.length then x.getD a 0#8 else s.readByte .mic a := by
  refine Eq.trans (b := ((pmCommit m (hdrCommit h s)).memWrite .mic 0 x).readByte .mic a) rfl ?_
  rw [State.readByte_memWrite]
  by_cases ha : a < x.length
  · rw [if_pos ⟨rfl, Nat.zero_le _, by omega⟩, if_pos ha, Nat.sub_zero]
  · rw [if_neg (by omega), if_neg ha, pmCommit_readByte _ _ (by decide) (by decide),
      hdrCommit_readByte _ _ (by decide)]

/-- In every other buffer it is the commit of the Protocol Message after that of the header. -/
theorem msgCommit_readByte (h : Header) (m : ProtocolMessage) (x : Bytes) (s : State) {b : BufId}
    (hb : b ≠ .mic) (a : Nat) :
    (msgCommit h m x s).readByte b a = (pmCommit m (hdrCommit h s)).readByte b a := by
  refine Eq.trans (b := ((pmCommit m (hdrCommit h s)).memWrite .mic 0 x).readByte b a) rfl ?_
  rw [State.readByte_memWrite, if_neg (by tauto)]

/-- Everything the commit of a message does (44_message_assembly R181, 10_state R29). -/
theorem msgCommit_spec (stream : Bool) (f : Wire.HeaderFields) (g : Wire.PmFields) (x : Bytes)
    (s t : State) (ht : t = msgCommit (parsedHeader stream f) (parsedPm g) x s)
    (hf : f.sf.getLsbD 5 = true → f.mx.length < 65536)
    (hg : g.xf.getLsbD 3 = true → g.sx.length < 65536) (hp : g.pay.length < 65536)
    (hx : x.length < 65536) :
    t.headerFields = f.decoded stream ∧ t.pmFields = g.decoded ∧ t.micBytes = x ∧
      t.tag = Wire.pmTag g (Wire.headerTag stream f s.tag) ∧
      SameBytesFrom .mxb t.mxlen.toNat t s ∧ SameBytesFrom .sxb t.sxlen.toNat t s ∧
      SameBytesFrom .pay t.paylen.toNat t s ∧ SameBytesFrom .mic t.miclen.toNat t s ∧
      ((t.withHeaderOf s).withPmOf s).withFooterOf s = s := by
  obtain ⟨a₁, a₂, a₃, a₄⟩ := hdrCommit_spec stream f s hf
  obtain ⟨b₁, b₂, b₃, b₄, b₅⟩ := pmCommit_spec g (hdrCommit (parsedHeader stream f) s) hg hp
  have hc : ∀ b, b ≠ .mic → ∀ n, t.readByte b n =
      (pmCommit (parsedPm g) (hdrCommit (parsedHeader stream f) s)).readByte b n := by
    intro b hb n
    rw [ht, msgCommit_readByte _ _ _ _ hb]
  have hm : ∀ n, t.readByte .mic n = if n < x.length then x.getD n 0#8 else s.readByte .mic n := by
    intro n
    rw [ht, msgCommit_readByte_mic]
  have hH : t.headerFields = f.decoded stream := by
    rw [← a₁]
    unfold State.headerFields
    rw [show t.mxlen = (hdrCommit (parsedHeader stream f) s).mxlen by rw [ht]; simp [msgCommit],
      State.memRead_eq_of_readByte fun n => (hc .mxb (by decide) n).trans
        (pmCommit_readByte _ _ (by decide) (by decide) n), ht]
    simp [msgCommit]
  have hP : t.pmFields = g.decoded := by
    rw [← b₁]
    unfold State.pmFields
    rw [State.memRead_eq_of_readByte (hc .sxb (by decide)),
      State.memRead_eq_of_readByte (hc .pay (by decide)), ht]
    simp [msgCommit]
  have hl : t.miclen.toNat = x.length := by
    rw [ht]
    exact (BitVec.toNat_ofNat _ _).trans (Nat.mod_eq_of_lt hx)
  refine ⟨hH, hP, ?_, ?_, ?_, ?_, ?_, ?_, ?_⟩
  · unfold State.micBytes
    rw [hl, State.memRead_eq_iff]
    intro i hi
    rw [hm, Nat.zero_add, if_pos hi]
    simp [hi]
  · rw [← a₂, ← b₂, ht]
    simp [msgCommit]
  · intro n hn
    rw [hc _ (by decide), pmCommit_readByte _ _ (by decide) (by decide)]
    exact a₃ n ((State.mxlen_of_headerFields hH).symm.trans_le hn)
  · intro n hn
    rw [hc _ (by decide), b₃ n ((State.sxlen_of_pmFields hP).symm.trans_le hn),
      hdrCommit_readByte _ _ (by decide)]
  · intro n hn
    rw [hc _ (by decide), b₄ n ((State.paylen_of_pmFields hP).symm.trans_le hn),
      hdrCommit_readByte _ _ (by decide)]
  · intro n hn
    rw [hm, if_neg (by omega)]
  · rw [ht]
    simp only [State.withHeaderOf, State.withPmOf, State.withFooterOf]
    simp [msgCommit, State.memWrite, State.setBuf]

end Sys2Proof.Machine
end

