-- ==== Sys2Proof/Laws/Commands.lean ====
section
/-! SUPPORT. Each codec command as one equation over its shared operations, in the terms of Safety.lean: what it
emits, what its parse answers, and which crypto-port calls it makes. -/

namespace Sys2Proof.Machine

/-! ### The bytes of the registers -/

theorem hdrBytes_wire (s : State) : hdrBytes s = s.wireHeader := hdrBytes_eq s

theorem pmBytes_wire (s : State) : pmBytes s = s.wirePm := pmBytes_eq s

@[simp] theorem State.wireInput_length (s : State) : s.wireInput.length = s.ilen.toNat := by
  simp [State.wireInput]

theorem ilenTooLong_false {s : State} (h : s.ilen.toNat ≤ Config.cap) : s.ilenTooLong = false :=
  decide_eq_false (Nat.not_lt.2 h)

theorem ilenTooLong_true {s : State} (h : Config.cap < s.ilen.toNat) : s.ilenTooLong = true :=
  decide_eq_true h

/-! ### The encodes -/

/-- ENC_HDR of consistent registers emits the wire header (42_header_codec R142). -/
theorem execEncHdr_of_consistent {s : State} (hc : s.HeaderConsistent) :
    execEncHdr s = .next (s.emit s.wireHeader) := by
  unfold execEncHdr
  rw [if_pos ((hdrCheck_iff s).2 hc), hdrBytes_wire]

theorem execEncHdr_of_inconsistent {s : State} (hc : ¬ s.HeaderConsistent) :
    execEncHdr s = .next (s.raise ⟨.invariantViolation, 0⟩) := by
  unfold execEncHdr
  rw [if_neg fun h => hc ((hdrCheck_iff s).1 h)]

/-- ENC_PM of consistent registers emits the wire Protocol Message (43 R161). -/
theorem execEncPm_of_consistent {s : State} (hc : s.PmConsistent) :
    execEncPm s = .next (s.emit s.wirePm) := by
  unfold execEncPm
  rw [if_pos ((pmCheck_iff s).2 hc), pmBytes_wire]

theorem execEncPm_of_inconsistent {s : State} (hc : ¬ s.PmConsistent) :
    execEncPm s = .next (s.raise ⟨.invariantViolation, 0⟩) := by
  unfold execEncPm
  rw [if_neg fun h => hc ((pmCheck_iff s).1 h)]

theorem messageChecks_iff (s : State) :
    (hdrCheck s && pmCheck s && ftrCheck s) = true ↔
      s.HeaderConsistent ∧ s.PmConsistent ∧ s.FooterConsistent := by
  rw [Bool.and_eq_true, Bool.and_eq_true, hdrCheck_iff, pmCheck_iff, ftrCheck_iff, and_assoc]

/-- Everything ENC_MSG can do (44_message_assembly R180). -/
theorem execEncMsg_cases (s : State) :
    (¬ (s.HeaderConsistent ∧ s.PmConsistent ∧ s.FooterConsistent) ∧
      execEncMsg s = .next (s.raise ⟨.invariantViolation, 0⟩)) ∨
    ((s.HeaderConsistent ∧ s.PmConsistent ∧ s.FooterConsistent) ∧
      (Config.cap < s.wireHeader.length ∨ Config.cap < s.wirePm.length) ∧
      execEncMsg s = .next (s.raise ⟨.outputOverflow, 0⟩)) ∨
    ((s.HeaderConsistent ∧ s.PmConsistent ∧ s.FooterConsistent) ∧
      s.wireHeader.length ≤ Config.cap ∧ s.wirePm.length ≤ Config.cap ∧
      execEncMsg s = .next ((s.encryptCalled s.wirePm).emit
        (s.wireHeader ++ s.encryptAnswerTo s.wirePm ++ s.micBytes))) := by
  unfold execEncMsg
  by_cases hc : (hdrCheck s && pmCheck s && ftrCheck s) = true
  · rw [if_pos hc, hdrBytes_wire, pmBytes_wire]
    refine .inr ?_
    have hc' := (messageChecks_iff s).1 hc
    by_cases hl : (decide (Config.cap < s.wireHeader.length) ||
        decide (Config.cap < s.wirePm.length)) = true
    · refine .inl ⟨hc', ?_, if_pos hl⟩
      simpa using hl
    · refine .inr ⟨hc', ?_, ?_, if_neg hl⟩
      · by_contra h
        exact hl (by simp [Nat.lt_of_not_le h])
      · by_contra h
        exact hl (by simp [Nat.lt_of_not_le h])
  · rw [if_neg hc]
    exact .inl ⟨fun h => hc ((messageChecks_iff s).2 h), rfl⟩

/-! ### The decodes -/

/-- DEC_HDR through its parse (42_header_codec R144). -/
theorem execDecHdr_eq {s : State} (h : s.ilen.toNat ≤ Config.cap) :
    execDecHdr s =
      match hdrParse (s.ctrl.getLsbD 0) s.vermask s.wireInput with
      | .error e => .next (s.raise e)
      | .ok (h, pos) =>
        if s.ctrl.getLsbD 1 && pos != s.ilen.toNat then .next (s.raise ⟨.trailingBytes, pos⟩)
        else .next ((hdrCommit h s).succeedAt pos) := by
  unfold execDecHdr
  rw [ilenTooLong_false h]
  rfl

/-- DEC_PM through its parse (43 R163). -/
theorem execDecPm_eq {s : State} (h : s.ilen.toNat ≤ Config.cap) :
    execDecPm s =
      match pmParse s.wireInput with
      | .error e => .next (s.raise e)
      | .ok m => .next ((pmCommit m s).succeedAt s.ilen.toNat) := by
  unfold execDecPm
  rw [ilenTooLong_false h]
  rfl

theorem header_fits {s : State} {stream : Bool} {f : Wire.HeaderFields} {rest : Bytes}
    (h : s.wireInput = Wire.header stream f ++ rest) :
    (Wire.header stream f).length + rest.length = s.ilen.toNat := by
  rw [← State.wireInput_length, h, List.length_append]

theorem mx_length_lt {stream : Bool} {f : Wire.HeaderFields}
    (h : (Wire.header stream f).length < 65536) : f.sf.getLsbD 5 = true → f.mx.length < 65536 := by
  intro hs
  rw [header_length, if_pos hs] at h
  omega

theorem sx_length_lt {f : Wire.PmFields} (h : (Wire.pmHead f).length < 65536) :
    f.xf.getLsbD 3 = true → f.sx.length < 65536 := by
  intro hs
  rw [pmHead_length, if_pos hs] at h
  omega

/-- The parse of an input that starts with a laid-out header of an accepted version. -/
theorem hdrParse_wireInput {s : State} {f : Wire.HeaderFields} {rest : Bytes}
    (hin : s.wireInput = Wire.header (s.ctrl.getLsbD 0) f ++ rest) (hv : s.AcceptsVersion f.mf) :
    hdrParse (s.ctrl.getLsbD 0) s.vermask s.wireInput =
      .ok (parsedHeader (s.ctrl.getLsbD 0) f, (Wire.header (s.ctrl.getLsbD 0) f).length) := by
  have h₁ := header_fits hin
  exact hdrParse_header hin hv (mx_length_lt (stream := s.ctrl.getLsbD 0) (by omega))

/-- The parse of an input that is a laid-out Protocol Message. -/
theorem pmParse_bytes {x : Bytes} {g : Wire.PmFields} (hl : x.length ≤ Config.cap)
    (hin : x = Wire.pm g) : pmParse x = .ok (parsedPm g) := by
  have h₁ : x.length = (Wire.pmHead g).length + g.pay.length := by
    rw [hin, Wire.pm, List.length_append]
  have h₂ := Config.cap_le
  exact pmParse_pm hin (sx_length_lt (by omega))

/-! ### DEC_MSG -/

/-- The three spans of the input that DEC_MSG works on (44_message_assembly R181). -/
theorem wireInput_spans (s : State) (p f : Nat) (h : p + f ≤ s.ilen.toNat) :
    s.wireInput = s.memRead .ibuf 0 p ++ s.memRead .ibuf p (s.ilen.toNat - f - p)
      ++ s.memRead .ibuf (s.ilen.toNat - f) f := by
  have h₁ := State.memRead_append s .ibuf 0 p (s.ilen.toNat - f - p)
  have h₂ := State.memRead_append s .ibuf 0 (p + (s.ilen.toNat - f - p)) f
  rw [Nat.zero_add] at h₁ h₂
  rw [← h₁, State.wireInput]
  conv_lhs => rw [show s.ilen.toNat = p + (s.ilen.toNat - f - p) + f by omega, h₂]
  rw [show p + (s.ilen.toNat - f - p) = s.ilen.toNat - f by omega]

/-- The input bytes fix ILEN. -/
theorem ilen_of_wireInput {s t : State} (h : s.wireInput = t.wireInput) : s.ilen = t.ilen := by
  have hl := congrArg List.length h
  rw [State.wireInput_length, State.wireInput_length] at hl
  exact BitVec.eq_of_toNat_eq hl

/-- A read inside the input is a span of the input bytes. -/
theorem memRead_ibuf_of_wireInput (s : State) {a n : Nat} (h : a + n ≤ s.ilen.toNat) :
    s.memRead .ibuf a n = (s.wireInput.take (a + n)).drop a := by
  unfold State.wireInput
  rw [State.memRead_take _ _ _ _ _ h, State.memRead_drop _ _ _ _ _ (Nat.le_add_right a n),
    Nat.zero_add, Nat.add_sub_cancel_left]

/-- DEC_MSG after a header parse, by stages (44_message_assembly R181, R182). -/
theorem execDecMsg_eq {s : State} (hl : s.ilen.toNat ≤ Config.cap) :
    execDecMsg s =
      match hdrParse (s.ctrl.getLsbD 0) s.vermask s.wireInput with
      | .error e => .next (s.raise e)
      | .ok (h, p) =>
        if s.ilen.toNat < p + s.footerSize then .next (s.raise ⟨.truncatedInput, p⟩)
        else if s.ctrl.getLsbD 2 = true ∧
            s.verifyAnswerTo 0 (s.memRead .ibuf 0 p)
              (s.memRead .ibuf p (s.ilen.toNat - s.footerSize - p))
              (s.memRead .ibuf (s.ilen.toNat - s.footerSize) s.footerSize) = false then
          .next ((s.verifyCalled (s.memRead .ibuf 0 p)
              (s.memRead .ibuf p (s.ilen.toNat - s.footerSize - p))
              (s.memRead .ibuf (s.ilen.toNat - s.footerSize) s.footerSize)).raise
            ⟨.integrityCheckFailed, p⟩)
        else
          decMsgFinish h p (s.memRead .ibuf (s.ilen.toNat - s.footerSize) s.footerSize)
            (s.decryptAnswerTo s.verifyCount
              (s.memRead .ibuf p (s.ilen.toNat - s.footerSize - p)))
            ((s.verifyCalled (s.memRead .ibuf 0 p)
              (s.memRead .ibuf p (s.ilen.toNat - s.footerSize - p))
              (s.memRead .ibuf (s.ilen.toNat - s.footerSize) s.footerSize)).decryptCalled
              (s.memRead .ibuf p (s.ilen.toNat - s.footerSize - p))) := by
  unfold execDecMsg
  rw [ilenTooLong_false hl, show s.input = s.wireInput from rfl,
    show s.stream = s.ctrl.getLsbD 0 from rfl]
  simp only [Bool.false_eq_true, if_false]
  rcases hdrParse (s.ctrl.getLsbD 0) s.vermask s.wireInput with e | ⟨h, p⟩
  · rfl
  · simp only [show s.footerLength = s.footerSize from rfl]
    by_cases hp : s.ilen.toNat < p + s.footerSize
    · rw [if_pos hp, if_pos hp]
    rw [if_neg hp, if_neg hp]
    generalize s.memRead .ibuf 0 p = hb
    generalize s.memRead .ibuf p (s.ilen.toNat - s.footerSize - p) = ct
    generalize s.memRead .ibuf (s.ilen.toNat - s.footerSize) s.footerSize = mic
    unfold State.verifyStage State.secure
    by_cases hs : s.ctrl.getLsbD 2 = true
    · have hv : s.callVerify hb ct mic = (s.verifyAnswerTo 0 hb ct mic, s.verifyCalled hb ct mic) := by
        unfold State.verifyCalled
        rw [if_pos hs]
        rfl
      have hd : (s.verifyCalled hb ct mic).callDecrypt ct = (s.decryptAnswerTo s.verifyCount ct,
          (s.verifyCalled hb ct mic).decryptCalled ct) := by
        unfold State.verifyCalled State.verifyCount
        rw [if_pos hs, if_pos hs]
        rfl
      rw [if_pos hs, hv]
      cases ha : s.verifyAnswerTo 0 hb ct mic
      · simp [hs]
      · simp only [if_true, Bool.true_eq_false, and_false, if_false, hd]
    · have hd : s.callDecrypt ct = (s.decryptAnswerTo s.verifyCount ct,
          (s.verifyCalled hb ct mic).decryptCalled ct) := by
        unfold State.verifyCalled State.verifyCount
        rw [if_neg hs, if_neg hs]
        rfl
      rw [if_neg hs]
      simp only [if_true, hs, Bool.false_eq_true, false_and, if_false, hd]

/-- The spans are the laid-out header, the ciphertext and the footer. -/
theorem spans_of_wireInput {s : State} {hb ct mic : Bytes} {p : Nat}
    (hin : s.wireInput = hb ++ ct ++ mic) (hm : mic.length = s.footerSize) (hp : p = hb.length) :
    s.memRead .ibuf 0 p = hb ∧ s.memRead .ibuf p (s.ilen.toNat - s.footerSize - p) = ct ∧
      s.memRead .ibuf (s.ilen.toNat - s.footerSize) s.footerSize = mic ∧
      p + s.footerSize ≤ s.ilen.toNat := by
  have hlen : hb.length + ct.length + mic.length = s.ilen.toNat := by
    rw [← State.wireInput_length, hin, List.length_append, List.length_append]
  have hle : p + s.footerSize ≤ s.ilen.toNat := by omega
  have h := wireInput_spans s p s.footerSize hle
  rw [hin] at h
  have h₁ := List.append_inj' h (by rw [State.memRead_length, hm])
  have h₂ := List.append_inj h₁.1 (by rw [State.memRead_length, hp])
  exact ⟨h₂.1.symm, h₂.2.symm, h₁.2.symm, hle⟩

end Sys2Proof.Machine
end

