-- ==== Sys2Proof/Laws/Decode.lean ====
section
/-! SUPPORT. The two fields of a command word: what they are of a word put together from them, and that a
word is put together from them (30_encoding R75). -/

namespace Sys2Proof

theorem opField_append (op imm : Byte) : opField (op ++ imm) = op := by
  apply BitVec.eq_of_getLsbD_eq
  intro i hi
  have h := BitVec.getLsbD_append (x := op) (y := imm) (i := 8 + i)
  rw [if_neg (by omega), Nat.add_sub_cancel_left] at h
  rw [← h, opField, BitVec.getLsbD_extractLsb', decide_eq_true hi, Bool.true_and]

theorem immField_append (op imm : Byte) : immField (op ++ imm) = imm := by
  apply BitVec.eq_of_getLsbD_eq
  intro i hi
  have h := BitVec.getLsbD_append (x := op) (y := imm) (i := i)
  rw [if_pos hi] at h
  rw [← h, immField, BitVec.getLsbD_extractLsb', decide_eq_true hi, Bool.true_and, Nat.zero_add]

/-- A word is its two fields (30_encoding R75). -/
theorem opField_append_immField (w : CommandWord) : opField w ++ immField w = w := by
  unfold opField immField
  ext i hi
  simp only [BitVec.getElem_append, BitVec.getElem_extractLsb']
  split
  · rw [Nat.zero_add]
    exact BitVec.getLsbD_eq_getElem _
  · rw [show 8 + (i - 8) = i by omega]
    exact BitVec.getLsbD_eq_getElem _

/-- What a decoder arm with a k-bit operand does with a word (30_encoding R76, R78). -/
theorem spells_of_operand {op : Byte} {k : Nat} {mk : BitVec k → Instr}
    (h : ∀ imm : Byte, decode (op ++ imm) = operand (op ++ imm) k mk) : Spells op k mk := by
  intro imm
  rw [h, operand, opField_append, immField_append]

/-- What a decoder arm without operand does with a word (30_encoding R76, R78). -/
theorem spells_of_plain {op : Byte} {i : Instr}
    (h : ∀ imm : Byte, decode (op ++ imm) = plain (op ++ imm) i) : SpellsPlain op i := by
  intro imm
  rw [h, plain, opField_append, immField_append]
  have hz : imm = 0#8 ↔ imm.toNat < 2 ^ 0 := by
    rw [← BitVec.toNat_inj]
    simp
  simp [hz]

end Sys2Proof
end

