-- ==== Sys2Proof/Laws/Truncation.lean ====
section
/-! SUPPORT. Every input starts with a laid-out header or is one cut short, and the same for the Protocol Message
up to its payload; so a TruncatedInput stands where the first field that does not fit would start. -/

namespace Sys2Proof.Machine

/-! ### A long input has every field -/

theorem takeField_of_long {w : Nat} {s : Bytes} {pos n : Nat} (h : pos + n ≤ s.length) :
    ∃ v : BitVec w, takeField w s pos n = .ok (v, pos + n) := by
  rcases takeBytes_cases s pos n with ⟨hs, -⟩ | ⟨-, hs⟩
  · omega
  · exact ⟨_, by rw [takeField_eq, hs]⟩

theorem takeOptional_of_long (present : Bool) {w : Nat} {s : Bytes} {pos n : Nat}
    (h : pos + n ≤ s.length) :
    ∃ (v : BitVec w) (p : Nat), takeOptional present w s pos n = .ok (v, p) ∧ p ≤ pos + n := by
  cases present
  · exact ⟨_, pos, takeOptional_false w s pos n, Nat.le_add_right _ _⟩
  · obtain ⟨v, hv⟩ := takeField_of_long (w := w) h
    exact ⟨v, _, (takeOptional_true w s pos n).trans hv, Nat.le_refl _⟩

theorem takeDst_of_long (d : Dsiz) {s : Bytes} {pos : Nat} (h : pos + 8 ≤ s.length) :
    ∃ v p, takeDst d s pos = .ok (v, p) ∧ p ≤ pos + 8 := by
  cases d
  · exact ⟨_, pos, rfl, by omega⟩
  · obtain ⟨v, hv⟩ := takeField_of_long (w := 64) h
    exact ⟨v, _, hv, Nat.le_refl _⟩
  · obtain ⟨v, hv⟩ := takeField_of_long (w := 64) (s := s) (pos := pos) (n := 2) (by omega)
    exact ⟨v, _, hv, by omega⟩
  · exact ⟨_, pos, rfl, by omega⟩

theorem takeBlock_of_long (present : Bool) {s : Bytes} {pos : Nat} (h : pos + 65537 ≤ s.length) :
    ∃ x p, takeBlock present s pos = .ok (x, p) := by
  cases present
  · exact ⟨_, _, takeBlock_false s pos⟩
  · obtain ⟨n, hn⟩ := takeField_of_long (w := 16) (s := s) (pos := pos) (n := 2) (by omega)
    have hlt := n.isLt
    rcases takeBytes_cases s (pos + 2) n.toNat with ⟨hs, -⟩ | ⟨-, hs⟩
    · omega
    · exact ⟨_, _, by rw [takeBlock_eq, hn]; exact hs⟩

theorem accepts_every_version (mf : Byte) :
    (0xFFFF#16).getLsbD (mf.extractLsb' 4 4).toNat = true := by
  revert mf; decide +kernel

/-- An input that is long enough has every field of a header. -/
theorem hdrParse_of_long (stream : Bool) {s : Bytes} (h : 65600 ≤ s.length) :
    ∃ r, hdrParse stream 0xFFFF#16 s = .ok r := by
  rw [hdrParse_eq]
  obtain ⟨len, q, e₁, l₁⟩ :=
    takeOptional_of_long stream (w := 16) (s := s) (pos := 0) (n := 2) (by omega)
  obtain ⟨mf, e₂⟩ := takeField_of_long (w := 8) (s := s) (pos := q) (n := 1) (by omega)
  obtain ⟨sid, e₃⟩ := takeField_of_long (w := 16) (s := s) (pos := q + 1) (n := 2) (by omega)
  obtain ⟨sf, e₄⟩ := takeField_of_long (w := 8) (s := s) (pos := q + 1 + 2) (n := 1) (by omega)
  obtain ⟨ctr, e₅⟩ := takeField_of_long (w := 32) (s := s) (pos := q + 1 + 2 + 1) (n := 4) (by omega)
  obtain ⟨src, p, e₆, l₆⟩ := takeOptional_of_long (mfS mf) (w := 64) (s := s)
    (pos := q + 1 + 2 + 1 + 4) (n := 8) (by omega)
  obtain ⟨dst, p', e₇, l₇⟩ := takeDst_of_long (mfDsiz mf) (s := s) (pos := p) (by omega)
  obtain ⟨mx, p'', e₈⟩ := takeBlock_of_long (sfMx sf) (s := s) (pos := p') (by omega)
  simp only [e₁, e₂, checkVersion_ok (accepts_every_version mf), e₃, e₄, e₅, e₆, e₇, e₈]
  exact ⟨_, rfl⟩

/-- An input that is long enough has every field of a Protocol Message. -/
theorem pmParse_of_long {s : Bytes} (h : 65600 ≤ s.length) : ∃ m, pmParse s = .ok m := by
  rw [pmParse_eq]
  obtain ⟨xf, e₁⟩ := takeField_of_long (w := 8) (s := s) (pos := 0) (n := 1) (by omega)
  obtain ⟨opc, e₂⟩ := takeField_of_long (w := 8) (s := s) (pos := 0 + 1) (n := 1) (by omega)
  obtain ⟨xid, e₃⟩ := takeField_of_long (w := 16) (s := s) (pos := 0 + 1 + 1) (n := 2) (by omega)
  obtain ⟨pid, e₄⟩ := takeField_of_long (w := 16) (s := s) (pos := 0 + 1 + 1 + 2) (n := 2) (by omega)
  obtain ⟨vid, p, e₅, l₅⟩ := takeOptional_of_long (xfV xf) (w := 16) (s := s)
    (pos := 0 + 1 + 1 + 2 + 2) (n := 2) (by omega)
  obtain ⟨ack, p', e₆, l₆⟩ := takeOptional_of_long (xfA xf) (w := 32) (s := s) (pos := p) (n := 4)
    (by omega)
  obtain ⟨sx, p'', e₇⟩ := takeBlock_of_long (xfSx xf) (s := s) (pos := p') (by omega)
  simp only [e₁, e₂, e₃, e₄, e₅, e₆, e₇]
  exact ⟨_, rfl⟩

/-! ### Every input is laid out, or cut short -/

/-- Bytes that begin as `x` does, and what is left of them. -/
theorem prefix_or_cut {s pad x rest : Bytes} (h : s ++ pad = x ++ rest) :
    (x.length ≤ s.length ∧ s = x ++ s.drop x.length) ∨ (s.length < x.length ∧ s = x.take s.length) := by
  by_cases hl : x.length ≤ s.length
  · refine .inl ⟨hl, ?_⟩
    have ht : (s ++ pad).take x.length = x := by rw [h, List.take_left' rfl]
    rw [List.take_append_of_le_length hl] at ht
    conv_lhs => rw [← List.take_append_drop x.length s, ht]
  · refine .inr ⟨Nat.lt_of_not_le hl, ?_⟩
    have ht : (x ++ rest).take s.length = s := by rw [← h, List.take_left' rfl]
    rw [List.take_append_of_le_length (by omega)] at ht
    exact ht.symm

/-- Every input starts with a laid-out header, or is one cut short (30_encoding R61). -/
theorem header_or_cut (stream : Bool) (s : Bytes) :
    ∃ f, f.mx.length < 65536 ∧
      (((Wire.header stream f).length ≤ s.length ∧
          s = Wire.header stream f ++ s.drop (Wire.header stream f).length) ∨
        (s.length < (Wire.header stream f).length ∧
          s = (Wire.header stream f).take s.length)) := by
  obtain ⟨⟨h, p⟩, hr⟩ := hdrParse_of_long stream (s := s ++ List.replicate 65600 0#8)
    (by rw [List.length_append, List.length_replicate]; omega)
  obtain ⟨f, h₁, -, -, -, hx, -⟩ := hdrParse_ok hr
  exact ⟨f, hx, prefix_or_cut h₁⟩

/-- Every input starts with a laid-out Protocol Message up to its payload, or is one cut short
(30_encoding R68). -/
theorem pmHead_or_cut (s : Bytes) :
    ∃ g : Wire.PmFields, g.sx.length < 65536 ∧
      (((Wire.pmHead g).length ≤ s.length ∧
          s = Wire.pmHead g ++ s.drop (Wire.pmHead g).length) ∨
        (s.length < (Wire.pmHead g).length ∧ s = (Wire.pmHead g).take s.length)) := by
  obtain ⟨m, hr⟩ := pmParse_of_long (s := s ++ List.replicate 65600 0#8)
    (by rw [List.length_append, List.length_replicate]; omega)
  obtain ⟨g, h₁, hx, -⟩ := pmParse_ok hr
  exact ⟨g, hx, prefix_or_cut h₁⟩

/-- A laid-out header up to its Message Flags byte (30_encoding R61). -/
theorem header_flags (stream : Bool) (f : Wire.HeaderFields) : ∃ tail,
    Wire.header stream f = (if stream then Wire.u16 f.len else []) ++ [f.mf] ++ tail :=
  ⟨_, by unfold Wire.header; simp only [List.append_assoc]; rfl⟩

/-! ### Where a TruncatedInput stands -/

/-- A TruncatedInput of a header parse: the input is a laid-out header cut short, and the position is that of
the first field that does not fit (60_exceptions R201, 42_header_codec R148). -/
theorem hdrParse_truncated {stream : Bool} {vermask : BitVec 16} {s : Bytes} {e : CodecError}
    (h : hdrParse stream vermask s = .error e) (hk : e.kind = .truncatedInput) :
    ∃ f, f.mx.length < 65536 ∧ s.length < (Wire.header stream f).length ∧
      s = (Wire.header stream f).take s.length ∧
      e.pos = Wire.missingFieldAt s.length 0 (Wire.headerWidths stream f) := by
  obtain ⟨f, hx, ⟨hl, hs⟩ | ⟨hl, hs⟩⟩ := header_or_cut stream s
  · obtain ⟨tail, ht⟩ := header_flags stream f
    cases hv : vermask.getLsbD (f.mf.extractLsb' 4 4).toNat
    · rw [hdrParse_version (len := f.len) (mf := f.mf)
        (hs.trans (by rw [ht, List.append_assoc, List.append_assoc])) hv] at h
      cases h
      cases hk
    · rw [hdrParse_header hs hv fun _ => hx] at h
      cases h
  · refine ⟨f, hx, hl, hs, ?_⟩
    by_cases hf : s.length ≤ if stream then 2 else 0
    · rw [hdrParse_short (f := f) hf] at h
      cases h
      rfl
    cases hv : vermask.getLsbD (f.mf.extractLsb' 4 4).toNat
    · obtain ⟨tail, ht⟩ := header_flags stream f
      have hx : ((if stream then Wire.u16 f.len else []) ++ [f.mf]).length ≤ s.length := by
        cases stream
        · exact Nat.lt_of_not_le hf
        · exact Nat.lt_of_not_le hf
      have hr : s = (if stream then Wire.u16 f.len else []) ++ [f.mf] ++ tail.take (s.length
          - ((if stream then Wire.u16 f.len else []) ++ [f.mf]).length) := by
        conv_lhs => rw [hs, ht, List.take_append, List.take_of_length_le hx]
      rw [hdrParse_version hr hv] at h
      cases h
      cases hk
    · rw [hdrParse_cut hs hl hv fun _ => hx] at h
      cases h
      rfl

/-- A TruncatedInput of a Protocol Message parse: the input is one cut short before its payload, and the
position is that of the first field that does not fit (60_exceptions R201, 43 R164). -/
theorem pmParse_truncated {s : Bytes} {e : CodecError} (h : pmParse s = .error e) :
    ∃ g : Wire.PmFields, g.sx.length < 65536 ∧ s.length < (Wire.pmHead g).length ∧
      s = (Wire.pmHead g).take s.length ∧
      e.pos = Wire.missingFieldAt s.length 0 (Wire.pmWidths g) := by
  obtain ⟨g, hx, ⟨-, hs⟩ | ⟨hl, hs⟩⟩ := pmHead_or_cut s
  · rw [pmParse_pm (f := { g with pay := s.drop (Wire.pmHead g).length }) hs fun _ => hx] at h
    cases h
  · rw [pmParse_cut hs hl fun _ => hx] at h
    cases h
    exact ⟨g, hx, hl, hs, rfl⟩

end Sys2Proof.Machine
end

