-- ==== Sys2Proof/Laws/Outcomes.lean ====
section
/-! SUPPORT. Everything a decode command can do, one case for each outcome of 60_exceptions, and what an
outcome leaves alone. -/

namespace Sys2Proof.Machine

/-! ### Every command that is no codec -/

/-- A command that is no codec sets STATUS to OK and writes at most RES and the flag bytes; RES only when
it is of the read type (10_state R32, 40_flag_ops, 41_enum_ops). -/
theorem exec_plain {i : Instr} {s t : State} (hi : isCodec i = false) (h : exec i s = .next t) :
    t = { s with status := 0x00#8, res := t.res, mf := t.mf, sf := t.sf, xf := t.xf } ∧
      (isReadType i = false → t.res = s.res) := by
  cases i <;> first
    | exact Bool.noConfusion (show true = false from hi)
    | (cases h
       refine ⟨rfl, fun hr => ?_⟩
       first
         | rfl
         | exact Bool.noConfusion (show true = false from hr))

theorem codec_cases {i : Instr} (h : isCodec i = true) :
    i = .encHdr ∨ i = .decHdr ∨ i = .encPm ∨ i = .decPm ∨ i = .encMsg ∨ i = .decMsg := by
  cases i <;> simp_all [isCodec]

/-! ### The record of observations -/

theorem newObservations_of_append {s t : State} {x : List Observation} (h : t.obs = s.obs ++ x) :
    newObservations s t = x := by
  unfold newObservations
  rw [h, List.drop_left]

theorem newObservations_of_eq {s t : State} (h : t.obs = s.obs) : newObservations s t = [] := by
  unfold newObservations
  rw [h, List.drop_length]

/-! ### The codes of a parse's errors -/

theorem hdrParse_error_code {stream : Bool} {vermask : BitVec 16} {x : Bytes} {e : CodecError}
    (h : hdrParse stream vermask x = .error e) : e.kind.code = 0x01#8 ∨ e.kind.code = 0x06#8 := by
  rcases (hdrParse_error h).1 with h | ⟨rfl, -⟩
  · rw [h]; exact .inl rfl
  · exact .inr rfl

theorem pmParse_error_code {x : Bytes} {e : CodecError} (h : pmParse x = .error e) :
    e.kind.code = 0x01#8 := by
  rw [(pmParse_error h).1]
  rfl

/-! ### The position of an error -/

/-- An error of the header parse stands where the table says (60_exceptions R200, R201). -/
theorem State.reportsAt_of_hdrParse {s : State} {e : CodecError}
    (h : hdrParse (s.ctrl.getLsbD 0) s.vermask s.wireInput = .error e) {i : Instr}
    (hi : i = .decHdr ∨ i = .decMsg) : s.ReportsAt i e.kind e.pos := by
  rcases (hdrParse_error h).1 with hk | ⟨rfl, -⟩
  · obtain ⟨f, h₁, h₂, h₃, h₄⟩ := hdrParse_truncated h hk
    rw [State.wireInput_length] at h₂ h₃ h₄
    have hc : s.HeaderCutAt e.pos := ⟨f, h₁, h₂, h₃, h₄⟩
    rw [hk]
    rcases hi with rfl | rfl
    · exact .inl ⟨rfl, hc⟩
    · exact .inr (.inr ⟨rfl, .inl hc⟩)
  · exact ⟨hi, rfl⟩

/-- An error of the Protocol Message parse of the input stands where the table says (60_exceptions R200,
R201). -/
theorem State.reportsAt_of_pmParse {s : State} {e : CodecError} (h : pmParse s.wireInput = .error e) :
    s.ReportsAt .decPm e.kind e.pos := by
  obtain ⟨g, h₁, h₂, h₃, h₄⟩ := pmParse_truncated h
  rw [State.wireInput_length] at h₂ h₃ h₄
  rw [(pmParse_error h).1]
  exact .inr (.inl ⟨rfl, g, h₁, h₂, h₃, h₄⟩)

/-- A kind that a command may report is one of its own codes (60_exceptions R200, R202). -/
theorem State.possible_of_reportsAt {s : State} {i : Instr} {k : ErrorKind} {p : Nat}
    (h : s.ReportsAt i k p) : k.code ∈ possibleCodes i ∧ producedCode k.code = true := by
  cases k <;> simp only [State.ReportsAt] at h
  · rcases h with ⟨rfl, -⟩ | ⟨rfl, -⟩ | ⟨rfl, -⟩ <;> decide
  · obtain ⟨rfl, -⟩ := h
    decide
  · obtain ⟨rfl, -⟩ := h
    decide
  · obtain ⟨rfl, -⟩ := h
    decide
  · obtain ⟨rfl | rfl, -⟩ := h <;> decide
  · obtain ⟨h, -⟩ := h
    simp only [List.mem_cons, List.not_mem_nil, or_false] at h
    rcases h with rfl | rfl | rfl | rfl | rfl | rfl <;> decide
  · rcases h with ⟨h, -⟩ | ⟨rfl, -⟩
    · simp only [List.mem_cons, List.not_mem_nil, or_false] at h
      rcases h with rfl | rfl | rfl <;> decide
    · decide

/-! ### DEC_HDR -/

/-- Everything DEC_HDR can do (42_header_codec R144 to R150). -/
theorem execDecHdr_cases (s : State) :
    (Config.cap < s.ilen.toNat ∧ execDecHdr s = .next (s.raise ⟨.invariantViolation, 0⟩)) ∨
    (s.ilen.toNat ≤ Config.cap ∧ ∃ e, hdrParse (s.ctrl.getLsbD 0) s.vermask s.wireInput = .error e ∧
      execDecHdr s = .next (s.raise e)) ∨
    (s.ilen.toNat ≤ Config.cap ∧ ∃ f rest,
      s.wireInput = Wire.header (s.ctrl.getLsbD 0) f ++ rest ∧ s.AcceptsVersion f.mf ∧
      f.mx.length < 65536 ∧ f.len = (f.decoded (s.ctrl.getLsbD 0)).len ∧
      f.src = (f.decoded (s.ctrl.getLsbD 0)).src ∧ f.dst = (f.decoded (s.ctrl.getLsbD 0)).dst ∧
      f.mx = (f.decoded (s.ctrl.getLsbD 0)).mx ∧
      ((s.ctrl.getLsbD 1 = true ∧ rest ≠ [] ∧ execDecHdr s =
          .next (s.raise ⟨.trailingBytes, (Wire.header (s.ctrl.getLsbD 0) f).length⟩)) ∨
        ((s.ctrl.getLsbD 1 = true → rest = []) ∧ execDecHdr s =
          .next ((hdrCommit (parsedHeader (s.ctrl.getLsbD 0) f) s).succeedAt
            (Wire.header (s.ctrl.getLsbD 0) f).length)))) := by
  by_cases hl : s.ilen.toNat ≤ Config.cap
  · refine .inr ?_
    rw [execDecHdr_eq hl]
    rcases hp : hdrParse (s.ctrl.getLsbD 0) s.vermask s.wireInput with e | ⟨h, p⟩
    · exact .inl ⟨hl, e, rfl, rfl⟩
    · obtain ⟨f, h₁, h₂, h₃, h₄, h₅, h₆, h₇, h₈, h₉, h₁₀⟩ := hdrParse_ok hp
      have hn : p + (s.wireInput.drop p).length = s.ilen.toNat := by
        rw [List.length_drop, State.wireInput_length] at *
        omega
      have hr : s.wireInput.drop p = [] ↔ p = s.ilen.toNat := by
        rw [← List.length_eq_zero_iff]
        omega
      refine .inr ⟨hl, f, s.wireInput.drop p, h₁, h₄, h₅, h₇, h₈, h₉, h₁₀, ?_⟩
      rw [← h₂, ← h₆, Ne, hr]
      cases hx : s.ctrl.getLsbD 1
      · exact .inr ⟨fun h => (Bool.false_ne_true h).elim, rfl⟩
      · by_cases hq : p = s.ilen.toNat
        · exact .inr ⟨fun _ => hq, by simp [hq]⟩
        · exact .inl ⟨rfl, hq, by simp [hq]⟩
  · refine .inl ⟨Nat.lt_of_not_le hl, ?_⟩
    unfold execDecHdr
    rw [ilenTooLong_true (Nat.lt_of_not_le hl)]
    rfl

/-! ### DEC_PM -/

/-- Everything DEC_PM can do (43_protocol_message_codec R163 to R165). -/
theorem execDecPm_cases (s : State) :
    (Config.cap < s.ilen.toNat ∧ execDecPm s = .next (s.raise ⟨.invariantViolation, 0⟩)) ∨
    (s.ilen.toNat ≤ Config.cap ∧ ∃ e, pmParse s.wireInput = .error e ∧
      execDecPm s = .next (s.raise e)) ∨
    (s.ilen.toNat ≤ Config.cap ∧ ∃ g, s.wireInput = Wire.pm g ∧ g.sx.length < 65536 ∧
      g.vid = g.decoded.vid ∧ g.ack = g.decoded.ack ∧ g.sx = g.decoded.sx ∧
      execDecPm s = .next ((pmCommit (parsedPm g) s).succeedAt s.ilen.toNat)) := by
  by_cases hl : s.ilen.toNat ≤ Config.cap
  · refine .inr ?_
    rw [execDecPm_eq hl]
    rcases hp : pmParse s.wireInput with e | m
    · exact .inl ⟨hl, e, rfl, rfl⟩
    · obtain ⟨g, h₁, h₂, h₃, h₄, h₅, h₆⟩ := pmParse_ok hp
      exact .inr ⟨hl, g, h₁, h₂, h₄, h₅, h₆, by rw [h₃]⟩
  · refine .inl ⟨Nat.lt_of_not_le hl, ?_⟩
    unfold execDecPm
    rw [ilenTooLong_true (Nat.lt_of_not_le hl)]
    rfl

/-! ### DEC_MSG -/

/-- Everything the last stage of DEC_MSG can do (44_message_assembly R181, R182). -/
theorem decMsgFinish_cases (h : Header) (p : Nat) (mic : Bytes) (r : Option Bytes) (s : State) :
    (∃ k, (k = .decryptionFailed ∧ r = none ∨
        k = .outputOverflow ∧ (∃ pt, r = some pt ∧ Config.cap < pt.length) ∨
        k = .truncatedInput ∧ ∃ pt e, r = some pt ∧ pt.length ≤ Config.cap ∧ pmParse pt = .error e) ∧
      decMsgFinish h p mic r s = .next (s.raise ⟨k, p⟩)) ∨
    (∃ g, r = some (Wire.pm g) ∧ (Wire.pm g).length ≤ Config.cap ∧ g.sx.length < 65536 ∧
      g.vid = g.decoded.vid ∧ g.ack = g.decoded.ack ∧ g.sx = g.decoded.sx ∧
      decMsgFinish h p mic r s =
        .next ((msgCommit h (parsedPm g) mic s).succeedAt s.ilen.toNat)) := by
  unfold decMsgFinish
  rcases r with _ | pt
  · exact .inl ⟨_, .inl ⟨rfl, rfl⟩, rfl⟩
  · by_cases hl : Config.cap < pt.length
    · exact .inl ⟨_, .inr (.inl ⟨rfl, pt, rfl, hl⟩), by simp only [if_pos hl]⟩
    · simp only [if_neg hl]
      rcases hp : pmParse pt with e | m
      · refine .inl ⟨_, .inr (.inr ⟨rfl, pt, e, rfl, Nat.le_of_not_lt hl, hp⟩), ?_⟩
        simp only [(pmParse_error hp).1]
      · obtain ⟨g, h₁, h₂, h₃, h₄, h₅, h₆⟩ := pmParse_ok hp
        refine .inr ⟨g, by rw [h₁], by rw [← h₁]; exact Nat.le_of_not_lt hl, h₂, h₄, h₅, h₆, ?_⟩
        simp only [h₃]

/-- Everything DEC_MSG can do, stage by stage (44_message_assembly R181, R182). -/
theorem execDecMsg_cases (s : State) :
    (Config.cap < s.ilen.toNat ∧ execDecMsg s = .next (s.raise ⟨.invariantViolation, 0⟩)) ∨
    (s.ilen.toNat ≤ Config.cap ∧ ∃ e, hdrParse (s.ctrl.getLsbD 0) s.vermask s.wireInput = .error e ∧
      execDecMsg s = .next (s.raise e)) ∨
    (s.ilen.toNat ≤ Config.cap ∧ ∃ f rest,
      s.wireInput = Wire.header (s.ctrl.getLsbD 0) f ++ rest ∧ s.AcceptsVersion f.mf ∧
      f.mx.length < 65536 ∧ f.len = (f.decoded (s.ctrl.getLsbD 0)).len ∧
      f.src = (f.decoded (s.ctrl.getLsbD 0)).src ∧ f.dst = (f.decoded (s.ctrl.getLsbD 0)).dst ∧
      f.mx = (f.decoded (s.ctrl.getLsbD 0)).mx ∧
      ((rest.length < s.footerSize ∧ execDecMsg s =
          .next (s.raise ⟨.truncatedInput, (Wire.header (s.ctrl.getLsbD 0) f).length⟩)) ∨
        ∃ ct mic, rest = ct ++ mic ∧ mic.length = s.footerSize ∧
          ((s.ctrl.getLsbD 2 = true ∧
              s.verifyAnswerTo 0 (Wire.header (s.ctrl.getLsbD 0) f) ct mic = false ∧
              execDecMsg s =
                .next ((s.verifyCalled (Wire.header (s.ctrl.getLsbD 0) f) ct mic).raise
                  ⟨.integrityCheckFailed, (Wire.header (s.ctrl.getLsbD 0) f).length⟩)) ∨
            ((s.ctrl.getLsbD 2 = true →
                s.verifyAnswerTo 0 (Wire.header (s.ctrl.getLsbD 0) f) ct mic = true) ∧
              execDecMsg s =
                decMsgFinish (parsedHeader (s.ctrl.getLsbD 0) f)
                  (Wire.header (s.ctrl.getLsbD 0) f).length mic (s.decryptAnswerTo s.verifyCount ct)
                  ((s.verifyCalled (Wire.header (s.ctrl.getLsbD 0) f) ct mic).decryptCalled ct))))) := by
  by_cases hl : s.ilen.toNat ≤ Config.cap
  · refine .inr ?_
    rcases hp : hdrParse (s.ctrl.getLsbD 0) s.vermask s.wireInput with e | ⟨h, p⟩
    · refine .inl ⟨hl, e, rfl, ?_⟩
      rw [execDecMsg_eq hl, hp]
    · obtain ⟨f, h₁, h₂, h₃, h₄, h₅, h₆, h₇, h₈, h₉, h₁₀⟩ := hdrParse_ok hp
      refine .inr ⟨hl, f, s.wireInput.drop p, h₁, h₄, h₅, h₇, h₈, h₉, h₁₀, ?_⟩
      have hn : p + (s.wireInput.drop p).length = s.ilen.toNat := by
        rw [List.length_drop, State.wireInput_length] at *
        omega
      have hx := execDecMsg_eq hl
      rw [hp] at hx
      simp only at hx
      by_cases hf : s.ilen.toNat < p + s.footerSize
      · rw [if_pos hf] at hx
        exact .inl ⟨by omega, by rw [← h₂]; exact hx⟩
      · rw [if_neg hf] at hx
        have hs := wireInput_spans s p s.footerSize (by omega)
        have hhb : s.memRead .ibuf 0 p = Wire.header (s.ctrl.getLsbD 0) f := by
          rw [List.append_assoc, h₁] at hs
          exact (List.append_inj hs (by rw [State.memRead_length, h₂])).1.symm
        rw [hhb] at hx hs
        refine .inr ⟨s.memRead .ibuf p (s.ilen.toNat - s.footerSize - p),
          s.memRead .ibuf (s.ilen.toNat - s.footerSize) s.footerSize, ?_,
          State.memRead_length _ _ _ _, ?_⟩
        · rw [List.append_assoc, h₁] at hs
          exact (List.append_inj hs rfl).2
        · rw [← h₂, ← h₆]
          split at hx
          · exact .inl ⟨by tauto, by tauto, hx⟩
          · refine .inr ⟨fun h₂ => ?_, hx⟩
            rename_i hv
            simpa [h₂] using hv
  · refine .inl ⟨Nat.lt_of_not_le hl, ?_⟩
    unfold execDecMsg
    rw [ilenTooLong_true (Nat.lt_of_not_le hl)]
    rfl

end Sys2Proof.Machine
end

