-- ==== Sys2Proof/Laws/PerInstr.lean ====
section
/-! SUPPORT. The family of statements about every instruction as syntax: its word is a legal word of the
opcode table, and its operand is in range. One lemma for each instruction. -/

namespace Sys2Proof.Laws.EncodesLegalWord

/-- The instruction's word is covered by a row of the opcode table (30_encoding R77, R79), its low byte is
the operand, and the operand is a k-bit value (30_encoding R76). -/
def Statement (i : Instr) : Prop :=
  legalWord (encode i) = true ∧ (immField (encode i)).toNat = i.operand.2 ∧ i.wf = true

theorem every (i : Instr) : Statement i := by
  unfold Statement
  cases i <;> first
    | decide +kernel
    | rename_i imm; revert imm; decide +kernel

theorem nop : Statement .nop := every _

theorem ldmf (imm : BitVec 8) : Statement (.ldmf imm) := every _

theorem rdmf : Statement .rdmf := every _

theorem getVer : Statement .getVer := every _

theorem setVer (imm : BitVec 4) : Statement (.setVer imm) := every _

theorem getS : Statement .getS := every _

theorem setS (imm : BitVec 1) : Statement (.setS imm) := every _

theorem getDsiz : Statement .getDsiz := every _

theorem setDsiz (imm : BitVec 2) : Statement (.setDsiz imm) := every _

theorem ldsf (imm : BitVec 8) : Statement (.ldsf imm) := every _

theorem rdsf : Statement .rdsf := every _

theorem getP : Statement .getP := every _

theorem setP (imm : BitVec 1) : Statement (.setP imm) := every _

theorem getC : Statement .getC := every _

theorem setC (imm : BitVec 1) : Statement (.setC imm) := every _

theorem getMx : Statement .getMx := every _

theorem setMx (imm : BitVec 1) : Statement (.setMx imm) := every _

theorem getSt : Statement .getSt := every _

theorem setSt (imm : BitVec 2) : Statement (.setSt imm) := every _

theorem ldxf (imm : BitVec 8) : Statement (.ldxf imm) := every _

theorem rdxf : Statement .rdxf := every _

theorem getI : Statement .getI := every _

theorem setI (imm : BitVec 1) : Statement (.setI imm) := every _

theorem getA : Statement .getA := every _

theorem setA (imm : BitVec 1) : Statement (.setA imm) := every _

theorem getR : Statement .getR := every _

theorem setR (imm : BitVec 1) : Statement (.setR imm) := every _

theorem getSx : Statement .getSx := every _

theorem setSx (imm : BitVec 1) : Statement (.setSx imm) := every _

theorem getV : Statement .getV := every _

theorem setV (imm : BitVec 1) : Statement (.setV imm) := every _

theorem dsizDec (imm : BitVec 8) : Statement (.dsizDec imm) := every _

theorem dsizEnc (imm : BitVec 2) : Statement (.dsizEnc imm) := every _

theorem stDec (imm : BitVec 8) : Statement (.stDec imm) := every _

theorem stEnc (imm : BitVec 2) : Statement (.stEnc imm) := every _

theorem encHdr : Statement .encHdr := every _

theorem decHdr : Statement .decHdr := every _

theorem encPm : Statement .encPm := every _

theorem decPm : Statement .decPm := every _

theorem encMsg : Statement .encMsg := every _

theorem decMsg : Statement .decMsg := every _

end Sys2Proof.Laws.EncodesLegalWord
end

