-- ==== Sys2Proof/Tests/Slice0.lean ====
section
/-! SUPPORT. Tests on fixed values, each about one step, taken from the spec's encodings (30_encoding R77) and
its vectors (95_test_vectors), and the witnesses: for each statement with hypotheses, values that meet
them. A byte string is written as the spec lists it, the lowest offset first. -/

namespace Sys2Proof.Tests

open Sys2Proof.Machine

/-! ### Helpers -/

/-- The state a command leaves. -/
def after (i : Instr) (s : State) : State :=
  match exec i s with
  | .next t => t
  | .fault f => nomatch f
  | .refused _ => s

/-- The reset state with bytes in IBUF and a CTRL value. -/
def given (ctrl : Byte) (x : Bytes) : State :=
  { State.reset.memWrite .ibuf 0 x with ctrl := ctrl, ilen := BitVec.ofNat 16 x.length }

theorem le_cap {n : Nat} (h : n ≤ 64) : n ≤ Config.cap := Nat.le_trans h Config.cap_ge

/-- The header fields of 95_test_vectors section 2.3.1, the longest row. -/
def longFields : Wire.HeaderFields :=
  ⟨0x0123#16, 0x15#8, 0x0042#16, 0x20#8, 1#32, 0x1122334455667788#64, 0x8877665544332211#64,
    [0xE1#8, 0xE2#8, 0xE3#8]⟩

/-- Its 31 bytes. -/
def longBytes : Bytes :=
  [0x23#8, 0x01#8, 0x15#8, 0x42#8, 0x00#8, 0x20#8, 0x01#8, 0x00#8, 0x00#8, 0x00#8,
   0x88#8, 0x77#8, 0x66#8, 0x55#8, 0x44#8, 0x33#8, 0x22#8, 0x11#8,
   0x11#8, 0x22#8, 0x33#8, 0x44#8, 0x55#8, 0x66#8, 0x77#8, 0x88#8, 0x03#8, 0x00#8,
   0xE1#8, 0xE2#8, 0xE3#8]

/-- The 18 bytes of example (a2) of 95_test_vectors section 1.1. -/
def exampleBytes : Bytes :=
  [0x16#8, 0x42#8, 0x00#8, 0x00#8, 0x01#8, 0x00#8, 0x00#8, 0x00#8,
   0x88#8, 0x77#8, 0x66#8, 0x55#8, 0x44#8, 0x33#8, 0x22#8, 0x11#8, 0xAB#8, 0x00#8]

/-- Its fields. -/
def exampleFields : Wire.HeaderFields :=
  ⟨0#16, 0x16#8, 0x0042#16, 0x00#8, 1#32, 0x1122334455667788#64, 0x00AB#64, []⟩

/-- The Protocol Message fields of 95_test_vectors section 2.4.1, the last row. -/
def pmFields : Wire.PmFields :=
  ⟨0x1B#8, 0x05#8, 0x1234#16, 0x0001#16, 0xFFF1#16, 0x12345678#32, [0x5A#8, 0x5B#8],
    [0xAA#8, 0xBB#8, 0xCC#8]⟩

/-- Its 19 bytes. -/
def pmBytes : Bytes :=
  [0x1B#8, 0x05#8, 0x34#8, 0x12#8, 0x01#8, 0x00#8, 0xF1#8, 0xFF#8, 0x78#8, 0x56#8, 0x34#8, 0x12#8,
   0x02#8, 0x00#8, 0x5A#8, 0x5B#8, 0xAA#8, 0xBB#8, 0xCC#8]

/-- The 12 plaintext bytes of 95_test_vectors section 2.5.1, and their fields. -/
def plaintext : Bytes :=
  [0x03#8, 0x05#8, 0x34#8, 0x12#8, 0x01#8, 0x00#8, 0x78#8, 0x56#8, 0x34#8, 0x12#8, 0xAA#8, 0xBB#8]

def plainFields : Wire.PmFields :=
  ⟨0x03#8, 0x05#8, 0x1234#16, 0x0001#16, 0#16, 0x12345678#32, [], [0xAA#8, 0xBB#8]⟩

/-- The 13 ciphertext bytes of section 2.5.2. -/
def ciphertext : Bytes :=
  [0x59#8, 0x5F#8, 0x6E#8, 0x48#8, 0x5B#8, 0x5A#8, 0x22#8, 0x0C#8, 0x6E#8, 0x48#8, 0xF0#8, 0xE1#8,
   0x99#8]

/-- Its footer: sixteen bytes 0xD9. -/
def footer : Bytes := List.replicate 16 0xD9#8

/-- The registers of sections 2.3.1 and 2.4.1, last rows, CTRL.STREAM = 1. -/
def rowState : State :=
  { ((State.reset.memWrite .mxb 0 longFields.mx).memWrite .sxb 0 pmFields.sx).memWrite .pay 0
      pmFields.pay with
    ctrl := 0x01#8
    tag := 0xF7#8
    len := 0x0123#16
    mf := 0x15#8
    sid := 0x0042#16
    sf := 0x20#8
    ctr := 1#32
    src := 0x1122334455667788#64
    dst := 0x8877665544332211#64
    mxlen := 3#16
    xf := 0x1B#8
    opc := 0x05#8
    xid := 0x1234#16
    pid := 0x0001#16
    vid := 0xFFF1#16
    ack := 0x12345678#32
    sxlen := 2#16
    paylen := 3#16 }

/-- The registers of section 2.5.2: a secure session, MIC sixteen bytes 0xD9. The collaborator's next
answers are those of the fixture K1. -/
def secureState : State :=
  { (State.reset.memWrite .pay 0 [0xAA#8, 0xBB#8]).memWrite .mic 0 footer with
    ctrl := 0x04#8
    tag := 0x4A#8
    mf := 0x16#8
    sid := 0x0042#16
    ctr := 1#32
    src := 0x1122334455667788#64
    dst := 0x00AB#64
    xf := 0x03#8
    opc := 0x05#8
    xid := 0x1234#16
    pid := 0x0001#16
    ack := 0x12345678#32
    paylen := 2#16
    miclen := 16#16
    encryptAnswers := [ciphertext]
    verifyAnswers := [true]
    decryptAnswers := [some plaintext] }

/-- The 47 message bytes of section 2.5.2 as input of a secure session with the given answers. -/
def message (verdict : Bool) (answer : Option Bytes) : State :=
  { given 0x04#8 (exampleBytes ++ ciphertext ++ footer) with
    verifyAnswers := [verdict]
    decryptAnswers := [answer] }

/-- Registers whose header is longer than any buffer: MXLEN = CAP, tagged. -/
def longHeader : State :=
  { State.reset with sf := 0x20#8, tag := 0x10#8, mxlen := BitVec.ofNat 16 Config.cap }

/-- Registers whose Protocol Message is longer than any buffer: PAYLEN = CAP. -/
def longPm : State := { State.reset with paylen := BitVec.ofNat 16 Config.cap }

/-! ### Well-formedness: what the checks refuse -/

theorem test_wide_register_value_refused : (HostEvent.regWrite 0x04 256).wf = false := by decide

theorem test_register_value_accepted : (HostEvent.regWrite 0x04 255).wf = true := by decide

theorem test_wide_command_word_refused : (HostEvent.regWrite 0x00 0x10000).wf = false := by decide

theorem test_wide_abandoned_word_refused : (HostEvent.resetDuring 0x10000 0).wf = false := by decide

/-- Every instruction is well formed: the operand types hold exactly the values of 30_encoding R76; a word with
a wider operand is refused by the decoder (95_test_vectors section 2.6.1). -/
theorem test_illegal_words_refused :
    ([0x0001#16, 0x0100#16, 0x1101#16, 0x1310#16, 0x1502#16, 0x1704#16, 0x1800#16, 0x2904#16,
      0x2A00#16, 0x3B02#16, 0x3C00#16, 0x4104#16, 0x4400#16, 0x8001#16, 0x8600#16, 0xFFFF#16].all
      fun w => (decode w).toOption.isNone && !legalWord w) = true := by decide

theorem test_reset_memory_wf : ∀ b, (State.reset.buf b).wf = true := by intro b; cases b <;> rfl

/-! ### Decoding: a word of every command, from the spec's encoding (30_encoding R75 to R77) -/

theorem test_decode_system : decode 0x0000#16 = .ok .nop := by decide

theorem test_decode_mf :
    decode 0x10FF#16 = .ok (.ldmf 0xFF#8) ∧ decode 0x1100#16 = .ok .rdmf ∧
    decode 0x1200#16 = .ok .getVer ∧ decode 0x130F#16 = .ok (.setVer 15#4) ∧
    decode 0x1400#16 = .ok .getS ∧ decode 0x1501#16 = .ok (.setS 1#1) ∧
    decode 0x1600#16 = .ok .getDsiz ∧ decode 0x1703#16 = .ok (.setDsiz 3#2) := by decide

theorem test_decode_sf :
    decode 0x20FE#16 = .ok (.ldsf 0xFE#8) ∧ decode 0x2100#16 = .ok .rdsf ∧
    decode 0x2200#16 = .ok .getP ∧ decode 0x2301#16 = .ok (.setP 1#1) ∧
    decode 0x2400#16 = .ok .getC ∧ decode 0x2500#16 = .ok (.setC 0#1) ∧
    decode 0x2600#16 = .ok .getMx ∧ decode 0x2701#16 = .ok (.setMx 1#1) ∧
    decode 0x2800#16 = .ok .getSt ∧ decode 0x2902#16 = .ok (.setSt 2#2) := by decide

theorem test_decode_xf :
    decode 0x30E3#16 = .ok (.ldxf 0xE3#8) ∧ decode 0x3100#16 = .ok .rdxf ∧
    decode 0x3200#16 = .ok .getI ∧ decode 0x3301#16 = .ok (.setI 1#1) ∧
    decode 0x3400#16 = .ok .getA ∧ decode 0x3500#16 = .ok (.setA 0#1) ∧
    decode 0x3600#16 = .ok .getR ∧ decode 0x3701#16 = .ok (.setR 1#1) ∧
    decode 0x3800#16 = .ok .getSx ∧ decode 0x3901#16 = .ok (.setSx 1#1) ∧
    decode 0x3A00#16 = .ok .getV ∧ decode 0x3B01#16 = .ok (.setV 1#1) := by decide

theorem test_decode_enum :
    decode 0x4016#16 = .ok (.dsizDec 0x16#8) ∧ decode 0x4102#16 = .ok (.dsizEnc 2#2) ∧
    decode 0x42E1#16 = .ok (.stDec 0xE1#8) ∧ decode 0x4303#16 = .ok (.stEnc 3#2) := by decide

theorem test_decode_codec :
    decode 0x8000#16 = .ok .encHdr ∧ decode 0x8100#16 = .ok .decHdr ∧
    decode 0x8200#16 = .ok .encPm ∧ decode 0x8300#16 = .ok .decPm ∧
    decode 0x8400#16 = .ok .encMsg ∧ decode 0x8500#16 = .ok .decMsg := by decide

/-! ### The flag-byte commands (95_test_vectors section 2.1.1) -/

theorem test_ldmf :
    (after (.ldmf 0x16#8) { State.reset with mf := 0x00#8 }).mf = 0x16#8 ∧
    (after (.ldmf 0x16#8) { State.reset with mf := 0x00#8 }).res = 0x00#8 := by
  decide

theorem test_ldmf_2 :
    (after (.ldmf 0x00#8) { State.reset with mf := 0xFF#8 }).mf = 0x00#8 ∧
    (after (.ldmf 0x00#8) { State.reset with mf := 0xFF#8 }).res = 0x00#8 := by
  decide

theorem test_rdmf :
    (after .rdmf { State.reset with mf := 0x16#8 }).res = 0x16#8 ∧
    (after .rdmf { State.reset with mf := 0x16#8 }).mf = 0x16#8 := by
  decide

theorem test_getVer :
    (after .getVer { State.reset with mf := 0x9E#8 }).res = 0x09#8 ∧
    (after .getVer { State.reset with mf := 0x9E#8 }).mf = 0x9E#8 := by
  decide

theorem test_setVer :
    (after (.setVer 0#4) { State.reset with mf := 0x9E#8 }).mf = 0x0E#8 ∧
    (after (.setVer 0#4) { State.reset with mf := 0x9E#8 }).res = 0x00#8 := by
  decide

theorem test_setVer_2 :
    (after (.setVer 15#4) { State.reset with mf := 0x06#8 }).mf = 0xF6#8 ∧
    (after (.setVer 15#4) { State.reset with mf := 0x06#8 }).res = 0x00#8 := by
  decide

theorem test_getS :
    (after .getS { State.reset with mf := 0x9E#8 }).res = 0x01#8 ∧
    (after .getS { State.reset with mf := 0x9E#8 }).mf = 0x9E#8 := by
  decide

theorem test_setS :
    (after (.setS 0#1) { State.reset with mf := 0x9E#8 }).mf = 0x9A#8 ∧
    (after (.setS 0#1) { State.reset with mf := 0x9E#8 }).res = 0x00#8 := by
  decide

theorem test_setS_2 :
    (after (.setS 1#1) { State.reset with mf := 0x12#8 }).mf = 0x16#8 ∧
    (after (.setS 1#1) { State.reset with mf := 0x12#8 }).res = 0x00#8 := by
  decide

theorem test_getDsiz :
    (after .getDsiz { State.reset with mf := 0x9E#8 }).res = 0x02#8 ∧
    (after .getDsiz { State.reset with mf := 0x9E#8 }).mf = 0x9E#8 := by
  decide

theorem test_getDsiz_2 :
    (after .getDsiz { State.reset with mf := 0x9B#8 }).res = 0x03#8 ∧
    (after .getDsiz { State.reset with mf := 0x9B#8 }).mf = 0x9B#8 := by
  decide

theorem test_setDsiz :
    (after (.setDsiz 0#2) { State.reset with mf := 0x9E#8 }).mf = 0x9C#8 ∧
    (after (.setDsiz 0#2) { State.reset with mf := 0x9E#8 }).res = 0x00#8 := by
  decide

theorem test_setDsiz_2 :
    (after (.setDsiz 3#2) { State.reset with mf := 0x9C#8 }).mf = 0x9F#8 ∧
    (after (.setDsiz 3#2) { State.reset with mf := 0x9C#8 }).res = 0x00#8 := by
  decide

theorem test_ldsf :
    (after (.ldsf 0xFE#8) { State.reset with sf := 0x00#8 }).sf = 0xFF#8 ∧
    (after (.ldsf 0xFE#8) { State.reset with sf := 0x00#8 }).res = 0x00#8 := by
  decide

theorem test_ldsf_2 :
    (after (.ldsf 0x02#8) { State.reset with sf := 0x00#8 }).sf = 0x03#8 ∧
    (after (.ldsf 0x02#8) { State.reset with sf := 0x00#8 }).res = 0x00#8 := by
  decide

theorem test_rdsf :
    (after .rdsf { State.reset with sf := 0xBD#8 }).res = 0xBD#8 ∧
    (after .rdsf { State.reset with sf := 0xBD#8 }).sf = 0xBD#8 := by
  decide

theorem test_getP :
    (after .getP { State.reset with sf := 0xBD#8 }).res = 0x01#8 ∧
    (after .getP { State.reset with sf := 0xBD#8 }).sf = 0xBD#8 := by
  decide

theorem test_setP :
    (after (.setP 1#1) { State.reset with sf := 0x3D#8 }).sf = 0xBD#8 ∧
    (after (.setP 1#1) { State.reset with sf := 0x3D#8 }).res = 0x00#8 := by
  decide

theorem test_getC :
    (after .getC { State.reset with sf := 0xFD#8 }).res = 0x01#8 ∧
    (after .getC { State.reset with sf := 0xFD#8 }).sf = 0xFD#8 := by
  decide

theorem test_setC :
    (after (.setC 0#1) { State.reset with sf := 0xFD#8 }).sf = 0xBD#8 ∧
    (after (.setC 0#1) { State.reset with sf := 0xFD#8 }).res = 0x00#8 := by
  decide

theorem test_getMx :
    (after .getMx { State.reset with sf := 0xDD#8 }).res = 0x00#8 ∧
    (after .getMx { State.reset with sf := 0xDD#8 }).sf = 0xDD#8 := by
  decide

theorem test_setMx :
    (after (.setMx 1#1) { State.reset with sf := 0xDD#8 }).sf = 0xFD#8 ∧
    (after (.setMx 1#1) { State.reset with sf := 0xDD#8 }).res = 0x00#8 := by
  decide

theorem test_setMx_2 :
    (after (.setMx 0#1) { State.reset with sf := 0xFD#8 }).sf = 0xDD#8 ∧
    (after (.setMx 0#1) { State.reset with sf := 0xFD#8 }).res = 0x00#8 := by
  decide

theorem test_getSt :
    (after .getSt { State.reset with sf := 0xFD#8 }).res = 0x01#8 ∧
    (after .getSt { State.reset with sf := 0xFD#8 }).sf = 0xFD#8 := by
  decide

theorem test_getSt_2 :
    (after .getSt { State.reset with sf := 0xFF#8 }).res = 0x03#8 ∧
    (after .getSt { State.reset with sf := 0xFF#8 }).sf = 0xFF#8 := by
  decide

theorem test_setSt :
    (after (.setSt 1#2) { State.reset with sf := 0xFC#8 }).sf = 0xFD#8 ∧
    (after (.setSt 1#2) { State.reset with sf := 0xFC#8 }).res = 0x00#8 := by
  decide

theorem test_setSt_2 :
    (after (.setSt 2#2) { State.reset with sf := 0xFC#8 }).sf = 0xFF#8 ∧
    (after (.setSt 2#2) { State.reset with sf := 0xFC#8 }).res = 0x00#8 := by
  decide

theorem test_ldxf :
    (after (.ldxf 0xE3#8) { State.reset with xf := 0x00#8 }).xf = 0xE3#8 ∧
    (after (.ldxf 0xE3#8) { State.reset with xf := 0x00#8 }).res = 0x00#8 := by
  decide

theorem test_rdxf :
    (after .rdxf { State.reset with xf := 0xE3#8 }).res = 0xE3#8 ∧
    (after .rdxf { State.reset with xf := 0xE3#8 }).xf = 0xE3#8 := by
  decide

theorem test_getI :
    (after .getI { State.reset with xf := 0xE3#8 }).res = 0x01#8 ∧
    (after .getI { State.reset with xf := 0xE3#8 }).xf = 0xE3#8 := by
  decide

theorem test_setI :
    (after (.setI 1#1) { State.reset with xf := 0xE2#8 }).xf = 0xE3#8 ∧
    (after (.setI 1#1) { State.reset with xf := 0xE2#8 }).res = 0x00#8 := by
  decide

theorem test_getA :
    (after .getA { State.reset with xf := 0xE3#8 }).res = 0x01#8 ∧
    (after .getA { State.reset with xf := 0xE3#8 }).xf = 0xE3#8 := by
  decide

theorem test_setA :
    (after (.setA 0#1) { State.reset with xf := 0xE3#8 }).xf = 0xE1#8 ∧
    (after (.setA 0#1) { State.reset with xf := 0xE3#8 }).res = 0x00#8 := by
  decide

theorem test_getR :
    (after .getR { State.reset with xf := 0xE3#8 }).res = 0x00#8 ∧
    (after .getR { State.reset with xf := 0xE3#8 }).xf = 0xE3#8 := by
  decide

theorem test_setR :
    (after (.setR 1#1) { State.reset with xf := 0xE3#8 }).xf = 0xE7#8 ∧
    (after (.setR 1#1) { State.reset with xf := 0xE3#8 }).res = 0x00#8 := by
  decide

theorem test_getSx :
    (after .getSx { State.reset with xf := 0xE3#8 }).res = 0x00#8 ∧
    (after .getSx { State.reset with xf := 0xE3#8 }).xf = 0xE3#8 := by
  decide

theorem test_setSx :
    (after (.setSx 1#1) { State.reset with xf := 0xE3#8 }).xf = 0xEB#8 ∧
    (after (.setSx 1#1) { State.reset with xf := 0xE3#8 }).res = 0x00#8 := by
  decide

theorem test_getV :
    (after .getV { State.reset with xf := 0xE3#8 }).res = 0x00#8 ∧
    (after .getV { State.reset with xf := 0xE3#8 }).xf = 0xE3#8 := by
  decide

theorem test_setV :
    (after (.setV 1#1) { State.reset with xf := 0xE3#8 }).xf = 0xF3#8 ∧
    (after (.setV 1#1) { State.reset with xf := 0xE3#8 }).res = 0x00#8 := by
  decide

theorem test_setV_2 :
    (after (.setV 0#1) { State.reset with xf := 0xFF#8 }).xf = 0xEF#8 ∧
    (after (.setV 0#1) { State.reset with xf := 0xFF#8 }).res = 0x00#8 := by
  decide

/-! ### NOP and the enumeration commands (95_test_vectors sections 2.2.1 and 2.6.2) -/

theorem test_nop :
    (after .nop { State.reset with status := 0x01#8, pos := 3#16 }).status = 0x00#8 ∧
    (after .nop { State.reset with status := 0x01#8, pos := 3#16 }).pos = 3#16 := by decide

theorem test_dsizDec : (after (.dsizDec 0xFD#8) State.reset).res = 0x01#8 := by decide

theorem test_dsizEnc : (after (.dsizEnc 3#2) State.reset).res = 0x03#8 := by decide

theorem test_stDec : (after (.stDec 0xFE#8) State.reset).res = 0x03#8 := by decide

theorem test_stEnc : (after (.stEnc 2#2) State.reset).res = 0x03#8 := by decide

theorem test_illegal_word_keeps_pos :
    (match hostWrite 0x00 0x1310 { State.reset with res := 0xAA#8, pos := 7#16 } with
      | .next t => (t.status, t.res, t.pos)
      | _ => (0#8, 0#8, 0#16)) = (0x0A#8, 0xAA#8, 7#16) := by decide

/-! ### The header codec (95_test_vectors sections 1.1 and 2.3) -/

theorem test_wire_header : Wire.header true longFields = longBytes := by decide

theorem test_wire_example : Wire.header false exampleFields = exampleBytes := by decide

theorem rowState_header : rowState.HeaderConsistent :=
  ⟨by decide, by decide, by decide, by decide, fun _ => le_cap (by decide)⟩

theorem rowState_wireHeader : rowState.wireHeader = longBytes := by decide

theorem test_encHdr : ∃ t, exec .encHdr rowState = .next t ∧ t.memRead .obuf 0 31 = longBytes ∧
    t.olen.toNat = 31 ∧ t.pos.toNat = 31 ∧ t.status = 0x00#8 := by
  have h := State.emit_spec (s := rowState) (out := longBytes) (le_cap (by decide))
  exact ⟨_, (execEncHdr_of_consistent rowState_header).trans (by rw [rowState_wireHeader]),
    h.1, h.2.1, h.2.2.1, h.2.2.2.1⟩

/-- Section 2.3.7, first row: S = 1 but TAG.SRC_V = 0. -/
theorem test_encHdr_inconsistent : ∃ t, exec .encHdr { State.reset with mf := 0x04#8 } = .next t ∧
    t.status = 0x08#8 ∧ t.pos = 0#16 ∧ t.olen = 0#16 :=
  ⟨_, execEncHdr_of_inconsistent fun h => absurd h.2.1 (by decide), rfl, rfl, rfl⟩

/-- DEC_HDR without its capacity test, for inputs of at most 64 bytes. -/
def decodedHeader (s : State) : State :=
  match hdrParse (s.ctrl.getLsbD 0) s.vermask s.wireInput with
  | .error e => s.raise e
  | .ok (h, pos) =>
    if s.ctrl.getLsbD 1 && pos != s.ilen.toNat then s.raise ⟨.trailingBytes, pos⟩
    else (hdrCommit h s).succeedAt pos

theorem decHdr_small {s : State} (h : s.ilen.toNat ≤ 64) :
    exec .decHdr s = .next (decodedHeader s) := by
  refine (execDecHdr_eq (le_cap h)).trans ?_
  unfold decodedHeader
  rcases hdrParse (s.ctrl.getLsbD 0) s.vermask s.wireInput with e | ⟨hh, p⟩
  · rfl
  · dsimp only
    split <;> rfl

/-- Section 1.1 (a2). -/
theorem test_decHdr : ∃ t, exec .decHdr (given 0x00#8 exampleBytes) = .next t ∧
    t.status = 0x00#8 ∧ t.pos = 18#16 ∧ t.tag = 0x0A#8 ∧ t.mf = 0x16#8 ∧ t.sid = 0x0042#16 ∧
    t.sf = 0x00#8 ∧ t.ctr = 1#32 ∧ t.src = 0x1122334455667788#64 ∧ t.dst = 0xAB#64 ∧
    t.mxlen = 0#16 :=
  ⟨_, decHdr_small (by decide), by decide⟩

/-- Section 2.3.4, second row: EXACT = 1 and two bytes too many. -/
theorem test_decHdr_trailing : ∃ t, exec .decHdr (given 0x02#8
      [0x10#8, 0x42#8, 0x00#8, 0x00#8, 0x01#8, 0x00#8, 0x00#8, 0x00#8, 0xAA#8, 0xBB#8]) = .next t ∧
    t.status = 0x02#8 ∧ t.pos = 8#16 ∧ t.mf = 0x00#8 :=
  ⟨_, decHdr_small (by decide), by decide⟩

/-! ### The Protocol Message codec (95_test_vectors section 2.4) -/

theorem test_wire_pm : Wire.pm pmFields = pmBytes := by decide

theorem rowState_pm : rowState.PmConsistent :=
  ⟨by decide, by decide, by decide, fun _ => le_cap (by decide), le_cap (by decide)⟩

theorem rowState_wirePm : rowState.wirePm = pmBytes := by decide

theorem test_encPm : ∃ t, exec .encPm rowState = .next t ∧ t.memRead .obuf 0 19 = pmBytes ∧
    t.olen.toNat = 19 ∧ t.pos.toNat = 19 ∧ t.status = 0x00#8 := by
  have h := State.emit_spec (s := rowState) (out := pmBytes) (le_cap (by decide))
  exact ⟨_, (execEncPm_of_consistent rowState_pm).trans (by rw [rowState_wirePm]),
    h.1, h.2.1, h.2.2.1, h.2.2.2.1⟩

/-- DEC_PM without its capacity test, for inputs of at most 64 bytes. -/
def decodedPm (s : State) : State :=
  match pmParse s.wireInput with
  | .error e => s.raise e
  | .ok m => (pmCommit m s).succeedAt s.ilen.toNat

theorem decPm_small {s : State} (h : s.ilen.toNat ≤ 64) : exec .decPm s = .next (decodedPm s) := by
  refine (execDecPm_eq (le_cap h)).trans ?_
  unfold decodedPm
  rcases pmParse s.wireInput with e | m <;> rfl

theorem test_decPm : ∃ t, exec .decPm (given 0x00#8 pmBytes) = .next t ∧
    t.status = 0x00#8 ∧ t.pos = 19#16 ∧ t.tag = 0xE0#8 ∧ t.xf = 0x1B#8 ∧ t.opc = 0x05#8 ∧
    t.xid = 0x1234#16 ∧ t.pid = 0x0001#16 ∧ t.vid = 0xFFF1#16 ∧ t.ack = 0x12345678#32 ∧
    t.sxlen = 2#16 ∧ t.paylen = 3#16 ∧ t.memRead .pay 0 3 = [0xAA#8, 0xBB#8, 0xCC#8] :=
  ⟨_, decPm_small (by decide), by decide⟩

/-- Section 2.4.2, L = 15: the extensions content does not fit. -/
theorem test_decPm_truncated : ∃ t, exec .decPm (given 0x00#8 (pmBytes.take 15)) = .next t ∧
    t.status = 0x01#8 ∧ t.pos = 14#16 :=
  ⟨_, decPm_small (by decide), by decide⟩

/-! ### Message assembly (95_test_vectors section 2.5) -/

theorem test_wire_plaintext : Wire.pm plainFields = plaintext := by decide

theorem secureState_consistent :
    secureState.HeaderConsistent ∧ secureState.PmConsistent ∧ secureState.FooterConsistent :=
  ⟨⟨by decide, by decide, by decide, by decide, fun h => absurd h (by decide)⟩,
    ⟨by decide, by decide, by decide, fun h => absurd h (by decide), le_cap (by decide)⟩,
    by decide, le_cap (by decide)⟩

theorem secureState_header : secureState.wireHeader = exampleBytes := by decide

theorem secureState_pm : secureState.wirePm = plaintext := by decide

theorem secureState_mic : secureState.micBytes = footer := by decide

/-- Section 2.5.2: the 47 bytes, one encrypt call of the 12 plaintext bytes. -/
theorem test_encMsg : ∃ t, exec .encMsg secureState = .next t ∧
    t.memRead .obuf 0 47 = exampleBytes ++ ciphertext ++ footer ∧ t.olen.toNat = 47 ∧
    t.status = 0x00#8 ∧ t.obs = [.encryptCall plaintext secureState.ctx] := by
  rcases execEncMsg_cases secureState with ⟨h, -⟩ | ⟨-, h, -⟩ | ⟨-, -, -, h⟩
  · exact absurd secureState_consistent h
  · rw [secureState_header, secureState_pm] at h
    have h₁ : exampleBytes.length ≤ Config.cap := le_cap (by decide)
    have h₂ : plaintext.length ≤ Config.cap := le_cap (by decide)
    omega
  · have ho : secureState.wireHeader ++ secureState.encryptAnswerTo secureState.wirePm
        ++ secureState.micBytes = exampleBytes ++ ciphertext ++ footer := by
      rw [secureState_header, secureState_mic]
      rfl
    have he := State.emit_spec (s := secureState.encryptCalled secureState.wirePm)
      (out := exampleBytes ++ ciphertext ++ footer) (le_cap (by decide))
    rw [ho] at h
    refine ⟨_, h, he.1, he.2.1, he.2.2.2.1, ?_⟩
    rw [State.emit_obs, secureState_pm]
    rfl

/-- Section 2.5.4, first row: MICLEN = 8 with SECURE = 1, MICSZ = 16. -/
theorem test_encMsg_footer : ∃ t,
    exec .encMsg { secureState with miclen := 8#16 } = .next t ∧ t.status = 0x08#8 ∧ t.pos = 0#16 ∧
    t.obs = [] := by
  rcases execEncMsg_cases { secureState with miclen := 8#16 } with ⟨-, h⟩ | ⟨h, -⟩ | ⟨h, -⟩
  · exact ⟨_, h, rfl, rfl, rfl⟩
  · exact absurd h.2.2.1 (by decide)
  · exact absurd h.2.2.1 (by decide)

/-- DEC_MSG without its capacity tests, for inputs and answers of at most 64 bytes. -/
def decodedMessage (s : State) : State :=
  match hdrParse (s.ctrl.getLsbD 0) s.vermask s.wireInput with
  | .error e => s.raise e
  | .ok (h, p) =>
    let hb := s.memRead .ibuf 0 p
    let ct := s.memRead .ibuf p (s.ilen.toNat - s.footerSize - p)
    let mic := s.memRead .ibuf (s.ilen.toNat - s.footerSize) s.footerSize
    if s.ilen.toNat < p + s.footerSize then s.raise ⟨.truncatedInput, p⟩
    else if s.ctrl.getLsbD 2 = true ∧ s.verifyAnswerTo 0 hb ct mic = false then
      (s.verifyCalled hb ct mic).raise ⟨.integrityCheckFailed, p⟩
    else
      match s.decryptAnswerTo s.verifyCount ct with
      | none => ((s.verifyCalled hb ct mic).decryptCalled ct).raise ⟨.decryptionFailed, p⟩
      | some pt =>
        match pmParse pt with
        | .error e => ((s.verifyCalled hb ct mic).decryptCalled ct).raise ⟨e.kind, p⟩
        | .ok m =>
          (msgCommit h m mic ((s.verifyCalled hb ct mic).decryptCalled ct)).succeedAt
            ((s.verifyCalled hb ct mic).decryptCalled ct).ilen.toNat

theorem decMsg_small {s : State} (h : s.ilen.toNat ≤ 64)
    (ha : ∀ k ct pt, s.decryptAnswerTo k ct = some pt → pt.length ≤ 64) :
    exec .decMsg s = .next (decodedMessage s) := by
  refine (execDecMsg_eq (le_cap h)).trans ?_
  unfold decodedMessage
  rcases hdrParse (s.ctrl.getLsbD 0) s.vermask s.wireInput with e | ⟨hh, p⟩
  · rfl
  · dsimp only
    split
    · rfl
    · split
      · rfl
      · unfold decMsgFinish
        rcases hd : s.decryptAnswerTo s.verifyCount
          (s.memRead .ibuf p (s.ilen.toNat - s.footerSize - p)) with _ | pt
        · rfl
        · have hl := le_cap (ha _ _ _ hd)
          simp only [if_neg (Nat.not_lt.2 hl)]
          rcases pmParse pt with e | m <;> rfl

/-- Section 2.5.2: the message taken apart; verify is called, then decrypt. -/
theorem test_decMsg : ∃ t, exec .decMsg (message true (some plaintext)) = .next t ∧
    t.status = 0x00#8 ∧ t.pos = 47#16 ∧ t.tag = 0x4A#8 ∧ t.mf = 0x16#8 ∧ t.dst = 0xAB#64 ∧
    t.xf = 0x03#8 ∧ t.ack = 0x12345678#32 ∧ t.paylen = 2#16 ∧
    t.memRead .pay 0 2 = [0xAA#8, 0xBB#8] ∧ t.miclen = 16#16 ∧ t.memRead .mic 0 16 = footer ∧
    t.calls = 2 :=
  ⟨_, decMsg_small (by decide) (by rintro k ct pt h; cases h; decide), by decide⟩

/-- Section 2.5.3, first row: the verdict is false, so decrypt is not called. -/
theorem test_decMsg_refused : ∃ t, exec .decMsg (message false (some plaintext)) = .next t ∧
    t.status = 0x05#8 ∧ t.pos = 18#16 ∧ t.mf = 0x00#8 ∧ t.calls = 1 ∧
    t.decryptAnswers = [some plaintext] :=
  ⟨_, decMsg_small (by decide) (by rintro k ct pt h; cases h; decide), by decide⟩

/-! ### The host port and reset (95_test_vectors section 2.6.3) -/

theorem test_host_write_sf :
    (match perform (.regWrite 0x14 0x02) State.reset with
      | .next t => t.sf
      | _ => 0#8) = 0x03#8 := by decide

theorem test_host_write_read_only :
    (match perform (.regWrite 0x01 0x55) State.reset with
      | .next t => t.status
      | _ => 0x55#8) = 0x00#8 := by decide

theorem test_reset_event :
    (match perform .reset rowState with
      | .next t => (t.mf, t.vermask, t.micsz, t.epoch, t.pay)
      | _ => (0#8, 0#16, 0#8, 0, [])) = (0x00#8, 0xFFFF#16, 16#8, 1, []) := by decide


/-! ### Witnesses: values that meet the hypotheses of each statement, clause by clause -/

/-- OpcodeRowsAreTheCommands, DecodeInvertsEncode, PlacedWordRunsNext: a word that decodes. -/
theorem witness_DecodeInvertsEncode : decode 0x2902#16 = .ok (.setSt 2#2) := by decide

/-- IllegalWordsAndTheirCount: an unassigned OP, an operand bit too many, and the last legal operand. -/
theorem witness_IllegalWordsAndTheirCount :
    decode 0x3C00#16 = .error (.unassignedOp 0x3C#8) ∧ legalWord 0x3C00#16 = false ∧
    decode 0x1310#16 = .error (.immediateNotZero 0x13#8 0x10#8) ∧ legalWord 0x1310#16 = false ∧
    legalWord 0x130F#16 = true := by decide

/-- StepRunsTheDecodedCommand, EventsHappenInOrder: a state whose next event is a write of CMD, legal and
illegal. -/
theorem witness_StepRunsTheDecodedCommand :
    (State.reset.withFetchWord 16 0x8000).events = [.regWrite 0x00 (0x8000#16).toNat] ∧
    decode 0x8000#16 = .ok .encHdr ∧
    (State.reset.withFetchWord 16 0x8600).events = [.regWrite 0x00 (0x8600#16).toNat] ∧
    decode 0x8600#16 = .error (.unassignedOp 0x86#8) := by decide

theorem witness_PlacedWordRunsNext : decode 0x1016#16 = .ok (.ldmf 0x16#8) := by decide

theorem witness_EventsHappenInOrder :
    ({ State.reset with events := [.bufRead 0 0, .reset] } : State).events =
      .bufRead 0 0 :: [.reset] := rfl

theorem witness_IdleBlockDoesNothing : State.reset.events = [] := rfl

/-- HostRegisterRead, HostRegisterWrite: implemented numbers at the ends of the map's ranges, and the free
numbers next to them. -/
theorem witness_HostRegisterRead :
    (0x32, 0) ∈ State.reset.registerTable ∧ (0x05, 0xFFFF) ∈ State.reset.registerTable ∧
    0x08 ∉ State.reset.registerTable.map Prod.fst ∧ 0x0F ∉ State.reset.registerTable.map Prod.fst ∧
    0x19 ∉ State.reset.registerTable.map Prod.fst ∧
    0x33 ∉ State.reset.registerTable.map Prod.fst := by
  refine ⟨?_, ?_, ?_, ?_, ?_, ?_⟩ <;> simp [State.registerTable, State.reset]

theorem witness_HostRegisterWrite :
    0x28 ∉ State.reset.registerTable.map Prod.fst ∧ 2 ^ Reg.width .mf ≤ 256 ∧
    (HostEvent.regWrite (Reg.number .mf) 255).wf = true := by
  refine ⟨by simp [State.registerTable], by decide, by decide⟩

/-- HostBufferAccess: the last byte that exists, the first that does not, the first id that names nothing, a
buffer that takes no host write, and a byte nothing has written. -/
theorem witness_HostBufferAccess :
    BufId.id .mic = 5 ∧ Config.cap - 1 < Config.cap ∧ Config.cap ≤ Config.cap ∧ 5 < 6 ∧
    BufId.id .obuf = 1 ∧ (State.reset.buf .pay).get? 0 = none :=
  ⟨rfl, Nat.sub_lt (le_cap (by decide) : 1 ≤ Config.cap) Nat.one_pos, Nat.le_refl _, by decide, rfl,
    rfl⟩

/-- ResetEvent: a command in progress, legal and illegal, and a reset. -/
theorem witness_ResetEvent :
    (∃ t, issue 0x0000#16 State.reset = .next t) ∧ (∃ t, issue 0xFFFF#16 State.reset = .next t) ∧
    ∃ t, perform .reset State.reset = .next t :=
  ⟨⟨_, rfl⟩, ⟨_, rfl⟩, ⟨_, rfl⟩⟩

/-- FlagByteRoundTrip: a canonical SF at both ends of its range, and a command that is no codec. -/
theorem witness_FlagByteRoundTrip :
    ({ State.reset with sf := 0x01#8 } : State).sf.extractLsb' 0 2 ≠ 2#2 ∧
    ({ State.reset with sf := 0xFF#8 } : State).sf.extractLsb' 0 2 ≠ 2#2 ∧
    isCodec (.ldsf 0x1C#8) = false ∧ ∃ t, exec (.ldsf 0x1C#8) State.reset = .next t :=
  ⟨by decide, by decide, rfl, _, rfl⟩

/-- FlagIsolation and EnumerationLaws: the conditions inside their clauses. -/
theorem witness_EnumerationLaws :
    FlagField.ver ≠ FlagField.s ∧ FlagField.v ∈ [.i, .a, .r, .sx, .v] ∧ (3#2 : BitVec 2) ≠ 2#2 := by
  decide

/-! #### Registers to encode -/

/-- A header over CAP. -/
theorem longHeader_consistent : longHeader.HeaderConsistent ∧
    Config.cap < longHeader.wireHeader.length := by
  have hm : longHeader.mxlen.toNat = Config.cap := toNat_ofNat_of_le_cap (Nat.le_refl _)
  refine ⟨⟨by decide, by decide, by decide, by decide, fun _ => hm.le⟩, ?_⟩
  have hs : longHeader.headerFields.sf.getLsbD 5 = true := by decide
  have hl : longHeader.headerFields.mx.length = Config.cap :=
    (State.memRead_length _ _ _ _).trans hm
  unfold State.wireHeader
  rw [header_length, if_pos hs, hl]
  omega

/-- A Protocol Message over CAP. -/
theorem longPm_consistent : longPm.PmConsistent ∧ Config.cap < longPm.wirePm.length := by
  have hm : longPm.paylen.toNat = Config.cap := toNat_ofNat_of_le_cap (Nat.le_refl _)
  refine ⟨⟨by decide, by decide, by decide, fun h => absurd h (by decide), hm.le⟩, ?_⟩
  have hl : longPm.pmFields.pay.length = Config.cap := (State.memRead_length _ _ _ _).trans hm
  unfold State.wirePm Wire.pm
  rw [List.length_append, pmHead_length, hl]
  omega

theorem witness_EncHdrEmitsTheHeader :
    (rowState.HeaderConsistent ∧ rowState.wireHeader.length ≤ Config.cap) ∧
    (longHeader.HeaderConsistent ∧ Config.cap < longHeader.wireHeader.length) ∧
    ¬ ({ State.reset with mf := 0x04#8 } : State).HeaderConsistent :=
  ⟨⟨rowState_header, by rw [rowState_wireHeader]; exact le_cap (by decide)⟩, longHeader_consistent,
    fun h => absurd h.2.1 (by decide)⟩

theorem witness_EncPmEmitsTheMessage :
    (rowState.PmConsistent ∧ rowState.wirePm.length ≤ Config.cap) ∧
    (longPm.PmConsistent ∧ Config.cap < longPm.wirePm.length) ∧
    ¬ ({ State.reset with xf := 0x10#8 } : State).PmConsistent :=
  ⟨⟨rowState_pm, by rw [rowState_wirePm]; exact le_cap (by decide)⟩, longPm_consistent,
    fun h => absurd h.1 (by decide)⟩

/-- EncMsgAssemblesTheMessage: a message that fits, one that the encrypt answer makes too long, a header and a
Protocol Message that are too long alone, and a footer that is not the session's. -/
theorem witness_EncMsgAssemblesTheMessage :
    ((secureState.HeaderConsistent ∧ secureState.PmConsistent ∧ secureState.FooterConsistent) ∧
      secureState.wireHeader.length ≤ Config.cap ∧ secureState.wirePm.length ≤ Config.cap ∧
      (secureState.wireHeader ++ secureState.encryptAnswerTo secureState.wirePm
        ++ secureState.micBytes).length ≤ Config.cap) ∧
    (∃ s : State, (s.HeaderConsistent ∧ s.PmConsistent ∧ s.FooterConsistent) ∧
      s.wireHeader.length ≤ Config.cap ∧ s.wirePm.length ≤ Config.cap ∧
      Config.cap < (s.wireHeader ++ s.encryptAnswerTo s.wirePm ++ s.micBytes).length) ∧
    ((longHeader.HeaderConsistent ∧ longHeader.PmConsistent ∧ longHeader.FooterConsistent) ∧
      Config.cap < longHeader.wireHeader.length) ∧
    ((longPm.HeaderConsistent ∧ longPm.PmConsistent ∧ longPm.FooterConsistent) ∧
      Config.cap < longPm.wirePm.length) ∧
    ¬ ({ secureState with miclen := 8#16 } : State).FooterConsistent := by
  refine ⟨⟨secureState_consistent, ?_, ?_, ?_⟩, ?_, ⟨⟨longHeader_consistent.1, ?_, ?_⟩,
    longHeader_consistent.2⟩, ⟨⟨?_, longPm_consistent.1, ?_⟩, longPm_consistent.2⟩, ?_⟩
  · rw [secureState_header]; exact le_cap (by decide)
  · rw [secureState_pm]; exact le_cap (by decide)
  · rw [secureState_header, secureState_pm, secureState_mic]; exact le_cap (by decide)
  · refine ⟨{ State.reset with encryptAnswers := [List.replicate Config.cap 0#8] },
      ⟨⟨by decide, by decide, by decide, by decide, fun h => absurd h (by decide)⟩,
        ⟨by decide, by decide, by decide, fun h => absurd h (by decide), Nat.zero_le _⟩,
        by decide, Nat.zero_le _⟩, le_cap (by decide), le_cap (by decide), ?_⟩
    simp only [List.length_append, State.wireHeader, header_length]
    have h : ({ State.reset with encryptAnswers := [List.replicate Config.cap 0#8] } :
        State).encryptAnswerTo
        ({ State.reset with encryptAnswers := [List.replicate Config.cap 0#8] } : State).wirePm =
        List.replicate Config.cap 0#8 := rfl
    rw [h, List.length_replicate]
    omega
  · exact ⟨by decide, by decide, by decide, fun h => absurd h (by decide), Nat.zero_le _⟩
  · exact ⟨by decide, Nat.zero_le _⟩
  · exact ⟨by decide, by decide, by decide, by decide, fun h => absurd h (by decide)⟩
  · exact ⟨by decide, Nat.zero_le _⟩
  · exact fun h => absurd h.1 (by decide)

/-! #### Bytes to decode -/

theorem witness_DecHdrReadsTheHeader :
    (given 0x01#8 (longBytes ++ [0xAA#8])).ilen.toNat ≤ Config.cap ∧
    (given 0x01#8 (longBytes ++ [0xAA#8])).wireInput = Wire.header true longFields ++ [0xAA#8] ∧
    (given 0x01#8 (longBytes ++ [0xAA#8])).AcceptsVersion longFields.mf ∧
    (given 0x02#8 exampleBytes).ctrl.getLsbD 1 = true ∧
    (given 0x02#8 exampleBytes).wireInput = Wire.header false exampleFields ++ [] ∧
    (given 0x02#8 exampleBytes).AcceptsVersion exampleFields.mf :=
  ⟨le_cap (by decide), by decide, by unfold State.AcceptsVersion; decide, by decide,
    by decide, by unfold State.AcceptsVersion; decide⟩

/-- DecHdrTruncation: cuts before the Message Flags, right after them, inside the Message Counter, right before
the extensions content and one byte short; the first two with a version that is not accepted. -/
theorem witness_DecHdrTruncation :
    longFields.mx.length < 65536 ∧
    ([0, 2, 3, 9, 28, 30].all fun n =>
      (given 0x01#8 (longBytes.take n)).wireInput == (Wire.header true longFields).take n) = true ∧
    (given 0x01#8 (longBytes.take 30)).ilen.toNat < (Wire.header true longFields).length ∧
    (given 0x01#8 (longBytes.take 2)).ilen.toNat ≤ 2 ∧
    (given 0x01#8 (longBytes.take 3)).AcceptsVersion longFields.mf ∧
    (given 0x01#8 (longBytes.take 30)).ilen.toNat ≤ Config.cap :=
  ⟨by decide, by decide, by decide, by decide, by unfold State.AcceptsVersion; decide,
    le_cap (by decide)⟩

/-- VersionCheck: version 15 refused with a single byte of input, version 0 refused after a length
field, an input that ends before the flags, and a step that reports it. -/
theorem witness_VersionCheck :
    (({ given 0x00#8 [0xF0#8] with vermask := 0x7FFF#16 } : State).wireInput =
        [] ++ [0xF0#8] ++ [] ∧
      ¬ ({ given 0x00#8 [0xF0#8] with vermask := 0x7FFF#16 } : State).AcceptsVersion 0xF0#8) ∧
    (({ given 0x01#8 [0x23#8, 0x01#8, 0x00#8] with vermask := 0xFFFE#16 } : State).wireInput =
        Wire.u16 0x0123#16 ++ [0x00#8] ++ [] ∧
      ¬ ({ given 0x01#8 [0x23#8, 0x01#8, 0x00#8] with vermask := 0xFFFE#16 } :
        State).AcceptsVersion 0x00#8) ∧
    (given 0x01#8 [0x23#8, 0x01#8]).ilen.toNat ≤ 2 ∧ State.reset.ilen.toNat ≤ 0 ∧
    State.reset.vermask = 0xFFFF#16 ∧
    ∃ t, exec .decHdr ({ given 0x00#8 [0xF0#8] with vermask := 0x7FFF#16 } : State) = .next t ∧
      t.status = 0x06#8 :=
  ⟨⟨by decide, by unfold State.AcceptsVersion; decide⟩,
    ⟨by decide, by unfold State.AcceptsVersion; decide⟩, by decide, by decide, rfl,
    _, decHdr_small (by decide), by decide⟩

/-- TrailingBytesPolicy: one byte too many, EXACT 0 and 1, and a command that EXACT does not touch. -/
theorem witness_TrailingBytesPolicy :
    (given 0x00#8 (exampleBytes ++ [0xAA#8])).wireInput =
      Wire.header false exampleFields ++ [0xAA#8] ∧
    (given 0x02#8 (exampleBytes ++ [0xAA#8])).wireInput =
      Wire.header false exampleFields ++ [0xAA#8] ∧
    (given 0x02#8 (exampleBytes ++ [0xAA#8])).AcceptsVersion exampleFields.mf ∧
    (given 0x00#8 exampleBytes).ctrl.getLsbD 1 = false ∧
    (given 0x02#8 exampleBytes).ctrl.getLsbD 1 = true ∧ ([0xAA#8] : Bytes) ≠ [] ∧
    Instr.decPm ≠ .decHdr ∧
    (∀ k, k ≠ 1 → (0x02#8 : BitVec 8).getLsbD k = (given 0x00#8 pmBytes).ctrl.getLsbD k) ∧
    ∃ t, exec .decPm (given 0x00#8 pmBytes) = .next t := by
  refine ⟨by decide, by decide, by unfold State.AcceptsVersion; decide, by decide,
    by decide, by decide, by decide, fun k hk => ?_, _, decPm_small (by decide)⟩
  show (0x02#8 : BitVec 8).getLsbD k = (0x00#8 : BitVec 8).getLsbD k
  by_cases hl : k < 8
  · interval_cases k <;> first | rfl | exact absurd rfl hk
  · rw [BitVec.getLsbD_of_ge _ _ (by omega), BitVec.getLsbD_of_ge _ _ (by omega)]

theorem witness_HeaderRoundTrip :
    (rowState.HeaderConsistent ∧ rowState.wireHeader.length ≤ Config.cap ∧
      rowState.AcceptsVersion rowState.mf ∧ rowState.sf.extractLsb' 0 2 ≠ 2#2) ∧
    ∃ t, exec .decHdr (given 0x01#8 longBytes) = .next t ∧ t.status = 0x00#8 :=
  ⟨⟨rowState_header, by rw [rowState_wireHeader]; exact le_cap (by decide),
      by unfold State.AcceptsVersion; decide, by decide⟩,
    _, decHdr_small (by decide), by decide⟩

theorem witness_HeaderPresence :
    (∃ t, exec .decHdr (given 0x00#8 exampleBytes) = .next t ∧ t.status = 0x00#8) ∧
    ∃ t, exec .encHdr rowState = .next t ∧ t.status = 0x00#8 :=
  ⟨⟨_, decHdr_small (by decide), by decide⟩,
    let ⟨t, h, _, _, _, h₀⟩ := test_encHdr; ⟨t, h, h₀⟩⟩

/-- DecPmReadsTheMessage: a whole message, one without payload, and cuts at both ends of its head. -/
theorem witness_DecPmReadsTheMessage :
    (given 0x00#8 pmBytes).ilen.toNat ≤ Config.cap ∧
    (given 0x00#8 pmBytes).wireInput = Wire.pm pmFields ∧
    (given 0x00#8 (pmBytes.take 16)).wireInput = Wire.pm { pmFields with pay := [] } ∧
    ([0, 1, 14, 15].all fun n =>
      (given 0x00#8 (pmBytes.take n)).wireInput == (Wire.pmHead pmFields).take n) = true ∧
    (given 0x00#8 (pmBytes.take 15)).ilen.toNat < (Wire.pmHead pmFields).length ∧
    pmFields.sx.length < 65536 :=
  ⟨le_cap (by decide), by decide, by decide, by decide, by decide,
    by decide⟩

theorem witness_PmRoundTrip :
    (rowState.PmConsistent ∧ rowState.wirePm.length ≤ Config.cap) ∧
    ∃ t, exec .decPm (given 0x00#8 pmBytes) = .next t ∧ t.status = 0x00#8 :=
  ⟨⟨rowState_pm, by rw [rowState_wirePm]; exact le_cap (by decide)⟩,
    _, decPm_small (by decide), by decide⟩

/-! #### Messages to take apart -/

theorem message_input (verdict : Bool) (answer : Option Bytes) :
    (message verdict answer).wireInput =
      Wire.header false exampleFields ++ ciphertext ++ footer := by
  refine Eq.trans (b := (given 0x04#8 (exampleBytes ++ ciphertext ++ footer)).wireInput) ?_
    (by decide)
  exact State.memRead_of_buf (b := .ibuf) rfl rfl _ _

theorem witness_DecMsgTakesTheMessageApart :
    (message true (some plaintext)).ilen.toNat ≤ Config.cap ∧
    (message true (some plaintext)).wireInput =
      Wire.header ((message true (some plaintext)).ctrl.getLsbD 0) exampleFields
        ++ ciphertext ++ footer ∧
    footer.length = (message true (some plaintext)).footerSize ∧
    (message true (some plaintext)).AcceptsVersion exampleFields.mf ∧
    (message true (some plaintext)).verifyAnswerTo 0 (Wire.header false exampleFields) ciphertext
      footer = true ∧
    (message true (some plaintext)).decryptAnswerTo
      (message true (some plaintext)).verifyCount ciphertext = some (Wire.pm plainFields) ∧
    (Wire.pm plainFields).length ≤ Config.cap :=
  ⟨le_cap (by decide), message_input _ _, by decide, by unfold State.AcceptsVersion; decide, rfl,
    by decide, le_cap (by decide)⟩

/-- DecMsgErrorsAndTheirOrder, the stages before the crypto port: a header error, and a message one byte too
short for its footer. -/
theorem witness_DecMsgErrorsAndTheirOrder :
    (∃ t, exec .decHdr (given 0x04#8 (exampleBytes.take 12)) = .next t ∧
      t.status ∈ [0x01#8, 0x06#8, 0x08#8]) ∧
    ((given 0x04#8 (exampleBytes ++ footer.take 15)).ilen.toNat ≤ Config.cap ∧
      (given 0x04#8 (exampleBytes ++ footer.take 15)).wireInput =
        Wire.header false exampleFields ++ footer.take 15 ∧
      (given 0x04#8 (exampleBytes ++ footer.take 15)).AcceptsVersion exampleFields.mf ∧
      (footer.take 15).length < (given 0x04#8 (exampleBytes ++ footer.take 15)).footerSize) :=
  ⟨⟨_, decHdr_small (by decide), by decide⟩, le_cap (by decide), by decide,
    by unfold State.AcceptsVersion; decide, by decide⟩

/-- The stages of the crypto port: a false verdict, no plaintext, a plaintext over CAP, and one that is no
Protocol Message. -/
theorem witness_DecMsgErrorsAndTheirOrder_crypto :
    ((message false none).ctrl.getLsbD 2 = true ∧
      (message false none).verifyAnswerTo 0 (Wire.header false exampleFields) ciphertext footer =
        false ∧
      ciphertext ++ footer = ciphertext ++ footer ∧ footer.length = (message false none).footerSize) ∧
    ((message true none).verifyAnswerTo 0 (Wire.header false exampleFields) ciphertext footer =
        true ∧
      (message true none).decryptAnswerTo (message true none).verifyCount ciphertext = none) ∧
    (∃ pt, (message true (some (List.replicate (Config.cap + 1) 0#8))).decryptAnswerTo 1 ciphertext =
        some pt ∧ Config.cap < pt.length) ∧
    ((message true (some (plaintext.take 9))).decryptAnswerTo 1 ciphertext =
        some (plaintext.take 9) ∧
      plaintext.take 9 = (Wire.pmHead plainFields).take 9 ∧
      (plaintext.take 9).length < (Wire.pmHead plainFields).length ∧
      plainFields.sx.length < 65536) :=
  ⟨⟨by decide, rfl, rfl, by decide⟩, ⟨rfl, rfl⟩,
    ⟨_, rfl, by rw [List.length_replicate]; exact Nat.lt_succ_self _⟩,
    rfl, by decide, by decide, by decide⟩

/-- TransparentRoundTrip: a secure session whose collaborator is the fixture T, and its output. -/
theorem witness_TransparentRoundTrip :
    ∃ s : State, (s.HeaderConsistent ∧ s.PmConsistent ∧ s.FooterConsistent) ∧
      s.sf.extractLsb' 0 2 ≠ 2#2 ∧ s.AcceptsVersion s.mf ∧
      (s.wireHeader ++ s.wirePm ++ s.micBytes).length ≤ Config.cap ∧
      s.encryptAnswerTo s.wirePm = s.wirePm ∧
      (s.ctrl.getLsbD 2 = true ∧ s.verifyAnswerTo 1 s.wireHeader s.wirePm s.micBytes = true) ∧
      s.decryptAnswerTo (1 + s.verifyCount) s.wirePm = some s.wirePm := by
  have hp : ({ secureState with encryptAnswers := [plaintext] } : State).wirePm = plaintext := by
    decide
  have hh : ({ secureState with encryptAnswers := [plaintext] } : State).wireHeader =
      exampleBytes := by decide
  have hm : ({ secureState with encryptAnswers := [plaintext] } : State).micBytes = footer := by
    decide
  refine ⟨{ secureState with encryptAnswers := [plaintext] }, secureState_consistent, by decide,
    by unfold State.AcceptsVersion; decide, ?_, ?_, ⟨by decide, rfl⟩, ?_⟩
  · rw [hp, hh, hm]; exact le_cap (by decide)
  · rw [hp]; rfl
  · rw [hp]; rfl

/-! #### Statements over every command -/

/-- LengthsOfEncodings, OnlyMessageCommandsCall, StatusAndPositionOfCommands, SettingsAndInputAreNotWritten:
each encode and DEC_MSG completes with OK from some state. -/
theorem witness_LengthsOfEncodings :
    (∃ t, exec .encHdr rowState = .next t ∧ t.status = 0x00#8) ∧
    (∃ t, exec .encPm rowState = .next t ∧ t.status = 0x00#8) ∧
    (∃ t, exec .encMsg secureState = .next t ∧ t.status = 0x00#8) ∧
    State.reset.sf.getLsbD 5 = false :=
  ⟨let ⟨t, h, _, _, _, h₀⟩ := test_encHdr; ⟨t, h, h₀⟩,
    let ⟨t, h, _, _, _, h₀⟩ := test_encPm; ⟨t, h, h₀⟩,
    let ⟨t, h, _, _, h₀, _⟩ := test_encMsg; ⟨t, h, h₀⟩, by decide⟩

theorem witness_OnlyMessageCommandsCall :
    (∃ t, exec .nop State.reset = .next t) ∧ (∃ t, exec .encMsg secureState = .next t) ∧
    ∃ t, exec .decMsg (message true (some plaintext)) = .next t :=
  ⟨⟨_, rfl⟩, let ⟨t, h, _⟩ := test_encMsg; ⟨t, h⟩, let ⟨t, h, _⟩ := test_decMsg; ⟨t, h⟩⟩

/-- ErrorsKeepTheState: an error before any call, one after a call, and an illegal word. -/
theorem witness_ErrorsKeepTheState :
    (∃ t, exec .decPm (given 0x00#8 (pmBytes.take 15)) = .next t ∧ t.status ≠ 0x00#8) ∧
    (∃ t, exec .decMsg (message false (some plaintext)) = .next t ∧ t.status ≠ 0x00#8) ∧
    decode 0x0100#16 = .error (.unassignedOp 0x01#8) :=
  ⟨⟨_, decPm_small (by decide), by decide⟩,
    ⟨_, decMsg_small (by decide) (by rintro k ct pt h; cases h; decide), by decide⟩, by decide⟩

/-- A plaintext one byte over CAP is reported with the header length (95_test_vectors section 2.5.1, the
header of 18 bytes). -/
theorem decMsg_overflow : ∃ t,
    exec .decMsg (message true (some (List.replicate (Config.cap + 1) 0#8))) = .next t ∧
      t.status = 0x09#8 ∧ t.pos = 18#16 := by
  have hp := hdrParse_header (stream := false) (f := exampleFields) (rest := ciphertext ++ footer)
    (vermask := 0xFFFF#16) rfl (by decide) (by decide)
  have he := execDecMsg_eq (s := message true (some (List.replicate (Config.cap + 1) 0#8)))
    (le_cap (by decide))
  rw [message_input, List.append_assoc, show (message true (some (List.replicate (Config.cap + 1)
    0#8))).ctrl.getLsbD 0 = false from rfl, show (message true (some (List.replicate (Config.cap + 1)
    0#8))).vermask = 0xFFFF#16 from rfl, hp] at he
  simp only at he
  rw [if_neg (by decide), if_neg (fun h => Bool.noConfusion h.2)] at he
  have hl : Config.cap < (List.replicate (Config.cap + 1) (0#8 : Byte)).length := by
    rw [List.length_replicate]
    exact Nat.lt_succ_self _
  refine ⟨_, he.trans (if_pos hl), ?_⟩
  exact ⟨rfl, rfl⟩

/-- StatusAndPositionOfCommands, the decodes: OK of each; TruncatedInput of each, of DEC_MSG in the header and
at the footer; TrailingBytes, and UnsupportedVersion with and without a length field. -/
theorem witness_StatusAndPositionOfCommands :
    (∃ t, exec .decHdr (given 0x01#8 (longBytes ++ [0xAA#8])) = .next t ∧
      t.status = 0x00#8 ∧ t.pos = 31#16) ∧
    (∃ t, exec .decPm (given 0x00#8 pmBytes) = .next t ∧ t.status = 0x00#8 ∧ t.pos = 19#16) ∧
    (∃ t, exec .decHdr (given 0x01#8 (longBytes.take 30)) = .next t ∧
      t.status = 0x01#8 ∧ t.pos = 28#16) ∧
    (∃ t, exec .decPm (given 0x00#8 []) = .next t ∧ t.status = 0x01#8 ∧ t.pos = 0#16) ∧
    (∃ t, exec .decHdr (given 0x02#8 (exampleBytes ++ [0xAA#8])) = .next t ∧
      t.status = 0x02#8 ∧ t.pos = 18#16) ∧
    (∃ t, exec .decHdr ({ given 0x01#8 longBytes with vermask := 0x0000#16 } : State) = .next t ∧
      t.status = 0x06#8 ∧ t.pos = 2#16) ∧
    ∃ t, exec .decHdr ({ given 0x00#8 [0xF0#8] with vermask := 0x7FFF#16 } : State) = .next t ∧
      t.status = 0x06#8 ∧ t.pos = 0#16 :=
  ⟨⟨_, decHdr_small (by decide), by decide⟩, ⟨_, decPm_small (by decide), by decide⟩,
    ⟨_, decHdr_small (by decide), by decide⟩, ⟨_, decPm_small (by decide), by decide⟩,
    ⟨_, decHdr_small (by decide), by decide⟩, ⟨_, decHdr_small (by decide), by decide⟩,
    ⟨_, decHdr_small (by decide), by decide⟩⟩

/-- StatusAndPositionOfCommands, DEC_MSG: a header cut short, a footer that does not fit, a version refused, a
false verdict, no plaintext and a plaintext that is no Protocol Message; each with its position. -/
theorem witness_StatusAndPositionOfCommands_message :
    (∃ t, exec .decMsg ({ message true none with ilen := 12#16 } : State) = .next t ∧
      t.status = 0x01#8 ∧ t.pos = 8#16) ∧
    (∃ t, exec .decMsg ({ message true none with ilen := 33#16 } : State) = .next t ∧
      t.status = 0x01#8 ∧ t.pos = 18#16) ∧
    (∃ t, exec .decMsg ({ message true (some plaintext) with vermask := 0xFFFD#16 } : State) =
      .next t ∧ t.status = 0x06#8 ∧ t.pos = 0#16) ∧
    (∃ t, exec .decMsg (message false none) = .next t ∧ t.status = 0x05#8 ∧ t.pos = 18#16) ∧
    (∃ t, exec .decMsg (message true none) = .next t ∧ t.status = 0x04#8 ∧ t.pos = 18#16) ∧
    ∃ t, exec .decMsg (message true (some (plaintext.take 9))) = .next t ∧
      t.status = 0x01#8 ∧ t.pos = 18#16 :=
  ⟨⟨_, decMsg_small (by decide) (by rintro k ct pt h; cases h), by decide⟩,
    ⟨_, decMsg_small (by decide) (by rintro k ct pt h; cases h), by decide⟩,
    ⟨_, decMsg_small (by decide) (by rintro k ct pt h; cases h; decide), by decide⟩,
    ⟨_, decMsg_small (by decide) (by rintro k ct pt h; cases h), by decide⟩,
    ⟨_, decMsg_small (by decide) (by rintro k ct pt h; cases h), by decide⟩,
    ⟨_, decMsg_small (by decide) (by rintro k ct pt h; cases h; decide), by decide⟩⟩

/-- StatusAndPositionOfCommands, the codes 8 and 9, a command that is no codec, and an illegal word. -/
theorem witness_StatusAndPositionOfCommands_rest :
    (∃ t, exec .encHdr { State.reset with mf := 0x04#8 } = .next t ∧ t.status = 0x08#8) ∧
    (∃ t, exec .encHdr longHeader = .next t ∧ t.status = 0x09#8 ∧ t.pos = 0#16) ∧
    isCodec .nop = false ∧ (∃ t, exec .nop State.reset = .next t) ∧
    decode 0x0100#16 = .error (.unassignedOp 0x01#8) :=
  ⟨let ⟨t, h, h₀, _⟩ := test_encHdr_inconsistent; ⟨t, h, h₀⟩,
    ⟨_, execEncHdr_of_consistent longHeader_consistent.1, by
      rw [State.emit_of_long longHeader_consistent.2]; exact ⟨rfl, rfl⟩⟩,
    rfl, ⟨_, rfl⟩, by decide⟩

/-- InvariantViolationExactly: a command that raises it and decodes that succeed. -/
theorem witness_InvariantViolationExactly :
    (∃ t, exec .encHdr { State.reset with mf := 0x04#8 } = .next t ∧ t.status = 0x08#8) ∧
    (∃ t, exec .decHdr (given 0x01#8 longBytes) = .next t ∧ t.status = 0x00#8) ∧
    (∃ t, exec .decPm (given 0x00#8 pmBytes) = .next t ∧ t.status = 0x00#8) ∧
    ∃ t, exec .decMsg (message true (some plaintext)) = .next t ∧ t.status = 0x00#8 :=
  ⟨let ⟨t, h, h₀, _⟩ := test_encHdr_inconsistent; ⟨t, h, h₀⟩,
    ⟨_, decHdr_small (by decide), by decide⟩, ⟨_, decPm_small (by decide), by decide⟩,
    let ⟨t, h, h₀, _⟩ := test_decMsg; ⟨t, h, h₀⟩⟩

/-- InvariantIsKept: a state that no reset gives, about to run a command. -/
theorem witness_InvariantIsKept : ∃ s t : State, s.Inv ∧ step s = .next t :=
  ⟨{ State.reset with sf := 0xFF#8, status := 0x0A#8, events := [.regWrite 0x00 0x2902] }, _,
    ⟨by decide, by decide, Nat.zero_le _, Nat.zero_le _, fun b => by cases b <;> rfl,
      fun b => by cases b <;> rfl⟩, rfl⟩

theorem witness_OutcomeIsNotRead :
    State.reset.forgetOutcome =
      ({ State.reset with
        status := 0x09#8, res := 0xAA#8, pos := 7#16, obs := [.regValue 1] } : State).forgetOutcome := rfl

/-- DecodesForgetEarlierMessages: for each decode, the same input and settings over two earlier messages; for
DEC_PM other settings too, for DEC_HDR other settings of the message layer. -/
theorem witness_DecodesForgetEarlierMessages :
    (given 0x00#8 pmBytes).wireInput =
      ({ given 0x07#8 pmBytes with vermask := 0#16, micsz := 4#8, xf := 0xFF#8, vid := 5#16 } :
        State).wireInput ∧
    (SameHeaderInputs (given 0x01#8 longBytes)
        { given 0x05#8 longBytes with mf := 0xFF#8, src := 5#64, mxlen := 9#16, micsz := 4#8 } ∧
      (given 0x01#8 longBytes).ctrl.getLsbD 1 = (given 0x05#8 longBytes).ctrl.getLsbD 1) ∧
    SameMessageInputs (message true (some plaintext))
      { message true (some plaintext) with mf := 0xFF#8, tag := 0xFF#8, pay := [⟨0, 1⟩], miclen := 4#16 } :=
  ⟨by decide, ⟨⟨by decide, rfl, rfl⟩, rfl⟩,
    ⟨State.memRead_of_buf (b := .ibuf) rfl rfl _ _, rfl, rfl⟩, rfl, rfl, rfl, rfl, rfl, rfl⟩

theorem witness_AbsentFieldsReadZero :
    (∃ t, exec .decHdr (given 0x00#8 exampleBytes) = .next t ∧ t.status = 0x00#8 ∧
      t.tag.getLsbD 0 = false ∧ t.tag.getLsbD 4 = false) ∧
    (∃ t, exec .decPm (given 0x00#8 plaintext) = .next t ∧ t.status = 0x00#8 ∧
      t.tag.getLsbD 5 = false ∧ t.tag.getLsbD 7 = false) ∧
    ∃ s t : State, exec .decMsg s = .next t ∧ t.status = 0x00#8 ∧ s.ctrl.getLsbD 2 = false :=
  ⟨⟨_, decHdr_small (by decide), by decide⟩, ⟨_, decPm_small (by decide), by decide⟩,
    { given 0x00#8 (exampleBytes ++ plaintext) with decryptAnswers := [some plaintext] }, _,
    decMsg_small (by decide) (by rintro k ct pt h; cases h; decide), by decide⟩

theorem witness_SettingsAndInputAreNotWritten :
    (∃ t, exec .decHdr (given 0x01#8 longBytes) = .next t) ∧
    (∃ t, exec .encPm rowState = .next t) ∧ isReadType (.setV 1#1) = false ∧
    Instr.setV 1#1 ∉ [.encHdr, .encPm, .encMsg] :=
  ⟨⟨_, decHdr_small (by decide)⟩, let ⟨t, h, _⟩ := test_encPm; ⟨t, h⟩, rfl, by decide⟩

end Sys2Proof.Tests
end

section
/-! PROOFS. Totality: every command, host event, step and run answers a next state (00_scope R8,
70_reset_and_hazards R235, R236). The collaborator's answer is part of the model's state (log entry 8), so the
two message commands are single steps as well. -/

namespace Sys2Proof.Machine

/-! ### Commands -/

/-- Each command outside the codecs is one unconditional update of the state. -/
theorem exec_next_of_not_codec {i : Instr} (hi : isCodec i = false) (s : State) :
    ∃ t, exec i s = .next t := by
  cases i with
  | encHdr | decHdr | encPm | decPm | encMsg | decMsg => contradiction
  | _ => exact ⟨_, rfl⟩

theorem execEncHdr_next (s : State) : ∃ t, execEncHdr s = .next t := by
  by_cases hc : s.HeaderConsistent
  · exact ⟨_, execEncHdr_of_consistent hc⟩
  · exact ⟨_, execEncHdr_of_inconsistent hc⟩

theorem execEncPm_next (s : State) : ∃ t, execEncPm s = .next t := by
  by_cases hc : s.PmConsistent
  · exact ⟨_, execEncPm_of_consistent hc⟩
  · exact ⟨_, execEncPm_of_inconsistent hc⟩

theorem execEncMsg_next (s : State) : ∃ t, execEncMsg s = .next t := by
  obtain ⟨-, h⟩ | ⟨-, -, h⟩ | ⟨-, -, -, h⟩ := execEncMsg_cases s
  · exact ⟨_, h⟩
  · exact ⟨_, h⟩
  · exact ⟨_, h⟩

theorem execDecHdr_next (s : State) : ∃ t, execDecHdr s = .next t := by
  obtain ⟨-, h⟩ | ⟨-, e, -, h⟩ | ⟨-, f, rest, -, -, -, -, -, -, -, hfits⟩ := execDecHdr_cases s
  · exact ⟨_, h⟩
  · exact ⟨_, h⟩
  · obtain ⟨-, -, h⟩ | ⟨-, h⟩ := hfits
    · exact ⟨_, h⟩
    · exact ⟨_, h⟩

theorem execDecPm_next (s : State) : ∃ t, execDecPm s = .next t := by
  obtain ⟨-, h⟩ | ⟨-, e, -, h⟩ | ⟨-, g, -, -, -, -, -, h⟩ := execDecPm_cases s
  · exact ⟨_, h⟩
  · exact ⟨_, h⟩
  · exact ⟨_, h⟩

/-- Whatever `decrypt` answers, fail included, the last stage of DEC_MSG has an outcome
(44_message_assembly R176, R181). -/
theorem decMsgFinish_next (h : Header) (p : Nat) (mic : Bytes) (r : Option Bytes) (s : State) :
    ∃ t, decMsgFinish h p mic r s = .next t := by
  obtain ⟨k, -, hx⟩ | ⟨g, -, -, -, -, -, -, hx⟩ := decMsgFinish_cases h p mic r s
  · exact ⟨_, hx⟩
  · exact ⟨_, hx⟩

theorem execDecMsg_next (s : State) : ∃ t, execDecMsg s = .next t := by
  obtain ⟨-, h⟩ | ⟨-, e, -, h⟩ | ⟨-, f, rest, -, -, -, -, -, -, -, hstages⟩ := execDecMsg_cases s
  · exact ⟨_, h⟩
  · exact ⟨_, h⟩
  · obtain ⟨-, h⟩ | ⟨ct, mic, -, -, ⟨-, -, h⟩ | ⟨-, h⟩⟩ := hstages
    · exact ⟨_, h⟩
    · exact ⟨_, h⟩
    · rw [h]
      exact decMsgFinish_next _ _ _ _ _

/-- Every command has an outcome from every state (00_scope R8). -/
theorem exec_next (i : Instr) (s : State) : ∃ t, exec i s = .next t := by
  cases hi : isCodec i with
  | false => exact exec_next_of_not_codec hi s
  | true =>
    obtain rfl | rfl | rfl | rfl | rfl | rfl := codec_cases hi
    · exact execEncHdr_next s
    · exact execDecHdr_next s
    · exact execEncPm_next s
    · exact execDecPm_next s
    · exact execEncMsg_next s
    · exact execDecMsg_next s

/-! ### Host events and steps -/

/-- A write of CMD has an outcome for every word, legal or not (30_encoding R78). -/
theorem issue_next (w : CommandWord) (s : State) : ∃ t, issue w s = .next t := by
  unfold issue
  split
  next i _ => exact exec_next i s
  next => exact ⟨_, rfl⟩

theorem hostWrite_next (n v : Nat) (s : State) : ∃ t, hostWrite n v s = .next t := by
  unfold hostWrite
  split
  next => exact issue_next _ s
  next => exact ⟨_, rfl⟩
  next => exact ⟨_, rfl⟩

/-- Every host access is permitted (20_memory R56), and a reset abandons whatever it finds
(70_reset_and_hazards R230). -/
theorem perform_next (e : HostEvent) (s : State) : ∃ t, perform e s = .next t := by
  cases e with
  | regWrite n v => exact hostWrite_next n v s
  | regRead | bufRead | bufWrite | reset | resetDuring => exact ⟨_, rfl⟩

theorem step_of_no_event {s : State} (h : s.events = []) : step s = .next s := by
  unfold step runNextEvent
  rw [h]

theorem step_of_event {s : State} {e : HostEvent} {rest : List HostEvent}
    (h : s.events = e :: rest) : step s = perform e { s with events := rest } := by
  unfold step runNextEvent
  rw [h]

theorem State.stepsOn (s : State) : s.StepsOn := by
  cases h : s.events with
  | nil => exact ⟨s, step_of_no_event h⟩
  | cons e rest =>
    obtain ⟨t, ht⟩ := perform_next e { s with events := rest }
    exact ⟨t, (step_of_event h).trans ht⟩

/-! ### Runs -/

/-- A machine whose every step answers a next state runs for any number of steps. -/
theorem run_next_of_step_next {M : Host.Core} (hstep : ∀ s, ∃ t, M.step s = .next t) (k : Nat) :
    ∀ s, ∃ t, M.run k s = .next t := by
  induction k with
  | zero => exact fun s => ⟨s, rfl⟩
  | succ k ih =>
    intro s
    obtain ⟨u, hu⟩ := hstep s
    obtain ⟨t, ht⟩ := ih u
    refine ⟨t, ?_⟩
    unfold Host.Core.run
    rw [hu]
    exact ht

/-- Settles O8: a command always has an outcome, so does every host event, and a run is made of such
steps. -/
theorem everyRunGoesOn : Obligations.EveryRunGoesOn :=
  ⟨exec_next, State.stepsOn, run_next_of_step_next (M := Sys2Proof.core) State.stepsOn⟩

end Sys2Proof.Machine
end

section
/-! PROOFS. The invariant (10_state R14, R33; 20_memory R40; 60_exceptions R200) is kept by every shared
operation, hence by every command, every host event and every step. -/

namespace Sys2Proof.Machine

/-! ### The shared operations -/

namespace State.Inv

/-- The invariant speaks of SF, STATUS, POS, OLEN and the buffers alone. -/
theorem congr {s t : State} (hs : s.Inv) (hsf : t.sf = s.sf) (hstatus : t.status = s.status)
    (hpos : t.pos = s.pos) (holen : t.olen = s.olen) (hbuf : ∀ b, t.buf b = s.buf b) : t.Inv where
  sessionTypeCanonical := hsf ▸ hs.sessionTypeCanonical
  statusProduced := hstatus ▸ hs.statusProduced
  posWithinBuffer := hpos ▸ hs.posWithinBuffer
  olenWithinBuffer := holen ▸ hs.olenWithinBuffer
  buffersCanonical b := hbuf b ▸ hs.buffersCanonical b
  buffersBounded b := hbuf b ▸ hs.buffersBounded b

theorem withSf {s : State} (hs : s.Inv) {b : Byte} (hb : b.extractLsb' 0 2 ≠ 2#2) :
    State.Inv { s with sf := b } :=
  { hs with sessionTypeCanonical := hb }

theorem withStatus {s : State} (hs : s.Inv) {c : BitVec 8} (hc : producedCode c = true) :
    State.Inv { s with status := c } :=
  { hs with statusProduced := hc }

theorem withPos {s : State} (hs : s.Inv) {p : Nat} (hp : p ≤ Config.cap) :
    State.Inv { s with pos := BitVec.ofNat 16 p } :=
  { hs with posWithinBuffer := (toNat_ofNat_of_le_cap hp).le.trans hp }

theorem withOlen {s : State} (hs : s.Inv) {n : Nat} (hn : n ≤ Config.cap) :
    State.Inv { s with olen := BitVec.ofNat 16 n } :=
  { hs with olenWithinBuffer := (toNat_ofNat_of_le_cap hn).le.trans hn }

/-- A write of a whole byte to SF stores a canonical SessionType (10_state R14). -/
theorem putSf {s : State} (hs : s.Inv) (b : Byte) : (s.putSf b).Inv :=
  hs.withSf (by rw [canonSF_eq]; exact canonical_low b)

theorem succeedAt {s : State} (hs : s.Inv) {p : Nat} (hp : p ≤ Config.cap) : (s.succeedAt p).Inv :=
  (hs.withPos hp).withStatus rfl

theorem raise {s : State} (hs : s.Inv) {k : ErrorKind} {p : Nat} (hk : producedCode k.code = true)
    (hp : p ≤ Config.cap) : (s.raise ⟨k, p⟩).Inv :=
  (hs.withPos hp).withStatus hk

/-- MemWrite within the capacity (20_memory R42). -/
theorem memWrite {s : State} (hs : s.Inv) (b : BufId) {a : Nat} {x : Bytes}
    (hfit : a + x.length ≤ Config.cap) : (s.memWrite b a x).Inv where
  sessionTypeCanonical := by simpa using hs.sessionTypeCanonical
  statusProduced := by simpa using hs.statusProduced
  posWithinBuffer := by simpa using hs.posWithinBuffer
  olenWithinBuffer := by simpa using hs.olenWithinBuffer
  buffersCanonical b' := by
    rw [State.buf_memWrite]
    split
    · exact Memory.wf_write x a (hs.buffersCanonical b)
    · exact hs.buffersCanonical b'
  buffersBounded b' := by
    rw [State.buf_memWrite]
    split
    · exact Memory.bounded_write x hfit (hs.buffersBounded b)
    · exact hs.buffersBounded b'

theorem commitBlock {s : State} (hs : s.Inv) (b : BufId) (present : Bool) {x : Bytes}
    (hfit : x.length ≤ Config.cap) : (s.commitBlock b present x).Inv := by
  cases present
  · exact hs
  · exact hs.memWrite b (by omega)

/-- Whatever an encode assembles, its end keeps the invariant: bytes over CAP are not written
(60_exceptions R208). -/
theorem emit {s : State} (hs : s.Inv) (out : Bytes) : (s.emit out).Inv := by
  by_cases hlong : Config.cap < out.length
  · rw [State.emit_of_long hlong]
    exact hs.raise rfl (Nat.zero_le _)
  · have hfit : out.length ≤ Config.cap := Nat.le_of_not_lt hlong
    rw [State.emit_of_fits hfit]
    exact ((hs.memWrite .obuf (by omega)).withOlen hfit).succeedAt hfit

theorem hdrCommit {s : State} (hs : s.Inv) {h : Header} (hmx : h.mx.length ≤ Config.cap) :
    (hdrCommit h s).Inv := by
  have hblock := hs.commitBlock .mxb h.mxV hmx
  refine putSf ?_ h.sf
  exact hblock.congr rfl rfl rfl rfl fun _ => rfl

theorem pmCommit {s : State} (hs : s.Inv) {m : ProtocolMessage} (hsx : m.sx.length ≤ Config.cap)
    (hpay : m.pay.length ≤ Config.cap) : (pmCommit m s).Inv :=
  have hblocks := (hs.commitBlock .sxb m.sxV hsx).memWrite .pay (a := 0) (x := m.pay) (by omega)
  hblocks.congr rfl rfl rfl rfl fun _ => rfl

theorem msgCommit {s : State} (hs : s.Inv) {h : Header} {m : ProtocolMessage} {mic : Bytes}
    (hmx : h.mx.length ≤ Config.cap) (hsx : m.sx.length ≤ Config.cap)
    (hpay : m.pay.length ≤ Config.cap) (hmic : mic.length ≤ Config.cap) :
    (msgCommit h m mic s).Inv :=
  have hwritten := ((hs.hdrCommit hmx).pmCommit hsx hpay).memWrite .mic (a := 0) (x := mic) (by omega)
  hwritten.congr rfl rfl rfl rfl fun _ => rfl

/-- A crypto-port call writes nothing the invariant speaks of (44_message_assembly R176). -/
theorem encryptCalled {s : State} (hs : s.Inv) (pt : Bytes) : (s.encryptCalled pt).Inv :=
  hs.congr rfl rfl rfl rfl fun _ => rfl

theorem verifyCalled {s : State} (hs : s.Inv) (hdr ct mic : Bytes) : (s.verifyCalled hdr ct mic).Inv := by
  unfold State.verifyCalled
  split
  · exact hs.congr rfl rfl rfl rfl fun _ => rfl
  · exact hs

theorem decryptCalled {s : State} (hs : s.Inv) (ct : Bytes) : (s.decryptCalled ct).Inv :=
  hs.congr rfl rfl rfl rfl fun _ => rfl

theorem applyReset (s : State) : s.applyReset.Inv where
  sessionTypeCanonical := show (0x00#8).extractLsb' 0 2 ≠ 2#2 by decide
  statusProduced := rfl
  posWithinBuffer := Nat.zero_le _
  olenWithinBuffer := Nat.zero_le _
  buffersCanonical b := by cases b <;> rfl
  buffersBounded b := by cases b <;> rfl

end State.Inv

/-! ### Commands that are no codec -/

/-- The low two bits of a byte are unchanged by a set of a one-bit field above them. -/
theorem setField_bit_low {lo : Nat} (hlo : 2 ≤ lo) (hlt : lo < 8) (v : BitVec 1) (r : Byte) :
    (setField lo v r).extractLsb' 0 2 = r.extractLsb' 0 2 := by
  apply BitVec.eq_of_getLsbD_eq
  intro i hi
  simp only [BitVec.getLsbD_extractLsb', Nat.zero_add]
  rw [setField_bit lo hlt, if_neg (by omega)]

/-- SET_ST stores a canonical SessionType (40_flag_ops R108). -/
theorem setField_canonST_low (x : BitVec 2) (r : Byte) :
    (setField 0 (canonST x) r).extractLsb' 0 2 ≠ 2#2 := by
  have hlow : (setField 0 (canonST x) r).extractLsb' 0 2 = canonST x := by
    rw [setField_low2, BitVec.extractLsb'_append_eq_right]
  rw [hlow]
  exact canonST_ne_two x

/-- No command that is no codec leaves the pattern 2 in SF[1:0] (10_state R14, 40_flag_ops R99 to R108). -/
theorem exec_sf_of_not_codec {i : Instr} (hi : isCodec i = false) {s t : State} (hs : s.Inv)
    (h : exec i s = .next t) : t.sf.extractLsb' 0 2 ≠ 2#2 := by
  cases i with
  | encHdr | decHdr | encPm | decPm | encMsg | decMsg => contradiction
  | ldsf imm =>
    cases h
    exact (hs.putSf imm).sessionTypeCanonical
  | setP imm | setC imm | setMx imm =>
    cases h
    rw [State.succeed_sf, setField_bit_low (by decide) (by decide)]
    exact hs.sessionTypeCanonical
  | setSt imm =>
    cases h
    exact setField_canonST_low imm s.sf
  | _ =>
    cases h
    exact hs.sessionTypeCanonical

theorem exec_inv_of_not_codec {i : Instr} (hi : isCodec i = false) {s t : State} (hs : s.Inv)
    (h : exec i s = .next t) : t.Inv := by
  have hsf := exec_sf_of_not_codec hi hs h
  rw [(exec_plain hi h).1]
  exact ((hs.withSf hsf).withStatus (c := 0x00#8) rfl).congr rfl rfl rfl rfl fun _ => rfl

/-! ### Codec commands -/

/-- The optional parts of a laid-out header that fits a buffer fit one too. -/
theorem parsedHeader_mx_fits {stream : Bool} {f : Wire.HeaderFields}
    (h : (Wire.header stream f).length ≤ Config.cap) :
    (parsedHeader stream f).mx.length ≤ Config.cap := by
  rw [header_length] at h
  change (if f.sf.getLsbD 5 then f.mx else []).length ≤ Config.cap
  split
  next hmx =>
    rw [if_pos hmx] at h
    omega
  next => exact Nat.zero_le _

theorem parsedPm_blocks_fit {g : Wire.PmFields} (h : (Wire.pm g).length ≤ Config.cap) :
    (parsedPm g).sx.length ≤ Config.cap ∧ (parsedPm g).pay.length ≤ Config.cap := by
  rw [Wire.pm, List.length_append, pmHead_length] at h
  refine ⟨?_, show g.pay.length ≤ Config.cap by omega⟩
  change (if g.xf.getLsbD 3 then g.sx else []).length ≤ Config.cap
  split
  next hsx =>
    rw [if_pos hsx] at h
    omega
  next => exact Nat.zero_le _

/-- An error of the header parse has a produced code and stands within the input (60_exceptions R200,
R201). -/
theorem State.Inv.raise_hdrParse {s : State} (hs : s.Inv) (hlen : s.ilen.toNat ≤ Config.cap)
    {stream : Bool} {vermask : BitVec 16} {e : CodecError}
    (he : hdrParse stream vermask s.wireInput = .error e) : (s.raise e).Inv := by
  obtain ⟨hkind, hpos⟩ := hdrParse_error he
  rw [State.wireInput_length] at hpos
  have hcode : producedCode e.kind.code = true := by
    obtain hkind | ⟨rfl, -⟩ := hkind
    · rw [hkind]; rfl
    · rfl
  exact hs.raise hcode (hpos.trans hlen)

/-- The same for the Protocol Message parse of the input. -/
theorem State.Inv.raise_pmParse {s : State} (hs : s.Inv) (hlen : s.ilen.toNat ≤ Config.cap)
    {e : CodecError} (he : pmParse s.wireInput = .error e) : (s.raise e).Inv := by
  obtain ⟨hkind, hpos⟩ := pmParse_error he
  rw [State.wireInput_length] at hpos
  exact hs.raise (by rw [hkind]; rfl) (hpos.trans hlen)

/-- The outcome of a command that is known to be one state. -/
theorem inv_of_next {r : Result} {t u : State} (hr : r = .next u) (hu : u.Inv) (h : r = .next t) :
    t.Inv := by
  cases hr.symm.trans h
  exact hu

theorem execEncHdr_inv {s t : State} (hs : s.Inv) (h : execEncHdr s = .next t) : t.Inv := by
  by_cases hc : s.HeaderConsistent
  · exact inv_of_next (execEncHdr_of_consistent hc) (hs.emit _) h
  · exact inv_of_next (execEncHdr_of_inconsistent hc) (hs.raise rfl (Nat.zero_le _)) h

theorem execEncPm_inv {s t : State} (hs : s.Inv) (h : execEncPm s = .next t) : t.Inv := by
  by_cases hc : s.PmConsistent
  · exact inv_of_next (execEncPm_of_consistent hc) (hs.emit _) h
  · exact inv_of_next (execEncPm_of_inconsistent hc) (hs.raise rfl (Nat.zero_le _)) h

theorem execEncMsg_inv {s t : State} (hs : s.Inv) (h : execEncMsg s = .next t) : t.Inv := by
  obtain ⟨-, hx⟩ | ⟨-, -, hx⟩ | ⟨-, -, -, hx⟩ := execEncMsg_cases s
  · exact inv_of_next hx (hs.raise rfl (Nat.zero_le _)) h
  · exact inv_of_next hx (hs.raise rfl (Nat.zero_le _)) h
  · exact inv_of_next hx ((hs.encryptCalled _).emit _) h

theorem execDecHdr_inv {s t : State} (hs : s.Inv) (h : execDecHdr s = .next t) : t.Inv := by
  obtain ⟨-, hx⟩ | ⟨hlen, e, he, hx⟩ | ⟨hlen, f, rest, hin, -, -, -, -, -, -, hfits⟩ :=
    execDecHdr_cases s
  · exact inv_of_next hx (hs.raise rfl (Nat.zero_le _)) h
  · exact inv_of_next hx (hs.raise_hdrParse hlen he) h
  · have hp : (Wire.header (s.ctrl.getLsbD 0) f).length ≤ Config.cap := by
      have := header_fits hin
      omega
    obtain ⟨-, -, hx⟩ | ⟨-, hx⟩ := hfits
    · exact inv_of_next hx (hs.raise rfl hp) h
    · exact inv_of_next hx ((hs.hdrCommit (parsedHeader_mx_fits hp)).succeedAt hp) h

theorem execDecPm_inv {s t : State} (hs : s.Inv) (h : execDecPm s = .next t) : t.Inv := by
  obtain ⟨-, hx⟩ | ⟨hlen, e, he, hx⟩ | ⟨hlen, g, hin, -, -, -, -, hx⟩ := execDecPm_cases s
  · exact inv_of_next hx (hs.raise rfl (Nat.zero_le _)) h
  · exact inv_of_next hx (hs.raise_pmParse hlen he) h
  · obtain ⟨hsx, hpay⟩ := parsedPm_blocks_fit (g := g) (by rwa [← hin, State.wireInput_length])
    exact inv_of_next hx ((hs.pmCommit hsx hpay).succeedAt hlen) h

theorem decMsgFinish_inv {hd : Header} {p : Nat} {mic : Bytes} {r : Option Bytes} {s t : State}
    (hs : s.Inv) (hmx : hd.mx.length ≤ Config.cap) (hp : p ≤ Config.cap)
    (hmic : mic.length ≤ Config.cap) (hlen : s.ilen.toNat ≤ Config.cap)
    (h : decMsgFinish hd p mic r s = .next t) : t.Inv := by
  obtain ⟨k, hk, hx⟩ | ⟨g, -, hg, -, -, -, -, hx⟩ := decMsgFinish_cases hd p mic r s
  · have hcode : producedCode k.code = true := by
      obtain ⟨rfl, -⟩ | ⟨rfl, -⟩ | ⟨rfl, -⟩ := hk <;> rfl
    exact inv_of_next hx (hs.raise hcode hp) h
  · obtain ⟨hsx, hpay⟩ := parsedPm_blocks_fit hg
    exact inv_of_next hx ((hs.msgCommit hmx hsx hpay hmic).succeedAt hlen) h

theorem execDecMsg_inv {s t : State} (hs : s.Inv) (h : execDecMsg s = .next t) : t.Inv := by
  obtain ⟨-, hx⟩ | ⟨hlen, e, he, hx⟩ | ⟨hlen, f, rest, hin, -, -, -, -, -, -, hstages⟩ :=
    execDecMsg_cases s
  · exact inv_of_next hx (hs.raise rfl (Nat.zero_le _)) h
  · exact inv_of_next hx (hs.raise_hdrParse hlen he) h
  · have hsum := header_fits hin
    have hp : (Wire.header (s.ctrl.getLsbD 0) f).length ≤ Config.cap := by omega
    obtain ⟨-, hx⟩ | ⟨ct, mic, rfl, -, ⟨-, -, hx⟩ | ⟨-, hx⟩⟩ := hstages
    · exact inv_of_next hx (hs.raise rfl hp) h
    · exact inv_of_next hx ((hs.verifyCalled _ ct mic).raise rfl hp) h
    · rw [List.length_append] at hsum
      rw [hx] at h
      exact decMsgFinish_inv ((hs.verifyCalled _ ct mic).decryptCalled ct) (parsedHeader_mx_fits hp)
        hp (by omega) (by simpa using hlen) h

/-- Every command keeps the invariant. -/
theorem exec_inv {i : Instr} {s t : State} (hs : s.Inv) (h : exec i s = .next t) : t.Inv := by
  cases hi : isCodec i with
  | false => exact exec_inv_of_not_codec hi hs h
  | true =>
    obtain rfl | rfl | rfl | rfl | rfl | rfl := codec_cases hi
    · exact execEncHdr_inv hs h
    · exact execDecHdr_inv hs h
    · exact execEncPm_inv hs h
    · exact execDecPm_inv hs h
    · exact execEncMsg_inv hs h
    · exact execDecMsg_inv hs h

/-! ### Host events and steps -/

/-- A word that is no command leaves the code IllegalCommand, which is produced (60_exceptions R210). -/
theorem issue_inv {w : CommandWord} {s t : State} (hs : s.Inv) (h : issue w s = .next t) : t.Inv := by
  unfold issue at h
  split at h
  next => exact exec_inv hs h
  next =>
    cases h
    exact hs.withStatus rfl

/-- A host write to a register other than CMD: only SF is among what the invariant speaks of, and the write
is canonical (20_memory R52). -/
theorem State.Inv.putReg {s : State} (hs : s.Inv) (r : Reg) (v : Nat) : (s.putReg r v).Inv := by
  cases r with
  | sf => exact hs.putSf _
  | _ => exact hs.congr rfl rfl rfl rfl fun _ => rfl

theorem hostWrite_inv {n v : Nat} {s t : State} (hs : s.Inv) (h : hostWrite n v s = .next t) :
    t.Inv := by
  unfold hostWrite at h
  split at h
  next => exact issue_inv hs h
  next r _ _ =>
    cases h
    exact hs.putReg r v
  next =>
    cases h
    exact hs

/-- A host buffer write at an offset below CAP stays within the buffer; any other is ignored
(20_memory R53). -/
theorem State.Inv.hostBufWrite {s : State} (hs : s.Inv) (id a : Nat) (v : Byte) :
    (s.hostBufWrite id a v).Inv := by
  unfold State.hostBufWrite
  split
  next => exact hs
  next b _ _ =>
    split
    next ha => exact hs.memWrite b ha
    next => exact hs
  next => exact hs

/-- A reset in the middle of a command leaves the reset registers and buffers, whatever the command had
done (70_reset_and_hazards R230). -/
theorem State.Inv.abandon (w calls : Nat) (s : State) : (s.abandon w calls).Inv := by
  unfold State.abandon
  split
  next => exact (State.Inv.applyReset s).congr rfl rfl rfl rfl fun _ => rfl
  next => exact .applyReset s
  next => exact .applyReset s

theorem perform_inv {e : HostEvent} {s t : State} (hs : s.Inv) (h : perform e s = .next t) :
    t.Inv := by
  cases e with
  | regRead n =>
    cases h
    exact hs.congr rfl rfl rfl rfl fun _ => rfl
  | bufRead id a =>
    cases h
    exact hs.congr rfl rfl rfl rfl fun _ => rfl
  | regWrite n v => exact hostWrite_inv hs h
  | bufWrite id a v =>
    cases h
    exact hs.hostBufWrite id a v
  | reset =>
    cases h
    exact .applyReset s
  | resetDuring w calls =>
    cases h
    exact .abandon w calls s

/-- Settles O50: a step is idle or performs one host event, and no event breaks the invariant. -/
theorem invariantIsKept : Obligations.InvariantIsKept := by
  intro s t hs h
  cases he : s.events with
  | nil => exact inv_of_next (step_of_no_event he) hs h
  | cons e rest =>
    have hnext : State.Inv { s with events := rest } := hs.congr rfl rfl rfl rfl fun _ => rfl
    exact perform_inv hnext ((step_of_event he).symm.trans h)

end Sys2Proof.Machine
end

section
/-! PROOFS. No command reads STATUS, RES, POS or the record of observations (10_state R31, R39; 00_scope R5). A
command run after another past ends in the same state but for that past: RES where the command writes none, and
the record that its crypto-port calls are appended to. -/

namespace Sys2Proof.Machine

/-! ### Another past -/

/-- STATUS, RES, POS and the record of observations of another state: what earlier commands left. -/
def State.withPastOf (t s : State) : State :=
  { t with status := s.status, res := s.res, pos := s.pos, obs := s.obs }

/-- The record continued by the given observations. -/
def State.record (s : State) (x : List Observation) : State := { s with obs := s.obs ++ x }

/-- The outcome of a codec command after another past, which it extends by the given observations: STATUS and
POS are the command's own. -/
def State.afterPast (t u : State) (x : List Observation) : State :=
  { t with res := u.res, obs := u.obs ++ x }

/-- Of two states that differ in their past alone, each is the other with that past replaced. -/
theorem withPastOf_of_forgetOutcome {s s' : State} (h : s.forgetOutcome = s'.forgetOutcome) :
    s.withPastOf s' = s' :=
  calc s.withPastOf s' = s.forgetOutcome.withPastOf s' := rfl
    _ = s'.forgetOutcome.withPastOf s' := by rw [h]
    _ = s' := rfl

section
variable (s u : State)

@[simp] theorem State.withPastOf_ctrl : (s.withPastOf u).ctrl = s.ctrl := rfl

@[simp] theorem State.withPastOf_vermask : (s.withPastOf u).vermask = s.vermask := rfl

@[simp] theorem State.withPastOf_miclen : (s.withPastOf u).miclen = s.miclen := rfl

@[simp] theorem State.withPastOf_ilen : (s.withPastOf u).ilen = s.ilen := rfl

@[simp] theorem State.withPastOf_footerSize : (s.withPastOf u).footerSize = s.footerSize := rfl

@[simp] theorem State.withPastOf_verifyCount : (s.withPastOf u).verifyCount = s.verifyCount := rfl

@[simp] theorem State.withPastOf_verifyAnswerTo (k : Nat) (hdr ct mic : Bytes) :
    (s.withPastOf u).verifyAnswerTo k hdr ct mic = s.verifyAnswerTo k hdr ct mic := rfl

@[simp] theorem State.withPastOf_decryptAnswerTo (k : Nat) (ct : Bytes) :
    (s.withPastOf u).decryptAnswerTo k ct = s.decryptAnswerTo k ct := rfl

@[simp] theorem State.withPastOf_memRead (b : BufId) (a n : Nat) :
    (s.withPastOf u).memRead b a n = s.memRead b a n :=
  State.memRead_of_buf (s := s.withPastOf u) (t := s) rfl rfl a n

@[simp] theorem State.withPastOf_wireInput : (s.withPastOf u).wireInput = s.wireInput :=
  s.withPastOf_memRead u .ibuf 0 _

@[simp] theorem State.withPastOf_wireHeader : (s.withPastOf u).wireHeader = s.wireHeader := by
  unfold State.wireHeader
  rw [State.headerFields_congr (s := s.withPastOf u) (t := s) rfl rfl]
  rfl

@[simp] theorem State.withPastOf_wirePm : (s.withPastOf u).wirePm = s.wirePm := by
  unfold State.wirePm
  rw [State.pmFields_congr (s := s.withPastOf u) (t := s) rfl rfl]

/-! ### The shared operations after another past -/

theorem State.withPastOf_emit (out : Bytes) :
    (s.withPastOf u).emit out = { s.emit out with res := u.res, obs := u.obs } := by
  by_cases hlong : Config.cap < out.length
  · rw [State.emit_of_long hlong, State.emit_of_long hlong]
    rfl
  · rw [State.emit_of_fits (Nat.le_of_not_lt hlong), State.emit_of_fits (Nat.le_of_not_lt hlong)]
    rfl

theorem hdrCommit_withPastOf (h : Header) :
    hdrCommit h (s.withPastOf u) = (hdrCommit h s).withPastOf u := by
  unfold hdrCommit State.commitBlock
  cases h.mxV <;> rfl

theorem pmCommit_withPastOf (m : ProtocolMessage) :
    pmCommit m (s.withPastOf u) = (pmCommit m s).withPastOf u := by
  unfold pmCommit State.commitBlock
  cases m.sxV <;> rfl

theorem msgCommit_withPastOf (h : Header) (m : ProtocolMessage) (mic : Bytes) :
    msgCommit h m mic (s.withPastOf u) = (msgCommit h m mic s).withPastOf u := by
  unfold msgCommit
  rw [hdrCommit_withPastOf, pmCommit_withPastOf]
  rfl

theorem State.withPastOf_decryptCalled (ct : Bytes) :
    (s.withPastOf u).decryptCalled ct =
      (s.decryptCalled ct).withPastOf (u.record [.decryptCall ct s.ctx]) := rfl

/-- The `verify` call of DEC_MSG as the record shows it: one in a secure session, else none
(44_message_assembly R178). -/
def State.verifyRecord (hdr ct mic : Bytes) : List Observation :=
  if s.ctrl.getLsbD 2 then [.verifyCall hdr ct mic s.ctx] else []

theorem State.verifyCalled_obs_eq (hdr ct mic : Bytes) :
    (s.verifyCalled hdr ct mic).obs = s.obs ++ s.verifyRecord hdr ct mic := by
  unfold State.verifyCalled State.verifyRecord
  split
  next => rfl
  next => exact (List.append_nil _).symm

theorem State.withPastOf_verifyCalled (hdr ct mic : Bytes) :
    (s.withPastOf u).verifyCalled hdr ct mic =
      (s.verifyCalled hdr ct mic).withPastOf (u.record (s.verifyRecord hdr ct mic)) := by
  unfold State.verifyCalled State.verifyRecord
  rw [State.withPastOf_ctrl]
  split
  next => rfl
  next =>
    unfold State.record
    rw [List.append_nil]

end

/-! ### Outcomes after another past -/

/-- A codec command started in `s` answers `r`, and started in `s` after the past of `u` it answers `r'`: the
outcomes agree but for RES, which neither writes, and each record grows by the same calls. -/
def SameOutcomeAfter (s u : State) (r r' : Result) : Prop :=
  ∃ t x, r = .next t ∧ t.obs = s.obs ++ x ∧ t.res = s.res ∧ r' = .next (t.afterPast u x)

/-- An outcome that makes no call. -/
theorem SameOutcomeAfter.of_no_call {s u t : State} (hobs : t.obs = s.obs) (hres : t.res = s.res) :
    SameOutcomeAfter s u (.next t) (.next { t with res := u.res, obs := u.obs }) :=
  ⟨t, [], rfl, by rw [hobs, List.append_nil], hres, by rw [State.afterPast, List.append_nil]⟩

theorem SameOutcomeAfter.raise (s u : State) (e : CodecError) :
    SameOutcomeAfter s u (.next (s.raise e)) (.next ((s.withPastOf u).raise e)) :=
  .of_no_call rfl rfl

theorem SameOutcomeAfter.succeedAt {s u t : State} (hobs : t.obs = s.obs) (hres : t.res = s.res)
    (p : Nat) : SameOutcomeAfter s u (.next (t.succeedAt p)) (.next ((t.withPastOf u).succeedAt p)) :=
  .of_no_call hobs hres

theorem SameOutcomeAfter.emit (s u : State) (out : Bytes) :
    SameOutcomeAfter s u (.next (s.emit out)) (.next ((s.withPastOf u).emit out)) := by
  rw [State.withPastOf_emit]
  exact .of_no_call (State.emit_obs ..) (State.emit_res ..)

/-- An outcome reached from a state in which calls have been made. -/
theorem SameOutcomeAfter.after_calls {s u v : State} {x : List Observation} {r r' : Result}
    (hobs : v.obs = s.obs ++ x) (hres : v.res = s.res) (h : SameOutcomeAfter v (u.record x) r r') :
    SameOutcomeAfter s u r r' := by
  obtain ⟨t, y, hr, htobs, htres, hr'⟩ := h
  refine ⟨t, x ++ y, hr, by rw [htobs, hobs, List.append_assoc], htres.trans hres, ?_⟩
  rw [hr', State.afterPast, State.afterPast, State.record, List.append_assoc]

/-! ### The codec commands -/

theorem execDecHdr_of_long {s : State} (h : Config.cap < s.ilen.toNat) :
    execDecHdr s = .next (s.raise ⟨.invariantViolation, 0⟩) := by
  unfold execDecHdr
  rw [ilenTooLong_true h]
  rfl

theorem execDecPm_of_long {s : State} (h : Config.cap < s.ilen.toNat) :
    execDecPm s = .next (s.raise ⟨.invariantViolation, 0⟩) := by
  unfold execDecPm
  rw [ilenTooLong_true h]
  rfl

theorem execDecMsg_of_long {s : State} (h : Config.cap < s.ilen.toNat) :
    execDecMsg s = .next (s.raise ⟨.invariantViolation, 0⟩) := by
  unfold execDecMsg
  rw [ilenTooLong_true h]
  rfl

/-- The last stage of DEC_MSG ends in the same way from every state: which error it is, or which Protocol
Message, is settled by the answer of `decrypt` (44_message_assembly R181). -/
theorem decMsgFinish_uniform (h : Header) (p : Nat) (mic : Bytes) (r : Option Bytes) :
    (∃ k, ∀ s, decMsgFinish h p mic r s = .next (s.raise ⟨k, p⟩)) ∨
    (∃ m, (∃ pt : Bytes, pt.length ≤ Config.cap ∧ pmParse pt = .ok m) ∧ ∀ s, decMsgFinish h p mic r s =
      .next ((msgCommit h m mic s).succeedAt s.ilen.toNat)) := by
  unfold decMsgFinish
  rcases r with _ | pt
  · exact .inl ⟨_, fun _ => rfl⟩
  · by_cases hlong : Config.cap < pt.length
    · exact .inl ⟨_, fun _ => if_pos hlong⟩
    · simp only [if_neg hlong]
      rcases hm : pmParse pt with e | m
      · exact .inl ⟨_, fun _ => rfl⟩
      · exact .inr ⟨m, ⟨pt, Nat.le_of_not_lt hlong, hm⟩, fun _ => rfl⟩

section
variable (s u : State)

theorem execEncHdr_after : SameOutcomeAfter s u (execEncHdr s) (execEncHdr (s.withPastOf u)) := by
  by_cases hc : s.HeaderConsistent
  · rw [execEncHdr_of_consistent hc, execEncHdr_of_consistent (s := s.withPastOf u) hc,
      State.withPastOf_wireHeader]
    exact .emit s u _
  · rw [execEncHdr_of_inconsistent hc, execEncHdr_of_inconsistent (s := s.withPastOf u) hc]
    exact .raise s u _

theorem execEncPm_after : SameOutcomeAfter s u (execEncPm s) (execEncPm (s.withPastOf u)) := by
  by_cases hc : s.PmConsistent
  · rw [execEncPm_of_consistent hc, execEncPm_of_consistent (s := s.withPastOf u) hc,
      State.withPastOf_wirePm]
    exact .emit s u _
  · rw [execEncPm_of_inconsistent hc, execEncPm_of_inconsistent (s := s.withPastOf u) hc]
    exact .raise s u _

theorem execEncMsg_after : SameOutcomeAfter s u (execEncMsg s) (execEncMsg (s.withPastOf u)) := by
  unfold execEncMsg
  rw [show hdrCheck (s.withPastOf u) = hdrCheck s from rfl,
    show pmCheck (s.withPastOf u) = pmCheck s from rfl,
    show ftrCheck (s.withPastOf u) = ftrCheck s from rfl]
  simp only [hdrBytes_wire, pmBytes_wire, State.withPastOf_wireHeader, State.withPastOf_wirePm,
    State.withPastOf_memRead, State.withPastOf_miclen]
  split
  next =>
    split
    next => exact .raise s u _
    next => exact .after_calls (v := s.encryptCalled s.wirePm) rfl rfl (.emit _ _ _)
  next => exact .raise s u _

theorem execDecHdr_after : SameOutcomeAfter s u (execDecHdr s) (execDecHdr (s.withPastOf u)) := by
  by_cases hl : s.ilen.toNat ≤ Config.cap
  · rw [execDecHdr_eq hl, execDecHdr_eq (s := s.withPastOf u) hl, State.withPastOf_wireInput,
      State.withPastOf_ctrl, State.withPastOf_vermask, State.withPastOf_ilen]
    rcases hdrParse (s.ctrl.getLsbD 0) s.vermask s.wireInput with e | ⟨h, p⟩
    · exact .raise s u e
    · simp only [hdrCommit_withPastOf]
      split
      next => exact .raise s u _
      next => exact .succeedAt (hdrCommit_obs h s) (hdrCommit_res h s) p
  · rw [execDecHdr_of_long (Nat.lt_of_not_le hl),
      execDecHdr_of_long (s := s.withPastOf u) (Nat.lt_of_not_le hl)]
    exact .raise s u _

theorem execDecPm_after : SameOutcomeAfter s u (execDecPm s) (execDecPm (s.withPastOf u)) := by
  by_cases hl : s.ilen.toNat ≤ Config.cap
  · rw [execDecPm_eq hl, execDecPm_eq (s := s.withPastOf u) hl, State.withPastOf_wireInput]
    rcases pmParse s.wireInput with e | m
    · exact .raise s u e
    · simp only [pmCommit_withPastOf]
      exact .succeedAt (pmCommit_obs m s) (pmCommit_res m s) _
  · rw [execDecPm_of_long (Nat.lt_of_not_le hl),
      execDecPm_of_long (s := s.withPastOf u) (Nat.lt_of_not_le hl)]
    exact .raise s u _

theorem decMsgFinish_after (h : Header) (p : Nat) (mic : Bytes) (r : Option Bytes) :
    SameOutcomeAfter s u (decMsgFinish h p mic r s) (decMsgFinish h p mic r (s.withPastOf u)) := by
  obtain ⟨k, hx⟩ | ⟨m, -, hx⟩ := decMsgFinish_uniform h p mic r
  · rw [hx, hx]
    exact .raise s u _
  · rw [hx, hx, msgCommit_withPastOf]
    exact .succeedAt (msgCommit_obs h m mic s) (msgCommit_res h m mic s) _

theorem execDecMsg_after : SameOutcomeAfter s u (execDecMsg s) (execDecMsg (s.withPastOf u)) := by
  by_cases hl : s.ilen.toNat ≤ Config.cap
  · rw [execDecMsg_eq hl, execDecMsg_eq (s := s.withPastOf u) hl, State.withPastOf_wireInput]
    simp only [State.withPastOf_ctrl, State.withPastOf_vermask, State.withPastOf_ilen,
      State.withPastOf_footerSize, State.withPastOf_memRead, State.withPastOf_verifyCount,
      State.withPastOf_verifyAnswerTo, State.withPastOf_decryptAnswerTo,
      State.withPastOf_verifyCalled, State.withPastOf_decryptCalled]
    rcases hdrParse (s.ctrl.getLsbD 0) s.vermask s.wireInput with e | ⟨h, p⟩
    · exact .raise s u e
    · simp only
      generalize s.memRead .ibuf 0 p = hdr
      generalize s.memRead .ibuf p (s.ilen.toNat - s.footerSize - p) = ct
      generalize s.memRead .ibuf (s.ilen.toNat - s.footerSize) s.footerSize = mic
      have hobs := s.verifyCalled_obs_eq hdr ct mic
      have hres := State.verifyCalled_res s hdr ct mic
      split
      next => exact .raise s u _
      next =>
        split
        next => exact .after_calls hobs hres (.raise _ _ _)
        next =>
          refine .after_calls hobs hres (.after_calls (v := (s.verifyCalled hdr ct mic).decryptCalled ct)
            rfl rfl ?_)
          exact decMsgFinish_after _ _ h p mic _
  · rw [execDecMsg_of_long (Nat.lt_of_not_le hl),
      execDecMsg_of_long (s := s.withPastOf u) (Nat.lt_of_not_le hl)]
    exact .raise s u _

theorem exec_after_of_codec {i : Instr} (hi : isCodec i = true) :
    SameOutcomeAfter s u (exec i s) (exec i (s.withPastOf u)) := by
  obtain rfl | rfl | rfl | rfl | rfl | rfl := codec_cases hi
  · exact execEncHdr_after s u
  · exact execDecHdr_after s u
  · exact execEncPm_after s u
  · exact execDecPm_after s u
  · exact execEncMsg_after s u
  · exact execDecMsg_after s u

/-! ### The other commands -/

/-- A command that is no codec, after another past: it leaves POS and the record of that past, and RES unless
it is of the read type (10_state R32). -/
theorem exec_after_of_not_codec {i : Instr} (hi : isCodec i = false) :
    ∃ t, exec i s = .next t ∧ exec i (s.withPastOf u) =
      .next { t with res := if isReadType i then t.res else u.res, pos := u.pos, obs := u.obs } := by
  cases i with
  | encHdr | decHdr | encPm | decPm | encMsg | decMsg => contradiction
  | _ => exact ⟨_, rfl, rfl⟩

end

theorem not_isReadType_of_codec {i : Instr} (hi : isCodec i = true) : isReadType i = false := by
  obtain rfl | rfl | rfl | rfl | rfl | rfl := codec_cases hi <;> rfl

/-- Settles O52: the second state is the first after another past, and every command commutes with the
past. -/
theorem outcomeIsNotRead : Obligations.OutcomeIsNotRead := by
  intro i s s' h
  have hpast := withPastOf_of_forgetOutcome h
  cases hi : isCodec i with
  | false =>
    obtain ⟨t, ht, ht'⟩ := exec_after_of_not_codec s s' hi
    obtain ⟨hframe, hres⟩ := exec_plain hi ht
    have hobs : t.obs = s.obs := by rw [hframe]
    have hpos : t.pos = s.pos := by rw [hframe]
    rw [hpast] at ht'
    refine ⟨t, _, ht, ht', rfl, rfl, ?_, ?_, hpos, rfl⟩
    · exact (newObservations_of_eq hobs).trans (newObservations_of_eq rfl).symm
    · cases hr : isReadType i with
      | false => exact ⟨hres hr, rfl⟩
      | true => rfl
  | true =>
    obtain ⟨t, x, ht, hobs, hres, ht'⟩ := exec_after_of_codec s s' hi
    rw [hpast] at ht'
    refine ⟨t, _, ht, ht', rfl, rfl, ?_, ?_, rfl⟩
    · exact (newObservations_of_append hobs).trans (newObservations_of_append rfl).symm
    · rw [not_isReadType_of_codec hi]
      exact ⟨hres, rfl⟩

end Sys2Proof.Machine
end

section
/-! PROOFS. What a successful decode leaves (10_state R28, R29): the fields of the message it read, tags that agree
with the flag bytes, 0 in every absent field, and the buffer of an absent field as it was. -/

namespace Sys2Proof.Machine

/-! ### The presence tags -/

section
variable (stream : Bool) (f : Wire.HeaderFields) (g : Wire.PmFields) (old : Byte)

/-- TAG after a header decode, bit by bit (10_state R28). -/
theorem headerTag_bit {i : Nat} (hi : i < 8) : (Wire.headerTag stream f old).getLsbD i =
    if i = 0 then stream
    else if i = 1 then f.mf.getLsbD 2
    else if i < 4 then (Wire.destinationTag f.mf).getLsbD (i - 2)
    else if i = 4 then f.sf.getLsbD 5
    else old.getLsbD i := by
  unfold Wire.headerTag
  rw [BitVec.getLsbD_append, BitVec.getLsbD_append, BitVec.getLsbD_append, BitVec.getLsbD_append]
  interval_cases i <;> simp

/-- TAG after a Protocol Message decode, bit by bit (10_state R28). -/
theorem pmTag_bit {i : Nat} (hi : i < 8) : (Wire.pmTag g old).getLsbD i =
    if i = 5 then g.xf.getLsbD 4
    else if i = 6 then g.xf.getLsbD 1
    else if i = 7 then g.xf.getLsbD 3
    else old.getLsbD i := by
  unfold Wire.pmTag
  rw [BitVec.getLsbD_append, BitVec.getLsbD_append, BitVec.getLsbD_append]
  interval_cases i <;> simp

theorem headerTag_dstT :
    (Wire.headerTag stream f old).extractLsb' 2 2 = Wire.destinationTag f.mf := by
  apply BitVec.eq_of_getLsbD_eq
  intro i hi
  rw [BitVec.getLsbD_extractLsb', headerTag_bit _ _ _ (by omega)]
  interval_cases i <;> rfl

/-- TAG[4:0] after a header decode is the header's alone (42_header_codec R149). -/
theorem headerTag_low (old' : Byte) : (Wire.headerTag stream f old).extractLsb' 0 5 =
    (Wire.headerTag stream f old').extractLsb' 0 5 := by
  apply BitVec.eq_of_getLsbD_eq
  intro i hi
  rw [BitVec.getLsbD_extractLsb', BitVec.getLsbD_extractLsb', headerTag_bit _ _ _ (by omega),
    headerTag_bit _ _ _ (by omega)]
  interval_cases i <;> rfl

/-- TAG[7:5] after a Protocol Message decode is the message's alone (43_protocol_message_codec R163). -/
theorem pmTag_high (old' : Byte) :
    (Wire.pmTag g old).extractLsb' 5 3 = (Wire.pmTag g old').extractLsb' 5 3 := by
  apply BitVec.eq_of_getLsbD_eq
  intro i hi
  rw [BitVec.getLsbD_extractLsb', BitVec.getLsbD_extractLsb', pmTag_bit _ _ (by omega),
    pmTag_bit _ _ (by omega)]
  interval_cases i <;> rfl

/-- The two parts of TAG are written independently (10_state R28). -/
theorem pmTag_headerTag : Wire.pmTag g (Wire.headerTag stream f old) =
    Wire.headerTag stream f (Wire.pmTag g old) := by
  apply BitVec.eq_of_getLsbD_eq
  intro i hi
  rw [pmTag_bit _ _ hi, headerTag_bit _ _ _ hi, headerTag_bit _ _ _ hi, pmTag_bit _ _ hi]
  interval_cases i <;> rfl

end

/-! ### A decoded header and a decoded Protocol Message -/

/-- The state `t` holds the decoded fields of a header, its tags, and MXB beyond the block as in `s`
(42_header_codec R149). -/
structure State.DecodedHeader (t s : State) (stream : Bool) (f : Wire.HeaderFields) : Prop where
  fields : t.headerFields = f.decoded stream
  tag : ∃ old, t.tag = Wire.headerTag stream f old
  rest : SameBytesFrom .mxb t.mxlen.toNat t s

/-- The state `t` holds the decoded fields of a Protocol Message, its tags, and SXB beyond the block as in `s`
(43_protocol_message_codec R163). -/
structure State.DecodedPm (t s : State) (g : Wire.PmFields) : Prop where
  fields : t.pmFields = g.decoded
  tag : ∃ old, t.tag = Wire.pmTag g old
  rest : SameBytesFrom .sxb t.sxlen.toNat t s

/-- The state `t` holds an integrity check, and MIC beyond it as in `s` (44_message_assembly R181). -/
structure State.DecodedFooter (t s : State) (mic : Bytes) : Prop where
  bytes : t.micBytes = mic
  rest : SameBytesFrom .mic t.miclen.toNat t s

theorem State.miclen_of_micBytes {t : State} {mic : Bytes} (h : t.micBytes = mic) :
    t.miclen.toNat = mic.length := by
  subst h; simp [State.micBytes]

theorem hdrCommit_decoded (stream : Bool) {f : Wire.HeaderFields} (hmx : f.mx.length < 65536)
    (s : State) (p : Nat) :
    ((hdrCommit (parsedHeader stream f) s).succeedAt p).DecodedHeader s stream f := by
  obtain ⟨hfields, htag, hrest, -⟩ := hdrCommit_spec stream f s fun _ => hmx
  exact ⟨(State.succeedAt_headerFields _ p).trans hfields, ⟨s.tag, htag⟩,
    fun a ha => hrest a ((State.mxlen_of_headerFields hfields).symm.trans_le ha)⟩

theorem pmCommit_decoded {g : Wire.PmFields} (hsx : g.sx.length < 65536) (hpay : g.pay.length < 65536)
    (s : State) (p : Nat) : ((pmCommit (parsedPm g) s).succeedAt p).DecodedPm s g := by
  obtain ⟨hfields, htag, hrest, -⟩ := pmCommit_spec g s (fun _ => hsx) hpay
  exact ⟨(State.succeedAt_pmFields _ p).trans hfields, ⟨s.tag, htag⟩,
    fun a ha => hrest a ((State.sxlen_of_pmFields hfields).symm.trans_le ha)⟩

theorem msgCommit_decoded (stream : Bool) {f : Wire.HeaderFields} {g : Wire.PmFields} {mic : Bytes}
    (hmx : f.mx.length < 65536) (hsx : g.sx.length < 65536) (hpay : g.pay.length < 65536)
    (hmic : mic.length < 65536) (s : State) (p : Nat) {t : State}
    (ht : t = (msgCommit (parsedHeader stream f) (parsedPm g) mic s).succeedAt p) :
    t.DecodedHeader s stream f ∧ t.DecodedPm s g ∧ t.DecodedFooter s mic := by
  obtain ⟨hhdr, hpm, hbytes, htag, hmxb, hsxb, -, hrest, -⟩ :=
    msgCommit_spec stream f g mic s _ rfl (fun _ => hmx) (fun _ => hsx) hpay hmic
  subst ht
  exact ⟨⟨(State.succeedAt_headerFields _ p).trans hhdr,
      ⟨_, htag.trans (pmTag_headerTag stream f g s.tag)⟩, hmxb⟩,
    ⟨(State.succeedAt_pmFields _ p).trans hpm, ⟨_, htag⟩, hsxb⟩,
    ⟨(State.succeedAt_micBytes _ p).trans hbytes, hrest⟩⟩

theorem pay_length_lt {g : Wire.PmFields} (h : (Wire.pm g).length ≤ Config.cap) :
    g.pay.length < 65536 := by
  have := Config.cap_le
  rw [Wire.pm, List.length_append] at h
  omega

/-- A footer is at most 255 bytes long (10_state R36). -/
theorem State.footerSize_lt (s : State) : s.footerSize < 65536 := by
  have := s.micsz.isLt
  unfold State.footerSize
  split <;> omega

/-! ### The decodes that succeed -/

/-- The crypto-port calls of DEC_MSG write to no buffer (44_message_assembly R176). -/
theorem messageCalls_readByte (s : State) (hdr ct mic : Bytes) (b : BufId) (a : Nat) :
    ((s.verifyCalled hdr ct mic).decryptCalled ct).readByte b a = s.readByte b a := by
  unfold State.verifyCalled
  split
  next => rfl
  next => rfl

theorem execDecHdr_decoded {s t : State} (h : execDecHdr s = .next t) (hok : t.status = 0x00#8) :
    ∃ f, t.DecodedHeader s (s.ctrl.getLsbD 0) f := by
  obtain ⟨-, hx⟩ | ⟨-, e, -, hx⟩ | ⟨-, f, rest, -, -, hmx, -, -, -, -, ⟨-, -, hx⟩ | ⟨-, hx⟩⟩ :=
    execDecHdr_cases s <;> cases hx.symm.trans h
  · exact absurd hok (State.raise_status_ne_ok _ s)
  · exact absurd hok (State.raise_status_ne_ok _ s)
  · exact absurd hok (State.raise_status_ne_ok _ s)
  · exact ⟨f, hdrCommit_decoded _ hmx s _⟩

theorem execDecPm_decoded {s t : State} (h : execDecPm s = .next t) (hok : t.status = 0x00#8) :
    ∃ g, t.DecodedPm s g := by
  obtain ⟨-, hx⟩ | ⟨-, e, -, hx⟩ | ⟨hlen, g, hin, hsx, -, -, -, hx⟩ :=
    execDecPm_cases s <;> cases hx.symm.trans h
  · exact absurd hok (State.raise_status_ne_ok _ s)
  · exact absurd hok (State.raise_status_ne_ok _ s)
  · have hpay : g.pay.length < 65536 := pay_length_lt (by rwa [← hin, State.wireInput_length])
    exact ⟨g, pmCommit_decoded hsx hpay s _⟩

theorem execDecMsg_decoded {s t : State} (h : execDecMsg s = .next t) (hok : t.status = 0x00#8) :
    ∃ f g mic, mic.length = s.footerSize ∧ t.DecodedHeader s (s.ctrl.getLsbD 0) f ∧ t.DecodedPm s g ∧
      t.DecodedFooter s mic := by
  obtain ⟨-, hx⟩ | ⟨-, e, -, hx⟩ | ⟨-, f, rest, -, -, hmx, -, -, -, -, hstages⟩ := execDecMsg_cases s
  · cases hx.symm.trans h
    exact absurd hok (State.raise_status_ne_ok _ s)
  · cases hx.symm.trans h
    exact absurd hok (State.raise_status_ne_ok _ s)
  obtain ⟨-, hx⟩ | ⟨ct, mic, -, hmic, ⟨-, -, hx⟩ | ⟨-, hx⟩⟩ := hstages
  · cases hx.symm.trans h
    exact absurd hok (State.raise_status_ne_ok _ s)
  · cases hx.symm.trans h
    exact absurd hok (State.raise_status_ne_ok _ _)
  rw [hx] at h
  obtain ⟨k, -, hy⟩ | ⟨g, -, hg, hsx, -, -, -, hy⟩ := decMsgFinish_cases _ _ mic _ _
  · cases hy.symm.trans h
    exact absurd hok (State.raise_status_ne_ok _ _)
  · cases hy.symm.trans h
    obtain ⟨⟨hhdr, htag, hmxb⟩, ⟨hpm, hpmTag, hsxb⟩, hbytes, hrest⟩ :=
      msgCommit_decoded _ hmx hsx (pay_length_lt hg) (hmic.trans_lt s.footerSize_lt) _ _ rfl
    have hcalls := messageCalls_readByte s (Wire.header (s.ctrl.getLsbD 0) f) ct mic
    exact ⟨f, g, mic, hmic,
      ⟨hhdr, htag, fun a ha => (hmxb a ha).trans (hcalls _ a)⟩,
      ⟨hpm, hpmTag, fun a ha => (hsxb a ha).trans (hcalls _ a)⟩,
      ⟨hbytes, fun a ha => (hrest a ha).trans (hcalls _ a)⟩⟩

/-! ### Absent fields -/

theorem destinationTag_eq_zero {mf : Byte} (h : Wire.destinationTag mf = 0#2) :
    mf.extractLsb' 0 2 ≠ 1#2 ∧ mf.extractLsb' 0 2 ≠ 2#2 := by
  unfold Wire.destinationTag at h
  split at h
  next => exact absurd h (by decide)
  next hnode =>
    split at h
    next => exact absurd h (by decide)
    next hgroup => exact ⟨hnode, hgroup⟩

theorem State.DecodedHeader.absent {t s : State} {stream : Bool} {f : Wire.HeaderFields}
    (h : t.DecodedHeader s stream f) :
    t.tag.getLsbD 0 = stream ∧ t.tag.getLsbD 1 = t.mf.getLsbD 2 ∧
    t.tag.extractLsb' 2 2 = Wire.destinationTag t.mf ∧ t.tag.getLsbD 4 = t.sf.getLsbD 5 ∧
    (t.tag.getLsbD 0 = false → t.len = 0#16) ∧ (t.tag.getLsbD 1 = false → t.src = 0#64) ∧
    (t.tag.extractLsb' 2 2 = 0#2 → t.dst = 0#64) ∧
    (t.tag.getLsbD 4 = false → t.mxlen = 0#16 ∧ SameBytesFrom .mxb 0 t s) := by
  obtain ⟨hfields, ⟨old, htag⟩, hrest⟩ := h
  have hmf : t.mf = f.mf := congrArg Wire.HeaderFields.mf hfields
  have hsf : t.sf = Wire.canonical f.sf := congrArg Wire.HeaderFields.sf hfields
  have hlen : t.len = if stream then f.len else 0#16 := congrArg Wire.HeaderFields.len hfields
  have hsrc : t.src = if f.mf.getLsbD 2 then f.src else 0#64 := congrArg Wire.HeaderFields.src hfields
  have hdst : t.dst = if f.mf.extractLsb' 0 2 = 1#2 then f.dst
      else if f.mf.extractLsb' 0 2 = 2#2 then (f.dst.extractLsb' 0 16).setWidth 64 else 0#64 :=
    congrArg Wire.HeaderFields.dst hfields
  have hmxlen : t.mxlen.toNat = (if f.sf.getLsbD 5 then f.mx else []).length :=
    State.mxlen_of_headerFields hfields
  have htagLen : t.tag.getLsbD 0 = stream := by rw [htag, headerTag_bit _ _ _ (by decide)]; rfl
  have htagSrc : t.tag.getLsbD 1 = f.mf.getLsbD 2 := by
    rw [htag, headerTag_bit _ _ _ (by decide)]; rfl
  have htagDst : t.tag.extractLsb' 2 2 = Wire.destinationTag f.mf := by rw [htag, headerTag_dstT]
  have htagMx : t.tag.getLsbD 4 = f.sf.getLsbD 5 := by
    rw [htag, headerTag_bit _ _ _ (by decide)]; rfl
  refine ⟨htagLen, by rw [htagSrc, hmf], by rw [htagDst, hmf],
    by rw [htagMx, hsf, canonical_bits _ _ (by decide)], fun h => ?_, fun h => ?_, fun h => ?_,
    fun h => ?_⟩
  · rw [hlen, ← htagLen, h]
    rfl
  · rw [hsrc, ← htagSrc, h]
    rfl
  · obtain ⟨hnode, hgroup⟩ := destinationTag_eq_zero (htagDst.symm.trans h)
    rw [hdst, if_neg hnode, if_neg hgroup]
  · have hzero : t.mxlen.toNat = 0 := by
      rw [hmxlen, ← htagMx, h]
      rfl
    rw [hzero] at hrest
    exact ⟨BitVec.eq_of_toNat_eq hzero, hrest⟩

theorem State.DecodedPm.absent {t s : State} {g : Wire.PmFields} (h : t.DecodedPm s g) :
    t.tag.getLsbD 5 = t.xf.getLsbD 4 ∧ t.tag.getLsbD 6 = t.xf.getLsbD 1 ∧
    t.tag.getLsbD 7 = t.xf.getLsbD 3 ∧
    (t.tag.getLsbD 5 = false → t.vid = 0#16) ∧ (t.tag.getLsbD 6 = false → t.ack = 0#32) ∧
    (t.tag.getLsbD 7 = false → t.sxlen = 0#16 ∧ SameBytesFrom .sxb 0 t s) := by
  obtain ⟨hfields, ⟨old, htag⟩, hrest⟩ := h
  have hxf : t.xf = g.xf := congrArg Wire.PmFields.xf hfields
  have hvid : t.vid = if g.xf.getLsbD 4 then g.vid else 0#16 := congrArg Wire.PmFields.vid hfields
  have hack : t.ack = if g.xf.getLsbD 1 then g.ack else 0#32 := congrArg Wire.PmFields.ack hfields
  have hsxlen : t.sxlen.toNat = (if g.xf.getLsbD 3 then g.sx else []).length :=
    State.sxlen_of_pmFields hfields
  have htagVid : t.tag.getLsbD 5 = g.xf.getLsbD 4 := by rw [htag, pmTag_bit _ _ (by decide)]; rfl
  have htagAck : t.tag.getLsbD 6 = g.xf.getLsbD 1 := by rw [htag, pmTag_bit _ _ (by decide)]; rfl
  have htagSx : t.tag.getLsbD 7 = g.xf.getLsbD 3 := by rw [htag, pmTag_bit _ _ (by decide)]; rfl
  refine ⟨by rw [htagVid, hxf], by rw [htagAck, hxf], by rw [htagSx, hxf], fun h => ?_, fun h => ?_,
    fun h => ?_⟩
  · rw [hvid, ← htagVid, h]
    rfl
  · rw [hack, ← htagAck, h]
    rfl
  · have hzero : t.sxlen.toNat = 0 := by
      rw [hsxlen, ← htagSx, h]
      rfl
    rw [hzero] at hrest
    exact ⟨BitVec.eq_of_toNat_eq hzero, hrest⟩

/-- Settles O54: a decode that succeeds leaves a decoded header, a decoded Protocol Message or both, and without
SECURE a footer of no bytes. -/
theorem absentFieldsReadZero : Obligations.AbsentFieldsReadZero := by
  refine ⟨?_, ?_, ?_⟩
  · rintro i s t (rfl | rfl) h hok
    · obtain ⟨f, hhdr⟩ := execDecHdr_decoded h hok
      exact hhdr.absent
    · obtain ⟨f, g, mic, -, hhdr, -, -⟩ := execDecMsg_decoded h hok
      exact hhdr.absent
  · rintro i s t (rfl | rfl) h hok
    · obtain ⟨g, hpm⟩ := execDecPm_decoded h hok
      exact hpm.absent
    · obtain ⟨f, g, mic, -, -, hpm, -⟩ := execDecMsg_decoded h hok
      exact hpm.absent
  · intro s t h hok hsecure
    obtain ⟨f, g, mic, hmic, -, -, hbytes, hrest⟩ := execDecMsg_decoded h hok
    have hzero : t.miclen.toNat = 0 := by
      rw [State.miclen_of_micBytes hbytes, hmic, State.footerSize, hsecure]
      rfl
    rw [hzero] at hrest
    exact ⟨BitVec.eq_of_toNat_eq hzero, hrest⟩

end Sys2Proof.Machine
end

section
/-! PROOFS. A decode forgets earlier messages (10_state R29, R39; 00_scope R5): its outcome is settled by the input
bytes, the settings that its rule reads and, for DEC_MSG, the collaborator's answers (log entry 4). -/

namespace Sys2Proof.Machine

/-! ### Outcomes that agree -/

/-- Two decodes, started in `s` and in `s'`, end with the same STATUS, POS and new calls; when they succeed, what
they wrote agrees in the sense of `P`. -/
def SameDecode (P : State → State → Prop) (s s' : State) (r r' : Result) : Prop :=
  ∃ t t', r = .next t ∧ r' = .next t' ∧ t.status = t'.status ∧ t.pos = t'.pos ∧
    newObservations s t = newObservations s' t' ∧ (t.status = 0x00#8 → P t t')

section
variable {P : State → State → Prop} {s s' v v' : State} {x : List Observation}

/-- The same error after the same calls. -/
theorem SameDecode.raise (e : CodecError) (hobs : v.obs = s.obs ++ x) (hobs' : v'.obs = s'.obs ++ x) :
    SameDecode P s s' (.next (v.raise e)) (.next (v'.raise e)) :=
  ⟨_, _, rfl, rfl, rfl, rfl,
    (newObservations_of_append hobs).trans (newObservations_of_append hobs').symm,
    fun hok => absurd hok (State.raise_status_ne_ok e v)⟩

/-- The same error before any call. -/
theorem SameDecode.raise_now (e : CodecError) :
    SameDecode P s s' (.next (s.raise e)) (.next (s'.raise e)) :=
  .raise e (List.append_nil _).symm (List.append_nil _).symm

theorem SameDecode.succeedAt (p : Nat) (hobs : v.obs = s.obs ++ x) (hobs' : v'.obs = s'.obs ++ x)
    (h : P (v.succeedAt p) (v'.succeedAt p)) :
    SameDecode P s s' (.next (v.succeedAt p)) (.next (v'.succeedAt p)) :=
  ⟨_, _, rfl, rfl, rfl, rfl,
    (newObservations_of_append hobs).trans (newObservations_of_append hobs').symm, fun _ => h⟩

end

/-- Two states hold the same decoded header: the header fields and TAG[4:0]. -/
def SameHeader (t t' : State) : Prop :=
  t.headerFields = t'.headerFields ∧ t.tag.extractLsb' 0 5 = t'.tag.extractLsb' 0 5

/-- Two states hold the same decoded Protocol Message: its fields and TAG[7:5]. -/
def SamePm (t t' : State) : Prop :=
  t.pmFields = t'.pmFields ∧ t.tag.extractLsb' 5 3 = t'.tag.extractLsb' 5 3

/-- Two states hold the same decoded message. -/
def SameMessage (t t' : State) : Prop :=
  SameHeader t t' ∧ SamePm t t' ∧ t.micBytes = t'.micBytes

section
variable {s s' t t' : State}

theorem State.DecodedHeader.same {stream : Bool} {f : Wire.HeaderFields}
    (h : t.DecodedHeader s stream f) (h' : t'.DecodedHeader s' stream f) : SameHeader t t' := by
  obtain ⟨old, htag⟩ := h.tag
  obtain ⟨old', htag'⟩ := h'.tag
  exact ⟨h.fields.trans h'.fields.symm, by rw [htag, htag', headerTag_low]⟩

theorem State.DecodedPm.same {g : Wire.PmFields} (h : t.DecodedPm s g) (h' : t'.DecodedPm s' g) :
    SamePm t t' := by
  obtain ⟨old, htag⟩ := h.tag
  obtain ⟨old', htag'⟩ := h'.tag
  exact ⟨h.fields.trans h'.fields.symm, by rw [htag, htag', pmTag_high]⟩

/-- The two parts make up TAG (10_state R28). -/
theorem SameMessage.tag (h : SameMessage t t') : t.tag = t'.tag := by
  obtain ⟨⟨-, hlow⟩, ⟨-, hhigh⟩, -⟩ := h
  apply BitVec.eq_of_getLsbD_eq
  intro i hi
  by_cases hi' : i < 5
  · have := congrArg (·.getLsbD i) hlow
    simpa [BitVec.getLsbD_extractLsb', hi'] using this
  · have := congrArg (·.getLsbD (i - 5)) hhigh
    simpa [BitVec.getLsbD_extractLsb', show i - 5 < 3 by omega, show 5 + (i - 5) = i by omega] using this

/-! ### DEC_PM and DEC_HDR -/

theorem execDecPm_forgets (hin : s.wireInput = s'.wireInput) :
    SameDecode SamePm s s' (execDecPm s) (execDecPm s') := by
  have hilen := ilen_of_wireInput hin
  by_cases hl : s.ilen.toNat ≤ Config.cap
  · have hl' : s'.ilen.toNat ≤ Config.cap := hilen ▸ hl
    rw [execDecPm_eq hl, execDecPm_eq hl', ← hin, ← hilen]
    rcases hparse : pmParse s.wireInput with e | m
    · exact .raise_now e
    · obtain ⟨g, hg, hsx, rfl, -, -, -⟩ := pmParse_ok hparse
      have hpay : g.pay.length < 65536 := pay_length_lt (by rwa [← hg, State.wireInput_length])
      exact .succeedAt _ (x := []) (by simp) (by simp)
        ((pmCommit_decoded hsx hpay s _).same (pmCommit_decoded hsx hpay s' _))
  · rw [execDecPm_of_long (Nat.lt_of_not_le hl), execDecPm_of_long (hilen ▸ Nat.lt_of_not_le hl)]
    exact .raise_now _

theorem execDecHdr_forgets (h : SameHeaderInputs s s') (hexact : s.ctrl.getLsbD 1 = s'.ctrl.getLsbD 1) :
    SameDecode SameHeader s s' (execDecHdr s) (execDecHdr s') := by
  obtain ⟨hin, hstream, hmask⟩ := h
  have hilen := ilen_of_wireInput hin
  by_cases hl : s.ilen.toNat ≤ Config.cap
  · have hl' : s'.ilen.toNat ≤ Config.cap := hilen ▸ hl
    rw [execDecHdr_eq hl, execDecHdr_eq hl', ← hin, ← hilen, ← hstream, ← hmask, ← hexact]
    rcases hparse : hdrParse (s.ctrl.getLsbD 0) s.vermask s.wireInput with e | ⟨hd, p⟩
    · exact .raise_now e
    · obtain ⟨f, -, -, -, -, hmx, rfl, -⟩ := hdrParse_ok hparse
      simp only
      split
      next => exact .raise_now _
      next =>
        exact .succeedAt _ (x := []) (by simp) (by simp)
          ((hdrCommit_decoded _ hmx s _).same (hdrCommit_decoded _ hmx s' _))
  · rw [execDecHdr_of_long (Nat.lt_of_not_le hl), execDecHdr_of_long (hilen ▸ Nat.lt_of_not_le hl)]
    exact .raise_now _

/-! ### DEC_MSG -/

/-- Reads inside the input agree when the inputs do. -/
theorem memRead_ibuf_congr (hin : s.wireInput = s'.wireInput) {a n : Nat} (h : a + n ≤ s.ilen.toNat) :
    s.memRead .ibuf a n = s'.memRead .ibuf a n := by
  have h' : a + n ≤ s'.ilen.toNat := ilen_of_wireInput hin ▸ h
  rw [memRead_ibuf_of_wireInput s h, memRead_ibuf_of_wireInput s' h', hin]

/-- The last stage, after the same calls: the header is the one that the parse has read. -/
theorem decMsgFinish_forgets {v v' : State} {x : List Observation} (hobs : v.obs = s.obs ++ x)
    (hobs' : v'.obs = s'.obs ++ x) (hilen : v.ilen = v'.ilen) (stream : Bool) {f : Wire.HeaderFields}
    (hmx : f.mx.length < 65536) (p : Nat) {mic : Bytes} (hmic : mic.length < 65536)
    (r : Option Bytes) :
    SameDecode SameMessage s s' (decMsgFinish (parsedHeader stream f) p mic r v)
      (decMsgFinish (parsedHeader stream f) p mic r v') := by
  obtain ⟨k, hx⟩ | ⟨m, ⟨pt, hpt, hparse⟩, hx⟩ := decMsgFinish_uniform (parsedHeader stream f) p mic r
  · rw [hx, hx]
    exact .raise _ hobs hobs'
  · obtain ⟨g, rfl, hsx, rfl, -, -, -⟩ := pmParse_ok hparse
    have hpay := pay_length_lt hpt
    rw [hx, hx, ← hilen]
    obtain ⟨hhdr, hpm, hftr⟩ := msgCommit_decoded stream hmx hsx hpay hmic v v.ilen.toNat rfl
    obtain ⟨hhdr', hpm', hftr'⟩ := msgCommit_decoded stream hmx hsx hpay hmic v' v.ilen.toNat rfl
    exact .succeedAt _ ((msgCommit_obs _ _ _ v).trans hobs) ((msgCommit_obs _ _ _ v').trans hobs')
      ⟨hhdr.same hhdr', hpm.same hpm', hftr.bytes.trans hftr'.bytes.symm⟩

/-- The calls that a DEC_MSG has made when `decrypt` has answered (44_message_assembly R182). -/
theorem State.messageCalls_obs (s : State) (hdr ct mic : Bytes) :
    ((s.verifyCalled hdr ct mic).decryptCalled ct).obs =
      s.obs ++ (s.verifyRecord hdr ct mic ++ [.decryptCall ct s.ctx]) := by
  rw [← List.append_assoc, ← State.verifyCalled_obs_eq, ← State.verifyCalled_ctx s hdr ct mic]
  rfl

/-- The collaborator answers alike, and is asked alike (log entry 4). -/
theorem SameMessageInputs.crypto (h : SameMessageInputs s s') :
    s.footerSize = s'.footerSize ∧ s.verifyCount = s'.verifyCount ∧
      (∀ k hdr ct mic, s.verifyAnswerTo k hdr ct mic = s'.verifyAnswerTo k hdr ct mic) ∧
      (∀ k ct, s.decryptAnswerTo k ct = s'.decryptAnswerTo k ct) ∧
      ∀ hdr ct mic, s.verifyRecord hdr ct mic = s'.verifyRecord hdr ct mic := by
  obtain ⟨-, hsecure, hmicsz, hctx, hverify, hdecrypt, hcalls⟩ := h
  unfold State.footerSize State.verifyCount State.verifyAnswerTo State.decryptAnswerTo
    State.verifyRecord
  rw [hsecure, hmicsz, hctx, hverify, hdecrypt, hcalls]
  exact ⟨rfl, rfl, fun _ _ _ _ => rfl, fun _ _ => rfl, fun _ _ _ => rfl⟩

theorem execDecMsg_forgets (h : SameMessageInputs s s') :
    SameDecode SameMessage s s' (execDecMsg s) (execDecMsg s') := by
  obtain ⟨hfooter, hcount, hverify, hdecrypt, hrecord⟩ := h.crypto
  obtain ⟨⟨hin, hstream, hmask⟩, hsecure, -, hctx, -⟩ := h
  have hilen := ilen_of_wireInput hin
  by_cases hl : s.ilen.toNat ≤ Config.cap
  · have hl' : s'.ilen.toNat ≤ Config.cap := hilen ▸ hl
    rw [execDecMsg_eq hl, execDecMsg_eq hl', ← hin, ← hilen, ← hstream, ← hmask, ← hfooter, ← hsecure,
      ← hcount]
    rcases hparse : hdrParse (s.ctrl.getLsbD 0) s.vermask s.wireInput with e | ⟨hd, p⟩
    · exact .raise_now e
    obtain ⟨f, -, -, -, -, hmx, rfl, -⟩ := hdrParse_ok hparse
    simp only
    by_cases hshort : s.ilen.toNat < p + s.footerSize
    · rw [if_pos hshort, if_pos hshort]
      exact .raise_now _
    rw [if_neg hshort, if_neg hshort, ← memRead_ibuf_congr hin (a := 0) (n := p) (by omega),
      ← memRead_ibuf_congr hin (a := p) (by omega),
      ← memRead_ibuf_congr hin (a := s.ilen.toNat - s.footerSize) (by omega), ← hverify, ← hdecrypt]
    have hmic : (s.memRead .ibuf (s.ilen.toNat - s.footerSize) s.footerSize).length < 65536 := by
      rw [State.memRead_length]
      exact s.footerSize_lt
    generalize s.memRead .ibuf 0 p = hdr
    generalize s.memRead .ibuf p (s.ilen.toNat - s.footerSize - p) = ct
    generalize s.memRead .ibuf (s.ilen.toNat - s.footerSize) s.footerSize = mic at hmic ⊢
    have hobs := s.verifyCalled_obs_eq hdr ct mic
    have hobs' := s'.verifyCalled_obs_eq hdr ct mic
    rw [← hrecord] at hobs'
    split
    next => exact .raise _ hobs hobs'
    next =>
      have hfinal := s.messageCalls_obs hdr ct mic
      have hfinal' := s'.messageCalls_obs hdr ct mic
      rw [← hrecord, ← hctx] at hfinal'
      exact decMsgFinish_forgets hfinal hfinal' (by simpa using hilen) _ hmx p hmic _
  · rw [execDecMsg_of_long (Nat.lt_of_not_le hl), execDecMsg_of_long (hilen ▸ Nat.lt_of_not_le hl)]
    exact .raise_now _

end

/-- Settles O53: each decode runs its parse on the same bytes, asks the same questions of the collaborator, and
commits values that the parse alone has fixed. -/
theorem decodesForgetEarlierMessages : Obligations.DecodesForgetEarlierMessages := by
  intro s s'
  refine ⟨fun h => ?_, fun h hexact => ?_, fun h => ?_⟩
  · obtain ⟨t, t', ht, ht', hstatus, hpos, -, hsame⟩ := execDecPm_forgets h
    exact ⟨t, t', ht, ht', hstatus, hpos, hsame⟩
  · obtain ⟨t, t', ht, ht', hstatus, hpos, -, hsame⟩ := execDecHdr_forgets h hexact
    exact ⟨t, t', ht, ht', hstatus, hpos, hsame⟩
  · obtain ⟨t, t', ht, ht', hstatus, hpos, hcalls, hsame⟩ := execDecMsg_forgets h
    refine ⟨t, t', ht, ht', hstatus, hpos, hcalls, fun hok => ?_⟩
    obtain ⟨⟨hhdr, -⟩, ⟨hpm, -⟩, hmic⟩ := hsame hok
    exact ⟨hhdr, hpm, (hsame hok).tag, hmic⟩

end Sys2Proof.Machine
end

section
/-! PROOFS. What a command may write (20_memory R40; 10_state R28, R32): each shared operation keeps the parts of
the state that the command running it does not own, hence so does every command. -/

namespace Sys2Proof.Machine

/-! ### The tags that a decode keeps -/

/-- The tags of a header leave TAG[7:5] alone (10_state R28). -/
theorem setHeaderTags_high (lenV srcV mxV : Bool) (dstT : BitVec 2) (tag : Byte) :
    (setHeaderTags lenV srcV dstT mxV tag).extractLsb' 5 3 = tag.extractLsb' 5 3 := by
  rw [setHeaderTags_eq]
  apply BitVec.eq_of_getLsbD_eq
  intro i hi
  rw [BitVec.getLsbD_extractLsb', BitVec.getLsbD_append, BitVec.getLsbD_append, BitVec.getLsbD_append,
    BitVec.getLsbD_append]
  interval_cases i <;> rfl

/-- The tags of a Protocol Message leave TAG[4:0] alone (10_state R28). -/
theorem setPmTags_low (vidV ackV sxV : Bool) (tag : Byte) :
    (setPmTags vidV ackV sxV tag).extractLsb' 0 5 = tag.extractLsb' 0 5 := by
  rw [setPmTags_eq, BitVec.extractLsb'_append_eq_right]

theorem hdrCommit_tag (h : Header) (s : State) :
    (hdrCommit h s).tag = setHeaderTags h.lenV h.srcV h.dstT h.mxV s.tag :=
  congrArg (setHeaderTags h.lenV h.srcV h.dstT h.mxV) (State.commitBlock_tag .mxb h.mxV h.mx s)

theorem pmCommit_tag (m : ProtocolMessage) (s : State) :
    (pmCommit m s).tag = setPmTags m.vidV m.ackV m.sxV s.tag :=
  congrArg (setPmTags m.vidV m.ackV m.sxV)
    ((State.memWrite_tag ..).trans (State.commitBlock_tag .sxb m.sxV m.sx s))

/-! ### The parts a command may write -/

/-- From `s` to `t` nothing has been written that the command does not own. Each part is kept by an operation
that leaves its fields alone, so that a lemma about an operation names only the parts that it writes. -/
structure WritesOnly (i : Instr) (s t : State) : Prop where
  settings : t.ctrl = s.ctrl ∧ t.vermask = s.vermask ∧ t.micsz = s.micsz ∧ t.ctx = s.ctx := by simp
  input : t.ilen = s.ilen ∧ t.ibuf = s.ibuf := by simp
  run : t.epoch = s.epoch ∧ t.events = s.events := by simp
  output : i ∉ [.encHdr, .encPm, .encMsg] → t.obuf = s.obuf ∧ t.olen = s.olen := by simp
  headerBlock : i ∉ [.decHdr, .decMsg] → t.mxb = s.mxb ∧ t.mxlen = s.mxlen := by simp
  headerTags : i ∉ [.decHdr, .decMsg] → t.tag.extractLsb' 0 5 = s.tag.extractLsb' 0 5 := by simp
  pmBlocks : i ∉ [.decPm, .decMsg] →
    t.sxb = s.sxb ∧ t.sxlen = s.sxlen ∧ t.pay = s.pay ∧ t.paylen = s.paylen := by simp
  pmTags : i ∉ [.decPm, .decMsg] → t.tag.extractLsb' 5 3 = s.tag.extractLsb' 5 3 := by simp
  footer : i ≠ .decMsg → t.mic = s.mic ∧ t.miclen = s.miclen := by simp
  result : isReadType i = false → t.res = s.res := by simp

namespace WritesOnly

variable {i : Instr} {s t : State}

theorem trans {v : State} (hv : WritesOnly i s v) (ht : WritesOnly i v t) : WritesOnly i s t where
  settings := by simpa only [hv.settings] using ht.settings
  input := by simpa only [hv.input] using ht.input
  run := by simpa only [hv.run] using ht.run
  output hi := by simpa only [hv.output hi] using ht.output hi
  headerBlock hi := by simpa only [hv.headerBlock hi] using ht.headerBlock hi
  headerTags hi := (ht.headerTags hi).trans (hv.headerTags hi)
  pmBlocks hi := by simpa only [hv.pmBlocks hi] using ht.pmBlocks hi
  pmTags hi := (ht.pmTags hi).trans (hv.pmTags hi)
  footer hi := by simpa only [hv.footer hi] using ht.footer hi
  result hi := (ht.result hi).trans (hv.result hi)

/-! ### What the shared operations write -/

theorem raise (s : State) (e : CodecError) : WritesOnly i s (s.raise e) := {}

theorem succeedAt (s : State) (p : Nat) : WritesOnly i s (s.succeedAt p) := {}

theorem encryptCalled (s : State) (pt : Bytes) : WritesOnly i s (s.encryptCalled pt) := {}

theorem verifyCalled (s : State) (hdr ct mic : Bytes) : WritesOnly i s (s.verifyCalled hdr ct mic) := {}

theorem decryptCalled (s : State) (ct : Bytes) : WritesOnly i s (s.decryptCalled ct) := {}

/-- The end of an encode writes OBUF and OLEN (42_header_codec R142). -/
theorem emit (hi : i ∈ [.encHdr, .encPm, .encMsg]) (s : State) (out : Bytes) :
    WritesOnly i s (s.emit out) where
  output hn := absurd hi hn

/-- The commit of a header writes MXB, MXLEN and TAG[4:0] (42_header_codec R149). -/
theorem hdrCommit (hi : i ∈ [.decHdr, .decMsg]) (h : Header) (s : State) :
    WritesOnly i s (hdrCommit h s) where
  headerBlock hn := absurd hi hn
  headerTags hn := absurd hi hn
  pmTags _ := by rw [hdrCommit_tag, setHeaderTags_high]

/-- The commit of a Protocol Message writes SXB, PAY, their lengths and TAG[7:5]
(43_protocol_message_codec R163). -/
theorem pmCommit (hi : i ∈ [.decPm, .decMsg]) (m : ProtocolMessage) (s : State) :
    WritesOnly i s (pmCommit m s) where
  headerTags _ := by rw [pmCommit_tag, setPmTags_low]
  pmBlocks hn := absurd hi hn
  pmTags hn := absurd hi hn

/-- The commit of a message writes MIC and MICLEN besides (44_message_assembly R181). -/
theorem msgCommit (h : Header) (m : ProtocolMessage) (mic : Bytes) (s : State) :
    WritesOnly .decMsg s (msgCommit h m mic s) where
  headerBlock hn := absurd (by simp) hn
  headerTags hn := absurd (by simp) hn
  pmBlocks hn := absurd (by simp) hn
  pmTags hn := absurd (by simp) hn
  footer hn := absurd rfl hn

/-- The outcome of a command that is known to be one state. -/
theorem of_next {r : Result} {u : State} (hr : r = .next u) (hu : WritesOnly i s u)
    (h : r = .next t) : WritesOnly i s t := by
  cases hr.symm.trans h
  exact hu

end WritesOnly

/-! ### What each command writes -/

section
variable {s t : State}

theorem execEncHdr_writes (h : execEncHdr s = .next t) : WritesOnly .encHdr s t := by
  by_cases hc : s.HeaderConsistent
  · exact .of_next (execEncHdr_of_consistent hc) (.emit (by simp) s _) h
  · exact .of_next (execEncHdr_of_inconsistent hc) (.raise s _) h

theorem execEncPm_writes (h : execEncPm s = .next t) : WritesOnly .encPm s t := by
  by_cases hc : s.PmConsistent
  · exact .of_next (execEncPm_of_consistent hc) (.emit (by simp) s _) h
  · exact .of_next (execEncPm_of_inconsistent hc) (.raise s _) h

theorem execEncMsg_writes (h : execEncMsg s = .next t) : WritesOnly .encMsg s t := by
  obtain ⟨-, hx⟩ | ⟨-, -, hx⟩ | ⟨-, -, -, hx⟩ := execEncMsg_cases s
  · exact .of_next hx (.raise s _) h
  · exact .of_next hx (.raise s _) h
  · exact .of_next hx ((WritesOnly.encryptCalled s _).trans (.emit (by simp) _ _)) h

theorem execDecHdr_writes (h : execDecHdr s = .next t) : WritesOnly .decHdr s t := by
  obtain ⟨-, hx⟩ | ⟨-, e, -, hx⟩ | ⟨-, f, rest, -, -, -, -, -, -, -, ⟨-, -, hx⟩ | ⟨-, hx⟩⟩ :=
    execDecHdr_cases s
  · exact .of_next hx (.raise s _) h
  · exact .of_next hx (.raise s _) h
  · exact .of_next hx (.raise s _) h
  · exact .of_next hx ((WritesOnly.hdrCommit (by simp) _ s).trans (.succeedAt _ _)) h

theorem execDecPm_writes (h : execDecPm s = .next t) : WritesOnly .decPm s t := by
  obtain ⟨-, hx⟩ | ⟨-, e, -, hx⟩ | ⟨-, g, -, -, -, -, -, hx⟩ := execDecPm_cases s
  · exact .of_next hx (.raise s _) h
  · exact .of_next hx (.raise s _) h
  · exact .of_next hx ((WritesOnly.pmCommit (by simp) _ s).trans (.succeedAt _ _)) h

theorem decMsgFinish_writes {hd : Header} {p : Nat} {mic : Bytes} {r : Option Bytes}
    (h : decMsgFinish hd p mic r s = .next t) : WritesOnly .decMsg s t := by
  obtain ⟨k, hx⟩ | ⟨m, -, hx⟩ := decMsgFinish_uniform hd p mic r
  · exact .of_next (hx s) (.raise s _) h
  · exact .of_next (hx s) ((WritesOnly.msgCommit hd m mic s).trans (.succeedAt _ _)) h

theorem execDecMsg_writes (h : execDecMsg s = .next t) : WritesOnly .decMsg s t := by
  obtain ⟨-, hx⟩ | ⟨-, e, -, hx⟩ | ⟨-, f, rest, -, -, -, -, -, -, -, hstages⟩ := execDecMsg_cases s
  · exact .of_next hx (.raise s _) h
  · exact .of_next hx (.raise s _) h
  obtain ⟨-, hx⟩ | ⟨ct, mic, -, -, ⟨-, -, hx⟩ | ⟨-, hx⟩⟩ := hstages
  · exact .of_next hx (.raise s _) h
  · exact .of_next hx ((WritesOnly.verifyCalled s _ ct mic).trans (.raise _ _)) h
  · rw [hx] at h
    exact ((WritesOnly.verifyCalled s _ ct mic).trans (.decryptCalled _ ct)).trans
      (decMsgFinish_writes h)

/-- A command that is no codec writes at most RES, the flag bytes and STATUS (10_state R32). -/
theorem exec_writes_of_not_codec {i : Instr} (hi : isCodec i = false) (h : exec i s = .next t) :
    WritesOnly i s t := by
  obtain ⟨ht, hres⟩ := exec_plain hi h
  rw [ht]
  exact { result := hres }

theorem exec_writes {i : Instr} (h : exec i s = .next t) : WritesOnly i s t := by
  cases hi : isCodec i with
  | false => exact exec_writes_of_not_codec hi h
  | true =>
    obtain rfl | rfl | rfl | rfl | rfl | rfl := codec_cases hi
    · exact execEncHdr_writes h
    · exact execDecHdr_writes h
    · exact execEncPm_writes h
    · exact execDecPm_writes h
    · exact execEncMsg_writes h
    · exact execDecMsg_writes h

end

/-- Settles O55: whatever path a command takes, it goes through shared operations that write only what the
command owns. -/
theorem settingsAndInputAreNotWritten : Obligations.SettingsAndInputAreNotWritten := by
  intro i s t h
  have hw := exec_writes h
  obtain ⟨hctrl, hvermask, hmicsz, hctx⟩ := hw.settings
  obtain ⟨hilen, hibuf⟩ := hw.input
  obtain ⟨hepoch, hevents⟩ := hw.run
  refine ⟨hctrl, hvermask, hmicsz, hctx, hilen, hibuf, hepoch, hevents, hw.output, fun hi => ?_,
    fun hi => ?_, hw.footer, hw.result⟩
  · obtain ⟨hmxb, hmxlen⟩ := hw.headerBlock hi
    exact ⟨hmxb, hmxlen, hw.headerTags hi⟩
  · obtain ⟨hsxb, hsxlen, hpay, hpaylen⟩ := hw.pmBlocks hi
    exact ⟨hsxb, hsxlen, hpay, hpaylen, hw.pmTags hi⟩

end Sys2Proof.Machine
end

section
/-! PROOFS. The host port (20_memory R50 to R53): one rule for a register read, one for a register write and one for
each kind of buffer access, over the register map and the buffer ids. -/

namespace Sys2Proof

theorem Reg.mem_all (r : Reg) : r ∈ Reg.all := by
  cases r <;> decide

theorem BufId.id_le (b : BufId) : b.id ≤ 5 := by
  cases b <;> decide

/-- A value that is too wide for the register is no event of the port (20_memory R51). -/
theorem regWrite_not_wf {r : Reg} {v : Nat} (hv : 2 ^ r.width ≤ v) :
    (HostEvent.regWrite r.number v).wf = false :=
  List.all_eq_false.2 ⟨r, Reg.mem_all r, by simp [hv]⟩

namespace Machine

/-! ### The register map -/

@[simp] theorem regOfNumber_number (r : Reg) : regOfNumber r.number = some r := by
  cases r <;> rfl

/-- A register answers to its own number alone (10_state R10). -/
theorem number_of_regOfNumber {n : Nat} {r : Reg} (h : regOfNumber n = some r) : r.number = n := by
  have hmap : registerMap = Reg.all.map fun r => (r.number, r) := rfl
  obtain ⟨before, after, hsplit, -⟩ := List.lookup_eq_some_iff.1 h
  have hmem : (n, r) ∈ registerMap := by simp [hsplit]
  rw [hmap] at hmem
  simpa [Reg.mem_all] using hmem

/-- The register table is the register map with each register's value (10_state R10). -/
theorem State.registerTable_eq (s : State) :
    s.registerTable = Reg.all.map fun r => (r.number, s.regValue r) := rfl

/-- A number that the table does not list is unimplemented. -/
theorem State.regOfNumber_of_free {s : State} {n : Nat} (h : n ∉ s.registerTable.map Prod.fst) :
    regOfNumber n = none := by
  rw [State.registerTable_eq] at h
  cases hr : regOfNumber n with
  | none => rfl
  | some r =>
    refine absurd ?_ h
    rw [← number_of_regOfNumber hr, List.map_map]
    exact List.mem_map_of_mem (Reg.mem_all r)

/-! ### Register reads -/

theorem perform_regRead_of_hostRead {s : State} {n v : Nat} (h : s.hostRead n = v) :
    perform (.regRead n) s = .next { s with obs := s.obs ++ [.regValue v] } := by
  rw [← h]
  rfl

theorem perform_regRead_number (r : Reg) (s : State) : perform (.regRead r.number) s =
    .next { s with obs := s.obs ++ [.regValue (s.regValue r)] } :=
  perform_regRead_of_hostRead (by rw [State.hostRead, regOfNumber_number])

theorem perform_regRead_of_free {s : State} {n : Nat} (h : regOfNumber n = none) :
    perform (.regRead n) s = .next { s with obs := s.obs ++ [.regValue 0] } :=
  perform_regRead_of_hostRead (by rw [State.hostRead, h])

/-- Settles O10: a number of the table is a register's, and any other is unimplemented. -/
theorem hostRegisterRead : Obligations.HostRegisterRead := by
  intro s
  refine ⟨fun p hp => ?_, fun n hn => perform_regRead_of_free (State.regOfNumber_of_free hn)⟩
  rw [State.registerTable_eq, List.mem_map] at hp
  obtain ⟨r, -, rfl⟩ := hp
  exact perform_regRead_number r s

/-! ### Register writes -/

theorem hostWrite_number {r : Reg} (hr : r ≠ .cmd) (v : Nat) (s : State) :
    hostWrite r.number v s = .next (s.putReg r v) := by
  unfold hostWrite
  rw [regOfNumber_number]
  cases r with
  | cmd => contradiction
  | _ => rfl

theorem hostWrite_of_free {n : Nat} (h : regOfNumber n = none) (v : Nat) (s : State) :
    hostWrite n v s = .next s := by
  unfold hostWrite
  rw [h]

/-- A write of a word to CMD issues it (20_memory R54). -/
theorem hostWrite_cmd (w : CommandWord) (s : State) : hostWrite 0x00 w.toNat s = issue w s :=
  congrArg (issue · s) (by rw [BitVec.ofNat_toNat, BitVec.setWidth_eq])

/-- A write of a value of the register's width stores that value: `put` says where (20_memory R51). -/
theorem perform_regWrite_number {w : Nat} {s : State} {put : BitVec w → State} (r : Reg) (hr : r ≠ .cmd)
    (hput : ∀ n, s.putReg r n = put (BitVec.ofNat w n)) (v : BitVec w) :
    perform (.regWrite r.number v.toNat) s = .next (put v) :=
  (hostWrite_number hr v.toNat s).trans (by rw [hput, BitVec.ofNat_toNat, BitVec.setWidth_eq])

theorem State.putSf_eq (b : Byte) (s : State) : s.putSf b = { s with sf := Wire.canonical b } := by
  rw [State.putSf, canonSF_eq]

/-- Settles O11: each RW register is set by the one rule for a register write; the read-only registers and the free
numbers keep the state. -/
theorem hostRegisterWrite : Obligations.HostRegisterWrite := by
  intro s
  refine ⟨perform_regWrite_number .ctrl (by decide) fun _ => rfl,
    perform_regWrite_number .vermask (by decide) fun _ => rfl,
    perform_regWrite_number .micsz (by decide) fun _ => rfl,
    perform_regWrite_number .ctx (by decide) fun _ => rfl,
    perform_regWrite_number .tag (by decide) fun _ => rfl,
    perform_regWrite_number .len (by decide) fun _ => rfl,
    perform_regWrite_number .mf (by decide) fun _ => rfl,
    perform_regWrite_number .sid (by decide) fun _ => rfl,
    perform_regWrite_number .sf (by decide) fun _ => State.putSf_eq _ s,
    perform_regWrite_number .ctr (by decide) fun _ => rfl,
    perform_regWrite_number .src (by decide) fun _ => rfl,
    perform_regWrite_number .dst (by decide) fun _ => rfl,
    perform_regWrite_number .mxlen (by decide) fun _ => rfl,
    perform_regWrite_number .xf (by decide) fun _ => rfl,
    perform_regWrite_number .opc (by decide) fun _ => rfl,
    perform_regWrite_number .xid (by decide) fun _ => rfl,
    perform_regWrite_number .pid (by decide) fun _ => rfl,
    perform_regWrite_number .vid (by decide) fun _ => rfl,
    perform_regWrite_number .ack (by decide) fun _ => rfl,
    perform_regWrite_number .sxlen (by decide) fun _ => rfl,
    perform_regWrite_number .paylen (by decide) fun _ => rfl,
    perform_regWrite_number .miclen (by decide) fun _ => rfl,
    perform_regWrite_number .ilen (by decide) fun _ => rfl,
    ?readOnly, fun n hn v => hostWrite_of_free (State.regOfNumber_of_free hn) v s,
    (hostWrite_cmd · s), fun _ _ => regWrite_not_wf⟩
  case readOnly =>
    intro n hn v
    simp only [List.mem_cons, List.not_mem_nil, or_false] at hn
    obtain rfl | rfl | rfl | rfl := hn
    · exact hostWrite_number (r := .status) (by decide) v s
    · exact hostWrite_number (r := .res) (by decide) v s
    · exact hostWrite_number (r := .pos) (by decide) v s
    · exact hostWrite_number (r := .olen) (by decide) v s

/-- Settles O12: the load commands and the register write store the byte by the same operation, and only the load
sets STATUS. -/
theorem hostWriteOfAFlagByte : Obligations.HostWriteOfAFlagByte := by
  intro s b
  refine ⟨⟨(s.putMf b).succeed, rfl, ?_⟩, ⟨(s.putSf b).succeed, rfl, ?_, ?_, ?_⟩,
    ⟨(s.putXf b).succeed, rfl, ?_⟩, perform_regRead_number .mf s, perform_regRead_number .sf s,
    perform_regRead_number .xf s⟩
  · exact perform_regWrite_number (put := s.putMf) .mf (by decide) (fun _ => rfl) b
  · exact perform_regWrite_number (put := s.putSf) .sf (by decide) (fun _ => rfl) b
  · exact canonSF_eq b
  · rw [State.succeed_sf, State.putSf_sf, canonSF_eq]
    exact canonical_low b
  · exact perform_regWrite_number (put := s.putXf) .xf (by decide) (fun _ => rfl) b

/-! ### Buffer accesses -/

@[simp] theorem bufOfId_id (b : BufId) : bufOfId b.id = some b := by
  cases b <;> rfl

theorem bufId_id_inj {b b' : BufId} : b.id = b'.id ↔ b = b' :=
  ⟨fun h => Option.some.inj (by rw [← bufOfId_id, h, bufOfId_id]), congrArg BufId.id⟩

theorem id_of_bufOfId {id : Nat} {b : BufId} (h : bufOfId id = some b) : b.id = id := by
  unfold bufOfId at h
  split at h <;> cases h <;> rfl

theorem State.hostBufRead_of_lt {a : Nat} (ha : a < Config.cap) (b : BufId) (s : State) :
    s.hostBufRead b.id a = s.readByte b a := by
  unfold State.hostBufRead
  rw [bufOfId_id]
  exact if_pos ha

/-- A read outside the buffers gives 0 (20_memory R53). -/
theorem State.hostBufRead_of_outside {id a : Nat} (h : Config.cap ≤ a ∨ 5 < id) (s : State) :
    s.hostBufRead id a = 0x00#8 := by
  unfold State.hostBufRead
  split
  next b hb =>
    have hid := id_of_bufOfId hb
    have hle := b.id_le
    exact if_neg (by omega)
  next => rfl

/-- A host buffer write is a write of one byte below CAP to a buffer that is not OBUF, or it is ignored
(20_memory R53). -/
theorem State.hostBufWrite_cases (s : State) (id a : Nat) (v : Byte) :
    (∃ b, b.id = id ∧ b ≠ .obuf ∧ a < Config.cap ∧ s.hostBufWrite id a v = s.memWrite b a [v]) ∨
    ((∀ b : BufId, ¬ (b.id = id ∧ b ≠ .obuf ∧ a < Config.cap)) ∧ s.hostBufWrite id a v = s) := by
  unfold State.hostBufWrite
  split
  next hid =>
    refine .inr ⟨?_, rfl⟩
    rintro b ⟨rfl, hb, -⟩
    exact hb (by simpa using hid)
  next b hb hid =>
    by_cases ha : a < Config.cap
    · exact .inl ⟨b, id_of_bufOfId hid, hb, ha, if_pos ha⟩
    · exact .inr ⟨fun _ ⟨_, _, hlt⟩ => ha hlt, if_neg ha⟩
  next hid =>
    refine .inr ⟨?_, rfl⟩
    rintro b ⟨rfl, -, -⟩
    simp at hid

/-- A write of one byte, seen byte by byte (20_memory R42). -/
theorem State.readByte_memWrite_single (s : State) (b b' : BufId) (a a' : Nat) (v : Byte) :
    (s.memWrite b a [v]).readByte b' a' = if b' = b ∧ a' = a then v else s.readByte b' a' := by
  have hone : a ≤ a' ∧ a' < a + [v].length ↔ a' = a := by
    rw [List.length_singleton]
    omega
  simp only [State.readByte_memWrite, hone]
  split
  next h =>
    obtain ⟨-, rfl⟩ := h
    simp
  next => rfl

theorem State.memWrite_withBuffersOf (s : State) (b : BufId) (a : Nat) (x : Bytes) :
    (s.memWrite b a x).withBuffersOf s = s := by
  cases b <;> rfl

/-- What a host buffer write does to every byte of every buffer (20_memory R53). -/
theorem State.readByte_hostBufWrite (s : State) (id a : Nat) (v : Byte) (b : BufId) (a' : Nat) :
    (s.hostBufWrite id a v).readByte b a' =
      if b.id = id ∧ b ≠ .obuf ∧ a < Config.cap ∧ a' = a then v else s.readByte b a' := by
  obtain ⟨b₀, rfl, hb, ha, hw⟩ | ⟨hignored, hw⟩ := s.hostBufWrite_cases id a v
  · rw [hw, State.readByte_memWrite_single]
    refine if_congr ?_ rfl rfl
    rw [bufId_id_inj]
    constructor
    · rintro ⟨rfl, rfl⟩
      exact ⟨rfl, hb, ha, rfl⟩
    · rintro ⟨rfl, -, -, rfl⟩
      exact ⟨rfl, rfl⟩
  · rw [hw, if_neg]
    rintro ⟨hid, hb, ha, -⟩
    exact hignored b ⟨hid, hb, ha⟩

theorem State.readByte_of_unwritten {s : State} {b : BufId} {a : Nat} (h : (s.buf b).get? a = none) :
    s.readByte b a = Config.initialByte s.epoch b.id a := by
  unfold State.readByte
  rw [h]
  rfl

/-- Settles O13: an id names at most one buffer, a read inside it gives its byte, and a write is a write of that one
byte or ignored. -/
theorem hostBufferAccess : Obligations.HostBufferAccess := by
  intro s id a v
  refine ⟨rfl, rfl, rfl, rfl, rfl, rfl, ?_, ?_, ⟨_, rfl, ?_, s.readByte_hostBufWrite id a v⟩,
    fun b a' => State.readByte_of_unwritten⟩
  · rintro b rfl ha
    rw [← State.hostBufRead_of_lt ha]
    rfl
  · intro h
    rw [← State.hostBufRead_of_outside h s]
    rfl
  · obtain ⟨b, -, -, -, hw⟩ | ⟨-, hw⟩ := s.hostBufWrite_cases id a v
    · rw [hw, State.memWrite_withBuffersOf]
    · rw [hw]
      rfl

end Machine

end Sys2Proof
end

section
/-! PROOFS. Steps (20_memory R47, R48, R54; 70_reset_and_hazards R236): a write of CMD runs the command that the word
spells, and an event takes none of the later events and only adds to what was observed. -/

namespace Sys2Proof.Machine

/-! ### A write of CMD -/

theorem issue_of_decode {w : CommandWord} {i : Instr} (h : decode w = .ok i) (s : State) :
    issue w s = exec i s := by
  unfold issue
  rw [h]

theorem issue_of_illegal {w : CommandWord} {e : DecodeError} (h : decode w = .error e) (s : State) :
    issue w s = .next { s with status := 0x0A#8 } := by
  unfold issue
  rw [h]
  rfl

theorem step_of_command {s : State} {w : CommandWord} {rest : List HostEvent}
    (h : s.events = .regWrite 0x00 w.toNat :: rest) : step s = issue w { s with events := rest } :=
  (step_of_event h).trans (hostWrite_cmd w _)

/-- Settles O5: the step is the issue of the word, which its decoding settles. -/
theorem stepRunsTheDecodedCommand : Obligations.StepRunsTheDecodedCommand := by
  intro s w rest h
  refine ⟨fun i hi => ?_, fun e he => ?_⟩
  · obtain ⟨-, -, hwf⟩ := Laws.EncodesLegalWord.every i
    exact ⟨hwf, by rw [step_of_command h, issue_of_decode hi]⟩
  · rw [step_of_command h, issue_of_illegal he]

/-- Settles O6: the placed word is the first event, and without it the state is the one it was placed in. -/
theorem placedWordRunsNext : Obligations.PlacedWordRunsNext := by
  intro s w i hi
  have hevents : (s.withFetchWord 16 w.toNat).events = .regWrite 0x00 w.toNat :: s.events := by
    rw [State.withFetchWord, State.enqueueCommand_events, Nat.mod_eq_of_lt w.isLt]
  exact (step_of_command hevents).trans (issue_of_decode hi s)

/-! ### What an event leaves of the run -/

/-- From `s` to `t` no later event has been taken, and what was observed stays observed. -/
structure Continues (s t : State) : Prop where
  events : t.events = s.events
  obs : ∃ new, t.obs = s.obs ++ new

namespace Continues

variable {s t : State}

/-- Nothing was observed. -/
theorem of_same_obs (hevents : t.events = s.events) (hobs : t.obs = s.obs) : Continues s t :=
  ⟨hevents, [], by rw [hobs, List.append_nil]⟩

theorem exec {i : Instr} (h : exec i s = .next t) : Continues s t where
  events := by
    obtain ⟨-, hevents⟩ := (exec_writes h).run
    exact hevents
  obs := by
    cases hi : isCodec i with
    | false =>
      obtain ⟨hframe, -⟩ := exec_plain hi h
      rw [hframe]
      exact ⟨[], (List.append_nil _).symm⟩
    | true =>
      obtain ⟨u, x, hu, hobs, -⟩ := exec_after_of_codec s s hi
      cases hu.symm.trans h
      exact ⟨x, hobs⟩

theorem issue {w : CommandWord} (h : issue w s = .next t) : Continues s t := by
  cases hw : decode w with
  | ok i => exact exec ((issue_of_decode hw s).symm.trans h)
  | error e =>
    cases (issue_of_illegal hw s).symm.trans h
    exact of_same_obs rfl rfl

theorem putReg (r : Reg) (v : Nat) (s : State) : Continues s (s.putReg r v) := by
  cases r <;> exact of_same_obs rfl rfl

theorem hostWrite {n v : Nat} (h : hostWrite n v s = .next t) : Continues s t := by
  unfold Machine.hostWrite at h
  split at h
  next => exact issue h
  next r _ _ =>
    cases h
    exact putReg r v s
  next =>
    cases h
    exact of_same_obs rfl rfl

theorem hostBufWrite (s : State) (id a : Nat) (v : Byte) : Continues s (s.hostBufWrite id a v) := by
  obtain ⟨b, -, -, -, hw⟩ | ⟨-, hw⟩ := s.hostBufWrite_cases id a v
  · rw [hw]
    exact of_same_obs (State.memWrite_events ..) (State.memWrite_obs ..)
  · rw [hw]
    exact of_same_obs rfl rfl

/-- A reset in the middle of a command keeps the calls made by then in the record (70_reset_and_hazards R230). -/
theorem abandon (w calls : Nat) (s : State) : Continues s (s.abandon w calls) := by
  unfold State.abandon
  split
  next => exact ⟨rfl, _, rfl⟩
  next => exact of_same_obs rfl rfl
  next => exact of_same_obs rfl rfl

theorem perform {e : HostEvent} (h : perform e s = .next t) : Continues s t := by
  cases e with
  | regRead n | bufRead id a =>
    cases h
    exact ⟨rfl, _, rfl⟩
  | regWrite n v => exact hostWrite h
  | bufWrite id a v =>
    cases h
    exact hostBufWrite s id a v
  | reset =>
    cases h
    exact of_same_obs rfl rfl
  | resetDuring w calls =>
    cases h
    exact abandon w calls s

end Continues

/-- Settles O7: a step takes the first event off the queue and performs it, and performing it takes no other. -/
theorem eventsHappenInOrder : Obligations.EventsHappenInOrder := by
  intro s e rest h
  obtain ⟨t, ht⟩ := perform_next e { s with events := rest }
  obtain ⟨hevents, hobs⟩ := Continues.perform ht
  exact ⟨t, (step_of_event h).trans ht, ht, hevents, hobs⟩

end Sys2Proof.Machine
end

section
/-! PROOFS. The decoder and the encoder (30_encoding R76 to R79): the commands of one OP are a family over the values
of their operand, so that what the decoder answers is settled by the OP and by the width of the operand. -/

namespace Sys2Proof

/-! ### The families of commands -/

/-- A command without operand has an operand of no bits (30_encoding R76). -/
theorem plain_eq_operand (w : CommandWord) (i : Instr) : plain w i = operand w 0 fun _ => i := by
  have hz : immField w = 0#8 ↔ (immField w).toNat < 2 ^ 0 := by
    rw [← BitVec.toNat_inj]
    simp
  simp only [plain, operand, hz]

/-- The commands `mk imm`, imm a k-bit operand, have the OP `op` to themselves (30_encoding R77): their
words are put together from OP and operand, and every word with that OP is one of theirs or illegal. -/
structure Family (op : Byte) (k : Nat) (mk : BitVec k → Instr) : Prop where
  width_le : k ≤ 8
  encode_mk : ∀ imm, encode (mk imm) = op ++ imm.setWidth 8
  operand_mk : ∀ imm, (mk imm).operand.1 = k
  spells : Spells op k mk

/-- A family from its rows of the encoder and the decoder. -/
theorem Family.of_operand {op : Byte} {k : Nat} {mk : BitVec k → Instr} (hk : k ≤ 8)
    (hencode : ∀ imm, encode (mk imm) = commandWord op imm) (hoperand : ∀ imm, (mk imm).operand.1 = k)
    (hdecode : ∀ imm : Byte, decode (op ++ imm) = operand (op ++ imm) k mk) : Family op k mk :=
  ⟨hk, hencode, hoperand, spells_of_operand hdecode⟩

theorem Family.of_plain {op : Byte} {i : Instr} (hencode : encode i = commandWord op 0#8)
    (hoperand : i.operand.1 = 0) (hdecode : ∀ imm : Byte, decode (op ++ imm) = plain (op ++ imm) i) :
    Family op 0 fun _ => i :=
  ⟨by omega, fun imm => by rw [hencode, BitVec.eq_nil imm]; rfl, fun _ => hoperand, spells_of_plain hdecode⟩

/-- Every command belongs to a family (30_encoding R77). -/
theorem Instr.family (i : Instr) : ∃ op k mk, ∃ imm : BitVec k, i = mk imm ∧ Family op k mk := by
  cases i with
  | ldmf imm | setVer imm | setS imm | setDsiz imm | ldsf imm | setP imm | setC imm | setMx imm | setSt imm
  | ldxf imm | setI imm | setA imm | setR imm | setSx imm | setV imm | dsizDec imm | dsizEnc imm | stDec imm
  | stEnc imm =>
    exact ⟨_, _, _, imm, rfl, .of_operand (by decide) (fun _ => rfl) (fun _ => rfl) fun _ => by
      rw [decode, opField_append]; rfl⟩
  | _ =>
    exact ⟨_, 0, _, 0#0, rfl, .of_plain rfl rfl fun _ => by rw [decode, opField_append]; rfl⟩

/-! ### What the decoder answers -/

/-- An arm of the decoder is not taken by a word whose OP no command has. -/
theorem operand_of_unassigned {w : CommandWord} {k : Nat} {mk : BitVec k → Instr} {r : Except DecodeError Instr}
    (h : ∀ i, opField (encode i) ≠ opField w) (hop : (opField w).toNat = (opField (encode (mk 0#k))).toNat) :
    operand w k mk = r :=
  absurd (BitVec.eq_of_toNat_eq hop.symm) (h _)

theorem decode_of_unassigned {w : CommandWord} (h : ∀ i, opField (encode i) ≠ opField w) :
    decode w = .error (.unassignedOp (opField w)) := by
  simp only [decode, plain_eq_operand]
  split
  case h_42 => rfl
  all_goals next hop => exact operand_of_unassigned h hop

/-- IMM of a k-bit operand gives the operand back (30_encoding R76). -/
theorem setWidth_setWidth_of_width_le {k : Nat} (hk : k ≤ 8) (imm : BitVec k) :
    (imm.setWidth 8).setWidth k = imm := by
  rw [BitVec.setWidth_setWidth_of_le _ hk, BitVec.setWidth_eq]

theorem setWidth_lt {k : Nat} (imm : BitVec k) : (imm.setWidth 8).toNat < 2 ^ k := by
  rw [BitVec.toNat_setWidth]
  exact (Nat.mod_le _ _).trans_lt imm.isLt

/-- IMM below 2^k is that of a k-bit operand (30_encoding R76). -/
theorem setWidth_setWidth_of_lt {k : Nat} {imm : Byte} (h : imm.toNat < 2 ^ k) :
    (imm.setWidth k).setWidth 8 = imm := by
  apply BitVec.eq_of_toNat_eq
  rw [BitVec.toNat_setWidth, BitVec.toNat_setWidth, Nat.mod_eq_of_lt h, Nat.mod_eq_of_lt imm.isLt]

/-- The decoder gives back the command that a word was made of (30_encoding R79). -/
theorem decode_encode (i : Instr) : decode (encode i) = .ok i := by
  obtain ⟨op, k, mk, imm, rfl, hfam⟩ := i.family
  rw [hfam.encode_mk, hfam.spells, if_pos (setWidth_lt imm), setWidth_setWidth_of_width_le hfam.width_le]

/-- What the decoder makes of a word whose OP is that of a command: a command of the same operand width when IMM fits
that width, and no command otherwise (30_encoding R76, R78). -/
theorem decode_of_assigned {w : CommandWord} {i : Instr} (h : opField (encode i) = opField w) :
    ((immField w).toNat < 2 ^ i.operand.1 ∧
      ∃ j, decode w = .ok j ∧ encode j = w ∧ j.operand.1 = i.operand.1) ∨
    (2 ^ i.operand.1 ≤ (immField w).toNat ∧
      decode w = .error (.immediateNotZero (opField w) (immField w))) := by
  obtain ⟨op, k, mk, imm, rfl, hfam⟩ := i.family
  rw [hfam.encode_mk, opField_append] at h
  subst h
  have hw := hfam.spells (immField w)
  rw [opField_append_immField] at hw
  rw [hfam.operand_mk, hw]
  by_cases hlt : (immField w).toNat < 2 ^ k
  · refine .inl ⟨hlt, mk ((immField w).setWidth k), if_pos hlt, ?_, hfam.operand_mk _⟩
    rw [hfam.encode_mk, setWidth_setWidth_of_lt hlt, opField_append_immField]
  · exact .inr ⟨Nat.not_lt.1 hlt, if_neg hlt⟩

/-- Everything the decoder can answer (30_encoding R77, R78). -/
theorem decode_cases (w : CommandWord) :
    (∃ i, decode w = .ok i ∧ encode i = w) ∨
    (decode w = .error (.unassignedOp (opField w)) ∧ ∀ i, opField (encode i) ≠ opField w) ∨
    (decode w = .error (.immediateNotZero (opField w) (immField w)) ∧
      ∃ i, opField (encode i) = opField w ∧ 2 ^ i.operand.1 ≤ (immField w).toNat) := by
  by_cases h : ∃ i, opField (encode i) = opField w
  · obtain ⟨i, hi⟩ := h
    obtain ⟨-, j, hj, hword, -⟩ | ⟨hwide, hw⟩ := decode_of_assigned hi
    · exact .inl ⟨j, hj, hword⟩
    · exact .inr (.inr ⟨hw, i, hi, hwide⟩)
  · have hop : ∀ i, opField (encode i) ≠ opField w := fun i hi => h ⟨i, hi⟩
    exact .inr (.inl ⟨decode_of_unassigned hop, hop⟩)

/-- A word that decodes is its command's own word (30_encoding R79). -/
theorem encode_of_decode {w : CommandWord} {i : Instr} (h : decode w = .ok i) : encode i = w := by
  obtain ⟨j, hj, hword⟩ | ⟨he, -⟩ | ⟨he, -⟩ := decode_cases w
  · cases hj.symm.trans h
    exact hword
  · cases he.symm.trans h
  · cases he.symm.trans h

/-- Settles O2: both directions go through the family of the command, whose operand IMM holds exactly. -/
theorem decodeInvertsEncode : Obligations.DecodeInvertsEncode := by
  refine ⟨fun i => ⟨?_, decode_encode i⟩, fun w i => encode_of_decode⟩
  obtain ⟨-, -, hwf⟩ := Laws.EncodesLegalWord.every i
  exact hwf

/-- Settles O1: each legal word is the word of the command it spells. -/
theorem familyWordsDecode : Obligations.FamilyWordsDecode :=
  ⟨decode_encode .nop, decode_encode (.ldmf 0x16#8), decode_encode (.setVer 1#4), decode_encode (.setDsiz 2#2),
    decode_encode (.ldsf 0x3E#8), decode_encode (.setMx 1#1), decode_encode .getV, by decide,
    decode_encode (.dsizDec 0xFC#8), decode_encode (.stEnc 2#2), by decide, decode_encode .encHdr,
    decode_encode .decHdr, decode_encode .encPm, decode_encode .decPm, decode_encode .encMsg, decode_encode .decMsg⟩

end Sys2Proof
end

section
/-! PROOFS. The opcode table (30_encoding R77, R78; 60_exceptions R210): a row covers exactly the words of one OP
whose IMM fits the row's operand width, so the rows are disjoint, they cover what decodes, and their words are counted
row by row. -/

namespace Sys2Proof

/-! ### What a row covers -/

/-- The operand width k of a row: as many low bits are left free by its mask (30_encoding R77). -/
def OpcodeRow.width (r : OpcodeRow) : Nat := (List.range 8).countP fun n => !r.mask.getLsbD n

theorem OpcodeRow.width_le (r : OpcodeRow) : r.width ≤ 8 := List.countP_le_length

/-- Each row is that of a command: its match is the command's word with operand 0, and its mask leaves exactly the
operand free (30_encoding R77). -/
theorem row_command : ∀ r ∈ opcodeTable, opField r.mask = 0xFF#8 ∧ immField r.mask = 0xFF#8 <<< r.width ∧
    immField r.pattern = 0#8 ∧ ∃ i ∈ (decode r.pattern).toOption, i.operand.1 = r.width := by
  decide

/-- Words are compared field by field (30_encoding R75). -/
theorem word_eq_iff {w w' : CommandWord} : w = w' ↔ opField w = opField w' ∧ immField w = immField w' := by
  refine ⟨fun h => h ▸ ⟨rfl, rfl⟩, fun ⟨hop, himm⟩ => ?_⟩
  rw [← opField_append_immField w, hop, himm, opField_append_immField]

theorem opField_and (w w' : CommandWord) : opField (w &&& w') = opField w &&& opField w' :=
  BitVec.extractLsb'_and

theorem immField_and (w w' : CommandWord) : immField (w &&& w') = immField w &&& immField w' :=
  BitVec.extractLsb'_and

/-- The upper bits of IMM are 0 exactly when IMM is a k-bit value (30_encoding R76). -/
theorem and_shift_eq_zero_iff : ∀ k ≤ 8, ∀ imm : Byte, imm &&& 0xFF#8 <<< k = 0#8 ↔ imm.toNat < 2 ^ k := by
  decide +kernel

/-- A row covers the words with its OP whose IMM is a value of its operand width (30_encoding R76, R77). -/
theorem covers_iff {r : OpcodeRow} (hr : r ∈ opcodeTable) (w : CommandWord) :
    r.covers w = true ↔ opField w = opField r.pattern ∧ (immField w).toNat < 2 ^ r.width := by
  obtain ⟨hop, himm, hpattern, -⟩ := row_command r hr
  have hones : opField w &&& 0xFF#8 = opField w := BitVec.and_allOnes
  rw [OpcodeRow.covers, beq_iff_eq, word_eq_iff, opField_and, immField_and, hop, himm, hpattern, hones,
    and_shift_eq_zero_iff _ r.width_le]

theorem encode_of_mem_toOption {w : CommandWord} {i : Instr} (h : i ∈ (decode w).toOption) : encode i = w := by
  cases hw : decode w with
  | ok j =>
    rw [hw] at h
    cases h
    exact encode_of_decode hw
  | error e =>
    rw [hw] at h
    cases h

/-- A word that a row covers decodes to a command of the row's operand width (30_encoding R77). -/
theorem decode_of_covers {r : OpcodeRow} (hr : r ∈ opcodeTable) {w : CommandWord} (h : r.covers w = true) :
    ∃ i, decode w = .ok i ∧ i.operand.1 = r.width := by
  obtain ⟨-, -, -, i, hi, hwidth⟩ := row_command r hr
  obtain ⟨hop, himm⟩ := (covers_iff hr w).1 h
  have hopcode : opField (encode i) = opField w := by rw [encode_of_mem_toOption hi, hop]
  obtain ⟨-, j, hj, -, hk⟩ | ⟨hwide, -⟩ := decode_of_assigned hopcode
  · exact ⟨j, hj, hk.trans hwidth⟩
  · exact absurd (hwidth ▸ hwide) (Nat.not_le.2 himm)

/-! ### Legal words -/

theorem legalWord_iff_covers (w : CommandWord) : legalWord w = true ↔ ∃ r ∈ opcodeTable, r.covers w = true :=
  List.any_eq_true

theorem legalWord_iff_decode (w : CommandWord) : legalWord w = true ↔ ∃ i, decode w = .ok i := by
  constructor
  · intro h
    obtain ⟨r, hr, hcovers⟩ := (legalWord_iff_covers w).1 h
    obtain ⟨i, hi, -⟩ := decode_of_covers hr hcovers
    exact ⟨i, hi⟩
  · rintro ⟨i, hi⟩
    obtain ⟨hlegal, -, -⟩ := Laws.EncodesLegalWord.every i
    rwa [encode_of_decode hi] at hlegal

theorem illegalWord_iff_decode (w : CommandWord) : legalWord w = false ↔ ∃ e, decode w = .error e := by
  rw [← Bool.not_eq_true, legalWord_iff_decode]
  cases decode w <;> simp

/-- No two rows have the same OP, so no two cover the same word (30_encoding R77). -/
theorem opcodeTable_disjoint : opcodeTable.Pairwise fun r r' =>
    ∀ w : CommandWord, ¬ (r.covers w = true ∧ r'.covers w = true) := by
  have hops : (opcodeTable.map fun r => opField r.pattern).Nodup := by decide
  refine (List.pairwise_map.1 hops).imp_of_mem fun hr hr' hne w ⟨h, h'⟩ => hne ?_
  obtain ⟨hop, -⟩ := (covers_iff hr w).1 h
  obtain ⟨hop', -⟩ := (covers_iff hr' w).1 h'
  exact hop.symm.trans hop'

/-- Settles O3: a covered word decodes by its row's command, and a word that decodes is a command's word, which the
table covers. -/
theorem opcodeRowsAreTheCommands : Obligations.OpcodeRowsAreTheCommands :=
  ⟨rfl, opcodeTable_disjoint, legalWord_iff_decode⟩

/-! ### How many words there are -/

/-- The words of a row: its OP with each value of its operand width (30_encoding R77). -/
def OpcodeRow.words (r : OpcodeRow) : List CommandWord :=
  (List.range (2 ^ r.width)).map fun n => opField r.pattern ++ BitVec.ofNat 8 n

theorem OpcodeRow.lt_of_mem_range {r : OpcodeRow} {n : Nat} (h : n ∈ List.range (2 ^ r.width)) : n < 2 ^ 8 :=
  (List.mem_range.1 h).trans_le (Nat.pow_le_pow_right (by decide) r.width_le)

theorem mem_words {r : OpcodeRow} (hr : r ∈ opcodeTable) {w : CommandWord} :
    w ∈ r.words ↔ r.covers w = true := by
  rw [covers_iff hr, OpcodeRow.words, List.mem_map]
  constructor
  · rintro ⟨n, hn, rfl⟩
    rw [opField_append, immField_append, BitVec.toNat_ofNat, Nat.mod_eq_of_lt (OpcodeRow.lt_of_mem_range hn)]
    exact ⟨rfl, List.mem_range.1 hn⟩
  · rintro ⟨hop, hlt⟩
    refine ⟨_, List.mem_range.2 hlt, ?_⟩
    rw [BitVec.ofNat_toNat, BitVec.setWidth_eq, ← hop, opField_append_immField]

theorem OpcodeRow.words_nodup (r : OpcodeRow) : r.words.Nodup := by
  refine List.nodup_range.map_on fun n hn n' hn' h => ?_
  have himm := congrArg (fun w => (immField w).toNat) h
  simpa only [immField_append, BitVec.toNat_ofNat, Nat.mod_eq_of_lt (lt_of_mem_range hn),
    Nat.mod_eq_of_lt (lt_of_mem_range hn')] using himm

/-- The words that some rows of the table cover can be listed, each once, and a row contributes 2^k of them. -/
theorem exists_words_of_rows {rows : List OpcodeRow} (hrows : rows.Sublist opcodeTable) :
    ∃ words : List CommandWord, words.Nodup ∧ words.length = (rows.map fun r => 2 ^ r.width).sum ∧
      ∀ w, w ∈ words ↔ ∃ r ∈ rows, r.covers w = true := by
  refine ⟨rows.flatMap OpcodeRow.words, List.nodup_flatMap.2 ⟨fun r _ => r.words_nodup, ?_⟩, ?_, fun w => ?_⟩
  · refine (opcodeTable_disjoint.sublist hrows).imp_of_mem fun hr hr' hdisjoint w h h' => hdisjoint w ⟨?_, ?_⟩
    · exact (mem_words (hrows.subset hr)).1 h
    · exact (mem_words (hrows.subset hr')).1 h'
  · simp only [List.length_flatMap, OpcodeRow.words, List.length_map, List.length_range]
  · rw [List.mem_flatMap]
    exact exists_congr fun r => and_congr_right fun hr => mem_words (hrows.subset hr)

/-- The words of the commands with a k-bit operand are those of the rows of width k (30_encoding R78). -/
theorem exists_words_of_width (k : Nat) : ∃ words : List CommandWord, words.Nodup ∧
    words.length = ((opcodeTable.filter fun r => r.width == k).map fun r => 2 ^ r.width).sum ∧
      ∀ w, w ∈ words ↔ ∃ i, decode w = .ok i ∧ i.operand.1 = k := by
  obtain ⟨words, hnodup, hlength, hmem⟩ :=
    exists_words_of_rows (opcodeTable.filter_sublist (p := fun r => r.width == k))
  refine ⟨words, hnodup, hlength, fun w => (hmem w).trans ⟨?_, ?_⟩⟩
  · rintro ⟨r, hr, hcovers⟩
    obtain ⟨hr, hk⟩ := List.mem_filter.1 hr
    obtain ⟨i, hi, hwidth⟩ := decode_of_covers hr hcovers
    exact ⟨i, hi, hwidth.trans (beq_iff_eq.1 hk)⟩
  · rintro ⟨i, hi, hk⟩
    obtain ⟨r, hr, hcovers⟩ := (legalWord_iff_covers w).1 ((legalWord_iff_decode w).2 ⟨i, hi⟩)
    obtain ⟨j, hj, hwidth⟩ := decode_of_covers hr hcovers
    cases hi.symm.trans hj
    exact ⟨r, List.mem_filter.2 ⟨hr, beq_iff_eq.2 (hwidth.symm.trans hk)⟩, hcovers⟩

theorem exists_legal_words : ∃ words : List CommandWord, words.Nodup ∧ words.length = 1352 ∧
    ∀ w, w ∈ words ↔ legalWord w = true := by
  obtain ⟨words, hnodup, hlength, hmem⟩ := exists_words_of_rows (List.Sublist.refl opcodeTable)
  exact ⟨words, hnodup, hlength.trans (by decide), fun w => (hmem w).trans (legalWord_iff_covers w).symm⟩

/-- The illegal words are the rest of the 2^16 words (30_encoding R78). -/
theorem exists_illegal_words : ∃ words : List CommandWord, words.Nodup ∧ words.length = 64184 ∧
    ∀ w, w ∈ words ↔ legalWord w = false := by
  obtain ⟨legal, hnodup, hlength, hmem⟩ := exists_legal_words
  refine ⟨(legal.toFinset)ᶜ.toList, Finset.nodup_toList _, ?_, fun w => ?_⟩
  · have hcard : Fintype.card CommandWord = 2 ^ 16 := FinEnum.card_eq_fintypeCard.symm
    rw [Finset.length_toList, Finset.card_compl, List.toFinset_card_of_nodup hnodup, hlength, hcard]
    rfl
  · rw [Finset.mem_toList, Finset.mem_compl, List.mem_toFinset, hmem, Bool.not_eq_true]

/-- A write of an illegal word to CMD changes STATUS only (60_exceptions R210). -/
theorem Machine.hostWrite_of_illegal {w : CommandWord} (h : legalWord w = false) (s : State) :
    hostWrite 0x00 w.toNat s = .next { s with status := 0x0A#8 } := by
  obtain ⟨e, he⟩ := (illegalWord_iff_decode w).1 h
  rw [hostWrite_cmd, issue_of_illegal he]

/-- Settles O4: why a word is refused is one of the decoder's three answers, and the words are counted by the rows
that cover them. -/
theorem illegalWordsAndTheirCount : Obligations.IllegalWordsAndTheirCount := by
  refine ⟨illegalWord_iff_decode, fun w e he => ?_, fun w s h => Machine.hostWrite_of_illegal h s,
    fun p hp => ?_, exists_legal_words, exists_illegal_words⟩
  · obtain ⟨i, hi, -⟩ | ⟨hw, hop⟩ | ⟨hw, hwide⟩ := decode_cases w
    · cases hi.symm.trans he
    · cases hw.symm.trans he
      exact .inl ⟨rfl, hop⟩
    · cases hw.symm.trans he
      exact .inr ⟨rfl, hwide⟩
  · obtain ⟨words, hnodup, hlength, hmem⟩ := exists_words_of_width p.1
    have hcount : ∀ p ∈ [(0, 22), (1, 18), (2, 16), (4, 16), (8, 1280)],
        ((opcodeTable.filter fun r => r.width == p.1).map fun r => 2 ^ r.width).sum = p.2 := by decide
    exact ⟨words, hnodup, hlength.trans (hcount p hp), hmem⟩

end Sys2Proof
end

section
/-! PROOFS. The lengths of what the encodes emit (30_encoding R72): OLEN is the length of the wire layout, which is
`hlen` for a header and `plen` for a Protocol Message. -/

namespace Sys2Proof.Machine

/-- The header on the wire has hlen bytes (30_encoding R72). -/
theorem State.wireHeader_length (s : State) : s.wireHeader.length = s.hlen := by
  rw [State.wireHeader, header_length, State.hlen]
  simp only [State.headerFields, State.memRead_length]
  rfl

/-- The Protocol Message on the wire has plen bytes (30_encoding R72). -/
theorem State.wirePm_length (s : State) : s.wirePm.length = s.plen := by
  rw [State.wirePm, Wire.pm, List.length_append, pmHead_length, State.plen]
  simp only [State.pmFields, State.memRead_length]
  rfl

/-- An encode that ends with OK has emitted all its bytes: with too many it ends with OutputOverflow. -/
theorem State.emit_olen {s : State} {out : Bytes} (h : (s.emit out).status = 0x00#8) :
    (s.emit out).olen.toNat = out.length := by
  by_cases hfits : out.length ≤ Config.cap
  · obtain ⟨-, holen, -⟩ := State.emit_spec (s := s) hfits
    exact holen
  · rw [State.emit_of_long (Nat.lt_of_not_le hfits)] at h
    exact absurd h (State.raise_status_ne_ok _ s)

section

variable {s t : State}

theorem execEncHdr_olen (h : execEncHdr s = .next t) (hok : t.status = 0x00#8) : t.olen.toNat = s.hlen := by
  by_cases hc : s.HeaderConsistent
  · cases (execEncHdr_of_consistent hc).symm.trans h
    rw [State.emit_olen hok, s.wireHeader_length]
  · cases (execEncHdr_of_inconsistent hc).symm.trans h
    exact absurd hok (State.raise_status_ne_ok _ s)

theorem execEncPm_olen (h : execEncPm s = .next t) (hok : t.status = 0x00#8) : t.olen.toNat = s.plen := by
  by_cases hc : s.PmConsistent
  · cases (execEncPm_of_consistent hc).symm.trans h
    rw [State.emit_olen hok, s.wirePm_length]
  · cases (execEncPm_of_inconsistent hc).symm.trans h
    exact absurd hok (State.raise_status_ne_ok _ s)

theorem execEncMsg_olen (h : execEncMsg s = .next t) (hok : t.status = 0x00#8) :
    t.olen.toNat = s.hlen + (s.encryptAnswerTo s.wirePm).length + s.footerSize := by
  obtain ⟨-, hx⟩ | ⟨-, -, hx⟩ | ⟨⟨-, -, hfooter, -⟩, -, -, hx⟩ := execEncMsg_cases s
  · cases hx.symm.trans h
    exact absurd hok (State.raise_status_ne_ok _ s)
  · cases hx.symm.trans h
    exact absurd hok (State.raise_status_ne_ok _ s)
  · cases hx.symm.trans h
    rw [State.emit_olen hok, List.length_append, List.length_append, s.wireHeader_length, State.micBytes,
      State.memRead_length, hfooter, State.footerSize]

end

theorem State.hlen_ge (s : State) : 8 ≤ s.hlen := by
  unfold State.hlen
  omega

theorem State.hlen_le {s : State} (h : s.sf.getLsbD 5 = false) : s.hlen ≤ 26 := by
  unfold State.hlen
  rw [h, if_neg Bool.false_ne_true]
  split_ifs <;> omega

theorem State.plen_ge (s : State) : 6 ≤ s.plen := by
  unfold State.plen
  omega

/-- Settles O45: OLEN counts the wire layout, and the bounds add up the fields' lengths. -/
theorem lengthsOfEncodings : Obligations.LengthsOfEncodings := fun s _ =>
  ⟨execEncHdr_olen, execEncPm_olen, execEncMsg_olen, s.hlen_ge, rfl, State.hlen_le, rfl, s.plen_ge, rfl⟩

end Sys2Proof.Machine
end

section
/-! PROOFS. The flag-byte commands (40_flag_ops): a field is a slice of its register, which a get reads, a set replaces,
and neither the set of another field nor any command but a load changes. -/

namespace Sys2Proof

/-- The encoder settles what the words of an OP spell: those whose IMM fits the operand are the commands' own, and the
others are illegal (30_encoding R76 to R79). -/
theorem spells_of_encode {op : Byte} {k : Nat} {mk : BitVec k → Instr}
    (hencode : ∀ imm, encode (mk imm) = commandWord op imm) (hwidth : ∀ imm, (mk imm).operand.1 = k) :
    Spells op k mk := by
  intro imm
  split
  next hfits =>
    have hword : op ++ imm = encode (mk (imm.setWidth k)) := by
      rw [hencode, commandWord, setWidth_setWidth_of_lt hfits]
    rw [hword, decode_encode]
  next hwide =>
    have hop : opField (encode (mk 0#k)) = opField (op ++ imm) := by
      rw [hencode, commandWord, opField_append, opField_append]
    obtain ⟨hfits, -⟩ | ⟨-, hillegal⟩ := decode_of_assigned hop
    · rw [immField_append, hwidth] at hfits
      exact absurd hfits hwide
    · rwa [opField_append, immField_append] at hillegal

theorem spellsPlain_of_encode {op : Byte} {i : Instr} (hencode : encode i = commandWord op 0#8)
    (hwidth : i.operand.1 = 0) : SpellsPlain op i :=
  spells_of_encode (fun imm => by rw [hencode, BitVec.eq_nil imm]; rfl) fun _ => hwidth

namespace Machine

/-! ### Fields as slices -/

theorem getLsbD_fieldMask {w : Nat} (hw : w ≤ 8) (i : Nat) : (fieldMask w).getLsbD i = decide (i < w) := by
  rw [fieldMask, BitVec.getLsbD_ofNat, Nat.testBit_two_pow_sub_one, Bool.and_eq_right_iff_imp,
    decide_eq_true_iff, decide_eq_true_iff]
  omega

/-- A get reads a slice (40_flag_ops R90(e)). -/
theorem getField_eq (lo : Nat) {w : Nat} (hw : w ≤ 8) (r : Byte) :
    getField lo w r = (r.extractLsb' lo w).setWidth 8 := by
  apply BitVec.eq_of_getLsbD_eq
  intro i hi
  rw [getField, BitVec.getLsbD_and, BitVec.getLsbD_ushiftRight, getLsbD_fieldMask hw, BitVec.getLsbD_setWidth,
    BitVec.getLsbD_extractLsb', decide_eq_true hi, Bool.true_and, Bool.and_comm]

/-- A set replaces the bits of the field and no other (40_flag_ops R90(e)). -/
theorem getLsbD_setField {lo w : Nat} (h : lo + w ≤ 8) (v : BitVec w) (r : Byte) (i : Nat) :
    (setField lo v r).getLsbD i = if lo ≤ i ∧ i < lo + w then v.getLsbD (i - lo) else r.getLsbD i := by
  by_cases hi : i < 8
  · rw [setField, BitVec.getLsbD_or, BitVec.getLsbD_and, BitVec.getLsbD_not, BitVec.getLsbD_shiftLeft,
      BitVec.getLsbD_shiftLeft, BitVec.getLsbD_setWidth, getLsbD_fieldMask (show w ≤ 8 by omega)]
    split
    next hin =>
      have hlo : ¬ i < lo := by omega
      have hw : i - lo < w := by omega
      have hbyte : i - lo < 8 := by omega
      simp [hi, hlo, hw, hbyte]
    next hout =>
      by_cases hlo : i < lo
      · simp [hi, hlo]
      · have hw : w ≤ i - lo := by omega
        simp [hi, hlo, hw]
  · rw [BitVec.getLsbD_of_ge _ _ (by omega), if_neg (by omega), BitVec.getLsbD_of_ge _ _ (by omega)]

theorem getLsbD_setField_of_outside {lo w i : Nat} (h : lo + w ≤ 8) (hi : i < lo ∨ lo + w ≤ i) (v : BitVec w)
    (r : Byte) : (setField lo v r).getLsbD i = r.getLsbD i := by
  rw [getLsbD_setField h, if_neg (by omega)]

/-- A field reads as it was set. -/
theorem extractLsb'_setField_same {lo w : Nat} (h : lo + w ≤ 8) (v : BitVec w) (r : Byte) :
    (setField lo v r).extractLsb' lo w = v := by
  apply BitVec.eq_of_getLsbD_eq
  intro i hi
  rw [BitVec.getLsbD_extractLsb', getLsbD_setField h, if_pos (by omega), decide_eq_true hi, Bool.true_and,
    Nat.add_sub_cancel_left]

/-- A slice that lies beside the field is kept. -/
theorem extractLsb'_setField_of_disjoint {lo w lo' w' : Nat} (h : lo + w ≤ 8)
    (hbeside : lo + w ≤ lo' ∨ lo' + w' ≤ lo) (v : BitVec w) (r : Byte) :
    (setField lo v r).extractLsb' lo' w' = r.extractLsb' lo' w' := by
  apply BitVec.eq_of_getLsbD_eq
  intro i hi
  rw [BitVec.getLsbD_extractLsb', BitVec.getLsbD_extractLsb', getLsbD_setField_of_outside h (by omega)]

/-- What a set makes of the register, as slices from the highest bit down. -/
theorem setField_split {hi w lo : Nat} (h : hi + w + lo = 8) (v : BitVec w) (r : Byte) :
    setField lo v r = (r.extractLsb' (lo + w) hi ++ v ++ r.extractLsb' 0 lo).cast h := by
  apply BitVec.eq_of_getLsbD_eq
  intro i hbyte
  rw [getLsbD_setField (by omega), BitVec.getLsbD_cast, BitVec.getLsbD_append, BitVec.getLsbD_append,
    BitVec.getLsbD_extractLsb', BitVec.getLsbD_extractLsb']
  by_cases hlo : i < lo
  · rw [if_neg (by omega), if_pos hlo, decide_eq_true hlo, Bool.true_and, Nat.zero_add]
  rw [if_neg hlo]
  by_cases hw : i - lo < w
  · rw [if_pos (by omega), if_pos hw]
  · rw [if_neg (by omega), if_neg hw, decide_eq_true (by omega), Bool.true_and,
      show lo + w + (i - lo - w) = i by omega]

theorem setField_top {w lo : Nat} (h : w + lo = 8) (v : BitVec w) (r : Byte) :
    setField lo v r = (v ++ r.extractLsb' 0 lo).cast h := by
  rw [setField_split (show 0 + w + lo = 8 by omega), BitVec.zero_width_append]
  rfl

theorem setField_bottom {hi w : Nat} (h : hi + w = 8) (v : BitVec w) (r : Byte) :
    setField 0 v r = (r.extractLsb' w hi ++ v).cast h := by
  rw [setField_split (show hi + w + 0 = 8 by omega)]
  simp

/-- A byte written to SF is stored as it is, but for the pattern 2, which is one below the pattern 3
(40_flag_ops R99). -/
theorem canonSF_eq_ite (b : Byte) : canonSF b = if b.extractLsb' 0 2 = 2#2 then b + 1#8 else b := by
  revert b; decide +kernel

/-! ### Outcomes of the flag-byte commands -/

/-- The flag registers (10_state R12, R14, R19). -/
inductive FlagReg where
  | mf
  | sf
  | xf
  deriving DecidableEq

def State.flag (s : State) : FlagReg → Byte
  | .mf => s.mf
  | .sf => s.sf
  | .xf => s.xf

/-- A state with one flag register replaced. -/
def State.withFlag (s : State) (q : FlagReg) (b : Byte) : State :=
  match q with
  | .mf => { s with mf := b }
  | .sf => { s with sf := b }
  | .xf => { s with xf := b }

@[simp] theorem State.withFlag_flag_same (s : State) (q : FlagReg) (b : Byte) : (s.withFlag q b).flag q = b := by
  cases q <;> rfl

theorem State.withFlag_flag_of_ne {q q' : FlagReg} (h : q' ≠ q) (s : State) (b : Byte) :
    (s.withFlag q b).flag q' = s.flag q' := by
  cases q <;> cases q' <;> trivial

@[simp] theorem State.succeed_flag (s : State) (q : FlagReg) : s.succeed.flag q = s.flag q := by
  cases q <;> rfl

/-- The outcome of a read, its byte written another way. -/
theorem next_answer_congr (s : State) {b b' : Byte} (h : b = b') :
    (.next (s.answer b) : Result) = .next { s with res := b', status := 0x00#8 } := by
  rw [h]
  rfl

/-- The outcome of a write to a flag register, its byte written another way. -/
theorem next_withFlag_congr (q : FlagReg) (s : State) {b b' : Byte} (h : b = b') :
    (.next (s.withFlag q b).succeed : Result) = .next { s.withFlag q b' with status := 0x00#8 } := by
  rw [h]
  rfl

/-! ### Every field at once -/

namespace FlagField

/-- The register of a field (40_flag_ops section 1). -/
def reg : FlagField → FlagReg
  | .ver | .s | .dsiz => .mf
  | .p | .c | .mx | .st => .sf
  | .i | .a | .r | .sx | .v => .xf

/-- The lowest bit of a field (30_encoding R62, R65, R67). -/
def lo : FlagField → Nat
  | .ver => 4
  | .s => 2
  | .dsiz => 0
  | .p => 7
  | .c => 6
  | .mx => 5
  | .st => 0
  | .i => 0
  | .a => 1
  | .r => 2
  | .sx => 3
  | .v => 4

/-- The code that stands for a pattern of a field: canonical for SessionType, else the pattern itself
(30_encoding R64, R66). -/
def code : (f : FlagField) → BitVec f.width → BitVec f.width
  | .st, x => canonST x
  | .ver, x | .s, x | .dsiz, x | .p, x | .c, x | .mx, x | .i, x | .a, x | .r, x | .sx, x | .v, x => x

def all : List FlagField := [.ver, .s, .dsiz, .p, .c, .mx, .st, .i, .a, .r, .sx, .v]

theorem mem_all (f : FlagField) : f ∈ all := by
  cases f <;> decide

theorem fits (f : FlagField) : f.lo + f.width ≤ 8 := by
  cases f <;> decide

/-- Two fields of one register lie beside each other (40_flag_ops R121). -/
theorem beside {f g : FlagField} (hne : f ≠ g) (hreg : g.reg = f.reg) :
    f.lo + f.width ≤ g.lo ∨ g.lo + g.width ≤ f.lo := by
  have hall : ∀ f ∈ all, ∀ g ∈ all, f ≠ g → g.reg = f.reg → f.lo + f.width ≤ g.lo ∨ g.lo + g.width ≤ f.lo := by
    decide
  exact hall f f.mem_all g g.mem_all hne hreg

theorem reg_of_mem : (∀ f ∈ [ver, s, dsiz], f.reg = .mf) ∧ (∀ f ∈ [p, c, mx, st], f.reg = .sf) ∧
    ∀ f ∈ [i, a, r, sx, v], f.reg = .xf := by
  decide

theorem code_code (f : FlagField) (x : BitVec f.width) : f.code (f.code x) = f.code x := by
  cases f with
  | st => exact congrArg sessionTypeToBits (sessionTypeOfBits_toBits _)
  | _ => rfl

/-- What the GET_ command of a field makes of the register. -/
def read (f : FlagField) (r : Byte) : Byte := (f.code (r.extractLsb' f.lo f.width)).setWidth 8

/-- What the SET_ command of a field makes of the register. -/
def write (f : FlagField) (v r : Byte) : Byte := setField f.lo (f.code (v.setWidth f.width)) r

theorem exec_getter (f : FlagField) (s : State) :
    exec f.getter s = .next (s.answer (f.read (s.flag f.reg))) := by
  cases f with
  | st => rfl
  | _ => exact next_answer_congr s (getField_eq _ (by decide) _)

theorem exec_setter (f : FlagField) (v : Byte) (s : State) :
    exec (f.setter v) s = .next (s.withFlag f.reg (f.write v (s.flag f.reg))).succeed := by
  cases f <;> rfl

theorem read_write_same (f : FlagField) (v r : Byte) :
    f.read (f.write v r) = (f.code (v.setWidth f.width)).setWidth 8 := by
  rw [read, write, extractLsb'_setField_same f.fits, code_code]

theorem read_write_of_ne {f g : FlagField} (hne : f ≠ g) (hreg : g.reg = f.reg) (v r : Byte) :
    g.read (f.write v r) = g.read r := by
  rw [read, write, extractLsb'_setField_of_disjoint f.fits (beside hne hreg), read]

/-- A GET_ after the SET_ of another field (40_flag_ops R121). -/
theorem read_flag_of_ne {f g : FlagField} (hne : f ≠ g) (v : Byte) (s : State) :
    g.read ((s.withFlag f.reg (f.write v (s.flag f.reg))).flag g.reg) = g.read (s.flag g.reg) := by
  by_cases hreg : g.reg = f.reg
  · rw [hreg, State.withFlag_flag_same, read_write_of_ne hne hreg]
  · rw [State.withFlag_flag_of_ne hreg]

/-- A SET_ keeps the other two registers (40_flag_ops R121). -/
theorem exec_setter_frame {f : FlagField} {v : Byte} {s t : State} (h : exec (f.setter v) s = .next t)
    (q : FlagReg) (hq : q ≠ f.reg) : t.flag q = s.flag q := by
  cases (f.exec_setter v s).symm.trans h
  rw [State.succeed_flag, State.withFlag_flag_of_ne hq]

/-- The code of an operand cut from a byte: the operand, but 3 for SessionType 2 (40_flag_ops R121). -/
theorem code_setWidth (f : FlagField) (v : Byte) : (f.code (v.setWidth f.width)).setWidth 8 =
    if f = .st ∧ v.extractLsb' 0 2 = 2#2 then 3#8 else BitVec.ofNat 8 (v.toNat % 2 ^ f.width) := by
  have hcut (w : Nat) : (v.setWidth w).setWidth 8 = BitVec.ofNat 8 (v.toNat % 2 ^ w) := by
    rw [← BitVec.toNat_setWidth, BitVec.ofNat_toNat]
  cases f with
  | st =>
    have hlow : v.setWidth 2 = v.extractLsb' 0 2 := BitVec.setWidth_eq_extractLsb' (by decide)
    change (canonST (v.setWidth 2)).setWidth 8 = _
    rw [canonST_eq, hlow]
    by_cases htwo : v.extractLsb' 0 2 = 2#2
    · rw [if_pos htwo, if_pos ⟨rfl, htwo⟩]
      rfl
    · rw [if_neg htwo, if_neg fun ⟨_, h⟩ => htwo h, ← hlow]
      exact hcut 2
  | _ => exact (hcut _).trans (if_neg fun ⟨hst, _⟩ => nomatch hst).symm

theorem isCodec_setter (f : FlagField) (v : Byte) : isCodec (f.setter v) = false := by
  cases f <;> rfl

theorem setter_ne_load (f : FlagField) (v b : Byte) :
    f.setter v ≠ .ldmf b ∧ f.setter v ≠ .ldsf b ∧ f.setter v ≠ .ldxf b := by
  cases f <;> simp [setter]

end FlagField

/-! ### Reserved bits -/

/-- A command that is no codec keeps MF[3], SF[4:2] and XF[7:5], but for a load of the register, which stores the
bits it carries (40_flag_ops R122). -/
theorem exec_reserved {i : Instr} {s t : State} (hi : isCodec i = false) (h : exec i s = .next t) :
    (t.mf.getLsbD 3 = s.mf.getLsbD 3 ∨ ∃ b, i = .ldmf b ∧ t.mf.getLsbD 3 = b.getLsbD 3) ∧
    (t.sf.extractLsb' 2 3 = s.sf.extractLsb' 2 3 ∨
      ∃ b, i = .ldsf b ∧ t.sf.extractLsb' 2 3 = b.extractLsb' 2 3) ∧
    (t.xf.extractLsb' 5 3 = s.xf.extractLsb' 5 3 ∨
      ∃ b, i = .ldxf b ∧ t.xf.extractLsb' 5 3 = b.extractLsb' 5 3) := by
  cases i with
  | encHdr | decHdr | encPm | decPm | encMsg | decMsg => contradiction
  | ldmf b =>
    cases h
    exact ⟨.inr ⟨b, rfl, rfl⟩, .inl rfl, .inl rfl⟩
  | ldsf b =>
    cases h
    exact ⟨.inl rfl, .inr ⟨b, rfl, extractLsb'_setField_of_disjoint (by decide) (by decide) _ _⟩, .inl rfl⟩
  | ldxf b =>
    cases h
    exact ⟨.inl rfl, .inl rfl, .inr ⟨b, rfl, rfl⟩⟩
  | setVer imm | setS imm | setDsiz imm =>
    cases h
    exact ⟨.inl (getLsbD_setField_of_outside (by decide) (by decide) _ _), .inl rfl, .inl rfl⟩
  | setP imm | setC imm | setMx imm | setSt imm =>
    cases h
    exact ⟨.inl rfl, .inl (extractLsb'_setField_of_disjoint (by decide) (by decide) _ _), .inl rfl⟩
  | setI imm | setA imm | setR imm | setSx imm | setV imm =>
    cases h
    exact ⟨.inl rfl, .inl rfl, .inl (extractLsb'_setField_of_disjoint (by decide) (by decide) _ _)⟩
  | _ =>
    cases h
    exact ⟨.inl rfl, .inl rfl, .inl rfl⟩

/-- The SET_ commands are no loads, so they keep every reserved bit (40_flag_ops R121). -/
theorem FlagField.exec_setter_reserved {f : FlagField} {v : Byte} {s t : State}
    (h : exec (f.setter v) s = .next t) : t.mf.getLsbD 3 = s.mf.getLsbD 3 ∧
      t.sf.extractLsb' 2 3 = s.sf.extractLsb' 2 3 ∧ t.xf.extractLsb' 5 3 = s.xf.extractLsb' 5 3 := by
  obtain ⟨hmf, hsf, hxf⟩ := exec_reserved (f.isCodec_setter v) h
  refine ⟨hmf.resolve_right fun ⟨b, hload, _⟩ => ?_, hsf.resolve_right fun ⟨b, hload, _⟩ => ?_,
    hxf.resolve_right fun ⟨b, hload, _⟩ => ?_⟩
  all_goals simp [f.setter_ne_load v b] at hload

/-! ### The obligations -/

/-- Settles O26: a field's GET_ and SET_ are a slice read and a slice replaced, and two fields are slices of different
registers or lie beside each other. -/
theorem flagIsolation : Obligations.FlagIsolation := by
  intro f g v s
  have ht := f.exec_setter v s
  obtain ⟨hmf, hsf, hxf⟩ := FlagField.reg_of_mem
  have hframe := FlagField.exec_setter_frame ht
  refine ⟨_, _, _, ht, g.exec_getter s, g.exec_getter _, fun hne => ?_, ?_,
    FlagField.exec_setter_reserved ht, fun hf => ?_, fun hf => ?_, fun hf => ?_⟩
  · simp only [State.answer_res, State.succeed_flag, FlagField.read_flag_of_ne hne]
  · rintro rfl
    simp only [State.answer_res, State.succeed_flag, State.withFlag_flag_same, FlagField.read_write_same,
      FlagField.code_setWidth]
  · exact ⟨hframe .sf (by simp [hmf f hf]), hframe .xf (by simp [hmf f hf])⟩
  · exact ⟨hframe .mf (by simp [hsf f hf]), hframe .xf (by simp [hsf f hf])⟩
  · exact ⟨hframe .mf (by simp [hxf f hf]), hframe .sf (by simp [hxf f hf])⟩

/-- Settles O27: a load stores the byte, SF's canonically, and a read gives what is stored. -/
theorem flagByteRoundTrip : Obligations.FlagByteRoundTrip := by
  intro s
  refine ⟨fun b => ⟨_, _, rfl, rfl, rfl⟩, fun b => ⟨_, _, rfl, rfl, rfl⟩,
    fun b => ⟨_, _, rfl, rfl, canonSF_eq_ite b⟩, ⟨_, _, rfl, rfl, rfl⟩, ⟨_, _, rfl, rfl, rfl⟩,
    fun hcanonical => ⟨_, _, rfl, rfl, ?_⟩, fun i t => exec_reserved⟩
  exact (canonSF_eq_ite s.sf).trans (if_neg hcanonical)

/-- Settles O17: LDMF writes its byte to MF and RDMF answers MF. -/
theorem mfIsLoadedAndRead : Obligations.MfIsLoadedAndRead := fun _ =>
  ⟨⟨spells_of_encode (fun _ => rfl) fun _ => rfl, fun _ => rfl⟩, spellsPlain_of_encode rfl rfl, rfl⟩

/-- Settles O18: each get reads the slice of MF that the field is. -/
theorem mfFieldsAreRead : Obligations.MfFieldsAreRead := fun s =>
  ⟨⟨spellsPlain_of_encode rfl rfl, next_answer_congr s (getField_eq 4 (by decide) s.mf)⟩,
    ⟨spellsPlain_of_encode rfl rfl, next_answer_congr s (getField_eq 2 (by decide) s.mf)⟩,
    spellsPlain_of_encode rfl rfl, next_answer_congr s (getField_eq 0 (by decide) s.mf)⟩

/-- Settles O19: each set replaces the slice of MF that the field is. -/
theorem mfFieldsAreSet : Obligations.MfFieldsAreSet := fun s =>
  ⟨⟨spells_of_encode (fun _ => rfl) fun _ => rfl,
      fun imm => next_withFlag_congr .mf s (setField_top rfl imm s.mf)⟩,
    ⟨spells_of_encode (fun _ => rfl) fun _ => rfl,
      fun imm => next_withFlag_congr .mf s (setField_split rfl imm s.mf)⟩,
    spells_of_encode (fun _ => rfl) fun _ => rfl,
    fun imm => next_withFlag_congr .mf s (setField_bottom rfl imm s.mf)⟩

/-- Settles O20: LDSF makes its byte canonical, which touches the SessionType alone, and RDSF answers SF. -/
theorem sfIsLoadedAndRead : Obligations.SfIsLoadedAndRead := fun s =>
  ⟨⟨spells_of_encode (fun _ => rfl) fun _ => rfl, fun imm => next_withFlag_congr .sf s (canonSF_eq_ite imm)⟩,
    ⟨spellsPlain_of_encode rfl rfl, rfl⟩,
    fun b => ⟨_, _, rfl, rfl, extractLsb'_setField_of_disjoint (by decide) (by decide) _ b,
      setField_canonST_low _ b⟩⟩

/-- Settles O21: each get reads the slice of SF that the field is, and GET_ST its canonical code. -/
theorem sfFieldsAreRead : Obligations.SfFieldsAreRead := fun s =>
  ⟨⟨spellsPlain_of_encode rfl rfl, next_answer_congr s (getField_eq 7 (by decide) s.sf)⟩,
    ⟨spellsPlain_of_encode rfl rfl, next_answer_congr s (getField_eq 6 (by decide) s.sf)⟩,
    ⟨spellsPlain_of_encode rfl rfl, next_answer_congr s (getField_eq 5 (by decide) s.sf)⟩,
    spellsPlain_of_encode rfl rfl, next_answer_congr s (congrArg (·.setWidth 8) (canonST_eq (lowBits s.sf)))⟩

/-- Settles O22: each set replaces the slice of SF that the field is, SET_ST by the canonical code. -/
theorem sfFieldsAreSet : Obligations.SfFieldsAreSet := fun s =>
  ⟨⟨spells_of_encode (fun _ => rfl) fun _ => rfl,
      fun imm => next_withFlag_congr .sf s (setField_top rfl imm s.sf)⟩,
    ⟨spells_of_encode (fun _ => rfl) fun _ => rfl,
      fun imm => next_withFlag_congr .sf s (setField_split rfl imm s.sf)⟩,
    ⟨spells_of_encode (fun _ => rfl) fun _ => rfl,
      fun imm => next_withFlag_congr .sf s (setField_split rfl imm s.sf)⟩,
    spells_of_encode (fun _ => rfl) fun _ => rfl,
    fun imm => by
      rw [← canonST_eq imm]
      exact next_withFlag_congr .sf s (setField_bottom rfl (canonST imm) s.sf)⟩

/-- Settles O23: LDXF writes its byte to XF and RDXF answers XF. -/
theorem xfIsLoadedAndRead : Obligations.XfIsLoadedAndRead := fun _ =>
  ⟨⟨spells_of_encode (fun _ => rfl) fun _ => rfl, fun _ => rfl⟩, spellsPlain_of_encode rfl rfl, rfl⟩

/-- Settles O24: each get reads the bit of XF that the field is. -/
theorem xfFieldsAreRead : Obligations.XfFieldsAreRead := fun s =>
  ⟨⟨spellsPlain_of_encode rfl rfl, next_answer_congr s (getField_eq 0 (by decide) s.xf)⟩,
    ⟨spellsPlain_of_encode rfl rfl, next_answer_congr s (getField_eq 1 (by decide) s.xf)⟩,
    ⟨spellsPlain_of_encode rfl rfl, next_answer_congr s (getField_eq 2 (by decide) s.xf)⟩,
    ⟨spellsPlain_of_encode rfl rfl, next_answer_congr s (getField_eq 3 (by decide) s.xf)⟩,
    spellsPlain_of_encode rfl rfl, next_answer_congr s (getField_eq 4 (by decide) s.xf)⟩

/-- Settles O25: each set replaces the bit of XF that the field is. -/
theorem xfFieldsAreSet : Obligations.XfFieldsAreSet := fun s =>
  ⟨⟨spells_of_encode (fun _ => rfl) fun _ => rfl,
      fun imm => next_withFlag_congr .xf s (setField_bottom rfl imm s.xf)⟩,
    ⟨spells_of_encode (fun _ => rfl) fun _ => rfl,
      fun imm => next_withFlag_congr .xf s (setField_split rfl imm s.xf)⟩,
    ⟨spells_of_encode (fun _ => rfl) fun _ => rfl,
      fun imm => next_withFlag_congr .xf s (setField_split rfl imm s.xf)⟩,
    ⟨spells_of_encode (fun _ => rfl) fun _ => rfl,
      fun imm => next_withFlag_congr .xf s (setField_split rfl imm s.xf)⟩,
    spells_of_encode (fun _ => rfl) fun _ => rfl,
    fun imm => next_withFlag_congr .xf s (setField_split rfl imm s.xf)⟩

end Machine

end Sys2Proof
end

section
/-! PROOFS. The enumeration codec commands (41_enum_ops): each answers a two-bit code in the low bits of RES, where the
next command finds it, so a law about two commands in a row is a law about the codes. -/

namespace Sys2Proof.Machine

/-! ### Codes -/

/-- A code stands in the low bits of the byte that answers it (41_enum_ops R132). -/
@[simp] theorem lowBits_setWidth (c : BitVec 2) : lowBits (c.setWidth 8) = c :=
  (BitVec.setWidth_eq_extractLsb' (by decide)).symm.trans (setWidth_setWidth_of_width_le (by decide) c)

/-- A code is its own canonical form (30_encoding R66). -/
@[simp] theorem canonST_canonST (x : BitVec 2) : canonST (canonST x) = canonST x :=
  FlagField.st.code_code x

/-! ### Outcomes of the commands -/

section

variable (b : Byte) (c : BitVec 2) (s : State)

theorem exec_dsizDec : exec (.dsizDec b) s = .next (s.answer ((lowBits b).setWidth 8)) :=
  next_answer_congr s (congrArg (·.setWidth 8) (dsizToBits_ofBits (lowBits b)))

theorem exec_dsizEnc : exec (.dsizEnc c) s = .next (s.answer (c.setWidth 8)) :=
  next_answer_congr s (congrArg (·.setWidth 8) (dsizToBits_ofBits c))

theorem exec_stDec : exec (.stDec b) s = .next (s.answer ((canonST (lowBits b)).setWidth 8)) := rfl

theorem exec_stEnc : exec (.stEnc c) s = .next (s.answer ((canonST c).setWidth 8)) := rfl

/-! ### Two commands in a row -/

/-- Encode after decode is the identity on the low two bits (41_enum_ops R135(b)). -/
theorem exec_dsizDec_dsizEnc : ∃ t u, exec (.dsizDec b) s = .next t ∧
    exec (.dsizEnc (lowBits t.res)) t = .next u ∧ lowBits u.res = lowBits b :=
  ⟨_, _, exec_dsizDec b s, exec_dsizEnc _ _, by simp⟩

/-- Decode after encode is the identity on the codes (41_enum_ops R135(b)). -/
theorem exec_dsizEnc_dsizDec : ∃ t u, exec (.dsizEnc c) s = .next t ∧ exec (.dsizDec t.res) t = .next u ∧
    u.res = c.setWidth 8 :=
  ⟨_, _, exec_dsizEnc c s, exec_dsizDec _ _, by simp⟩

/-- Encode after decode is `canon_ST` of the low two bits (41_enum_ops R135(c)). -/
theorem exec_stDec_stEnc : ∃ t u, exec (.stDec b) s = .next t ∧ exec (.stEnc (lowBits t.res)) t = .next u ∧
    lowBits u.res = canonST (lowBits b) :=
  ⟨_, _, exec_stDec b s, exec_stEnc _ _, by simp⟩

/-- Decode after encode is `canon_ST` of the code (41_enum_ops R135(c)). -/
theorem exec_stEnc_stDec : ∃ t u, exec (.stEnc c) s = .next t ∧ exec (.stDec t.res) t = .next u ∧
    u.res = (canonST c).setWidth 8 :=
  ⟨_, _, exec_stEnc c s, exec_stDec _ _, by simp⟩

/-! ### The flag commands -/

/-- GET_DSIZ is DSIZ_DEC of MF (41_enum_ops R135(d)). -/
theorem exec_getDsiz_eq_dsizDec : exec .getDsiz s = exec (.dsizDec s.mf) s :=
  (FlagField.dsiz.exec_getter s).trans (exec_dsizDec s.mf s).symm

/-- GET_ST is ST_DEC of SF (41_enum_ops R135(d)). -/
theorem exec_getSt_eq_stDec : exec .getSt s = exec (.stDec s.sf) s :=
  (FlagField.st.exec_getter s).trans (exec_stDec s.sf s).symm

/-- SET_DSIZ inserts DSIZ_ENC of its operand (41_enum_ops R135(d)). -/
theorem exec_setDsiz_inserts_dsizEnc : ∃ t u, exec (.dsizEnc c) s = .next t ∧ exec (.setDsiz c) s = .next u ∧
    u.mf = s.mf.extractLsb' 2 6 ++ lowBits t.res := by
  refine ⟨_, _, exec_dsizEnc c s, rfl, ?_⟩
  rw [State.answer_res, lowBits_setWidth]
  exact setField_bottom rfl c s.mf

/-- SET_ST inserts ST_ENC of its operand (41_enum_ops R135(d)). -/
theorem exec_setSt_inserts_stEnc : ∃ t u, exec (.stEnc c) s = .next t ∧ exec (.setSt c) s = .next u ∧
    u.sf = s.sf.extractLsb' 2 6 ++ lowBits t.res := by
  refine ⟨_, _, exec_stEnc c s, rfl, ?_⟩
  rw [State.answer_res, lowBits_setWidth]
  exact setField_bottom rfl (canonST c) s.sf

end

/-! ### The obligations -/

/-- Settles O28: a DSIZ value is its own code, so decode answers the low two bits and encode its operand. -/
theorem dsizCommands : Obligations.DsizCommands := fun s =>
  ⟨⟨spells_of_encode (fun _ => rfl) fun _ => rfl, fun imm => exec_dsizDec imm s⟩,
    spells_of_encode (fun _ => rfl) fun _ => rfl, fun imm => exec_dsizEnc imm s⟩

/-- Settles O29: both commands answer `canon_ST`, which changes the pattern 2 alone. -/
theorem sessionTypeCommands : Obligations.SessionTypeCommands := fun s =>
  ⟨⟨spells_of_encode (fun _ => rfl) fun _ => rfl,
      fun imm => next_answer_congr s (congrArg (·.setWidth 8) (canonST_eq (lowBits imm)))⟩,
    spells_of_encode (fun _ => rfl) fun _ => rfl,
    fun imm => next_answer_congr s (congrArg (·.setWidth 8) (canonST_eq imm))⟩

/-- Settles O30: the laws of two commands in a row, with `canon_ST` written out by its cases. -/
theorem enumerationLaws : Obligations.EnumerationLaws := by
  intro s
  refine ⟨fun b => ⟨_, _, exec_dsizDec b s, exec_stDec b s, rfl, rfl⟩, fun b => exec_dsizDec_dsizEnc b s,
    fun c => exec_dsizEnc_dsizDec c s, fun c hc => ?_, fun b => ?_, exec_getDsiz_eq_dsizDec s,
    exec_getSt_eq_stDec s, fun c => exec_setDsiz_inserts_dsizEnc c s, fun c => exec_setSt_inserts_stEnc c s⟩
  · have hcode : canonST c = c := (canonST_eq c).trans (if_neg hc)
    simpa only [hcode] using exec_stEnc_stDec c s
  · obtain ⟨t, u, hdec, henc, hres⟩ := exec_stDec_stEnc b s
    exact ⟨t, u, hdec, henc, hres.trans (canonST_eq (lowBits b))⟩

end Sys2Proof.Machine
end

section
/-! PROOFS. The bytes of a header on the wire (30_encoding R61; 42_header_codec R142): where its flag bytes stand, and
what laying out the decoded fields again gives. -/

namespace Sys2Proof.Machine

/-- A byte at the front of the input stands in IBUF at its offset (10_state R38). -/
theorem State.readByte_ibuf_of_wireInput {s : State} {x rest : Bytes} {a : Nat} {b : Byte}
    (hin : s.wireInput = x ++ rest) (hb : x[a]? = some b) : s.readByte .ibuf a = b := by
  obtain ⟨ha, -⟩ := List.getElem?_eq_some_iff.1 hb
  have hat : s.wireInput[a]? = some b := by rw [hin, List.getElem?_append_left ha, hb]
  obtain ⟨hlen, rfl⟩ := List.getElem?_eq_some_iff.1 hat
  have hread := State.memRead_getElem s .ibuf 0 _ a hlen
  rw [Nat.zero_add] at hread
  exact hread.symm

/-! ### The flag bytes of a header -/

/-- The offset of the Message Flags byte, behind the Message Length (30_encoding R61). -/
def messageFlagsAt (stream : Bool) : Nat := if stream then 2 else 0

/-- The offset of the Security Flags byte (30_encoding R61). -/
def securityFlagsAt (stream : Bool) : Nat := if stream then 5 else 3

section
variable (stream : Bool) (f : Wire.HeaderFields)

theorem header_messageFlags : (Wire.header stream f)[messageFlagsAt stream]? = some f.mf := by
  cases stream <;> rfl

theorem header_securityFlags : (Wire.header stream f)[securityFlagsAt stream]? = some f.sf := by
  cases stream <;> rfl

/-! ### Decoded fields on the wire -/

/-- The part of a destination that a decode drops is not on the wire (42_header_codec R146). -/
theorem destination_decoded : Wire.destination f.mf (f.decoded stream).dst = Wire.destination f.mf f.dst := by
  unfold Wire.destination Wire.HeaderFields.decoded
  dsimp only
  split
  next => rfl
  next =>
    split
    next =>
      rw [BitVec.extractLsb'_setWidth_of_le (show 0 + 16 ≤ 64 by decide), BitVec.extractLsb'_eq_self]
    next => rfl

/-- The value of an absent field is not on the wire (30_encoding R74). -/
theorem absent_not_on_wire {α : Type} (present : Bool) (layout : α → Bytes) (x zero : α) :
    (if present then layout (if present then x else zero) else []) =
      if present then layout x else [] := by
  cases present <;> rfl

/-- The decoded fields laid out again are the same bytes, but for the Security Flags byte, whose SessionType
has become canonical (42_header_codec R149, R151). -/
theorem header_decoded : Wire.header stream (f.decoded stream) =
    (Wire.header stream f).modify (securityFlagsAt stream) Wire.canonical := by
  have hmx : (f.decoded stream).sf.getLsbD 5 = f.sf.getLsbD 5 := canonical_bits f.sf 5 (by decide)
  unfold Wire.header
  rw [hmx, show (f.decoded stream).mf = f.mf from rfl, destination_decoded]
  simp only [Wire.HeaderFields.decoded, absent_not_on_wire]
  cases stream <;> rfl

end
end Sys2Proof.Machine
end

section
/-! PROOFS. The commands of the header codec (42_header_codec): what ENC_HDR emits when it succeeds, what DEC_HDR answers
on a laid-out header, on one cut short and on a refused version, and what its success says of the input. -/

namespace Sys2Proof.Machine

/-! ### ENC_HDR -/

/-- An ENC_HDR that ends with OK has emitted the header of consistent registers, which fits (42_header_codec R142,
R143). -/
theorem execEncHdr_ok {s t : State} (h : execEncHdr s = .next t) (hok : t.status = 0x00#8) :
    s.HeaderConsistent ∧ s.wireHeader.length ≤ Config.cap ∧ t = s.emit s.wireHeader := by
  by_cases hc : s.HeaderConsistent
  · cases (execEncHdr_of_consistent hc).symm.trans h
    by_cases hfits : s.wireHeader.length ≤ Config.cap
    · exact ⟨hc, hfits, rfl⟩
    · rw [State.emit_of_long (Nat.lt_of_not_le hfits)] at hok
      exact absurd hok (State.raise_status_ne_ok _ s)
  · cases (execEncHdr_of_inconsistent hc).symm.trans h
    exact absurd hok (State.raise_status_ne_ok _ s)

/-- Settles O31: consistent registers emit their wire header, which OBUF takes when it fits; its length is the sum of
the fields' lengths. -/
theorem encHdrEmitsTheHeader : Obligations.EncHdrEmitsTheHeader := by
  refine ⟨spellsPlain_of_encode rfl rfl, fun s => ⟨fun hc hfits => ?_, fun hc hlong => ?_, fun hc => ?_,
    s.wireHeader_length⟩⟩
  · exact ⟨_, execEncHdr_of_consistent hc, State.emit_spec hfits⟩
  · exact (execEncHdr_of_consistent hc).trans (congrArg _ (State.emit_of_long hlong))
  · exact execEncHdr_of_inconsistent hc

/-! ### DEC_HDR of a laid-out header -/

section
variable {s t : State} {f : Wire.HeaderFields} {rest : Bytes}

/-- DEC_HDR of a laid-out header of an accepted version looks at EXACT last (42_header_codec R150). -/
theorem execDecHdr_of_header (hlen : s.ilen.toNat ≤ Config.cap)
    (hin : s.wireInput = Wire.header (s.ctrl.getLsbD 0) f ++ rest) (hv : s.AcceptsVersion f.mf) :
    execDecHdr s =
      if s.ctrl.getLsbD 1 = true ∧ rest ≠ [] then
        .next (s.raise ⟨.trailingBytes, (Wire.header (s.ctrl.getLsbD 0) f).length⟩)
      else .next ((hdrCommit (parsedHeader (s.ctrl.getLsbD 0) f) s).succeedAt
        (Wire.header (s.ctrl.getLsbD 0) f).length) := by
  have hfits := header_fits hin
  have hrest : (Wire.header (s.ctrl.getLsbD 0) f).length = s.ilen.toNat ↔ rest = [] := by
    rw [← List.length_eq_zero_iff]
    omega
  rw [execDecHdr_eq hlen, hdrParse_wireInput hin hv]
  simp only [Bool.and_eq_true, bne_iff_ne, Ne, hrest]

theorem header_length_le_cap (hlen : s.ilen.toNat ≤ Config.cap)
    (hin : s.wireInput = Wire.header (s.ctrl.getLsbD 0) f ++ rest) :
    (Wire.header (s.ctrl.getLsbD 0) f).length ≤ Config.cap := by
  have := header_fits hin
  omega

/-- A DEC_HDR that nothing stops loads the fields of the header and its tags, and touches nothing else
(42_header_codec R149). -/
theorem execDecHdr_loads (hlen : s.ilen.toNat ≤ Config.cap)
    (hin : s.wireInput = Wire.header (s.ctrl.getLsbD 0) f ++ rest) (hv : s.AcceptsVersion f.mf)
    (hexact : s.ctrl.getLsbD 1 = true → rest = []) :
    ∃ t, execDecHdr s = .next t ∧ t.headerFields = f.decoded (s.ctrl.getLsbD 0) ∧
      t.tag = Wire.headerTag (s.ctrl.getLsbD 0) f s.tag ∧
      t.pos.toNat = (Wire.header (s.ctrl.getLsbD 0) f).length ∧ t.status = 0x00#8 ∧
      SameBytesFrom .mxb t.mxlen.toNat t s ∧ (t.withHeaderOf s).withOutcomeOf s = s := by
  have hfits := header_length_le_cap hlen hin
  have hcap := Config.cap_le
  obtain ⟨hfields, htag, hmxb, hframe⟩ := hdrCommit_spec (s.ctrl.getLsbD 0) f s
    (mx_length_lt (stream := s.ctrl.getLsbD 0) (by omega))
  refine ⟨_, (execDecHdr_of_header hlen hin hv).trans (if_neg fun ⟨hset, hne⟩ => hne (hexact hset)),
    (State.succeedAt_headerFields _ _).trans hfields, htag, toNat_ofNat_of_le_cap hfits, rfl,
    fun a ha => hmxb a ((State.mxlen_of_headerFields hfields).symm.trans_le ha), ?_⟩
  exact congrArg (·.withOutcomeOf s) hframe

/-- What a DEC_HDR that ends with OK says of its input and leaves behind. -/
theorem execDecHdr_ok (h : execDecHdr s = .next t) (hok : t.status = 0x00#8) :
    ∃ f rest, s.ilen.toNat ≤ Config.cap ∧ s.wireInput = Wire.header (s.ctrl.getLsbD 0) f ++ rest ∧
      t.DecodedHeader s (s.ctrl.getLsbD 0) f ∧ t.ctrl = s.ctrl ∧
      t.pos.toNat = (Wire.header (s.ctrl.getLsbD 0) f).length := by
  obtain ⟨-, hx⟩ | ⟨-, e, -, hx⟩ | ⟨hlen, f, rest, hin, -, hmx, -, -, -, -, ⟨-, -, hx⟩ | ⟨-, hx⟩⟩ :=
    execDecHdr_cases s <;> cases hx.symm.trans h
  · exact absurd hok (State.raise_status_ne_ok _ s)
  · exact absurd hok (State.raise_status_ne_ok _ s)
  · exact absurd hok (State.raise_status_ne_ok _ s)
  · exact ⟨f, rest, hlen, hin, hdrCommit_decoded _ hmx s _, hdrCommit_ctrl _ s,
      toNat_ofNat_of_le_cap (header_length_le_cap hlen hin)⟩

end

/-- Settles O32: the parse reads the header back, and the commit writes what it has read. -/
theorem decHdrReadsTheHeader : Obligations.DecHdrReadsTheHeader :=
  ⟨spellsPlain_of_encode rfl rfl, fun _ _ _ hlen hin hv hexact => execDecHdr_loads hlen hin hv hexact⟩

/-! ### DEC_HDR of any other input -/

theorem execDecHdr_of_error {s : State} {e : CodecError} (hlen : s.ilen.toNat ≤ Config.cap)
    (h : hdrParse (s.ctrl.getLsbD 0) s.vermask s.wireInput = .error e) :
    execDecHdr s = .next (s.raise e) := by
  rw [execDecHdr_eq hlen, h]

theorem execDecMsg_of_error {s : State} {e : CodecError} (hlen : s.ilen.toNat ≤ Config.cap)
    (h : hdrParse (s.ctrl.getLsbD 0) s.vermask s.wireInput = .error e) :
    execDecMsg s = .next (s.raise e) := by
  rw [execDecMsg_eq hlen, h]

/-- Settles O33: the parse stops at the first field that does not fit, before the Message Flags byte whatever its
version and behind it because VERMASK accepts it. -/
theorem decHdrTruncation : Obligations.DecHdrTruncation := by
  intro s f hlen hmx hin hcut hreach
  refine execDecHdr_of_error (e := ⟨.truncatedInput, _⟩) hlen ?_
  rw [← s.wireInput_length] at hin hcut hreach ⊢
  obtain hshort | hv := hreach
  · exact hdrParse_short hshort
  · exact hdrParse_cut hin hcut hv fun _ => hmx

end Sys2Proof.Machine
end

section
/-! PROOFS. The version test of a decode (42_header_codec R145; 60_exceptions R206): where it fails, and that no other
command ends with UnsupportedVersion. -/

namespace Sys2Proof.Machine

/-! ### The version test -/

theorem hdrParse_refused {s : State} {len : BitVec 16} {mf : Byte} {rest : Bytes}
    (hin : s.wireInput = (if s.ctrl.getLsbD 0 then Wire.u16 len else []) ++ [mf] ++ rest)
    (hv : ¬ s.AcceptsVersion mf) :
    hdrParse (s.ctrl.getLsbD 0) s.vermask s.wireInput =
      .error ⟨.unsupportedVersion, messageFlagsAt (s.ctrl.getLsbD 0)⟩ :=
  hdrParse_version hin (Bool.not_eq_true _ ▸ hv)

/-- UnsupportedVersion at the Message Flags byte, as STATUS and POS show it (60_exceptions R200). -/
theorem raise_unsupportedVersion (s : State) (stream : Bool) :
    s.raise ⟨.unsupportedVersion, messageFlagsAt stream⟩ =
      { s with status := 0x06#8, pos := if stream then 2#16 else 0#16 } := by
  cases stream <;> rfl

/-- A parse that ends with UnsupportedVersion has met a refused Message Flags byte, in IBUF at its offset
(42_header_codec R145). -/
theorem not_acceptsVersion_of_hdrParse {s : State} {e : CodecError}
    (h : hdrParse (s.ctrl.getLsbD 0) s.vermask s.wireInput = .error e) (hk : e.kind = .unsupportedVersion) :
    ¬ s.AcceptsVersion (s.readByte .ibuf (messageFlagsAt (s.ctrl.getLsbD 0))) := by
  obtain ⟨ht | ⟨rfl, mf, rest, hdrop, hv⟩, -⟩ := hdrParse_error h
  · rw [ht] at hk
    cases hk
  · have hat : s.wireInput[messageFlagsAt (s.ctrl.getLsbD 0)]? = some mf := by
      rw [← List.head?_drop]
      exact congrArg List.head? hdrop
    rw [State.readByte_ibuf_of_wireInput (List.append_nil _).symm hat]
    exact Bool.not_eq_true _ ▸ hv

/-! ### The commands that end with UnsupportedVersion -/

section
variable {s t : State}

/-- An error shows in STATUS as its kind (60_exceptions R200). -/
theorem kind_of_raise_status {e : CodecError} {k : ErrorKind} (h : (s.raise e).status = k.code) :
    e.kind = k :=
  ErrorKind.code_inj h

/-- An encode ends with OK or OutputOverflow (42_header_codec R142). -/
theorem State.emit_status (out : Bytes) :
    (s.emit out).status = 0x00#8 ∨ (s.emit out).status = ErrorKind.outputOverflow.code := by
  by_cases hfits : out.length ≤ Config.cap
  · rw [State.emit_of_fits hfits]
    exact .inl rfl
  · rw [State.emit_of_long (Nat.lt_of_not_le hfits)]
    exact .inr rfl

/-- Every encode ends by emitting bytes, or with one of two errors (42_header_codec R142, R143; 43 R161, R162;
44_message_assembly R180). -/
theorem exec_encode_ends {i : Instr} (hi : i = .encHdr ∨ i = .encPm ∨ i = .encMsg) (h : exec i s = .next t) :
    (∃ u out, t = State.emit out u) ∨ t = s.raise ⟨.invariantViolation, 0⟩ ∨
      t = s.raise ⟨.outputOverflow, 0⟩ := by
  obtain rfl | rfl | rfl := hi
  · by_cases hc : s.HeaderConsistent
    · cases (execEncHdr_of_consistent hc).symm.trans h
      exact .inl ⟨s, _, rfl⟩
    · cases (execEncHdr_of_inconsistent hc).symm.trans h
      exact .inr (.inl rfl)
  · by_cases hc : s.PmConsistent
    · cases (execEncPm_of_consistent hc).symm.trans h
      exact .inl ⟨s, _, rfl⟩
    · cases (execEncPm_of_inconsistent hc).symm.trans h
      exact .inr (.inl rfl)
  · obtain ⟨-, hx⟩ | ⟨-, -, hx⟩ | ⟨-, -, -, hx⟩ := execEncMsg_cases s <;> cases hx.symm.trans h
    · exact .inr (.inl rfl)
    · exact .inr (.inr rfl)
    · exact .inl ⟨_, _, rfl⟩

theorem exec_encode_not_unsupported {i : Instr} (hi : i = .encHdr ∨ i = .encPm ∨ i = .encMsg)
    (h : exec i s = .next t) : t.status ≠ ErrorKind.unsupportedVersion.code := by
  obtain ⟨u, out, rfl⟩ | rfl | rfl := exec_encode_ends hi h
  · obtain hok | hlong := u.emit_status out
    · rw [hok]
      decide
    · rw [hlong]
      decide
  · exact fun hst => by cases kind_of_raise_status hst
  · exact fun hst => by cases kind_of_raise_status hst

theorem execDecPm_not_unsupported (h : execDecPm s = .next t) : t.status ≠ ErrorKind.unsupportedVersion.code := by
  obtain ⟨-, hx⟩ | ⟨-, e, he, hx⟩ | ⟨-, g, -, -, -, -, -, hx⟩ := execDecPm_cases s <;> cases hx.symm.trans h
  · exact fun hst => by cases kind_of_raise_status hst
  · intro hst
    have hk := kind_of_raise_status hst
    rw [(pmParse_error he).1] at hk
    cases hk
  · exact (ErrorKind.code_ne_ok _).symm

theorem execDecHdr_unsupported (h : execDecHdr s = .next t)
    (hst : t.status = ErrorKind.unsupportedVersion.code) :
    ∃ e, hdrParse (s.ctrl.getLsbD 0) s.vermask s.wireInput = .error e ∧ e.kind = .unsupportedVersion := by
  obtain ⟨-, hx⟩ | ⟨-, e, he, hx⟩ | ⟨-, f, rest, -, -, -, -, -, -, -, ⟨-, -, hx⟩ | ⟨-, hx⟩⟩ :=
    execDecHdr_cases s <;> cases hx.symm.trans h
  · cases kind_of_raise_status hst
  · exact ⟨e, he, kind_of_raise_status hst⟩
  · cases kind_of_raise_status hst
  · cases hst

theorem execDecMsg_unsupported (h : execDecMsg s = .next t)
    (hst : t.status = ErrorKind.unsupportedVersion.code) :
    ∃ e, hdrParse (s.ctrl.getLsbD 0) s.vermask s.wireInput = .error e ∧ e.kind = .unsupportedVersion := by
  obtain ⟨-, hx⟩ | ⟨-, e, he, hx⟩ | ⟨-, f, rest, -, -, -, -, -, -, -, hstages⟩ := execDecMsg_cases s
  · cases hx.symm.trans h
    cases kind_of_raise_status hst
  · cases hx.symm.trans h
    exact ⟨e, he, kind_of_raise_status hst⟩
  obtain ⟨-, hx⟩ | ⟨ct, mic, -, -, ⟨-, -, hx⟩ | ⟨-, hx⟩⟩ := hstages
  · cases hx.symm.trans h
    cases kind_of_raise_status hst
  · cases hx.symm.trans h
    cases kind_of_raise_status hst
  rw [hx] at h
  obtain ⟨k, hk, hy⟩ | ⟨g, -, -, -, -, -, -, hy⟩ := decMsgFinish_cases _ _ mic _ _ <;>
    cases hy.symm.trans h
  · cases (kind_of_raise_status hst : k = .unsupportedVersion)
    obtain ⟨hk, -⟩ | ⟨hk, -⟩ | ⟨hk, -⟩ := hk <;> cases hk
  · cases hst

/-- UnsupportedVersion is an outcome of the header parse of DEC_HDR and DEC_MSG alone (60_exceptions R206). -/
theorem exec_unsupported {i : Instr} (h : exec i s = .next t)
    (hst : t.status = ErrorKind.unsupportedVersion.code) :
    (i = .decHdr ∨ i = .decMsg) ∧
      ∃ e, hdrParse (s.ctrl.getLsbD 0) s.vermask s.wireInput = .error e ∧ e.kind = .unsupportedVersion := by
  cases hi : isCodec i with
  | false =>
    obtain ⟨ht, -⟩ := exec_plain hi h
    rw [ht] at hst
    cases hst
  | true =>
    obtain rfl | rfl | rfl | rfl | rfl | rfl := codec_cases hi
    · exact absurd hst (exec_encode_not_unsupported (.inl rfl) h)
    · exact ⟨.inl rfl, execDecHdr_unsupported h hst⟩
    · exact absurd hst (exec_encode_not_unsupported (.inr (.inl rfl)) h)
    · exact absurd hst (execDecPm_not_unsupported h)
    · exact absurd hst (exec_encode_not_unsupported (.inr (.inr rfl)) h)
    · exact ⟨.inr rfl, execDecMsg_unsupported h hst⟩

/-- An input that does not reach the Message Flags byte is TruncatedInput (42_header_codec R145). -/
theorem execDecHdr_of_no_flags (h : s.ilen.toNat ≤ messageFlagsAt (s.ctrl.getLsbD 0)) :
    ∃ t, execDecHdr s = .next t ∧ t.status = 0x01#8 := by
  have hlen : s.ilen.toNat ≤ Config.cap := by
    have := Config.cap_ge
    unfold messageFlagsAt at h
    split at h <;> omega
  rw [← s.wireInput_length] at h
  exact ⟨_, execDecHdr_of_error hlen (hdrParse_short (f := s.headerFields) h), rfl⟩

end

/-- Settles O34: the test stands directly behind the Message Flags byte, and only the two decodes that parse a header
make it. -/
theorem versionCheck : Obligations.VersionCheck := by
  refine fun s => ⟨fun len mf rest hlen hin hv => ?_, fun i t h hst => ?_, execDecHdr_of_no_flags,
    fun hmask mf => ?_⟩
  · rw [← raise_unsupportedVersion]
    have hparse := hdrParse_refused hin hv
    exact ⟨execDecHdr_of_error hlen hparse, execDecMsg_of_error hlen hparse⟩
  · obtain ⟨hi, e, he, hk⟩ := exec_unsupported h hst
    exact ⟨hi, not_acceptsVersion_of_hdrParse he hk⟩
  · unfold State.AcceptsVersion
    rw [hmask]
    exact accepts_every_version mf

end Sys2Proof.Machine
end

section
/-! PROOFS. Bytes behind the header (42_header_codec R150): DEC_HDR leaves them unread or, with EXACT set, refuses them,
and no other command looks at EXACT. -/

namespace Sys2Proof.Machine

/-! ### Another CTRL -/

/-- The state with another value in CTRL. -/
def State.withCtrl (s : State) (c : BitVec 8) : State := { s with ctrl := c }

/-- A command answers alike with another value in CTRL, which it leaves there. -/
def SameUnderCtrl (c : BitVec 8) (r r' : Result) : Prop :=
  ∃ t, r = .next t ∧ r' = .next (t.withCtrl c)

theorem SameUnderCtrl.next (c : BitVec 8) (t : State) : SameUnderCtrl c (.next t) (.next (t.withCtrl c)) :=
  ⟨t, rfl, rfl⟩

section
variable (s : State) (c : BitVec 8)

@[simp] theorem State.withCtrl_ctrl : (s.withCtrl c).ctrl = c := rfl

@[simp] theorem State.withCtrl_vermask : (s.withCtrl c).vermask = s.vermask := rfl

@[simp] theorem State.withCtrl_miclen : (s.withCtrl c).miclen = s.miclen := rfl

@[simp] theorem State.withCtrl_ilen : (s.withCtrl c).ilen = s.ilen := rfl

@[simp] theorem State.withCtrl_verifyAnswerTo (k : Nat) (hdr ct mic : Bytes) :
    (s.withCtrl c).verifyAnswerTo k hdr ct mic = s.verifyAnswerTo k hdr ct mic := rfl

@[simp] theorem State.withCtrl_decryptAnswerTo (k : Nat) (ct : Bytes) :
    (s.withCtrl c).decryptAnswerTo k ct = s.decryptAnswerTo k ct := rfl

@[simp] theorem State.withCtrl_memRead (b : BufId) (a n : Nat) :
    (s.withCtrl c).memRead b a n = s.memRead b a n :=
  State.memRead_of_buf (s := s.withCtrl c) (t := s) rfl rfl a n

@[simp] theorem State.withCtrl_wireInput : (s.withCtrl c).wireInput = s.wireInput :=
  s.withCtrl_memRead c .ibuf 0 _

@[simp] theorem State.withCtrl_wirePm : (s.withCtrl c).wirePm = s.wirePm :=
  congrArg Wire.pm (State.pmFields_congr (s := s.withCtrl c) (t := s) rfl rfl)

theorem State.withCtrl_emit (out : Bytes) : (s.withCtrl c).emit out = (s.emit out).withCtrl c := by
  by_cases hlong : Config.cap < out.length
  · rw [State.emit_of_long hlong, State.emit_of_long hlong]
    rfl
  · rw [State.emit_of_fits (Nat.le_of_not_lt hlong), State.emit_of_fits (Nat.le_of_not_lt hlong)]
    rfl

theorem pmCommit_withCtrl (m : ProtocolMessage) :
    pmCommit m (s.withCtrl c) = (pmCommit m s).withCtrl c := by
  unfold pmCommit State.commitBlock
  cases m.sxV <;> rfl

theorem msgCommit_withCtrl (h : Header) (m : ProtocolMessage) (mic : Bytes) :
    msgCommit h m mic (s.withCtrl c) = (msgCommit h m mic s).withCtrl c := by
  have hhdr : hdrCommit h (s.withCtrl c) = (hdrCommit h s).withCtrl c := by
    unfold hdrCommit State.commitBlock
    cases h.mxV <;> rfl
  unfold msgCommit
  rw [hhdr, pmCommit_withCtrl]
  rfl

theorem SameUnderCtrl.emit (out : Bytes) :
    SameUnderCtrl c (.next (s.emit out)) (.next ((s.withCtrl c).emit out)) := by
  rw [State.withCtrl_emit]
  exact .next c _

/-! ### Commands that read no mode bit -/

theorem exec_sameUnderCtrl_of_not_codec {i : Instr} (hi : isCodec i = false) :
    SameUnderCtrl c (exec i s) (exec i (s.withCtrl c)) := by
  cases i with
  | encHdr | decHdr | encPm | decPm | encMsg | decMsg => contradiction
  | _ => exact .next c _

theorem execEncPm_sameUnderCtrl : SameUnderCtrl c (execEncPm s) (execEncPm (s.withCtrl c)) := by
  by_cases hc : s.PmConsistent
  · rw [execEncPm_of_consistent hc, execEncPm_of_consistent (s := s.withCtrl c) hc, State.withCtrl_wirePm]
    exact .emit s c _
  · rw [execEncPm_of_inconsistent hc, execEncPm_of_inconsistent (s := s.withCtrl c) hc]
    exact .next c _

theorem execDecPm_sameUnderCtrl : SameUnderCtrl c (execDecPm s) (execDecPm (s.withCtrl c)) := by
  by_cases hlen : s.ilen.toNat ≤ Config.cap
  · rw [execDecPm_eq hlen, execDecPm_eq (s := s.withCtrl c) hlen, State.withCtrl_wireInput]
    rcases pmParse s.wireInput with e | m
    · exact .next c _
    · simp only [pmCommit_withCtrl]
      exact .next c _
  · rw [execDecPm_of_long (Nat.lt_of_not_le hlen),
      execDecPm_of_long (s := s.withCtrl c) (Nat.lt_of_not_le hlen)]
    exact .next c _

theorem decMsgFinish_sameUnderCtrl (h : Header) (p : Nat) (mic : Bytes) (r : Option Bytes) :
    SameUnderCtrl c (decMsgFinish h p mic r s) (decMsgFinish h p mic r (s.withCtrl c)) := by
  obtain ⟨k, hx⟩ | ⟨m, -, hx⟩ := decMsgFinish_uniform h p mic r
  · rw [hx, hx]
    exact .next c _
  · rw [hx, hx, msgCommit_withCtrl]
    exact .next c _

end

/-! ### Commands that read STREAM or SECURE -/

section
variable {s : State} {c : BitVec 8}

theorem State.withCtrl_wireHeader (hstream : c.getLsbD 0 = s.ctrl.getLsbD 0) :
    (s.withCtrl c).wireHeader = s.wireHeader := by
  unfold State.wireHeader
  rw [State.headerFields_congr (s := s.withCtrl c) (t := s) rfl rfl, State.withCtrl_ctrl, hstream]

theorem hdrCheck_withCtrl (hstream : c.getLsbD 0 = s.ctrl.getLsbD 0) :
    hdrCheck (s.withCtrl c) = hdrCheck s := by
  unfold hdrCheck State.stream
  rw [State.withCtrl_ctrl, hstream]
  rfl

theorem State.withCtrl_footerSize (hsecure : c.getLsbD 2 = s.ctrl.getLsbD 2) :
    (s.withCtrl c).footerSize = s.footerSize := by
  unfold State.footerSize
  rw [State.withCtrl_ctrl, hsecure]
  rfl

theorem State.withCtrl_verifyCount (hsecure : c.getLsbD 2 = s.ctrl.getLsbD 2) :
    (s.withCtrl c).verifyCount = s.verifyCount := by
  unfold State.verifyCount
  rw [State.withCtrl_ctrl, hsecure]

theorem State.withCtrl_verifyCalled (hsecure : c.getLsbD 2 = s.ctrl.getLsbD 2) (hdr ct mic : Bytes) :
    (s.withCtrl c).verifyCalled hdr ct mic = (s.verifyCalled hdr ct mic).withCtrl c := by
  unfold State.verifyCalled
  rw [State.withCtrl_ctrl, hsecure]
  split
  next => rfl
  next => rfl

theorem ftrCheck_withCtrl (hsecure : c.getLsbD 2 = s.ctrl.getLsbD 2) :
    ftrCheck (s.withCtrl c) = ftrCheck s := by
  unfold ftrCheck
  rw [show (s.withCtrl c).footerLength = s.footerLength from State.withCtrl_footerSize hsecure]
  rfl

theorem execEncHdr_sameUnderCtrl (hstream : c.getLsbD 0 = s.ctrl.getLsbD 0) :
    SameUnderCtrl c (execEncHdr s) (execEncHdr (s.withCtrl c)) := by
  unfold execEncHdr
  simp only [hdrBytes_wire, State.withCtrl_wireHeader hstream, hdrCheck_withCtrl hstream]
  split
  next => exact .emit s c _
  next => exact .next c _

variable (hstream : c.getLsbD 0 = s.ctrl.getLsbD 0) (hsecure : c.getLsbD 2 = s.ctrl.getLsbD 2)
include hstream hsecure

theorem execEncMsg_sameUnderCtrl : SameUnderCtrl c (execEncMsg s) (execEncMsg (s.withCtrl c)) := by
  unfold execEncMsg
  rw [hdrCheck_withCtrl hstream, show pmCheck (s.withCtrl c) = pmCheck s from rfl,
    ftrCheck_withCtrl hsecure]
  simp only [hdrBytes_wire, pmBytes_wire, State.withCtrl_wireHeader hstream, State.withCtrl_wirePm,
    State.withCtrl_memRead, State.withCtrl_miclen]
  split
  next =>
    split
    next => exact .next c _
    next => exact .emit (s.encryptCalled s.wirePm) c _
  next => exact .next c _

theorem execDecMsg_sameUnderCtrl : SameUnderCtrl c (execDecMsg s) (execDecMsg (s.withCtrl c)) := by
  by_cases hlen : s.ilen.toNat ≤ Config.cap
  · rw [execDecMsg_eq hlen, execDecMsg_eq (s := s.withCtrl c) hlen]
    simp only [State.withCtrl_wireInput, State.withCtrl_ctrl, State.withCtrl_vermask, State.withCtrl_ilen,
      State.withCtrl_memRead, State.withCtrl_verifyAnswerTo, State.withCtrl_decryptAnswerTo, hstream, hsecure,
      State.withCtrl_footerSize hsecure, State.withCtrl_verifyCount hsecure,
      State.withCtrl_verifyCalled hsecure]
    rcases hdrParse (s.ctrl.getLsbD 0) s.vermask s.wireInput with e | ⟨h, p⟩
    · exact .next c _
    · simp only
      split
      next => exact .next c _
      next =>
        split
        next => exact .next c _
        next => exact decMsgFinish_sameUnderCtrl (State.decryptCalled (s.verifyCalled _ _ _) _) c h p _ _
  · rw [execDecMsg_of_long (Nat.lt_of_not_le hlen),
      execDecMsg_of_long (s := s.withCtrl c) (Nat.lt_of_not_le hlen)]
    exact .next c _

/-- Of the mode bits, only DEC_HDR reads EXACT (42_header_codec R150, 10_state R34). -/
theorem exec_sameUnderCtrl {i : Instr} (hi : i ≠ .decHdr) :
    SameUnderCtrl c (exec i s) (exec i (s.withCtrl c)) := by
  cases hcodec : isCodec i with
  | false => exact exec_sameUnderCtrl_of_not_codec s c hcodec
  | true =>
    obtain rfl | rfl | rfl | rfl | rfl | rfl := codec_cases hcodec
    · exact execEncHdr_sameUnderCtrl hstream
    · exact absurd rfl hi
    · exact execEncPm_sameUnderCtrl s c
    · exact execDecPm_sameUnderCtrl s c
    · exact execEncMsg_sameUnderCtrl hstream hsecure
    · exact execDecMsg_sameUnderCtrl hstream hsecure

end

/-- Settles O35: EXACT decides only what DEC_HDR makes of the rest of its input. -/
theorem trailingBytesPolicy : Obligations.TrailingBytesPolicy := by
  refine ⟨fun s f rest hlen hin hv hrest => ⟨fun hexact => ?_, fun hexact => ?_⟩,
    fun i s t c hi hagree h => ?_⟩
  · obtain ⟨t, h, hfields, -, hpos, hok, -⟩ :=
      execDecHdr_loads hlen hin hv fun h => absurd (hexact.symm.trans h) Bool.false_ne_true
    exact ⟨t, h, hok, hpos, hfields⟩
  · exact (execDecHdr_of_header hlen hin hv).trans (if_pos ⟨hexact, hrest⟩)
  · obtain ⟨u, hu, hu'⟩ := exec_sameUnderCtrl (hagree 0 (by decide)) (hagree 2 (by decide)) hi
    cases hu.symm.trans h
    exact hu'

end Sys2Proof.Machine
end

section
/-! PROOFS. The header codec round-trips (42_header_codec R151, R152): consistent registers come back from the bytes
that they emit, and the bytes that a decode has taken come back from the registers that it loads. -/

namespace Sys2Proof.Machine

/-! ### From the registers through the bytes -/

/-- The tags of consistent registers are those that a decode of their header sets (42_header_codec R143). -/
theorem State.HeaderConsistent.headerTag_eq {s : State} (hc : s.HeaderConsistent) :
    Wire.headerTag (s.ctrl.getLsbD 0) s.headerFields s.tag = s.tag := by
  obtain ⟨hlen, hsrc, hdst, hmx, -⟩ := hc
  apply BitVec.eq_of_getLsbD_eq
  intro i hi
  rw [headerTag_bit _ _ _ hi, show s.headerFields.mf = s.mf from rfl,
    show s.headerFields.sf = s.sf from rfl, ← hlen, ← hsrc, ← hdst, ← hmx]
  interval_cases i <;> simp

section
variable {s t : State}

/-- DEC_HDR of the wire header of consistent registers, under the settings and tags that they stand under, gives
those registers back, the absent fields 0 (42_header_codec R151). -/
theorem execDecHdr_of_wireHeader (hc : s.HeaderConsistent) (hfits : s.wireHeader.length ≤ Config.cap)
    (hv : s.AcceptsVersion s.mf) (hst : s.sf.extractLsb' 0 2 ≠ 2#2) (hin : t.wireInput = s.wireHeader)
    (hctrl : t.ctrl = s.ctrl) (hvermask : t.vermask = s.vermask) (htag : t.tag = s.tag) :
    ∃ u, execDecHdr t = .next u ∧ u.status = 0x00#8 ∧ u.pos = t.ilen ∧ u.mf = s.mf ∧ u.sf = s.sf ∧
      u.tag = s.tag ∧ u.headerFields = s.headerFields.decoded (s.ctrl.getLsbD 0) := by
  have hlen : t.ilen.toNat = s.wireHeader.length := by rw [← hin, State.wireInput_length]
  have hin' : t.wireInput = Wire.header (t.ctrl.getLsbD 0) s.headerFields ++ [] := by
    rw [hin, hctrl, List.append_nil]
    rfl
  have hv' : t.AcceptsVersion s.headerFields.mf := by
    unfold State.AcceptsVersion
    rwa [hvermask]
  obtain ⟨u, hu, hfields, hutag, hpos, hok, -⟩ :=
    execDecHdr_loads (hlen.trans_le hfits) hin' hv' fun _ => rfl
  rw [hctrl] at hfields hutag hpos
  refine ⟨u, hu, hok, BitVec.eq_of_toNat_eq (hpos.trans hlen.symm), ?_, ?_, ?_, hfields⟩
  · exact congrArg Wire.HeaderFields.mf hfields
  · exact (congrArg Wire.HeaderFields.sf hfields).trans (canonical_of_low hst)
  · rw [hutag, htag, hc.headerTag_eq]

/-- The output is the input when the host has copied it (42_header_codec R151). -/
theorem State.copyOutputToInput_wireInput (s : State) :
    s.copyOutputToInput.wireInput = s.memRead .obuf 0 s.olen.toNat := by
  have hcopy := State.memRead_memWrite_self s .ibuf 0 (s.memRead .obuf 0 s.olen.toNat)
  rw [State.memRead_length] at hcopy
  exact (State.memRead_of_buf (s := s.copyOutputToInput)
    (t := s.memWrite .ibuf 0 (s.memRead .obuf 0 s.olen.toNat)) rfl rfl _ _).trans hcopy

theorem State.copyOutputToInput_emit {out : Bytes} (hfits : out.length ≤ Config.cap) :
    (s.emit out).copyOutputToInput.wireInput = out := by
  obtain ⟨hread, holen, -⟩ := State.emit_spec (s := s) hfits
  rw [State.copyOutputToInput_wireInput, holen, hread]

/-- ENC_HDR leaves the settings, the tags and the bytes with which DEC_HDR loads the same registers
(42_header_codec R151). -/
theorem encHdr_decHdr (hc : s.HeaderConsistent) (hfits : s.wireHeader.length ≤ Config.cap)
    (hv : s.AcceptsVersion s.mf) (hst : s.sf.extractLsb' 0 2 ≠ 2#2) :
    ∃ t u, execEncHdr s = .next t ∧ execDecHdr t.copyOutputToInput = .next u ∧ u.status = 0x00#8 ∧
      u.pos = t.olen ∧ u.mf = s.mf ∧ u.sf = s.sf ∧ u.tag = s.tag ∧
      u.headerFields = s.headerFields.decoded (s.ctrl.getLsbD 0) := by
  have henc := execEncHdr_of_consistent hc
  have hin := State.copyOutputToInput_emit (s := s) hfits
  have hctrl := State.emit_ctrl s.wireHeader s
  have hvermask := State.emit_vermask s.wireHeader s
  have htag := State.emit_tag s.wireHeader s
  generalize s.emit s.wireHeader = t at henc hin hctrl hvermask htag
  obtain ⟨u, hu⟩ := execDecHdr_of_wireHeader hc hfits hv hst hin hctrl hvermask htag
  exact ⟨t, u, henc, hu⟩

/-! ### From the bytes through the registers -/

/-- A decoded header laid out again (42_header_codec R151). -/
theorem State.DecodedHeader.wireHeader_eq {stream : Bool} {f : Wire.HeaderFields}
    (h : t.DecodedHeader s stream f) (hstream : t.ctrl.getLsbD 0 = stream) : t.wireHeader =
      (Wire.header stream f).modify (securityFlagsAt stream) Wire.canonical := by
  rw [State.wireHeader, hstream, h.fields, header_decoded]

/-- An extensions block is a part of its header (30_encoding R61). -/
theorem decoded_mx_length_le (stream : Bool) (f : Wire.HeaderFields) :
    (f.decoded stream).mx.length ≤ (Wire.header stream f).length := by
  rw [header_length]
  unfold Wire.HeaderFields.decoded
  dsimp only
  split
  · omega
  · exact Nat.zero_le _

/-- After a decode the tags agree with STREAM and the flag bytes, and the extensions fit MXB (42_header_codec R149,
R151). -/
theorem State.DecodedHeader.consistent {f : Wire.HeaderFields}
    (h : t.DecodedHeader s (s.ctrl.getLsbD 0) f) (hctrl : t.ctrl = s.ctrl)
    (hfits : (Wire.header (s.ctrl.getLsbD 0) f).length ≤ Config.cap) : t.HeaderConsistent := by
  obtain ⟨hlen, hsrc, hdst, hmx, -⟩ := h.absent
  refine ⟨by rw [hlen, hctrl], hsrc, hdst, hmx, fun _ => ?_⟩
  rw [State.mxlen_of_headerFields h.fields]
  exact (decoded_mx_length_le _ f).trans hfits

/-- What a decode has taken, the encode gives back, but for the Security Flags byte (42_header_codec R151). -/
theorem decHdr_encHdr (h : execDecHdr s = .next t) (hok : t.status = 0x00#8) :
    t.HeaderConsistent ∧ ∃ u, execEncHdr t = .next u ∧ u.status = 0x00#8 ∧ u.olen = t.pos ∧
      ∀ a, a < t.pos.toNat → u.readByte .obuf a =
        if a = securityFlagsAt (s.ctrl.getLsbD 0) then Wire.canonical (s.readByte .ibuf a)
        else s.readByte .ibuf a := by
  obtain ⟨f, rest, hlen, hin, hdec, hctrl, hpos⟩ := execDecHdr_ok h hok
  have hfits := header_length_le_cap hlen hin
  have hc := hdec.consistent hctrl hfits
  have hwire := hdec.wireHeader_eq (by rw [hctrl])
  have hlength : t.wireHeader.length = t.pos.toNat := by rw [hwire, List.length_modify, hpos]
  obtain ⟨hread, holen, -, hstatus, -⟩ := State.emit_spec (s := t) (out := t.wireHeader)
    (by rwa [hlength, hpos])
  refine ⟨hc, _, execEncHdr_of_consistent hc, hstatus, BitVec.eq_of_toNat_eq (holen.trans hlength),
    fun a ha => ?_⟩
  have hbyte := (State.memRead_eq_iff _ _ _ _).1 hread a (by rwa [hlength])
  rw [Nat.zero_add] at hbyte
  have hibuf := State.readByte_ibuf_of_wireInput hin (List.getElem?_eq_getElem (hpos ▸ ha))
  rw [hbyte, hibuf]
  simp only [hwire, List.getElem_modify, eq_comm (a := a)]

end

/-- Settles O36: ENC_HDR leaves what DEC_HDR needs to load the same registers, and DEC_HDR leaves consistent registers
whose wire header is the bytes that it has taken. -/
theorem headerRoundTrip : Obligations.HeaderRoundTrip :=
  ⟨fun _ hc hfits hv hst => encHdr_decHdr hc hfits hv hst, fun _ _ h hok => decHdr_encHdr h hok⟩

/-! ### Presence -/

/-- Settles O37: the flag bytes stand at their offsets in the input, the tags are those of the header read, and its
length is that of the registers' own wire header. -/
theorem headerPresence : Obligations.HeaderPresence := by
  refine ⟨fun s t h hok => ?_, fun s t h hok => ⟨execEncHdr_olen h hok, ?_⟩⟩
  · obtain ⟨f, rest, -, hin, hdec, hctrl, hpos⟩ := execDecHdr_ok h hok
    obtain ⟨hlen, hsrc, hdst, hmx, -⟩ := hdec.absent
    have hmf := State.readByte_ibuf_of_wireInput hin (header_messageFlags _ f)
    have hsf := State.readByte_ibuf_of_wireInput hin (header_securityFlags _ f)
    refine ⟨?_, ?_, ?_, hsrc, hdst, hmx, hlen⟩
    · exact (congrArg Wire.HeaderFields.mf hdec.fields).trans hmf.symm
    · rw [show t.sf = Wire.canonical f.sf from congrArg Wire.HeaderFields.sf hdec.fields,
        canonical_bits _ _ (by decide), ← hsf]
      rfl
    · rw [← t.wireHeader_length, hdec.wireHeader_eq (by rw [hctrl]), List.length_modify, hpos]
  · obtain ⟨-, hfits, rfl⟩ := execEncHdr_ok h hok
    obtain ⟨hread, -⟩ := State.emit_spec (s := s) hfits
    rwa [← s.wireHeader_length]

end Sys2Proof.Machine
end

section
/-! PROOFS. The commands of the Protocol Message codec (43_protocol_message_codec): what ENC_PM emits, what DEC_PM
answers on a laid-out message and on one cut short before its payload, and what its success says of the input. -/

namespace Sys2Proof.Machine

/-! ### ENC_PM -/

/-- Settles O38: consistent registers emit their wire Protocol Message, which OBUF takes when it fits; its length is the
sum of the fields' lengths. -/
theorem encPmEmitsTheMessage : Obligations.EncPmEmitsTheMessage := by
  refine ⟨spellsPlain_of_encode rfl rfl, fun s => ⟨fun hc hfits => ?_, fun hc hlong => ?_, fun hc => ?_,
    s.wirePm_length⟩⟩
  · exact ⟨_, execEncPm_of_consistent hc, State.emit_spec hfits⟩
  · exact (execEncPm_of_consistent hc).trans (congrArg _ (State.emit_of_long hlong))
  · exact execEncPm_of_inconsistent hc

/-! ### DEC_PM -/

/-- An extensions block is a part of its Protocol Message (30_encoding R68). -/
theorem decoded_sx_length_le (g : Wire.PmFields) : g.decoded.sx.length ≤ (Wire.pmHead g).length := by
  rw [pmHead_length]
  unfold Wire.PmFields.decoded
  dsimp only
  split
  next => omega
  next => exact Nat.zero_le _

section
variable {s t : State} {g : Wire.PmFields}

/-- A laid-out Protocol Message takes up the whole input (30_encoding R68). -/
theorem pm_fits (hin : s.wireInput = Wire.pm g) :
    (Wire.pmHead g).length + g.pay.length = s.ilen.toNat := by
  rw [← State.wireInput_length, hin, Wire.pm, List.length_append]

/-- DEC_PM of a laid-out Protocol Message commits its fields (43_protocol_message_codec R163). -/
theorem execDecPm_of_pm (hlen : s.ilen.toNat ≤ Config.cap) (hin : s.wireInput = Wire.pm g) :
    execDecPm s = .next ((pmCommit (parsedPm g) s).succeedAt s.ilen.toNat) := by
  rw [execDecPm_eq hlen, pmParse_bytes (s.wireInput_length.trans_le hlen) hin]

theorem execDecPm_of_error {e : CodecError} (hlen : s.ilen.toNat ≤ Config.cap)
    (h : pmParse s.wireInput = .error e) : execDecPm s = .next (s.raise e) := by
  rw [execDecPm_eq hlen, h]

/-- DEC_PM of a laid-out Protocol Message loads its fields and its tags, and touches nothing else
(43_protocol_message_codec R163). -/
theorem execDecPm_loads (hlen : s.ilen.toNat ≤ Config.cap) (hin : s.wireInput = Wire.pm g) :
    ∃ t, execDecPm s = .next t ∧ t.pmFields = g.decoded ∧ t.tag = Wire.pmTag g s.tag ∧
      t.pos = s.ilen ∧ t.status = 0x00#8 ∧ SameBytesFrom .sxb t.sxlen.toNat t s ∧
      SameBytesFrom .pay t.paylen.toNat t s ∧ (t.withPmOf s).withOutcomeOf s = s := by
  have hfits := pm_fits hin
  have hcap := Config.cap_le
  obtain ⟨hfields, htag, hsxb, hpay, hframe⟩ :=
    pmCommit_spec g s (sx_length_lt (by omega)) (by omega)
  refine ⟨_, execDecPm_of_pm hlen hin, (State.succeedAt_pmFields _ _).trans hfields, htag,
    (BitVec.ofNat_toNat 16 s.ilen).trans (BitVec.setWidth_eq _), rfl,
    fun a ha => hsxb a ((State.sxlen_of_pmFields hfields).symm.trans_le ha),
    fun a ha => hpay a ((State.paylen_of_pmFields hfields).symm.trans_le ha), ?_⟩
  exact congrArg (·.withOutcomeOf s) hframe

/-- What a DEC_PM that ends with OK says of its input and leaves behind. -/
theorem execDecPm_ok (h : execDecPm s = .next t) (hok : t.status = 0x00#8) :
    ∃ g, s.ilen.toNat ≤ Config.cap ∧ s.wireInput = Wire.pm g ∧ t.DecodedPm s g := by
  obtain ⟨-, hx⟩ | ⟨-, e, -, hx⟩ | ⟨hlen, g, hin, hsx, -, -, -, hx⟩ :=
    execDecPm_cases s <;> cases hx.symm.trans h
  · exact absurd hok (State.raise_status_ne_ok _ s)
  · exact absurd hok (State.raise_status_ne_ok _ s)
  · have hpay : g.pay.length < 65536 := pay_length_lt (by rwa [← hin, State.wireInput_length])
    exact ⟨g, hlen, hin, pmCommit_decoded hsx hpay s _⟩

end

/-- Settles O39: the parse reads a laid-out message back and the commit writes what it has read; on a message cut short
before its payload the parse stops at the first field that does not fit. -/
theorem decPmReadsTheMessage : Obligations.DecPmReadsTheMessage := by
  refine ⟨spellsPlain_of_encode rfl rfl, fun s f hlen => ⟨execDecPm_loads hlen, fun hin hcut hsx => ?_⟩⟩
  refine execDecPm_of_error (e := ⟨.truncatedInput, _⟩) hlen ?_
  rw [← s.wireInput_length] at hin hcut ⊢
  exact pmParse_cut hin hcut fun _ => hsx

end Sys2Proof.Machine
end

section
/-! PROOFS. The Protocol Message codec round-trips (43_protocol_message_codec R166): consistent registers come back from
the bytes that they emit, and the bytes that a decode has taken come back, every one, from the registers that it
loads. -/

namespace Sys2Proof.Machine

section
variable {s t : State} {g : Wire.PmFields}

/-! ### From the registers through the bytes -/

/-- The tags of consistent registers are those that a decode of their Protocol Message sets
(43_protocol_message_codec R162). -/
theorem State.PmConsistent.pmTag_eq (hc : s.PmConsistent) : Wire.pmTag s.pmFields s.tag = s.tag := by
  obtain ⟨hvid, hack, hsx, -⟩ := hc
  apply BitVec.eq_of_getLsbD_eq
  intro i hi
  rw [pmTag_bit _ _ hi, show s.pmFields.xf = s.xf from rfl, ← hvid, ← hack, ← hsx]
  split_ifs with h₅ h₆ h₇
  · rw [h₅]
  · rw [h₆]
  · rw [h₇]
  · rfl

/-- DEC_PM of the wire Protocol Message of consistent registers, under the tags that they stand under, gives those
registers back, the absent fields 0 (43_protocol_message_codec R166). -/
theorem execDecPm_of_wirePm (hc : s.PmConsistent) (hfits : s.wirePm.length ≤ Config.cap)
    (hin : t.wireInput = s.wirePm) (htag : t.tag = s.tag) :
    ∃ u, execDecPm t = .next u ∧ u.status = 0x00#8 ∧ u.pos = t.ilen ∧ u.xf = s.xf ∧ u.tag = s.tag ∧
      u.pmFields = s.pmFields.decoded := by
  have hlen : t.ilen.toNat ≤ Config.cap := by rwa [← State.wireInput_length, hin]
  obtain ⟨u, hu, hfields, hutag, hpos, hok, -⟩ := execDecPm_loads (g := s.pmFields) hlen hin
  exact ⟨u, hu, hok, hpos, congrArg Wire.PmFields.xf hfields,
    by rw [hutag, htag, hc.pmTag_eq], hfields⟩

/-- ENC_PM leaves the tags and the bytes with which DEC_PM loads the same registers (43_protocol_message_codec R166). -/
theorem encPm_decPm (hc : s.PmConsistent) (hfits : s.wirePm.length ≤ Config.cap) :
    ∃ t u, execEncPm s = .next t ∧ execDecPm t.copyOutputToInput = .next u ∧ u.status = 0x00#8 ∧
      u.pos = t.olen ∧ u.xf = s.xf ∧ u.tag = s.tag ∧ u.pmFields = s.pmFields.decoded := by
  have henc := execEncPm_of_consistent hc
  have hin := State.copyOutputToInput_emit (s := s) hfits
  have htag := State.emit_tag s.wirePm s
  generalize s.emit s.wirePm = t at henc hin htag
  obtain ⟨u, hu⟩ := execDecPm_of_wirePm hc hfits hin htag
  exact ⟨t, u, henc, hu⟩

/-! ### From the bytes through the registers -/

/-- The decoded fields laid out again are the same bytes (43_protocol_message_codec R166). -/
theorem pm_decoded (g : Wire.PmFields) : Wire.pm g.decoded = Wire.pm g := by
  unfold Wire.pm Wire.pmHead Wire.PmFields.decoded
  simp only [absent_not_on_wire]

/-- A decoded Protocol Message laid out again (43_protocol_message_codec R166). -/
theorem State.DecodedPm.wirePm_eq (h : t.DecodedPm s g) : t.wirePm = Wire.pm g := by
  rw [State.wirePm, h.fields, pm_decoded]

/-- After a decode the tags agree with the Exchange Flags byte, and the two blocks fit SXB and PAY
(43_protocol_message_codec R162, R163). -/
theorem State.DecodedPm.consistent (h : t.DecodedPm s g) (hfits : (Wire.pm g).length ≤ Config.cap) :
    t.PmConsistent := by
  obtain ⟨hvid, hack, hsx, -⟩ := h.absent
  rw [Wire.pm, List.length_append] at hfits
  refine ⟨hvid, hack, hsx, fun _ => ?_, ?_⟩
  · have hblock := decoded_sx_length_le g
    rw [State.sxlen_of_pmFields h.fields]
    omega
  · rw [State.paylen_of_pmFields h.fields, show g.decoded.pay = g.pay from rfl]
    omega

/-- What a decode has taken, the encode gives back (43_protocol_message_codec R166). -/
theorem State.DecodedPm.encPm (h : t.DecodedPm s g) (hlen : s.ilen.toNat ≤ Config.cap)
    (hin : s.wireInput = Wire.pm g) :
    ∃ u, execEncPm t = .next u ∧ u.status = 0x00#8 ∧ u.olen = s.ilen ∧
      u.memRead .obuf 0 s.ilen.toNat = s.wireInput := by
  have hwire : t.wirePm = s.wireInput := h.wirePm_eq.trans hin.symm
  have hfits : s.wireInput.length ≤ Config.cap := by rwa [State.wireInput_length]
  have henc := execEncPm_of_consistent (h.consistent (hin ▸ hfits))
  obtain ⟨hread, holen, -, hok, -⟩ := State.emit_spec (s := t) hfits
  rw [State.wireInput_length] at hread holen
  rw [hwire] at henc
  exact ⟨_, henc, hok, BitVec.eq_of_toNat_eq holen, hread⟩

/-- The payload is what the fields before it leave of the input (43_protocol_message_codec R165, R166). -/
theorem State.DecodedPm.paylen_eq (h : t.DecodedPm s g) (hin : s.wireInput = Wire.pm g) :
    t.paylen.toNat = s.ilen.toNat - (6 + (if t.xf.getLsbD 4 then 2 else 0)
      + (if t.xf.getLsbD 1 then 4 else 0) + (if t.xf.getLsbD 3 then 2 + t.sxlen.toNat else 0)) := by
  have hplen : t.plen = s.ilen.toNat := by
    rw [← State.wirePm_length, h.wirePm_eq, ← hin, State.wireInput_length]
  rw [← hplen, State.plen, Nat.add_sub_cancel_left]

/-- A decode loads the Exchange Flags from the first byte of the input (43_protocol_message_codec R163). -/
theorem State.DecodedPm.xf_eq (h : t.DecodedPm s g) (hin : s.wireInput = Wire.pm g) :
    t.xf = s.readByte .ibuf 0 := by
  have hxf : t.xf = g.xf := congrArg Wire.PmFields.xf h.fields
  have hfirst : (Wire.pmHead g)[0]? = some g.xf := rfl
  rw [hxf, State.readByte_ibuf_of_wireInput hin hfirst]

end

/-- Settles O40: ENC_PM leaves what DEC_PM needs to load the same registers, and DEC_PM leaves consistent registers
whose wire Protocol Message is the bytes that it has taken. -/
theorem pmRoundTrip : Obligations.PmRoundTrip := by
  refine ⟨fun s hc hfits => encPm_decPm hc hfits, fun s t h hok => ?_⟩
  obtain ⟨g, hlen, hin, hdec⟩ := execDecPm_ok h hok
  obtain ⟨hvid, hack, hsx, -⟩ := hdec.absent
  exact ⟨hdec.encPm hlen hin, hdec.xf_eq hin, hvid, hack, hsx, hdec.paylen_eq hin⟩

end Sys2Proof.Machine
end

section
/-! PROOFS. ENC_MSG (44_message_assembly R179, R180): when it makes its call, and what the answer gets it to emit. -/

namespace Sys2Proof.Machine

/-- What ENC_MSG assembles: the header, the answer of `encrypt` and the integrity check (44_message_assembly R180). -/
def State.wireMessage (s : State) : Bytes :=
  s.wireHeader ++ s.encryptAnswerTo s.wirePm ++ s.micBytes

section
variable {s t : State}

/-- With every check passed ENC_MSG calls `encrypt` and emits the message (44_message_assembly R180). -/
theorem execEncMsg_of_consistent (hc : s.HeaderConsistent ∧ s.PmConsistent ∧ s.FooterConsistent)
    (hhdr : s.wireHeader.length ≤ Config.cap) (hpm : s.wirePm.length ≤ Config.cap) :
    execEncMsg s = .next ((s.encryptCalled s.wirePm).emit s.wireMessage) := by
  obtain ⟨hn, -⟩ | ⟨-, hlong, -⟩ | ⟨-, -, -, hx⟩ := execEncMsg_cases s
  · exact absurd hc hn
  · omega
  · exact hx

theorem execEncMsg_of_long_part (hc : s.HeaderConsistent ∧ s.PmConsistent ∧ s.FooterConsistent)
    (hlong : Config.cap < s.wireHeader.length ∨ Config.cap < s.wirePm.length) :
    execEncMsg s = .next (s.raise ⟨.outputOverflow, 0⟩) := by
  obtain ⟨hn, -⟩ | ⟨-, -, hx⟩ | ⟨-, hhdr, hpm, -⟩ := execEncMsg_cases s
  · exact absurd hc hn
  · exact hx
  · omega

theorem execEncMsg_of_inconsistent (hn : ¬ (s.HeaderConsistent ∧ s.PmConsistent ∧ s.FooterConsistent)) :
    execEncMsg s = .next (s.raise ⟨.invariantViolation, 0⟩) := by
  obtain ⟨-, hx⟩ | ⟨hc, -⟩ | ⟨hc, -⟩ := execEncMsg_cases s
  · exact hx
  · exact absurd hc hn
  · exact absurd hc hn

/-- An ENC_MSG that ends with OK has emitted the message, which fits (44_message_assembly R180). -/
theorem execEncMsg_ok (h : execEncMsg s = .next t) (hok : t.status = 0x00#8) :
    s.wireMessage.length ≤ Config.cap ∧ t = (s.encryptCalled s.wirePm).emit s.wireMessage := by
  obtain ⟨-, hx⟩ | ⟨-, -, hx⟩ | ⟨hc, hhdr, hpm, -⟩ := execEncMsg_cases s
  · cases hx.symm.trans h
    exact absurd hok (State.raise_status_ne_ok _ s)
  · cases hx.symm.trans h
    exact absurd hok (State.raise_status_ne_ok _ s)
  · cases (execEncMsg_of_consistent hc hhdr hpm).symm.trans h
    by_cases hfits : s.wireMessage.length ≤ Config.cap
    · exact ⟨hfits, rfl⟩
    · rw [State.emit_of_long (Nat.lt_of_not_le hfits)] at hok
      exact absurd hok (State.raise_status_ne_ok _ _)

end

/-- Settles O41: the checks decide whether `encrypt` is called, and the length of the assembled message whether OBUF
takes it. The call itself touches the collaborator's side alone, so what `emit` keeps of the state after the call it
keeps of the state before. -/
theorem encMsgAssemblesTheMessage : Obligations.EncMsgAssemblesTheMessage := by
  refine ⟨spellsPlain_of_encode rfl rfl, fun s => ⟨fun hc hhdr hpm => ⟨fun out hout hfits => ?_, fun hlong => ?_⟩,
    fun hc hlong => ?_, fun hn => ?_⟩⟩
  · subst hout
    exact ⟨_, execEncMsg_of_consistent hc hhdr hpm, State.emit_spec (s := s.encryptCalled s.wirePm) hfits⟩
  · exact (execEncMsg_of_consistent hc hhdr hpm).trans (congrArg _ (State.emit_of_long hlong))
  · exact execEncMsg_of_long_part hc hlong
  · exact execEncMsg_of_inconsistent hn

end Sys2Proof.Machine
end

section
/-! PROOFS. DEC_MSG (44_message_assembly R181, R182): its answer at each stage, in the order of the stages, and what it
loads when none of them stops it. -/

namespace Sys2Proof.Machine

/-! ### The last stage, on the answer of `decrypt` -/

section
variable (h : Header) (p : Nat) (mic : Bytes) (v : State)

theorem decMsgFinish_of_fail : decMsgFinish h p mic none v = .next (v.raise ⟨.decryptionFailed, p⟩) := rfl

variable {pt : Bytes} {g : Wire.PmFields}

theorem decMsgFinish_of_long (hlong : Config.cap < pt.length) :
    decMsgFinish h p mic (some pt) v = .next (v.raise ⟨.outputOverflow, p⟩) :=
  if_pos hlong

theorem decMsgFinish_of_fits (hfits : pt.length ≤ Config.cap) :
    decMsgFinish h p mic (some pt) v =
      match pmParse pt with
      | .error e => .next (v.raise ⟨e.kind, p⟩)
      | .ok m => .next ((msgCommit h m mic v).succeedAt v.ilen.toNat) :=
  if_neg (Nat.not_lt_of_le hfits)

/-- A plaintext that ends before its payload begins is reported behind the header, wherever it ends
(44_message_assembly R181). -/
theorem decMsgFinish_of_cut (hfits : pt.length ≤ Config.cap) (hcut : pt = (Wire.pmHead g).take pt.length)
    (hshort : pt.length < (Wire.pmHead g).length) (hsx : g.sx.length < 65536) :
    decMsgFinish h p mic (some pt) v = .next (v.raise ⟨.truncatedInput, p⟩) := by
  rw [decMsgFinish_of_fits h p mic v hfits, pmParse_cut hcut hshort fun _ => hsx]

theorem decMsgFinish_of_pm (hfits : (Wire.pm g).length ≤ Config.cap) :
    decMsgFinish h p mic (some (Wire.pm g)) v =
      .next ((msgCommit h (parsedPm g) mic v).succeedAt v.ilen.toNat) := by
  rw [decMsgFinish_of_fits h p mic v hfits, pmParse_bytes hfits rfl]

end

/-! ### The stages behind a laid-out header -/

section
variable {s : State} {f : Wire.HeaderFields}

/-- A rest that is shorter than the footer stops DEC_MSG before its first call (44_message_assembly R181). -/
theorem execDecMsg_of_short_rest {rest : Bytes} (hlen : s.ilen.toNat ≤ Config.cap)
    (hin : s.wireInput = Wire.header (s.ctrl.getLsbD 0) f ++ rest) (hv : s.AcceptsVersion f.mf)
    (hshort : rest.length < s.footerSize) :
    execDecMsg s =
      .next (s.raise ⟨.truncatedInput, (Wire.header (s.ctrl.getLsbD 0) f).length⟩) := by
  have hfits := header_fits hin
  rw [execDecMsg_eq hlen, hdrParse_wireInput hin hv]
  exact if_pos (by omega)

variable {ct mic : Bytes}

/-- DEC_MSG of a header, a ciphertext and a footer goes by the verdict of `verify` (44_message_assembly R178, R182). -/
theorem execDecMsg_of_message (hlen : s.ilen.toNat ≤ Config.cap)
    (hin : s.wireInput = Wire.header (s.ctrl.getLsbD 0) f ++ ct ++ mic) (hmic : mic.length = s.footerSize)
    (hv : s.AcceptsVersion f.mf) :
    execDecMsg s =
      if s.ctrl.getLsbD 2 = true ∧
          s.verifyAnswerTo 0 (Wire.header (s.ctrl.getLsbD 0) f) ct mic = false then
        .next ((s.verifyCalled (Wire.header (s.ctrl.getLsbD 0) f) ct mic).raise
          ⟨.integrityCheckFailed, (Wire.header (s.ctrl.getLsbD 0) f).length⟩)
      else
        decMsgFinish (parsedHeader (s.ctrl.getLsbD 0) f) (Wire.header (s.ctrl.getLsbD 0) f).length mic
          (s.decryptAnswerTo s.verifyCount ct)
          ((s.verifyCalled (Wire.header (s.ctrl.getLsbD 0) f) ct mic).decryptCalled ct) := by
  obtain ⟨hhb, hct, hftr, hroom⟩ := spans_of_wireInput hin hmic rfl
  rw [execDecMsg_eq hlen, hdrParse_wireInput (hin.trans (List.append_assoc ..)) hv]
  simp only [hhb, hct, hftr, if_neg (Nat.not_lt_of_le hroom)]

theorem execDecMsg_of_verified (hlen : s.ilen.toNat ≤ Config.cap)
    (hin : s.wireInput = Wire.header (s.ctrl.getLsbD 0) f ++ ct ++ mic) (hmic : mic.length = s.footerSize)
    (hv : s.AcceptsVersion f.mf)
    (hverify : s.ctrl.getLsbD 2 = true →
      s.verifyAnswerTo 0 (Wire.header (s.ctrl.getLsbD 0) f) ct mic = true) :
    execDecMsg s =
      decMsgFinish (parsedHeader (s.ctrl.getLsbD 0) f) (Wire.header (s.ctrl.getLsbD 0) f).length mic
        (s.decryptAnswerTo s.verifyCount ct)
        ((s.verifyCalled (Wire.header (s.ctrl.getLsbD 0) f) ct mic).decryptCalled ct) :=
  (execDecMsg_of_message hlen hin hmic hv).trans
    (if_neg fun ⟨hsecure, hfalse⟩ => Bool.false_ne_true (hfalse.symm.trans (hverify hsecure)))

/-! ### A message that nothing stops -/

/-- The crypto-port calls of DEC_MSG touch the collaborator's side alone (44_message_assembly R176). -/
theorem messageCalls_eq (s : State) (hdr ct mic : Bytes) :
    (s.verifyCalled hdr ct mic).decryptCalled ct =
      s.withCryptoOf ((s.verifyCalled hdr ct mic).decryptCalled ct) := by
  unfold State.verifyCalled
  split
  next => rfl
  next => rfl

/-- DEC_MSG of a message that is verified and decrypts to a laid-out Protocol Message loads the fields of both and the
footer, and touches nothing else but the collaborator's side (44_message_assembly R181). -/
theorem execDecMsg_loads {g : Wire.PmFields} (hlen : s.ilen.toNat ≤ Config.cap)
    (hin : s.wireInput = Wire.header (s.ctrl.getLsbD 0) f ++ ct ++ mic) (hmic : mic.length = s.footerSize)
    (hv : s.AcceptsVersion f.mf)
    (hverify : s.ctrl.getLsbD 2 = true →
      s.verifyAnswerTo 0 (Wire.header (s.ctrl.getLsbD 0) f) ct mic = true)
    (hdecrypt : s.decryptAnswerTo s.verifyCount ct = some (Wire.pm g))
    (hpm : (Wire.pm g).length ≤ Config.cap) :
    ∃ t, execDecMsg s = .next t ∧
      t.headerFields = f.decoded (s.ctrl.getLsbD 0) ∧ t.pmFields = g.decoded ∧
      t.micBytes = mic ∧ t.tag = Wire.pmTag g (Wire.headerTag (s.ctrl.getLsbD 0) f s.tag) ∧
      t.pos = s.ilen ∧ t.status = 0x00#8 ∧
      SameBytesFrom .mxb t.mxlen.toNat t s ∧ SameBytesFrom .sxb t.sxlen.toNat t s ∧
      SameBytesFrom .pay t.paylen.toNat t s ∧ SameBytesFrom .mic t.miclen.toNat t s ∧
      (((t.withHeaderOf s).withPmOf s).withFooterOf s).withOutcomeOf s =
        (s.verifyCalled (Wire.header (s.ctrl.getLsbD 0) f) ct mic).decryptCalled ct := by
  have hcap := Config.cap_le
  have hhdr : (Wire.header (s.ctrl.getLsbD 0) f).length < 65536 := by
    have := header_length_le_cap hlen (hin.trans (List.append_assoc ..))
    omega
  have hhead : (Wire.pmHead g).length < 65536 := by
    rw [Wire.pm, List.length_append] at hpm
    omega
  have hexec := execDecMsg_of_verified hlen hin hmic hv hverify
  have hbytes := messageCalls_readByte s (Wire.header (s.ctrl.getLsbD 0) f) ct mic
  rw [hdecrypt, decMsgFinish_of_pm _ _ _ _ hpm] at hexec
  rw [messageCalls_eq] at hexec hbytes ⊢
  generalize (s.verifyCalled (Wire.header (s.ctrl.getLsbD 0) f) ct mic).decryptCalled ct = v at hexec hbytes ⊢
  obtain ⟨hfields, hpmFields, hfooter, htag, hmxb, hsxb, hpay, hmicb, hframe⟩ :=
    msgCommit_spec (s.ctrl.getLsbD 0) f g mic (s.withCryptoOf v) _ rfl (mx_length_lt hhdr)
      (sx_length_lt hhead) (pay_length_lt hpm) (hmic.trans_lt s.footerSize_lt)
  refine ⟨_, hexec, (State.succeedAt_headerFields _ _).trans hfields,
    (State.succeedAt_pmFields _ _).trans hpmFields, (State.succeedAt_micBytes _ _).trans hfooter, htag,
    (BitVec.ofNat_toNat 16 s.ilen).trans (BitVec.setWidth_eq _), rfl,
    fun a ha => (hmxb a ha).trans (hbytes _ a), fun a ha => (hsxb a ha).trans (hbytes _ a),
    fun a ha => (hpay a ha).trans (hbytes _ a), fun a ha => (hmicb a ha).trans (hbytes _ a), ?_⟩
  exact congrArg (·.withOutcomeOf s) hframe

end

/-- Settles O42: the header parse, the verdict and the decrypted bytes each let DEC_MSG go on, and the commit writes
what the two parses have read. -/
theorem decMsgTakesTheMessageApart : Obligations.DecMsgTakesTheMessageApart := by
  refine ⟨spellsPlain_of_encode rfl rfl, fun s f g hb ct mic hlen hhb hin hmic hv hverify hdecrypt hpm => ?_⟩
  subst hhb
  exact execDecMsg_loads hlen hin hmic hv hverify hdecrypt hpm

/-! ### Errors and their order -/

/-- A header error of DEC_HDR is the outcome of DEC_MSG as well; TrailingBytes is none (44_message_assembly R182). -/
theorem execDecMsg_of_execDecHdr {s t : State} (h : execDecHdr s = .next t)
    (herr : t.status ∈ [0x01#8, 0x06#8, 0x08#8]) : execDecMsg s = .next t := by
  obtain ⟨hlong, hx⟩ | ⟨hlen, e, he, hx⟩ | ⟨-, f, rest, -, -, -, -, -, -, -, ⟨-, -, hx⟩ | ⟨-, hx⟩⟩ :=
    execDecHdr_cases s <;> cases hx.symm.trans h
  · exact execDecMsg_of_long hlong
  · exact execDecMsg_of_error hlen he
  · exact absurd (show (0x02#8) ∈ _ from herr) (by decide)
  · exact absurd (show (0x00#8) ∈ _ from herr) (by decide)

/-- Settles O43: each stage ends DEC_MSG when it fails and is reached when those before it have passed. -/
theorem decMsgErrorsAndTheirOrder : Obligations.DecMsgErrorsAndTheirOrder := by
  refine fun s => ⟨fun t h herr => execDecMsg_of_execDecHdr h herr, fun f hb rest p hlen hhb hp hin hv => ?_⟩
  subst hhb hp
  refine ⟨fun hshort => execDecMsg_of_short_rest hlen hin hv hshort, fun ct mic hrest hmic => ?_⟩
  rw [hrest, ← List.append_assoc] at hin
  refine ⟨fun hsecure hfalse => ?_, fun hverify => ?_⟩
  · exact (execDecMsg_of_message hlen hin hmic hv).trans (if_pos ⟨hsecure, hfalse⟩)
  have hexec := execDecMsg_of_verified hlen hin hmic hv hverify
  refine ⟨fun hfail => ?_, fun pt hpt hlong => ?_, fun pt g hpt hfits hcut hshort hsx => ?_⟩
  · rw [hfail] at hexec
    exact hexec.trans (decMsgFinish_of_fail ..)
  · rw [hpt] at hexec
    exact hexec.trans (decMsgFinish_of_long _ _ _ _ hlong)
  · rw [hpt] at hexec
    exact hexec.trans (decMsgFinish_of_cut _ _ _ _ hfits hcut hshort hsx)

end Sys2Proof.Machine
end

section
/-! PROOFS. A message round-trips (44_message_assembly R183): when the collaborator hands the Protocol Message through,
consistent registers come back from the bytes that ENC_MSG emits. -/

namespace Sys2Proof.Machine

section
variable {s t : State}

/-- The integrity check of consistent registers is a footer (44_message_assembly R179). -/
theorem State.FooterConsistent.micBytes_length (hc : s.FooterConsistent) :
    s.micBytes.length = s.footerSize := by
  obtain ⟨hmiclen, -⟩ := hc
  rw [State.micBytes, State.memRead_length, hmiclen, State.footerSize]

/-- The tags of consistent registers are those that a decode of their message sets (44_message_assembly R181). -/
theorem messageTag_eq (hhdr : s.HeaderConsistent) (hpm : s.PmConsistent) :
    Wire.pmTag s.pmFields (Wire.headerTag (s.ctrl.getLsbD 0) s.headerFields s.tag) = s.tag := by
  rw [hhdr.headerTag_eq, hpm.pmTag_eq]

/-- DEC_MSG of the wire message of consistent registers, under the settings and tags that they stand under, gives those
registers back, the absent fields 0, when the collaborator hands the Protocol Message through
(44_message_assembly R183). -/
theorem execDecMsg_of_wireMessage (hc : s.HeaderConsistent ∧ s.PmConsistent ∧ s.FooterConsistent)
    (hst : s.sf.extractLsb' 0 2 ≠ 2#2) (hv : s.AcceptsVersion s.mf)
    (hfits : (s.wireHeader ++ s.wirePm ++ s.micBytes).length ≤ Config.cap)
    (hin : t.wireInput = s.wireHeader ++ s.wirePm ++ s.micBytes)
    (hctrl : t.ctrl = s.ctrl) (hvermask : t.vermask = s.vermask) (hmicsz : t.micsz = s.micsz)
    (htag : t.tag = s.tag)
    (hverify : s.ctrl.getLsbD 2 = true →
      t.verifyAnswerTo 0 s.wireHeader s.wirePm s.micBytes = true)
    (hdecrypt : t.decryptAnswerTo s.verifyCount s.wirePm = some s.wirePm) :
    ∃ u, execDecMsg t = .next u ∧ u.status = 0x00#8 ∧ u.pos = t.ilen ∧ u.mf = s.mf ∧ u.sf = s.sf ∧
      u.xf = s.xf ∧ u.tag = s.tag ∧ u.headerFields = s.headerFields.decoded (s.ctrl.getLsbD 0) ∧
      u.pmFields = s.pmFields.decoded ∧ u.micBytes = s.micBytes := by
  obtain ⟨hhdr, hpm, hftr⟩ := hc
  have hlen : t.ilen.toNat ≤ Config.cap := by rwa [← State.wireInput_length, hin]
  have hwire : Wire.header (t.ctrl.getLsbD 0) s.headerFields = s.wireHeader := by
    rw [hctrl]
    rfl
  have hin' : t.wireInput = Wire.header (t.ctrl.getLsbD 0) s.headerFields ++ s.wirePm ++ s.micBytes := by
    rw [hwire, hin]
  have hverify' : t.ctrl.getLsbD 2 = true →
      t.verifyAnswerTo 0 (Wire.header (t.ctrl.getLsbD 0) s.headerFields) s.wirePm s.micBytes = true := by
    rwa [hwire, hctrl]
  have hfooter : t.footerSize = s.footerSize := by
    unfold State.footerSize
    rw [hctrl, hmicsz]
  have hcount : t.verifyCount = s.verifyCount := by
    unfold State.verifyCount
    rw [hctrl]
  have hv' : t.AcceptsVersion s.headerFields.mf := by
    unfold State.AcceptsVersion
    rwa [hvermask]
  have hpmFits : s.wirePm.length ≤ Config.cap := by
    simp only [List.length_append] at hfits
    omega
  obtain ⟨u, hu, hfields, hpmFields, hmic, hutag, hpos, hok, -⟩ :=
    execDecMsg_loads (g := s.pmFields) hlen hin' (hftr.micBytes_length.trans hfooter.symm) hv' hverify'
      (hcount ▸ hdecrypt) hpmFits
  rw [hctrl] at hfields hutag
  refine ⟨u, hu, hok, hpos, congrArg Wire.HeaderFields.mf hfields, ?_, congrArg Wire.PmFields.xf hpmFields,
    ?_, hfields, hpmFields, hmic⟩
  · exact (congrArg Wire.HeaderFields.sf hfields).trans (canonical_of_low hst)
  · rw [hutag, htag, messageTag_eq hhdr hpm]

end

/-! ### What an ENC_MSG leaves for the DEC_MSG of its output -/

section
variable (s : State) (pt out : Bytes)

theorem settings_after_encrypt {t : State} (ht : t = ((s.encryptCalled pt).emit out).copyOutputToInput) :
    t.ctrl = s.ctrl ∧ t.vermask = s.vermask ∧ t.micsz = s.micsz ∧ t.tag = s.tag := by
  simp [ht, State.copyOutputToInput, State.encryptCalled]

/-- The next `verify` has one call more before it (44_message_assembly R176). -/
theorem verifyAnswerTo_after_encrypt (hdr ct mic : Bytes) :
    ((s.encryptCalled pt).emit out).copyOutputToInput.verifyAnswerTo 0 hdr ct mic =
      s.verifyAnswerTo 1 hdr ct mic := by
  simp [State.copyOutputToInput, State.verifyAnswerTo, State.encryptCalled]

/-- The next `decrypt` has one call more before it (44_message_assembly R176). -/
theorem decryptAnswerTo_after_encrypt (k : Nat) (ct : Bytes) :
    ((s.encryptCalled pt).emit out).copyOutputToInput.decryptAnswerTo k ct =
      s.decryptAnswerTo (1 + k) ct := by
  simp [State.copyOutputToInput, State.decryptAnswerTo, State.encryptCalled, Nat.add_assoc]

end

/-- With any collaborator, OBUF holds the assembled message after an ENC_MSG that ends with OK
(44_message_assembly R183). -/
theorem execEncMsg_obuf {s t : State} (h : execEncMsg s = .next t) (hok : t.status = 0x00#8) :
    t.memRead .obuf 0 t.olen.toNat = s.wireMessage := by
  obtain ⟨hfits, rfl⟩ := execEncMsg_ok h hok
  obtain ⟨hread, holen, -⟩ := State.emit_spec (s := s.encryptCalled s.wirePm) hfits
  rw [holen, hread]

/-- Settles O44: ENC_MSG leaves the settings, the tags, the bytes and the collaborator's answers with which DEC_MSG
loads the same registers. -/
theorem transparentRoundTrip : Obligations.TransparentRoundTrip := by
  refine ⟨fun s hc hst hv hfits hencrypt hverify hdecrypt => ?_, fun s t h hok => execEncMsg_obuf h hok⟩
  have hmsg : s.wireMessage = s.wireHeader ++ s.wirePm ++ s.micBytes := by
    rw [State.wireMessage, hencrypt]
  have hparts : s.wireHeader.length ≤ Config.cap ∧ s.wirePm.length ≤ Config.cap := by
    simp only [List.length_append] at hfits
    omega
  obtain ⟨hhdr, hpm⟩ := hparts
  have hexec := execEncMsg_of_consistent hc hhdr hpm
  rw [hmsg] at hexec
  have hcopy := State.copyOutputToInput_emit (s := s.encryptCalled s.wirePm) hfits
  obtain ⟨hctrl, hvermask, hmicsz, htag⟩ := settings_after_encrypt s _ _ rfl
  obtain ⟨u, hu⟩ := execDecMsg_of_wireMessage hc hst hv hfits hcopy hctrl hvermask hmicsz htag
    (fun hsecure => (verifyAnswerTo_after_encrypt ..).trans (hverify hsecure))
    ((decryptAnswerTo_after_encrypt ..).trans hdecrypt)
  exact ⟨_, u, hexec, (State.copyOutputToInput_wireInput _).symm.trans hcopy, hu⟩

end Sys2Proof.Machine
end

section
/-! PROOFS. Which crypto-port calls a command makes (44_message_assembly R176, R178; 20_memory R59): ENC_MSG and DEC_MSG
at most one of each kind, every other command none. -/

namespace Sys2Proof.Machine

/-! ### Calls made between two states -/

/-- Between s and t exactly these calls were made, each seen and counted once (44_message_assembly R176). -/
structure CallsMade (s t : State) (x : List Observation) : Prop where
  seen : t.obs = s.obs ++ x
  counted : t.calls = s.calls + x.length

namespace CallsMade
variable {s v t : State} {x y : List Observation}

theorem newObservations_eq (h : CallsMade s t x) : newObservations s t = x :=
  newObservations_of_append h.seen

theorem trans (h : CallsMade s v x) (h' : CallsMade v t y) : CallsMade s t (x ++ y) where
  seen := by rw [h'.seen, h.seen, List.append_assoc]
  counted := by rw [h'.counted, h.counted, List.length_append, Nat.add_assoc]

theorem none_of_eq (hseen : t.obs = s.obs := by simp) (hcounted : t.calls = s.calls := by simp) :
    CallsMade s t [] :=
  ⟨by rw [hseen, List.append_nil], hcounted⟩

/-- What makes no more calls leaves the calls as they are. -/
theorem then_none (h : CallsMade s v x) (h' : CallsMade v t []) : CallsMade s t x := by
  rw [← List.append_nil x]
  exact h.trans h'

theorem encryptCalled (s : State) (pt : Bytes) :
    CallsMade s (s.encryptCalled pt) [.encryptCall pt s.ctx] :=
  ⟨rfl, rfl⟩

theorem verifyCalled (s : State) (hdr ct mic : Bytes) :
    CallsMade s (s.verifyCalled hdr ct mic) (s.verifyRecord hdr ct mic) := by
  refine ⟨s.verifyCalled_obs_eq hdr ct mic, ?_⟩
  unfold State.verifyCalled State.verifyRecord
  split
  next => rfl
  next => rfl

theorem decryptCalled (s : State) (ct : Bytes) :
    CallsMade s (s.decryptCalled ct) [.decryptCall ct s.ctx] :=
  ⟨rfl, rfl⟩

theorem messageCalls (s : State) (hdr ct mic : Bytes) :
    CallsMade s ((s.verifyCalled hdr ct mic).decryptCalled ct)
      (s.verifyRecord hdr ct mic ++ [.decryptCall ct s.ctx]) := by
  rw [← State.verifyCalled_ctx s hdr ct mic]
  exact (verifyCalled s hdr ct mic).trans (decryptCalled _ ct)

end CallsMade

/-! ### The message commands -/

/-- The calls that an ENC_MSG started in this state may make (44_message_assembly R180, 20_memory R59). -/
def State.EncMsgMayCall (s : State) (x : List Observation) : Prop :=
  x = [] ∨ ∃ pt, x = [.encryptCall pt s.ctx] ∧ pt.length ≤ Config.cap

/-- The calls that a DEC_MSG started in this state may make: the spans of the input are what it asks about
(44_message_assembly R178, R182; 20_memory R59). -/
def State.DecMsgMayCall (s : State) (x : List Observation) : Prop :=
  x = [] ∨
    (∃ hb ct mic, hb.length + ct.length + mic.length = s.ilen.toNat ∧ s.ilen.toNat ≤ Config.cap ∧
      ((s.ctrl.getLsbD 2 = true ∧
          (x = [.verifyCall hb ct mic s.ctx] ∧ s.verifyAnswerTo 0 hb ct mic = false ∨
            x = [.verifyCall hb ct mic s.ctx, .decryptCall ct s.ctx] ∧
              s.verifyAnswerTo 0 hb ct mic = true)) ∨
        (s.ctrl.getLsbD 2 = false ∧ x = [.decryptCall ct s.ctx])))

section
variable {s t : State}

theorem State.verifyRecord_of_secure (hsecure : s.ctrl.getLsbD 2 = true) (hdr ct mic : Bytes) :
    s.verifyRecord hdr ct mic = [.verifyCall hdr ct mic s.ctx] :=
  if_pos hsecure

theorem State.verifyRecord_of_not_secure (hsecure : s.ctrl.getLsbD 2 = false) (hdr ct mic : Bytes) :
    s.verifyRecord hdr ct mic = [] :=
  if_neg (by rw [hsecure]; exact Bool.false_ne_true)

theorem execEncMsg_calls (h : execEncMsg s = .next t) : ∃ x, CallsMade s t x ∧ s.EncMsgMayCall x := by
  obtain ⟨-, hx⟩ | ⟨-, -, hx⟩ | ⟨-, -, hpm, hx⟩ := execEncMsg_cases s <;> cases hx.symm.trans h
  · exact ⟨[], .none_of_eq, .inl rfl⟩
  · exact ⟨[], .none_of_eq, .inl rfl⟩
  · exact ⟨_, (CallsMade.encryptCalled s s.wirePm).then_none .none_of_eq, .inr ⟨_, rfl, hpm⟩⟩

/-- The last stage of DEC_MSG comes after the last call (44_message_assembly R182). -/
theorem decMsgFinish_calls {hd : Header} {p : Nat} {mic : Bytes} {r : Option Bytes}
    (h : decMsgFinish hd p mic r s = .next t) : CallsMade s t [] := by
  obtain ⟨k, hx⟩ | ⟨m, -, hx⟩ := decMsgFinish_uniform hd p mic r <;> cases (hx s).symm.trans h
  · exact .none_of_eq
  · exact .none_of_eq

theorem execDecMsg_calls (h : execDecMsg s = .next t) : ∃ x, CallsMade s t x ∧ s.DecMsgMayCall x := by
  obtain ⟨-, hx⟩ | ⟨-, e, -, hx⟩ | ⟨hlen, f, rest, hin, -, -, -, -, -, -, hstages⟩ := execDecMsg_cases s
  · cases hx.symm.trans h
    exact ⟨[], .none_of_eq, .inl rfl⟩
  · cases hx.symm.trans h
    exact ⟨[], .none_of_eq, .inl rfl⟩
  obtain ⟨-, hx⟩ | ⟨ct, mic, rfl, -, hverdict⟩ := hstages
  · cases hx.symm.trans h
    exact ⟨[], .none_of_eq, .inl rfl⟩
  have hspans := header_fits hin
  rw [List.length_append, ← Nat.add_assoc] at hspans
  generalize Wire.header (s.ctrl.getLsbD 0) f = hb at hspans hverdict
  obtain ⟨hsecure, hfalse, hx⟩ | ⟨htrue, hx⟩ := hverdict
  · cases hx.symm.trans h
    refine ⟨_, (CallsMade.verifyCalled s hb ct mic).then_none .none_of_eq, .inr ⟨hb, ct, mic, hspans, hlen,
      .inl ⟨hsecure, .inl ⟨State.verifyRecord_of_secure hsecure .., hfalse⟩⟩⟩⟩
  · refine ⟨_, (CallsMade.messageCalls s hb ct mic).then_none (decMsgFinish_calls (hx.symm.trans h)),
      .inr ⟨hb, ct, mic, hspans, hlen, ?_⟩⟩
    cases hsecure : s.ctrl.getLsbD 2 with
    | true =>
      exact .inl ⟨rfl, .inr ⟨by rw [State.verifyRecord_of_secure hsecure, List.singleton_append],
        htrue hsecure⟩⟩
    | false => exact .inr ⟨rfl, by rw [State.verifyRecord_of_not_secure hsecure, List.nil_append]⟩

/-! ### The other commands -/

/-- The collaborator's side is as it was when no answer was taken and no call made. -/
theorem State.withCryptoOf_eq_self (hencrypt : t.encryptAnswers = s.encryptAnswers := by simp)
    (hverify : t.verifyAnswers = s.verifyAnswers := by simp)
    (hdecrypt : t.decryptAnswers = s.decryptAnswers := by simp) (hcalls : t.calls = s.calls := by simp)
    (hobs : t.obs = s.obs := by simp) : t.withCryptoOf s = t := by
  unfold State.withCryptoOf
  rw [← hencrypt, ← hverify, ← hdecrypt, ← hcalls, ← hobs]

theorem CallsMade.none_of_withCryptoOf (h : t.withCryptoOf s = t) : CallsMade s t [] :=
  .none_of_eq (congrArg State.obs h).symm (congrArg State.calls h).symm

/-- A command that assembles no message leaves the collaborator alone (44_message_assembly R176). -/
theorem exec_withCryptoOf {i : Instr} (henc : i ≠ .encMsg) (hdec : i ≠ .decMsg) (h : exec i s = .next t) :
    t.withCryptoOf s = t := by
  cases hi : isCodec i with
  | false =>
    rw [(exec_plain hi h).1]
    rfl
  | true =>
    obtain rfl | rfl | rfl | rfl | rfl | rfl := codec_cases hi
    · by_cases hc : s.HeaderConsistent
      · cases (execEncHdr_of_consistent hc).symm.trans h
        exact State.withCryptoOf_eq_self
      · cases (execEncHdr_of_inconsistent hc).symm.trans h
        exact State.withCryptoOf_eq_self
    · obtain ⟨-, hx⟩ | ⟨-, e, -, hx⟩ | ⟨-, f, rest, -, -, -, -, -, -, -, ⟨-, -, hx⟩ | ⟨-, hx⟩⟩ :=
        execDecHdr_cases s <;> cases hx.symm.trans h <;> exact State.withCryptoOf_eq_self
    · by_cases hc : s.PmConsistent
      · cases (execEncPm_of_consistent hc).symm.trans h
        exact State.withCryptoOf_eq_self
      · cases (execEncPm_of_inconsistent hc).symm.trans h
        exact State.withCryptoOf_eq_self
    · obtain ⟨-, hx⟩ | ⟨-, e, -, hx⟩ | ⟨-, g, -, -, -, -, -, hx⟩ :=
        execDecPm_cases s <;> cases hx.symm.trans h <;> exact State.withCryptoOf_eq_self
    · exact absurd rfl henc
    · exact absurd rfl hdec

end

/-- Settles O46: each command records and counts the calls of its own stages, which for the message commands are spans
of the input or the Protocol Message that the checks have let pass. -/
theorem onlyMessageCommandsCall : Obligations.OnlyMessageCommandsCall := by
  intro i s t h
  by_cases henc : i = .encMsg
  · subst henc
    obtain ⟨x, hcalls, hmay⟩ := execEncMsg_calls h
    rw [hcalls.newObservations_eq]
    exact ⟨hcalls.seen, hcalls.counted, fun hne => absurd rfl hne, fun _ => hmay, nofun⟩
  by_cases hdec : i = .decMsg
  · subst hdec
    obtain ⟨x, hcalls, hmay⟩ := execDecMsg_calls h
    rw [hcalls.newObservations_eq]
    exact ⟨hcalls.seen, hcalls.counted, fun _ hne => absurd rfl hne, nofun, fun _ => hmay⟩
  · have hkept := exec_withCryptoOf henc hdec h
    have hcalls := CallsMade.none_of_withCryptoOf hkept
    rw [hcalls.newObservations_eq]
    exact ⟨hcalls.seen, hcalls.counted, fun _ _ => ⟨rfl, hkept⟩, fun hi => absurd hi henc,
      fun hi => absurd hi hdec⟩

end Sys2Proof.Machine
end

section
/-! PROOFS. The system command NOP (45_system): its only effect is that STATUS says OK. -/

namespace Sys2Proof.Machine

/-- NOP is the bare success of a command, in every state (45_system R195). -/
theorem exec_nop (s : State) : exec .nop s = .next s.succeed := rfl

/-- Success of a command that leaves POS alone is a write of STATUS (00_scope R8, 60_exceptions R200). -/
theorem State.succeed_eq (s : State) : s.succeed = { s with status := 0x00#8 } := rfl

/-- Settles O16: the encoder fixes the words of OP 0x00, and NOP is the bare success of a command. -/
theorem nopSetsStatusOnly : Obligations.NopSetsStatusOnly := by
  refine ⟨spellsPlain_of_encode rfl rfl, fun s => ?_⟩
  rw [exec_nop, State.succeed_eq]

end Sys2Proof.Machine
end

section
/-! PROOFS. How a command ends (60_exceptions R200 to R212): with OK, or with an error that the table allows, at the
position that the table gives, on the state it began in. The statements about STATUS and POS read this off. -/

namespace Sys2Proof.Machine

/-! ### The two ways to end -/

/-- The command's first test fails: an encode whose conditions do not hold, or a decode with ILEN above CAP
(60_exceptions R207, R209). -/
def State.Refuses (s : State) (i : Instr) : Prop :=
  (i = .encHdr ∧ ¬ s.HeaderConsistent) ∨ (i = .encPm ∧ ¬ s.PmConsistent) ∨
    (i = .encMsg ∧ ¬ (s.HeaderConsistent ∧ s.PmConsistent ∧ s.FooterConsistent)) ∨
    (i ∈ [.decHdr, .decPm, .decMsg] ∧ Config.cap < s.ilen.toNat)

/-- From `s` the command ends in `t` with this error: the position is one of the table's and fits POS, and but for
the collaborator's side the error is all that has happened (60_exceptions R200, R205). -/
structure EndsWithError (i : Instr) (s t : State) (e : CodecError) : Prop where
  reports : s.ReportsAt i e.kind e.pos
  posFits : e.pos < 2 ^ 16
  refused : e.kind = .invariantViolation → s.Refuses i
  frame : t.withCryptoOf s = s.raise e

/-- From `s` the command ends in `t` with OK: what POS then says (10_state R33), and that the lengths a decode has
written are within CAP (60_exceptions R209). A lemma about one command names the fields that speak of it. -/
structure EndsWithOk (i : Instr) (s t : State) : Prop where
  status : t.status = 0x00#8
  noCodec : isCodec i = false → t.pos = s.pos := by simp [isCodec]
  encode : i ∈ [.encHdr, .encPm, .encMsg] → t.pos = t.olen := by simp
  header : i = .decHdr → s.HeaderOfLength t.pos.toNat := by simp
  wholeInput : i ∈ [.decPm, .decMsg] → t.pos = s.ilen := by simp
  mxFits : i ∈ [.decHdr, .decMsg] → t.mxlen.toNat ≤ Config.cap := by simp
  pmFits : i ∈ [.decPm, .decMsg] → t.sxlen.toNat ≤ Config.cap ∧ t.paylen.toNat ≤ Config.cap := by simp
  micFits : i = .decMsg → t.miclen.toNat ≤ Config.cap := by simp

/-- The command ends from `s` in `t` in one of the two ways (00_scope R8). -/
def Ends (i : Instr) (s t : State) : Prop := (∃ e, EndsWithError i s t e) ∨ EndsWithOk i s t

/-! ### Errors -/

/-- A header at the front of the input is as long as POS can say. -/
theorem State.HeaderOfLength.posFits {s : State} {p : Nat} (h : s.HeaderOfLength p) : p < 2 ^ 16 := by
  obtain ⟨f, rest, hin, -, rfl⟩ := h
  have := header_fits hin
  have := s.ilen.isLt
  omega

theorem hdrParse_not_invariantViolation {stream : Bool} {vermask : BitVec 16} {x : Bytes} {e : CodecError}
    (h : hdrParse stream vermask x = .error e) : e.kind ≠ .invariantViolation := by
  obtain ⟨hk | ⟨rfl, -⟩, -⟩ := hdrParse_error h
  · rw [hk]
    decide
  · exact nofun

/-- A crypto-port call leaves the block's own state alone (44_message_assembly R176). -/
theorem State.verifyCalled_withCryptoOf (s : State) (hdr ct mic : Bytes) :
    (s.verifyCalled hdr ct mic).withCryptoOf s = s := by
  unfold State.verifyCalled
  split
  next => rfl
  next => rfl

theorem State.messageCalls_withCryptoOf (s : State) (hdr ct mic : Bytes) :
    ((s.verifyCalled hdr ct mic).decryptCalled ct).withCryptoOf s = s :=
  s.verifyCalled_withCryptoOf hdr ct mic

namespace EndsWithError
variable {i : Instr} {s t v : State} {e : CodecError}

theorem status_eq (h : EndsWithError i s t e) : t.status = e.kind.code := congrArg State.status h.frame

theorem pos_eq (h : EndsWithError i s t e) : t.pos.toNat = e.pos :=
  (congrArg (fun u : State => u.pos.toNat) h.frame).trans (Nat.mod_eq_of_lt h.posFits)

theorem status_ne_ok (h : EndsWithError i s t e) : t.status ≠ 0x00#8 :=
  h.status_eq ▸ e.kind.code_ne_ok

/-- STATUS tells the kind of the error (60_exceptions R200). -/
theorem kind_eq (h : EndsWithError i s t e) {k : ErrorKind} (hst : t.status = k.code) : e.kind = k :=
  ErrorKind.code_inj (h.status_eq.symm.trans hst)

/-- An error that is raised after some calls has them as its only trace (60_exceptions R205). -/
theorem of_raise (hv : v.withCryptoOf s = s) (hreports : s.ReportsAt i e.kind e.pos) (hpos : e.pos < 2 ^ 16)
    (hkind : e.kind ≠ .invariantViolation) : EndsWithError i s (v.raise e) e :=
  ⟨hreports, hpos, fun h => absurd h hkind, congrArg (State.raise e) hv⟩

/-- A refused command is a codec command, and raises InvariantViolation(0) (60_exceptions R207, R209). -/
theorem of_refuses (h : s.Refuses i) :
    EndsWithError i s (s.raise ⟨.invariantViolation, 0⟩) ⟨.invariantViolation, 0⟩ := by
  refine ⟨⟨?_, rfl⟩, by decide, fun _ => h, rfl⟩
  obtain ⟨rfl, -⟩ | ⟨rfl, -⟩ | ⟨rfl, -⟩ | ⟨hi, -⟩ := h
  · decide
  · decide
  · decide
  · simp only [List.mem_cons, List.not_mem_nil, or_false] at hi ⊢
    tauto

theorem of_hdrParse (h : hdrParse (s.ctrl.getLsbD 0) s.vermask s.wireInput = .error e)
    (hi : i = .decHdr ∨ i = .decMsg) : EndsWithError i s (s.raise e) e := by
  refine of_raise rfl (State.reportsAt_of_hdrParse h hi) ?_ (hdrParse_not_invariantViolation h)
  obtain ⟨-, hpos⟩ := hdrParse_error h
  exact (hpos.trans_eq s.wireInput_length).trans_lt s.ilen.isLt

theorem of_pmParse (h : pmParse s.wireInput = .error e) : EndsWithError .decPm s (s.raise e) e := by
  obtain ⟨hkind, hpos⟩ := pmParse_error h
  refine of_raise rfl (State.reportsAt_of_pmParse h) ?_ (by rw [hkind]; decide)
  exact (hpos.trans_eq s.wireInput_length).trans_lt s.ilen.isLt

end EndsWithError

/-- A command that refuses raises InvariantViolation(0) in the state it began in, before any call (60_exceptions R207,
R209). -/
theorem exec_of_refuses {i : Instr} {s : State} (h : s.Refuses i) :
    exec i s = .next (s.raise ⟨.invariantViolation, 0⟩) := by
  obtain ⟨rfl, hc⟩ | ⟨rfl, hc⟩ | ⟨rfl, hc⟩ | ⟨hi, hlong⟩ := h
  · exact execEncHdr_of_inconsistent hc
  · exact execEncPm_of_inconsistent hc
  · exact execEncMsg_of_inconsistent hc
  · simp only [List.mem_cons, List.not_mem_nil, or_false] at hi
    obtain rfl | rfl | rfl := hi
    · exact execDecHdr_of_long hlong
    · exact execDecPm_of_long hlong
    · exact execDecMsg_of_long hlong

/-! ### Lengths after a decode -/

theorem State.DecodedHeader.mxlen_le {t s : State} {stream : Bool} {f : Wire.HeaderFields}
    (h : t.DecodedHeader s stream f) (hfits : (Wire.header stream f).length ≤ Config.cap) :
    t.mxlen.toNat ≤ Config.cap := by
  rw [State.mxlen_of_headerFields h.fields]
  exact (decoded_mx_length_le stream f).trans hfits

theorem State.DecodedPm.lengths_le {t s : State} {g : Wire.PmFields} (h : t.DecodedPm s g)
    (hfits : (Wire.pm g).length ≤ Config.cap) :
    t.sxlen.toNat ≤ Config.cap ∧ t.paylen.toNat ≤ Config.cap := by
  rw [State.sxlen_of_pmFields h.fields, State.paylen_of_pmFields h.fields]
  rw [Wire.pm, List.length_append] at hfits
  have := decoded_sx_length_le g
  exact ⟨by omega, show g.pay.length ≤ Config.cap by omega⟩

/-- POS after a decode that has used up its input (10_state R33). -/
theorem State.succeedAt_toNat_pos (s : State) (n : BitVec 16) : (s.succeedAt n.toNat).pos = n :=
  (BitVec.ofNat_toNat 16 n).trans (BitVec.setWidth_eq _)

/-! ### How each command ends -/

section
variable {s t : State}

/-- A command that is no codec raises nothing, and leaves POS (60_exceptions R200, 10_state R33). -/
theorem ends_of_not_codec {i : Instr} (hi : isCodec i = false) (h : exec i s = .next t) : Ends i s t := by
  have hmem (l : List Instr) (hl : ∀ j ∈ l, isCodec j = true) : i ∉ l := fun hmem =>
    Bool.false_ne_true (hi.symm.trans (hl i hmem))
  obtain ⟨ht, -⟩ := exec_plain hi h
  refine .inr {
    status := ht ▸ rfl
    noCodec := fun _ => ht ▸ rfl
    encode := fun henc => absurd henc (hmem _ (by decide))
    header := ?_
    wholeInput := fun hdec => absurd hdec (hmem _ (by decide))
    mxFits := fun hdec => absurd hdec (hmem _ (by decide))
    pmFits := fun hdec => absurd hdec (hmem _ (by decide))
    micFits := ?_ }
  · rintro rfl
    contradiction
  · rintro rfl
    contradiction

/-- The end of an encode that was not refused: the bytes fit, or OutputOverflow(0), with the calls made by then
(42_header_codec R142, 60_exceptions R208). -/
theorem ends_of_emit {i : Instr} (hi : i = .encHdr ∨ i = .encPm ∨ i = .encMsg) {v : State}
    (hv : v.withCryptoOf s = s) (out : Bytes) : Ends i s (v.emit out) := by
  by_cases hfits : out.length ≤ Config.cap
  · rw [State.emit_of_fits hfits]
    obtain rfl | rfl | rfl := hi <;> exact .inr { status := rfl, encode := fun _ => rfl }
  · rw [State.emit_of_long (Nat.lt_of_not_le hfits)]
    exact .inl ⟨_, .of_raise hv (.inl ⟨by simpa using hi, rfl⟩) (by decide) (by decide)⟩

theorem ends_of_refuses {i : Instr} (hr : s.Refuses i) (h : exec i s = .next t) : Ends i s t := by
  cases (exec_of_refuses hr).symm.trans h
  exact .inl ⟨_, .of_refuses hr⟩

theorem execEncHdr_ends (h : execEncHdr s = .next t) : Ends .encHdr s t := by
  by_cases hc : s.HeaderConsistent
  · cases (execEncHdr_of_consistent hc).symm.trans h
    exact ends_of_emit (.inl rfl) rfl _
  · exact ends_of_refuses (.inl ⟨rfl, hc⟩) h

theorem execEncPm_ends (h : execEncPm s = .next t) : Ends .encPm s t := by
  by_cases hc : s.PmConsistent
  · cases (execEncPm_of_consistent hc).symm.trans h
    exact ends_of_emit (.inr (.inl rfl)) rfl _
  · exact ends_of_refuses (.inr (.inl ⟨rfl, hc⟩)) h

theorem execEncMsg_ends (h : execEncMsg s = .next t) : Ends .encMsg s t := by
  obtain ⟨hc, -⟩ | ⟨-, -, hx⟩ | ⟨-, -, -, hx⟩ := execEncMsg_cases s
  · exact ends_of_refuses (.inr (.inr (.inl ⟨rfl, hc⟩))) h
  · cases hx.symm.trans h
    exact .inl ⟨_, .of_raise rfl (.inl ⟨by decide, rfl⟩) (by decide) (by decide)⟩
  · cases hx.symm.trans h
    exact ends_of_emit (.inr (.inr rfl)) rfl _

/-- ILEN above CAP is the one condition of a decode (60_exceptions R209). -/
theorem refuses_of_long {i : Instr} (hi : i ∈ [.decHdr, .decPm, .decMsg]) (hlong : Config.cap < s.ilen.toNat) :
    s.Refuses i :=
  .inr (.inr (.inr ⟨hi, hlong⟩))

theorem execDecHdr_ends (h : execDecHdr s = .next t) : Ends .decHdr s t := by
  obtain ⟨hlong, -⟩ | ⟨-, e, he, hx⟩ | ⟨hlen, f, rest, hin, hv, hmx, -, -, -, -, hend⟩ :=
    execDecHdr_cases s
  · exact ends_of_refuses (refuses_of_long (by decide) hlong) h
  · cases hx.symm.trans h
    exact .inl ⟨e, .of_hdrParse he (.inl rfl)⟩
  have hhdr : s.HeaderOfLength (Wire.header (s.ctrl.getLsbD 0) f).length := ⟨f, rest, hin, hv, rfl⟩
  have hfits := header_length_le_cap hlen hin
  obtain ⟨hexact, hrest, hx⟩ | ⟨-, hx⟩ := hend <;> cases hx.symm.trans h
  · have hbehind : (Wire.header (s.ctrl.getLsbD 0) f).length < s.ilen.toNat := by
      have := header_fits hin
      have := List.length_pos_iff.2 hrest
      omega
    exact .inl ⟨_, .of_raise rfl ⟨rfl, hexact, hhdr, hbehind⟩ hhdr.posFits nofun⟩
  · exact .inr {
      status := rfl
      header := fun _ => (toNat_ofNat_of_le_cap hfits).symm ▸ hhdr
      mxFits := fun _ => (hdrCommit_decoded _ hmx s _).mxlen_le hfits }

theorem execDecPm_ends (h : execDecPm s = .next t) : Ends .decPm s t := by
  obtain ⟨hlong, -⟩ | ⟨-, e, he, hx⟩ | ⟨hlen, g, hin, hsx, -, -, -, hx⟩ := execDecPm_cases s
  · exact ends_of_refuses (refuses_of_long (by decide) hlong) h
  · cases hx.symm.trans h
    exact .inl ⟨e, .of_pmParse he⟩
  · cases hx.symm.trans h
    have hfits : (Wire.pm g).length ≤ Config.cap := by rwa [← hin, State.wireInput_length]
    exact .inr {
      status := rfl
      wholeInput := fun _ => State.succeedAt_toNat_pos ..
      pmFits := fun _ => (pmCommit_decoded hsx (pay_length_lt hfits) s _).lengths_le hfits }

/-- The last stage of DEC_MSG behind a header of p bytes: each of its errors stands at p, and a commit writes lengths
of parts of the message (44_message_assembly R181, R182). -/
theorem decMsgFinish_ends {v : State} (hv : v.withCryptoOf s = s) {f : Wire.HeaderFields} {mic : Bytes}
    {r : Option Bytes} (hhdr : s.HeaderOfLength (Wire.header (s.ctrl.getLsbD 0) f).length)
    (hmx : f.mx.length < 65536) (hfits : (Wire.header (s.ctrl.getLsbD 0) f).length ≤ Config.cap)
    (hmic : mic.length ≤ Config.cap)
    (h : decMsgFinish (parsedHeader (s.ctrl.getLsbD 0) f) (Wire.header (s.ctrl.getLsbD 0) f).length mic r v =
      .next t) : Ends .decMsg s t := by
  obtain ⟨k, hk, hx⟩ | ⟨g, -, hg, hsx, -, -, -, hx⟩ := decMsgFinish_cases _ _ mic r v <;>
    cases hx.symm.trans h
  · obtain ⟨rfl, -⟩ | ⟨rfl, -⟩ | ⟨rfl, -⟩ := hk
    · exact .inl ⟨_, .of_raise hv ⟨rfl, hhdr⟩ hhdr.posFits nofun⟩
    · exact .inl ⟨_, .of_raise hv (.inr ⟨rfl, hhdr⟩) hhdr.posFits nofun⟩
    · exact .inl ⟨_, .of_raise hv (.inr (.inr ⟨rfl, .inr hhdr⟩)) hhdr.posFits nofun⟩
  · have hcap := Config.cap_le
    obtain ⟨hdecHdr, hdecPm, hdecFooter⟩ :=
      msgCommit_decoded (mic := mic) _ hmx hsx (pay_length_lt hg) (by omega) v v.ilen.toNat rfl
    exact .inr {
      status := rfl
      wholeInput := fun _ => (State.succeedAt_toNat_pos ..).trans (congrArg State.ilen hv :)
      mxFits := fun _ => hdecHdr.mxlen_le hfits
      pmFits := fun _ => hdecPm.lengths_le hg
      micFits := fun _ => (State.miclen_of_micBytes hdecFooter.bytes).trans_le hmic }

theorem execDecMsg_ends (h : execDecMsg s = .next t) : Ends .decMsg s t := by
  obtain ⟨hlong, -⟩ | ⟨-, e, he, hx⟩ | ⟨hlen, f, rest, hin, hv, hmx, -, -, -, -, hstages⟩ :=
    execDecMsg_cases s
  · exact ends_of_refuses (refuses_of_long (by decide) hlong) h
  · cases hx.symm.trans h
    exact .inl ⟨e, .of_hdrParse he (.inr rfl)⟩
  have hhdr : s.HeaderOfLength (Wire.header (s.ctrl.getLsbD 0) f).length := ⟨f, rest, hin, hv, rfl⟩
  obtain ⟨-, hx⟩ | ⟨ct, mic, rfl, -, ⟨hsecure, -, hx⟩ | ⟨-, hx⟩⟩ := hstages
  · cases hx.symm.trans h
    exact .inl ⟨_, .of_raise rfl (.inr (.inr ⟨rfl, .inr hhdr⟩)) hhdr.posFits nofun⟩
  · cases hx.symm.trans h
    exact .inl ⟨_, .of_raise (s.verifyCalled_withCryptoOf ..) ⟨rfl, hsecure, hhdr⟩ hhdr.posFits nofun⟩
  · have hmic : mic.length ≤ Config.cap := by
      have := header_fits hin
      rw [List.length_append] at this
      omega
    exact decMsgFinish_ends (s.messageCalls_withCryptoOf ..) hhdr hmx (header_length_le_cap hlen hin) hmic
      (hx.symm.trans h)

/-- Every command ends with OK or with an error of the table (60_exceptions R200). -/
theorem exec_ends {i : Instr} (h : exec i s = .next t) : Ends i s t := by
  cases hi : isCodec i with
  | false => exact ends_of_not_codec hi h
  | true =>
    obtain rfl | rfl | rfl | rfl | rfl | rfl := codec_cases hi
    · exact execEncHdr_ends h
    · exact execDecHdr_ends h
    · exact execEncPm_ends h
    · exact execDecPm_ends h
    · exact execEncMsg_ends h
    · exact execDecMsg_ends h

/-! ### What STATUS says of the end -/

theorem exec_error {i : Instr} (h : exec i s = .next t) (hst : t.status ≠ 0x00#8) :
    ∃ e, EndsWithError i s t e :=
  (exec_ends h).resolve_right fun hok => hst hok.status

theorem exec_ok {i : Instr} (h : exec i s = .next t) (hst : t.status = 0x00#8) : EndsWithOk i s t :=
  (exec_ends h).resolve_left fun ⟨_, he⟩ => he.status_ne_ok hst

/-- The error that STATUS shows (60_exceptions R200). -/
theorem exec_error_of_code {i : Instr} (h : exec i s = .next t) {k : ErrorKind} (hst : t.status = k.code) :
    ∃ p, EndsWithError i s t ⟨k, p⟩ := by
  obtain ⟨⟨k', p⟩, he⟩ := exec_error h (hst ▸ k.code_ne_ok)
  obtain rfl : k' = k := he.kind_eq hst
  exact ⟨p, he⟩

theorem ok_mem_possibleCodes (i : Instr) : 0x00#8 ∈ possibleCodes i := by
  cases i <;> exact List.mem_cons_self

/-- OK is a code of every command, and an error's code is one of the commands that may report it
(60_exceptions R200, R203, R211). -/
theorem Ends.status_possible {i : Instr} (h : Ends i s t) :
    t.status ∈ possibleCodes i ∧ producedCode t.status = true := by
  obtain ⟨e, he⟩ | hok := h
  · rw [he.status_eq]
    exact State.possible_of_reportsAt he.reports
  · rw [hok.status]
    exact ⟨ok_mem_possibleCodes i, by decide⟩

end

/-! ### The obligations -/

/-- Settles O47: an error is raised in the state that the command began in, with at most crypto-port calls made. -/
theorem errorsKeepTheState : Obligations.ErrorsKeepTheState := by
  refine ⟨fun i s t h hst => ?_, fun w e s hw => issue_of_illegal hw s⟩
  obtain ⟨e, he⟩ := exec_error h hst
  obtain ⟨hobs, hcalls, -⟩ := onlyMessageCommandsCall i s t h
  exact ⟨⟨e.kind, e.pos, he.reports, he.frame⟩, ⟨_, hobs⟩, by omega⟩

/-- Settles O48: each of the two ways to end fixes STATUS and POS; a command that is no codec has only OK. -/
theorem statusAndPositionOfCommands : Obligations.StatusAndPositionOfCommands := by
  refine ⟨fun i s t h => ?_, fun w e s hw => issue_of_illegal hw s⟩
  obtain ⟨hpossible, hproduced⟩ := (exec_ends h).status_possible
  refine ⟨hpossible, hproduced, fun hi => (congrArg State.pos (exec_plain hi h).1 :), fun hst => ?_,
    fun k hst => ?_⟩
  · have hok := exec_ok h hst
    exact ⟨hok.encode, hok.header, hok.wholeInput⟩
  · obtain ⟨p, he⟩ := exec_error_of_code h hst
    exact he.pos_eq ▸ he.reports

/-- Settles O49: a command that refuses raises InvariantViolation(0), and no other error has that kind. -/
theorem invariantViolationExactly : Obligations.InvariantViolationExactly := by
  intro i s t h
  have hrefuses (hst : t.status = 0x08#8) : s.Refuses i := by
    obtain ⟨p, he⟩ := exec_error_of_code (k := .invariantViolation) h hst
    exact he.refused rfl
  have hraised (hr : s.Refuses i) : t = s.raise ⟨.invariantViolation, 0⟩ := by
    cases (exec_of_refuses hr).symm.trans h
    rfl
  refine ⟨⟨hrefuses, fun hr => hraised hr ▸ rfl⟩, fun hst => hraised (hrefuses hst), fun hst => ?_⟩
  have hok := exec_ok h hst
  exact ⟨hok.mxFits, hok.pmFits, hok.micFits⟩

end Sys2Proof.Machine
end

section
/-! PROOFS. The state after reset and the reset event (70_reset_and_hazards R230, R231): what the reset registers hold
and encode to, and that a reset, also one in the middle of a command, leaves nothing else behind. -/

namespace Sys2Proof.Machine

/-! ### The idle block -/

/-- Settles O9: a step takes its event from the queue, and an empty queue has none. -/
theorem idleBlockDoesNothing : Obligations.IdleBlockDoesNothing := fun _ => step_of_no_event

/-! ### The state after reset -/

/-- Settles O51: the invariant holds after every reset event, and speaks of nothing in which `State.reset` differs from
the state after one. -/
theorem invariantAtReset : Obligations.InvariantAtReset :=
  (State.Inv.applyReset State.reset).congr rfl rfl rfl rfl fun _ => rfl

@[simp] theorem State.reset_buf (b : BufId) : State.reset.buf b = [] := by
  cases b <;> rfl

theorem State.reset_readByte (b : BufId) (a : Nat) :
    State.reset.readByte b a = Config.initialByte 0 b.id a :=
  State.readByte_of_unwritten (by rw [State.reset_buf, Memory.get?])

/-- No flag asks for a field, no tag announces one, and every length is 0 (42_header_codec R143). -/
theorem State.reset_headerConsistent : State.reset.HeaderConsistent :=
  ⟨rfl, rfl, rfl, rfl, fun _ => Nat.zero_le _⟩

/-- The same for the Protocol Message (43_protocol_message_codec R162). -/
theorem State.reset_pmConsistent : State.reset.PmConsistent :=
  ⟨rfl, rfl, rfl, fun _ => Nat.zero_le _, Nat.zero_le _⟩

/-- SECURE is clear, so the footer is empty whatever MICSZ says (44_message_assembly R179). -/
theorem State.reset_footerConsistent : State.reset.FooterConsistent :=
  ⟨rfl, Nat.zero_le _⟩

/-- Only the eight bytes that every header has (30_encoding R61). -/
theorem State.reset_wireHeader : State.reset.wireHeader = List.replicate 8 0#8 := by decide

/-- Only the six bytes that every Protocol Message has (30_encoding R68). -/
theorem State.reset_wirePm : State.reset.wirePm = List.replicate 6 0#8 := by decide

/-- Bytes that fit are what an encode answers with, OLEN being a register of 16 bits (42_header_codec R142). -/
theorem State.emit_ok {s : State} {out : Bytes} (h : out.length ≤ Config.cap) :
    (s.emit out).status = 0x00#8 ∧ (s.emit out).olen = BitVec.ofNat 16 out.length ∧
      (s.emit out).memRead .obuf 0 out.length = out := by
  obtain ⟨hread, holen, -, hstatus, -⟩ := State.emit_spec (s := s) h
  exact ⟨hstatus, BitVec.eq_of_toNat_eq (holen.trans (toNat_ofNat_of_le_cap h).symm), hread⟩

/-- A few bytes fit in a buffer of any capacity (00_scope R6). -/
theorem replicate_length_le_cap {n : Nat} (h : n ≤ 64) : (List.replicate n 0#8).length ≤ Config.cap := by
  rw [List.length_replicate]
  exact h.trans Config.cap_ge

/-- Settles O15: the registers are those of `State.reset`, whose flags ask for no optional field, so that each encode
emits its fixed fields alone. -/
theorem stateAfterReset : Obligations.StateAfterReset := by
  refine ⟨by and_intros <;> rfl, State.reset_readByte, State.reset_headerConsistent, State.reset_pmConsistent,
    State.reset_footerConsistent, ⟨_, execEncHdr_of_consistent State.reset_headerConsistent, ?_⟩,
    ⟨_, execEncPm_of_consistent State.reset_pmConsistent, ?_⟩⟩
  · rw [State.reset_wireHeader]
    exact State.emit_ok (replicate_length_le_cap (by decide))
  · rw [State.reset_wirePm]
    exact State.emit_ok (replicate_length_le_cap (by decide))

/-! ### The reset event -/

@[simp] theorem State.applyReset_buf (s : State) (b : BufId) : s.applyReset.buf b = [] := by
  cases b <;> rfl

/-- No byte is written after a reset, and a new epoch has begun (70_reset_and_hazards R231). -/
theorem State.applyReset_readByte (s : State) (b : BufId) (a : Nat) :
    s.applyReset.readByte b a = Config.initialByte (s.epoch + 1) b.id a :=
  State.readByte_of_unwritten (by rw [State.applyReset_buf, Memory.get?])

/-- An abandoned command leaves what a reset between commands leaves, but for the collaborator's side
(70_reset_and_hazards R230). -/
theorem State.abandon_withCryptoOf (s : State) (w k : Nat) : (s.abandon w k).withCryptoOf s = s.applyReset := by
  unfold State.abandon
  split <;> rfl

/-- Of the calls that the command would have made, the first `k` stay in the record (70_reset_and_hazards R230). -/
theorem State.abandon_obs {s t : State} {w : CommandWord} (h : issue w s = .next t) (k : Nat) :
    (s.abandon w.toNat k).obs = s.obs ++ (newObservations s t).take k := by
  unfold State.abandon
  rw [BitVec.ofNat_toNat, BitVec.setWidth_eq, h]

/-- Settles O14: a reset is `State.applyReset`, in which no buffer byte is written, and one in the middle of a command
adds to it the calls made by then. -/
theorem resetEvent : Obligations.ResetEvent := by
  refine fun s => ⟨rfl, fun w k t h => ?_, fun b a t h => ?_⟩
  · exact ⟨s.abandon w.toNat k, rfl, s.abandon_withCryptoOf w.toNat k, State.abandon_obs h k⟩
  · cases h
    exact s.applyReset_readByte b a

end Sys2Proof.Machine
end
